-- ==== Sys2Proof/Word.lean ====
section
/-! DEFINITION. The words of the libnrf24l01 core block: bytes, register addresses and pipe numbers. -/

namespace Sys2Proof

/-- A byte: 8 bits, bit 7 the most significant (00_scope.md section 5). -/
abbrev Byte := BitVec 8

/-- A peer register address: 5 bits (20_memory.md R61). -/
abbrev Reg := BitVec 5

/-- A pipe number as a 3-bit field; 0 to 5 name pipes (30_encoding.md R113). -/
abbrev Pipe := BitVec 3

end Sys2Proof
end

