-- ==== Sys2Proof/Config.lean ====
section
/-! DEFINITION. The configuration record `cfg` (00_scope.md R4): the values the source fixes, as constants;
the values it leaves to the implementation, as fields; and the free values of the model. The default values stand in
Machine/Defaults.lean. -/

namespace Sys2Proof

/-- `MAX_PAYLOAD`: the largest payload length in bytes (00_scope.md R4). -/
abbrev maxPayload : Nat := 32

/-- `N_PIPES`: pipes are numbered 0 to 5 (00_scope.md R4). -/
abbrev nPipes : Nat := 6

/-- `FILL`: the byte sent in the data positions of a read-style frame (00_scope.md R4, 30_encoding.md R107). -/
def fill : Byte := 0xFF

/-- The match and the mask of a wire command (30_encoding.md R106): an opcode byte is the command when its bits under the mask
are the match. -/
structure OpPattern where
  /-- The column "match". -/
  value : Byte
  mask : Byte
  deriving DecidableEq, Repr

/-- The command codes, register addresses and bit positions (30_encoding.md R106; 10_state.md R35 to R48 and its opening: "every
address and bit position in Part B [...] is a field of the configuration"). Of a wire command the base (`opc`) and the match and
mask (`pat`) are fields of their own (30_encoding.md R106). `REG_RX_ADDR_P(n)` is `REG_RX_ADDR_P0 + n` (R35),
so only the first is a field. No rule reads the fields of OBSERVE_TX, the interrupt-pin masks of CONFIG, CONT_WAVE and
PLL_LOCK. -/
structure Codes where
  opcRRegister : Byte
  opcWRegister : Byte
  opcRRxPlWid : Byte
  opcRRxPayload : Byte
  opcWTxPayload : Byte
  opcWAckPayload : Byte
  opcWTxPayloadNoack : Byte
  opcFlushTx : Byte
  opcFlushRx : Byte
  opcReuseTxPl : Byte
  opcNop : Byte
  patRRegister : OpPattern
  patWRegister : OpPattern
  patRRxPlWid : OpPattern
  patRRxPayload : OpPattern
  patWTxPayload : OpPattern
  patWAckPayload : OpPattern
  patWTxPayloadNoack : OpPattern
  patFlushTx : OpPattern
  patFlushRx : OpPattern
  patReuseTxPl : OpPattern
  patNop : OpPattern
  regConfig : Reg
  regEnAa : Reg
  regEnRxaddr : Reg
  regSetupRetr : Reg
  regRfCh : Reg
  regRfSetup : Reg
  regStatus : Reg
  regObserveTx : Reg
  regRxAddrP0 : Reg
  regTxAddr : Reg
  regDynpd : Reg
  regFeature : Reg
  mRxDr : Byte
  mTxDs : Byte
  mMaxRt : Byte
  mRxPNo : Byte
  mTxFull : Byte
  mEnCrc : Byte
  mCrco : Byte
  mPwrUp : Byte
  mPrimRx : Byte
  /-- MASK_RX_DR of CONFIG (10_state.md R37). -/
  mMaskRxDr : Byte
  /-- MASK_TX_DS of CONFIG. -/
  mMaskTxDs : Byte
  /-- MASK_MAX_RT of CONFIG. -/
  mMaskMaxRt : Byte
  /-- The bit of each pipe in EN_AA (10_state.md R38). -/
  mEnAaP : Vector Byte 6
  /-- The bit of each pipe in EN_RXADDR (10_state.md R39). -/
  mEnRxaddrP : Vector Byte 6
  /-- ARC, the retry count of SETUP_RETR (10_state.md R40). -/
  mArc : Byte
  /-- ARD, the retry delay of SETUP_RETR. -/
  mArd : Byte
  /-- The channel of RF_CH (10_state.md R41). -/
  mRfCh : Byte
  mRfDrLow : Byte
  mRfDrHigh : Byte
  mRfPwr : Byte
  /-- CONT_WAVE of RF_SETUP (10_state.md R42). -/
  mContWave : Byte
  /-- PLL_LOCK of RF_SETUP. -/
  mPllLock : Byte
  /-- PLOS_CNT, the lost packets of OBSERVE_TX (10_state.md R43). -/
  mPlosCnt : Byte
  /-- ARC_CNT, the retransmissions of OBSERVE_TX. -/
  mArcCnt : Byte
  /-- The bit of each pipe in DYNPD (10_state.md R47). -/
  mDynpdP : Vector Byte 6
  mEnDpl : Byte
  mEnAckPay : Byte
  mEnDynAck : Byte
  deriving DecidableEq, Repr

/-- `cfg`: what a model takes as its argument (00_scope.md R4). `rxqCap`, `txqCap` and `cbW` are OPEN there. -/
structure Config where
  codes : Codes
  /-- `T_RX_SETTLE_US`, the argument of the delay of ENTER_RX (70_reset_and_hazards.md R326). -/
  tRxSettle : Nat
  /-- `T_TX_SETTLE_US`, the argument of the delay of ENTER_TX. -/
  tTxSettle : Nat
  /-- `FIFO_DEPTH` of the reference peer (10_state.md R50). -/
  fifoDepth : Nat
  /-- `RXQ_CAP`, capacity of the software RX queue. -/
  rxqCap : Nat
  /-- `TXQ_CAP`, capacity of the software TX queue. -/
  txqCap : Nat
  /-- `CB_W`, the width of a callback function token and of a context token. -/
  cbW : Nat
  deriving DecidableEq, Repr

/-- FREE VALUE: a byte the peer drives that the spec leaves open ("any value", 93_implementation_defined.md U1 to U5,
G9, and every byte of an L0 peer), at a position of an exchange; applied to the counter `env.ctr` (log 8). -/
opaque freeByte : Nat → Nat → Byte

/-- FREE VALUE: a number the spec leaves open in the peer's state (93_implementation_defined.md U1, U2, U4, U5,
G9: "peer state unconstrained at L1"), applied to the counter `env.ctr` (log 9). -/
opaque freeNat : Nat → Nat → Nat

end Sys2Proof
end

