-- ==== Sys2Proof/Machine/Defaults.lean ====
section
/-! DEFINITION. The default values of `cfg` (00_scope.md R4; 30_encoding.md R106; 10_state.md R35 to R48) and the
power-on values of the reference peer (10_state.md R55). PRESUMED where the spec marks them from general knowledge
(log 4, log 7). -/

namespace Sys2Proof

/-- The default codes: 30_encoding.md R106 (column base), 10_state.md R35 (addresses), R36 to R43, R47, R48 (masks). -/
def Codes.standard : Codes where
  opcRRegister := 0x00
  opcWRegister := 0x20
  opcRRxPlWid := 0x60
  opcRRxPayload := 0x61
  opcWTxPayload := 0xA0
  opcWAckPayload := 0xA8
  opcWTxPayloadNoack := 0xB0
  opcFlushTx := 0xE1
  opcFlushRx := 0xE2
  opcReuseTxPl := 0xE3
  opcNop := 0xFF
  patRRegister := ⟨0x00, 0xE0⟩
  patWRegister := ⟨0x20, 0xE0⟩
  patRRxPlWid := ⟨0x60, 0xFF⟩
  patRRxPayload := ⟨0x61, 0xFF⟩
  patWTxPayload := ⟨0xA0, 0xFF⟩
  patWAckPayload := ⟨0xA8, 0xF8⟩
  patWTxPayloadNoack := ⟨0xB0, 0xFF⟩
  patFlushTx := ⟨0xE1, 0xFF⟩
  patFlushRx := ⟨0xE2, 0xFF⟩
  patReuseTxPl := ⟨0xE3, 0xFF⟩
  patNop := ⟨0xFF, 0xFF⟩
  regConfig := 0x00
  regEnAa := 0x01
  regEnRxaddr := 0x02
  regSetupRetr := 0x04
  regRfCh := 0x05
  regRfSetup := 0x06
  regStatus := 0x07
  regObserveTx := 0x08
  regRxAddrP0 := 0x0A
  regTxAddr := 0x10
  regDynpd := 0x1C
  regFeature := 0x1D
  mRxDr := 0x40
  mTxDs := 0x20
  mMaxRt := 0x10
  mRxPNo := 0x0E
  mTxFull := 0x01
  mEnCrc := 0x08
  mCrco := 0x04
  mPwrUp := 0x02
  mPrimRx := 0x01
  mMaskRxDr := 0x40
  mMaskTxDs := 0x20
  mMaskMaxRt := 0x10
  mEnAaP := #v[0x01, 0x02, 0x04, 0x08, 0x10, 0x20]
  mEnRxaddrP := #v[0x01, 0x02, 0x04, 0x08, 0x10, 0x20]
  mArc := 0x0F
  mArd := 0xF0
  mRfCh := 0x7F
  mRfDrLow := 0x20
  mRfDrHigh := 0x08
  mRfPwr := 0x06
  mContWave := 0x80
  mPllLock := 0x10
  mPlosCnt := 0xF0
  mArcCnt := 0x0F
  mDynpdP := #v[0x01, 0x02, 0x04, 0x08, 0x10, 0x20]
  mEnDpl := 0x04
  mEnAckPay := 0x02
  mEnDynAck := 0x01

/-- The configuration of `State.reset`: the defaults of 00_scope.md R4; the OPEN `RXQ_CAP`, `TXQ_CAP` and `CB_W` are
DESIGN CHOICES (log 5): 4 and 4 (the value 95_test_vectors.md runs with) and 32. -/
def Config.standard : Config where
  codes := Codes.standard
  tRxSettle := 130
  tTxSettle := 130
  fifoDepth := 3
  rxqCap := 4
  txqCap := 4
  cbW := 32

/-- `REG_RX_ADDR_P(n)`, that is `REG_RX_ADDR_P0 + n` (10_state.md R35; 30_encoding.md R116). DESIGN CHOICE (log 28): a `cfg`
with `REG_RX_ADDR_P0` above 0x1A, which R116 does not speak of, is admitted, and the sum is taken in 5 bits. -/
def Codes.regRxAddr (c : Codes) (n : Nat) : Reg := c.regRxAddrP0 + BitVec.ofNat 5 n

/-- The width of a peer register in bytes: 5 for RX_ADDR_P0, RX_ADDR_P1 and TX_ADDR, else 1 (10_state.md R34, R35). -/
def Codes.regWidth (c : Codes) (a : Reg) : Nat :=
  if a = c.regRxAddr 0 ∨ a = c.regRxAddr 1 ∨ a = c.regTxAddr then 5 else 1

/-- The registers the spec names (10_state.md R35); the others hold "any value" (R49). -/
def Codes.namedReg (c : Codes) (a : Reg) : Bool :=
  [c.regConfig, c.regEnAa, c.regEnRxaddr, c.regSetupRetr, c.regRfCh, c.regRfSetup, c.regStatus, c.regObserveTx,
    c.regRxAddr 0, c.regRxAddr 1, c.regRxAddr 2, c.regRxAddr 3, c.regRxAddr 4, c.regRxAddr 5, c.regTxAddr,
    c.regDynpd, c.regFeature].contains a

/-- The power-on value of every byte of the peer register of address `a` (10_state.md R55; 20_memory.md R81: 0x00 at
every address not listed). PRESUMED (log 7). -/
def Codes.powerOnByte (c : Codes) (a : Reg) : Byte :=
  if a = c.regConfig then 0x08
  else if a = c.regEnAa then 0x3F
  else if a = c.regEnRxaddr then 0x03
  else if a = c.regSetupRetr then 0x03
  else if a = c.regRfCh then 0x02
  else if a = c.regRfSetup then 0x0E
  else if a = c.regRxAddr 0 then 0xE7
  else if a = c.regRxAddr 1 then 0xC2
  else if a = c.regRxAddr 2 then 0xC3
  else if a = c.regRxAddr 3 then 0xC4
  else if a = c.regRxAddr 4 then 0xC5
  else if a = c.regRxAddr 5 then 0xC6
  else if a = c.regTxAddr then 0xE7
  else 0x00

end Sys2Proof
end

