-- ==== Sys2Proof/Syntax.lean ====
section
/-! DEFINITION. The instructions: 11 wire commands and 46 host operations, one constructor per row of
spec/opcode_table.json, with the operand types of 30_encoding.md R106 and R113. -/

namespace Sys2Proof

/-- `CrcMode` (30_encoding.md R113): Disabled = 0, Crc1 = 1, Crc2 = 2. -/
inductive CrcMode where
  | disabled
  | crc1
  | crc2
  deriving DecidableEq, Repr

/-- `DataRate` (30_encoding.md R113): R1M = 0, R2M = 1, R250K = 2. -/
inductive DataRate where
  | r1M
  | r2M
  | r250K
  deriving DecidableEq, Repr

/-- `Power` (30_encoding.md R113): P0 = 0 (0 dBm), PM6 = 1 (-6 dBm), PM12 = 2 (-12 dBm), PM18 = 3 (-18 dBm). -/
inductive Power where
  | p0
  | pm6
  | pm12
  | pm18
  deriving DecidableEq, Repr

/-- A Datagram (10_state.md R26): a 3-bit pipe field and exactly `length` bytes. -/
structure Datagram where
  pipe : Pipe
  bytes : List Byte
  deriving DecidableEq, Repr

/-- The `length` field of a Datagram, the length of its list (10_state.md R26, log 26). -/
abbrev Datagram.length (d : Datagram) : Nat := d.bytes.length

/-- A callback registration: a function token and an opaque context token, each `CB_W` bits (10_state.md R29). -/
structure Callback where
  fn : Nat
  ctx : Nat
  deriving DecidableEq, Repr

/-- The instructions. A `List Byte` operand is `bytes(n)`, a `Nat` operand is `n`; both are bounded by
`Instr.wf` (30_encoding.md R113). -/
inductive Instr where
  -- wire commands (30_encoding.md R106): one bus transaction each
  | rRegister (a : Reg) (n : Nat)
  | wRegister (a : Reg) (bs : List Byte)
  | rRxPlWid
  | rRxPayload (n : Nat)
  | wTxPayload (bs : List Byte)
  | wAckPayload (p : Pipe) (bs : List Byte)
  | wTxPayloadNoack (bs : List Byte)
  | flushTx
  | flushRx
  | reuseTxPl
  | nop
  -- RegisterProtocol operations
  | rpReadRegister (a : Reg) (n : Nat)
  | rpWriteRegister (a : Reg) (bs : List Byte)
  | rpReadPayload (n : Nat)
  | rpWritePayload (bs : List Byte)
  | rpFlushRx
  | rpFlushTx
  | rpReuseTxPl
  | rpReadPayloadWidth
  | rpWriteAckPayload (p : Pipe) (bs : List Byte)
  | rpWriteNoackPayload (bs : List Byte)
  | rpNop
  -- mode control
  | enterShutdown
  | enterStandby
  | enterRx
  | enterTx
  | startListening (p : Pipe)
  | stopListening (p : Pipe)
  -- configuration access
  | getCrc
  | setCrc (m : CrcMode)
  | getChannel
  | setChannel (c : Byte)
  | getDataRate
  | setDataRate (r : DataRate)
  | getOutputPower
  | setOutputPower (w : Power)
  | getRetryCount
  | setRetryCount (c : Byte)
  | getRetryDelay
  | setRetryDelay (d : Byte)
  | getRxBaseAddress (p : Pipe)
  | setRxBaseAddress (p : Pipe) (base : BitVec 32)
  | getRxAddress (p : Pipe)
  | setRxAddress (p : Pipe) (addr : BitVec 40)
  | getTxAddress
  | setTxAddress (addr : BitVec 40)
  | getDynPayload (p : Pipe)
  | setDynPayload (p : Pipe) (e : Bool)
  | getAutoAck (p : Pipe)
  | setAutoAck (p : Pipe) (e : Bool)
  | getPipeEnable (p : Pipe)
  | setPipeEnable (p : Pipe) (e : Bool)
  -- event loop
  | init
  | poll
  | enqueueData (dg : Datagram)
  | setRxCallback (cb : Option Callback)
  | setTxCallback (cb : Option Callback)
  deriving DecidableEq, Repr

/-- The two instruction sets of the table: what the block sends to the chip, and what the host asks of the block. -/
inductive Port where
  | wire
  | host
  deriving DecidableEq, Repr

end Sys2Proof
end

