-- ==== Sys2Proof/WellFormed.lean ====
section
/-! DEFINITION. Which instructions can be expressed at a port (30_encoding.md R113, R119): lengths of 0 to 32,
callback tokens of `CB_W` bits. A `pipe` of 6 or 7 is expressible and refused by the operation's own rule. -/

namespace Sys2Proof

/-- A length operand: 0 to 32 (30_encoding.md R113, 40_register_protocol.md R146). -/
def lenOk (n : Nat) : Bool := n ≤ maxPayload

/-- A token fits in `CB_W` bits (10_state.md R29). -/
def Callback.wf (c : Config) (cb : Callback) : Bool := cb.fn < 2 ^ c.cbW && cb.ctx < 2 ^ c.cbW

/-- "length never exceeds 32" (10_state.md R26). -/
def Datagram.wf (d : Datagram) : Bool := lenOk d.length

/-- A `cb` operand: `none`, or a pair of tokens that fit (30_encoding.md R113). -/
def callbackOperandOk (c : Config) : Option Callback → Bool
  | none => true
  | some cb => cb.wf c

/-- Every operand lies in the set 30_encoding.md R113 (host) or R106 (wire) gives it. -/
def Instr.wf (c : Config) : Instr → Bool
  | .rRegister _ n => lenOk n
  | .wRegister _ bs => lenOk bs.length
  | .rRxPlWid => true
  | .rRxPayload n => lenOk n
  | .wTxPayload bs => lenOk bs.length
  | .wAckPayload _ bs => lenOk bs.length
  | .wTxPayloadNoack bs => lenOk bs.length
  | .flushTx => true
  | .flushRx => true
  | .reuseTxPl => true
  | .nop => true
  | .rpReadRegister _ n => lenOk n
  | .rpWriteRegister _ bs => lenOk bs.length
  | .rpReadPayload n => lenOk n
  | .rpWritePayload bs => lenOk bs.length
  | .rpFlushRx => true
  | .rpFlushTx => true
  | .rpReuseTxPl => true
  | .rpReadPayloadWidth => true
  | .rpWriteAckPayload _ bs => lenOk bs.length
  | .rpWriteNoackPayload bs => lenOk bs.length
  | .rpNop => true
  | .enterShutdown => true
  | .enterStandby => true
  | .enterRx => true
  | .enterTx => true
  | .startListening _ => true
  | .stopListening _ => true
  | .getCrc => true
  | .setCrc _ => true
  | .getChannel => true
  | .setChannel _ => true
  | .getDataRate => true
  | .setDataRate _ => true
  | .getOutputPower => true
  | .setOutputPower _ => true
  | .getRetryCount => true
  | .setRetryCount _ => true
  | .getRetryDelay => true
  | .setRetryDelay _ => true
  | .getRxBaseAddress _ => true
  | .setRxBaseAddress _ _ => true
  | .getRxAddress _ => true
  | .setRxAddress _ _ => true
  | .getTxAddress => true
  | .setTxAddress _ => true
  | .getDynPayload _ => true
  | .setDynPayload _ _ => true
  | .getAutoAck _ => true
  | .setAutoAck _ _ => true
  | .getPipeEnable _ => true
  | .setPipeEnable _ _ => true
  | .init => true
  | .poll => true
  | .enqueueData dg => dg.wf
  | .setRxCallback cb => callbackOperandOk c cb
  | .setTxCallback cb => callbackOperandOk c cb

end Sys2Proof
end

