-- ==== Sys2Proof/Decode.lean ====
section
/-! DEFINITION. Decoding and encoding. Part A: frames (30_encoding.md R100 to R110) and the check of the configuration
(00_scope.md R5). Part B: host operations (R112, R113, R119, R120), whose operands the spec packs into no word: the
byte layout of the operands is the model's own (log 2). -/

namespace Sys2Proof

/-- A command of 30_encoding.md R106, as the opcode byte alone tells it (R101). -/
inductive WireCmd where
  | rRegister (a : Reg)
  | wRegister (a : Reg)
  | rRxPlWid
  | rRxPayload
  | wTxPayload
  | wAckPayload (p : Pipe)
  | wTxPayloadNoack
  | flushTx
  | flushRx
  | reuseTxPl
  | nop
  deriving DecidableEq, Repr

/-- Why bytes are no instruction. -/
inductive DecodeError where
  /-- host port: an operation number not in the table (30_encoding.md R113). -/
  | noOperation (hop : Byte)
  /-- host port: an operand outside its set (30_encoding.md R119). -/
  | badOperand
  /-- host port: the operand list is not complete. -/
  | truncated
  /-- wire port: an opcode byte that matches no row (30_encoding.md R110). -/
  | noCommand (op : Byte)
  /-- wire port: an empty frame, or a number of data bytes the command does not have (30_encoding.md R106, column N). -/
  | badLength
  deriving DecidableEq, Repr

/-! ### Part A. Frames -/

/-- One row of 30_encoding.md R106: the base, the bits of the operand in its layout (R103 to R105), the match and mask, and the
command with its operand. -/
structure WireRow where
  base : Byte
  operand : Byte
  pat : OpPattern
  cmd : Byte → WireCmd

/-- The eleven wire commands (30_encoding.md R106). -/
def Codes.wireTable (c : Codes) : List WireRow :=
  [ ⟨c.opcRRegister, 0x1F, c.patRRegister, fun b => .rRegister (b.setWidth 5)⟩,
    ⟨c.opcWRegister, 0x1F, c.patWRegister, fun b => .wRegister (b.setWidth 5)⟩,
    ⟨c.opcRRxPlWid, 0x00, c.patRRxPlWid, fun _ => .rRxPlWid⟩,
    ⟨c.opcRRxPayload, 0x00, c.patRRxPayload, fun _ => .rRxPayload⟩,
    ⟨c.opcWTxPayload, 0x00, c.patWTxPayload, fun _ => .wTxPayload⟩,
    ⟨c.opcWAckPayload, 0x07, c.patWAckPayload, fun b => .wAckPayload (b.setWidth 3)⟩,
    ⟨c.opcWTxPayloadNoack, 0x00, c.patWTxPayloadNoack, fun _ => .wTxPayloadNoack⟩,
    ⟨c.opcFlushTx, 0x00, c.patFlushTx, fun _ => .flushTx⟩,
    ⟨c.opcFlushRx, 0x00, c.patFlushRx, fun _ => .flushRx⟩,
    ⟨c.opcReuseTxPl, 0x00, c.patReuseTxPl, fun _ => .reuseTxPl⟩,
    ⟨c.opcNop, 0x00, c.patNop, fun _ => .nop⟩ ]

/-- "An opcode byte `b` is command X exactly when `b & mask(X) = match(X)`" (30_encoding.md R106). -/
def WireRow.hits (r : WireRow) (b : Byte) : Bool := b &&& r.pat.mask == r.pat.value

/-- The command of an opcode byte, or none where no row matches (30_encoding.md R106, R110). -/
def Codes.wireLookup (c : Codes) (b : Byte) : Option WireCmd :=
  (c.wireTable.find? (·.hits b)).map (·.cmd b)

/-- Opcode of a register command: base code OR the address (30_encoding.md R102, layout A5). -/
def opWithReg (base : Byte) (a : Reg) : Byte := base ||| a.setWidth 8

/-- Opcode of the acknowledge-payload write: base code OR the pipe (30_encoding.md R102, layout P3). -/
def opWithPipe (base : Byte) (p : Pipe) : Byte := base ||| p.setWidth 8

/-- The opcode byte of a command (30_encoding.md R102). -/
def Codes.opcodeOf (c : Codes) : WireCmd → Byte
  | .rRegister a => opWithReg c.opcRRegister a
  | .wRegister a => opWithReg c.opcWRegister a
  | .rRxPlWid => c.opcRRxPlWid
  | .rRxPayload => c.opcRRxPayload
  | .wTxPayload => c.opcWTxPayload
  | .wAckPayload p => opWithPipe c.opcWAckPayload p
  | .wTxPayloadNoack => c.opcWTxPayloadNoack
  | .flushTx => c.opcFlushTx
  | .flushRx => c.opcFlushRx
  | .reuseTxPl => c.opcReuseTxPl
  | .nop => c.opcNop

/-- Two rows of the table share an opcode byte. -/
def WireRow.overlaps (r q : WireRow) : Bool := (r.pat.value ^^^ q.pat.value) &&& (r.pat.mask &&& q.pat.mask) == 0

/-- The base has zeros where the operand goes, and its pattern matches it with any operand there (00_scope.md R5;
30_encoding.md R102, R106). -/
def WireRow.ok (r : WireRow) : Bool :=
  r.base &&& r.operand == 0 && r.pat.mask &&& r.operand == 0 && r.base &&& r.pat.mask == r.pat.value

/-- No row matches a byte that an earlier one matches. -/
def disjointRows : List WireRow → Bool
  | [] => true
  | r :: rs => rs.all (fun q => !r.overlaps q) && disjointRows rs

/-- Exactly one bit of the byte is 1. -/
def singleBit (m : Byte) : Bool := m != 0 && m &&& (m - 1) == 0

/-- The bytes share no bit. -/
def disjointMasks : List Byte → Bool
  | [] => true
  | m :: ms => ms.all (fun q => m &&& q == 0) && disjointMasks ms

/-- The number of zeros below the lowest 1 of a mask: where its field begins. -/
def maskLow (m : Byte) : Nat := ((List.range 8).find? (fun i => m.getLsbD i)).getD 0

/-- What `cfg` must satisfy: 00_scope.md R5 and the constraints of R4 on the OPEN parameters. The model's own conditions beside
them stand in log 24, among them how "decode without overlap under their masks" is read and that TX_FULL lies outside RX_P_NO,
which R5 does not say. A field's mask other than those of STATUS is admitted at any width (DESIGN CHOICE, log 30), with gaps, and
sharing bits with the mask of another field of its register or of another pipe; so is a FIFO depth of 0 (DESIGN CHOICE, log
31). -/
def Config.ok (c : Config) : Bool :=
  disjointRows c.codes.wireTable
    && c.codes.wireTable.all (·.ok)
    && [c.codes.mRxDr, c.codes.mTxDs, c.codes.mMaxRt, c.codes.mTxFull].all singleBit
    && disjointMasks [c.codes.mRxDr, c.codes.mTxDs, c.codes.mMaxRt, c.codes.mTxFull, c.codes.mRxPNo]
    && c.codes.mRxPNo >>> maskLow c.codes.mRxPNo == 7
    && 1 ≤ c.rxqCap && 1 ≤ c.txqCap

/-- The instruction of a command with its data bytes; a read-style frame carries only their number (R64: what is sent
there "has no effect on the peer"). -/
def frameInstr (cmd : WireCmd) (d : List Byte) : Except DecodeError Instr :=
  if !lenOk d.length then .error .badLength else
  match cmd with
  | .rRegister a => .ok (.rRegister a d.length)
  | .wRegister a => .ok (.wRegister a d)
  | .rRxPlWid => if d.length = 1 then .ok .rRxPlWid else .error .badLength
  | .rRxPayload => .ok (.rRxPayload d.length)
  | .wTxPayload => .ok (.wTxPayload d)
  | .wAckPayload p => .ok (.wAckPayload p d)
  | .wTxPayloadNoack => .ok (.wTxPayloadNoack d)
  | .flushTx => if d.length = 0 then .ok .flushTx else .error .badLength
  | .flushRx => if d.length = 0 then .ok .flushRx else .error .badLength
  | .reuseTxPl => if d.length = 0 then .ok .reuseTxPl else .error .badLength
  | .nop => if d.length = 0 then .ok .nop else .error .badLength

/-- Decode a whole frame; its end is the end of the list (30_encoding.md R101). -/
def decodeFrame (c : Codes) : List Byte → Except DecodeError Instr
  | [] => .error .badLength
  | op :: d =>
    match c.wireLookup op with
    | none => .error (.noCommand op)
    | some cmd => frameInstr cmd d

/-! ### Part B. Host operations -/

/-- Reading a request from the front of a list of bytes. -/
abbrev Rd := EStateM DecodeError (List Byte)

/-- One byte. -/
def readByte : Rd Byte
  | [] => .error .truncated []
  | b :: rest => .ok b rest

/-- `n` bytes in order. -/
def readBytes : Nat → Rd (List Byte)
  | 0 => return []
  | n + 1 => do
    let b ← readByte
    let bs ← readBytes n
    return b :: bs

/-- A length: one byte; above 32 it is refused (30_encoding.md R119 b). -/
def readLen : Rd Nat := do
  let b ← readByte
  if lenOk b.toNat then return b.toNat else throw .badOperand

/-- `bytes(n)`: the length, then the bytes. -/
def readCounted : Rd (List Byte) := do
  let n ← readLen
  readBytes n

/-- `reg5`: one byte, masked to its low 5 bits (30_encoding.md R120). -/
def readReg : Rd Reg := do
  let b ← readByte
  return b.setWidth 5

/-- `pipe3`: one byte, masked to its low 3 bits (30_encoding.md R102). -/
def readPipe3 : Rd Pipe := do
  let b ← readByte
  return b.setWidth 3

/-- `pipe`: one byte; 6 and 7 are refused by the operation, a value of more than 3 bits here (30_encoding.md R119 a). -/
def readPipe : Rd Pipe := do
  let b ← readByte
  if b.toNat < 8 then return b.setWidth 3 else throw .badOperand

/-- `bool`: 0 or 1. -/
def readBool : Rd Bool := do
  let b ← readByte
  if b = 0 then return false
  else if b = 1 then return true
  else throw .badOperand

/-- The number of a list of bytes, least significant first. -/
def ofLeBytes : List Byte → Nat
  | [] => 0
  | b :: bs => b.toNat + 256 * ofLeBytes bs

/-- The first `n` bytes of a number, least significant first. -/
def leBytes : Nat → Nat → List Byte
  | 0, _ => []
  | n + 1, v => BitVec.ofNat 8 v :: leBytes n (v / 256)

/-- An unsigned number of `n` bytes. -/
def readNum (n : Nat) : Rd Nat := do
  let bs ← readBytes n
  return ofLeBytes bs

/-- `CrcMode` (30_encoding.md R113); a value outside the set is refused (R119 c). -/
def readCrcMode : Rd CrcMode := do
  let b ← readByte
  if b = 0 then return .disabled
  else if b = 1 then return .crc1
  else if b = 2 then return .crc2
  else throw .badOperand

/-- `DataRate` (30_encoding.md R113); a value outside the set is refused (R119 c). -/
def readDataRate : Rd DataRate := do
  let b ← readByte
  if b = 0 then return .r1M
  else if b = 1 then return .r2M
  else if b = 2 then return .r250K
  else throw .badOperand

/-- `Power` (30_encoding.md R113); a value outside the set is refused (R119 c). -/
def readPower : Rd Power := do
  let b ← readByte
  if b = 0 then return .p0
  else if b = 1 then return .pm6
  else if b = 2 then return .pm12
  else if b = 3 then return .pm18
  else throw .badOperand

/-- The bytes a token of `CB_W` bits takes. -/
def tokenBytes (c : Config) : Nat := (c.cbW + 7) / 8

/-- A token of `CB_W` bits. -/
def readToken (c : Config) : Rd Nat := do
  let v ← readNum (tokenBytes c)
  return v % 2 ^ c.cbW

/-- `cb`: 0 is `none`; 1, then the two tokens, is `some(f, c)` (30_encoding.md R113). -/
def readCallback (c : Config) : Rd (Option Callback) := do
  let present ← readBool
  if present then
    let f ← readToken c
    let x ← readToken c
    return some ⟨f, x⟩
  else return none

/-- `dg`: the pipe, then the bytes with their length. -/
def readDatagram : Rd Datagram := do
  let p ← readPipe
  let bs ← readCounted
  return ⟨p, bs⟩

/-- One row of 30_encoding.md R113: the operation number and the operands. -/
structure HostRow where
  hop : Byte
  operands : Rd Instr

/-- Rows 0x00 to 0x0A of 30_encoding.md R113: RegisterProtocol. -/
def hostRowsRp : List HostRow :=
  [ ⟨0x00, do return .rpReadRegister (← readReg) (← readLen)⟩,
    ⟨0x01, do return .rpWriteRegister (← readReg) (← readCounted)⟩,
    ⟨0x02, do return .rpReadPayload (← readLen)⟩,
    ⟨0x03, do return .rpWritePayload (← readCounted)⟩,
    ⟨0x04, return .rpFlushRx⟩,
    ⟨0x05, return .rpFlushTx⟩,
    ⟨0x06, return .rpReuseTxPl⟩,
    ⟨0x07, return .rpReadPayloadWidth⟩,
    ⟨0x08, do return .rpWriteAckPayload (← readPipe3) (← readCounted)⟩,
    ⟨0x09, do return .rpWriteNoackPayload (← readCounted)⟩,
    ⟨0x0A, return .rpNop⟩ ]

/-- Rows 0x10 to 0x15 of 30_encoding.md R113: mode control. -/
def hostRowsMode : List HostRow :=
  [ ⟨0x10, return .enterShutdown⟩,
    ⟨0x11, return .enterStandby⟩,
    ⟨0x12, return .enterRx⟩,
    ⟨0x13, return .enterTx⟩,
    ⟨0x14, do return .startListening (← readPipe)⟩,
    ⟨0x15, do return .stopListening (← readPipe)⟩ ]

/-- Rows 0x20 to 0x2B of 30_encoding.md R113: the radio's settings. -/
def hostRowsRadio : List HostRow :=
  [ ⟨0x20, return .getCrc⟩,
    ⟨0x21, do return .setCrc (← readCrcMode)⟩,
    ⟨0x22, return .getChannel⟩,
    ⟨0x23, do return .setChannel (← readByte)⟩,
    ⟨0x24, return .getDataRate⟩,
    ⟨0x25, do return .setDataRate (← readDataRate)⟩,
    ⟨0x26, return .getOutputPower⟩,
    ⟨0x27, do return .setOutputPower (← readPower)⟩,
    ⟨0x28, return .getRetryCount⟩,
    ⟨0x29, do return .setRetryCount (← readByte)⟩,
    ⟨0x2A, return .getRetryDelay⟩,
    ⟨0x2B, do return .setRetryDelay (← readByte)⟩ ]

/-- Rows 0x2C to 0x37 of 30_encoding.md R113: addresses and per-pipe bits. -/
def hostRowsPipe : List HostRow :=
  [ ⟨0x2C, do return .getRxBaseAddress (← readPipe)⟩,
    ⟨0x2D, do return .setRxBaseAddress (← readPipe) (BitVec.ofNat 32 (← readNum 4))⟩,
    ⟨0x2E, do return .getRxAddress (← readPipe)⟩,
    ⟨0x2F, do return .setRxAddress (← readPipe) (BitVec.ofNat 40 (← readNum 5))⟩,
    ⟨0x30, return .getTxAddress⟩,
    ⟨0x31, do return .setTxAddress (BitVec.ofNat 40 (← readNum 5))⟩,
    ⟨0x32, do return .getDynPayload (← readPipe)⟩,
    ⟨0x33, do return .setDynPayload (← readPipe) (← readBool)⟩,
    ⟨0x34, do return .getAutoAck (← readPipe)⟩,
    ⟨0x35, do return .setAutoAck (← readPipe) (← readBool)⟩,
    ⟨0x36, do return .getPipeEnable (← readPipe)⟩,
    ⟨0x37, do return .setPipeEnable (← readPipe) (← readBool)⟩ ]

/-- Rows 0x40 to 0x44 of 30_encoding.md R113: the event loop. -/
def hostRowsLoop (c : Config) : List HostRow :=
  [ ⟨0x40, return .init⟩,
    ⟨0x41, return .poll⟩,
    ⟨0x42, do return .enqueueData (← readDatagram)⟩,
    ⟨0x43, do return .setRxCallback (← readCallback c)⟩,
    ⟨0x44, do return .setTxCallback (← readCallback c)⟩ ]

/-- The 46 host operations (30_encoding.md R113). -/
def hostTable (c : Config) : List HostRow :=
  hostRowsRp ++ hostRowsMode ++ hostRowsRadio ++ hostRowsPipe ++ hostRowsLoop c

/-- The row of an operation number. -/
def hostLookup (c : Config) (hop : Byte) : Option HostRow := (hostTable c).find? (·.hop == hop)

/-- Read one host operation. -/
def readHost (c : Config) : Rd Instr := do
  let hop ← readByte
  match hostLookup c hop with
  | none => throw (.noOperation hop)
  | some row => row.operands

/-- THE DECODER: an instruction at a port, with the bytes that follow it. -/
def decode (c : Config) : Port → List Byte → Except DecodeError (Instr × List Byte)
  | .wire, bs => (decodeFrame c.codes bs).map (·, [])
  | .host, bs =>
    match readHost c bs with
    | .ok i rest => .ok (i, rest)
    | .error e _ => .error e

/-! ### The encoder -/

/-- `bytes(n)` of a request. -/
def counted (bs : List Byte) : List Byte := BitVec.ofNat 8 bs.length :: bs

/-- A `bool` of a request. -/
def boolByte (b : Bool) : Byte := if b then 1 else 0

/-- The host-side numbers of 30_encoding.md R113. -/
def CrcMode.number : CrcMode → Byte
  | .disabled => 0
  | .crc1 => 1
  | .crc2 => 2

/-- The host-side numbers of 30_encoding.md R113. -/
def DataRate.number : DataRate → Byte
  | .r1M => 0
  | .r2M => 1
  | .r250K => 2

/-- The host-side numbers of 30_encoding.md R113. -/
def Power.number : Power → Byte
  | .p0 => 0
  | .pm6 => 1
  | .pm12 => 2
  | .pm18 => 3

/-- A `cb` of a request. -/
def callbackBytes (c : Config) : Option Callback → List Byte
  | none => [0]
  | some cb => 1 :: (leBytes (tokenBytes c) cb.fn ++ leBytes (tokenBytes c) cb.ctx)

/-- A `dg` of a request. -/
def datagramBytes (d : Datagram) : List Byte := d.pipe.setWidth 8 :: counted d.bytes

/-- THE ENCODER: the port and the bytes of an instruction. At the wire port they are the frame of 30_encoding.md R100,
at the host port the operation number and the operands. -/
def encode (c : Config) : Instr → Port × List Byte
  | .rRegister a n => (.wire, opWithReg c.codes.opcRRegister a :: List.replicate n fill)
  | .wRegister a bs => (.wire, opWithReg c.codes.opcWRegister a :: bs)
  | .rRxPlWid => (.wire, [c.codes.opcRRxPlWid, fill])
  | .rRxPayload n => (.wire, c.codes.opcRRxPayload :: List.replicate n fill)
  | .wTxPayload bs => (.wire, c.codes.opcWTxPayload :: bs)
  | .wAckPayload p bs => (.wire, opWithPipe c.codes.opcWAckPayload p :: bs)
  | .wTxPayloadNoack bs => (.wire, c.codes.opcWTxPayloadNoack :: bs)
  | .flushTx => (.wire, [c.codes.opcFlushTx])
  | .flushRx => (.wire, [c.codes.opcFlushRx])
  | .reuseTxPl => (.wire, [c.codes.opcReuseTxPl])
  | .nop => (.wire, [c.codes.opcNop])
  | .rpReadRegister a n => (.host, [0x00, a.setWidth 8, BitVec.ofNat 8 n])
  | .rpWriteRegister a bs => (.host, 0x01 :: a.setWidth 8 :: counted bs)
  | .rpReadPayload n => (.host, [0x02, BitVec.ofNat 8 n])
  | .rpWritePayload bs => (.host, 0x03 :: counted bs)
  | .rpFlushRx => (.host, [0x04])
  | .rpFlushTx => (.host, [0x05])
  | .rpReuseTxPl => (.host, [0x06])
  | .rpReadPayloadWidth => (.host, [0x07])
  | .rpWriteAckPayload p bs => (.host, 0x08 :: p.setWidth 8 :: counted bs)
  | .rpWriteNoackPayload bs => (.host, 0x09 :: counted bs)
  | .rpNop => (.host, [0x0A])
  | .enterShutdown => (.host, [0x10])
  | .enterStandby => (.host, [0x11])
  | .enterRx => (.host, [0x12])
  | .enterTx => (.host, [0x13])
  | .startListening p => (.host, [0x14, p.setWidth 8])
  | .stopListening p => (.host, [0x15, p.setWidth 8])
  | .getCrc => (.host, [0x20])
  | .setCrc m => (.host, [0x21, m.number])
  | .getChannel => (.host, [0x22])
  | .setChannel ch => (.host, [0x23, ch])
  | .getDataRate => (.host, [0x24])
  | .setDataRate r => (.host, [0x25, r.number])
  | .getOutputPower => (.host, [0x26])
  | .setOutputPower w => (.host, [0x27, w.number])
  | .getRetryCount => (.host, [0x28])
  | .setRetryCount n => (.host, [0x29, n])
  | .getRetryDelay => (.host, [0x2A])
  | .setRetryDelay d => (.host, [0x2B, d])
  | .getRxBaseAddress p => (.host, [0x2C, p.setWidth 8])
  | .setRxBaseAddress p base => (.host, 0x2D :: p.setWidth 8 :: leBytes 4 base.toNat)
  | .getRxAddress p => (.host, [0x2E, p.setWidth 8])
  | .setRxAddress p addr => (.host, 0x2F :: p.setWidth 8 :: leBytes 5 addr.toNat)
  | .getTxAddress => (.host, [0x30])
  | .setTxAddress addr => (.host, 0x31 :: leBytes 5 addr.toNat)
  | .getDynPayload p => (.host, [0x32, p.setWidth 8])
  | .setDynPayload p e => (.host, [0x33, p.setWidth 8, boolByte e])
  | .getAutoAck p => (.host, [0x34, p.setWidth 8])
  | .setAutoAck p e => (.host, [0x35, p.setWidth 8, boolByte e])
  | .getPipeEnable p => (.host, [0x36, p.setWidth 8])
  | .setPipeEnable p e => (.host, [0x37, p.setWidth 8, boolByte e])
  | .init => (.host, [0x40])
  | .poll => (.host, [0x41])
  | .enqueueData dg => (.host, 0x42 :: datagramBytes dg)
  | .setRxCallback cb => (.host, 0x43 :: callbackBytes c cb)
  | .setTxCallback cb => (.host, 0x44 :: callbackBytes c cb)

/-! ### Words of the opcode table -/

/-- The first `n` bytes of a table word: bit 0 is the least significant bit of the first byte. -/
def tableBytes (n nbits w : Nat) : List Byte := leBytes n (w % 2 ^ nbits)

/-- The fewest data bytes of a command (30_encoding.md R106, column N). -/
def WireCmd.minData : WireCmd → Nat
  | .rRxPlWid => 1
  | _ => 0

/-- The port and the bytes of a word of spec/opcode_table.json. The table numbers two instruction sets in the same
8 bits: a byte that is an operation number of 30_encoding.md R113 is read at the host port, any other at the wire port
(log 1). Host operands are bytes of zeros; a frame has as few data bytes as its command allows, zeros. -/
def tableRequest (nbits w : Nat) : Port × List Byte :=
  let op := BitVec.ofNat 8 (w % 2 ^ nbits)
  if (hostLookup Config.standard op).isSome then (.host, tableBytes 40 nbits w)
  else
    let n := match Codes.standard.wireLookup op with
      | some cmd => cmd.minData
      | none => 0
    (.wire, tableBytes (max (nbits / 8) (n + 1)) nbits w)

/-- The instruction the decoder reads from a word of spec/opcode_table.json. -/
def decodeTableWord (nbits w : Nat) : Option Instr :=
  let r := tableRequest nbits w
  match decode Config.standard r.1 r.2 with
  | .ok (i, _) => some i
  | .error _ => none

end Sys2Proof
end

