-- ==== Sys2Proof/Machine/State.lean ====
section
/-! DEFINITION. The state of the machine: the block `S` (10_state.md R20), the peer `P` (20_memory.md R81), the
environment (20_memory.md R76, R80; 60_exceptions.md R288), the observation (00_scope.md R6), the configuration
(00_scope.md R4); the reasons a step can stop; the state after reset (10_state.md R55, R56). -/

namespace Sys2Proof.Machine

open Sys2Proof

/-! ### The block -/

/-- The mode of the state machine (10_state.md R21). -/
inductive Mode where
  | shutDown
  | standby
  | rx
  | tx
  deriving DecidableEq, Repr

/-- The operation sequencer (10_state.md R31): `busy i k` says that `i` is running and its next micro-step is its
`k`-th interface event. -/
inductive Seq where
  | idle
  | busy (i : Instr) (k : Nat)
  deriving DecidableEq, Repr

/-- The block state `S` (10_state.md R20). -/
structure Block where
  /-- `S.mode` (R21). -/
  mode : Mode
  /-- `S.ce`, true = asserted (R22). -/
  ce : Bool
  /-- `S.last_status` (R23). -/
  lastStatus : Option Byte
  /-- `S.poll_status` (R24). -/
  pollStatus : Option Byte
  /-- `S.xbuf` (R25). -/
  xbuf : Vector Byte 33
  /-- `S.rxq`, the head first (R27). -/
  rxq : List Datagram
  /-- `S.txq`, the head first (R28). -/
  txq : List Datagram
  /-- `S.rx_cb` (R29). -/
  rxCb : Option Callback
  /-- `S.tx_cb` (R30). -/
  txCb : Option Callback
  /-- `S.seq` (R31). -/
  seq : Seq
  /-- `S.w_lat` (R32). -/
  wLat : Byte
  /-- `S.p_lat` (R32). -/
  pLat : Pipe
  /-- `S.v_tmp` (R32). -/
  vTmp : List Byte
  deriving DecidableEq, Repr

/-! ### The peer -/

/-- The peer register space (20_memory.md R60, R81): byte `i` of the register of address `a` is the cell `8 * a + i`;
the list holds, by rising cell, the cells that differ from their power-on value (log 20). -/
abbrev Memory := List Host.Cell

/-- An entry of the peer's RX FIFO (20_memory.md R81). -/
structure RxEntry where
  pipe : Pipe
  width : Byte
  bytes : List Byte
  deriving DecidableEq, Repr

/-- The kind of an entry of the peer's TX FIFO (20_memory.md R81). -/
inductive TxKind where
  | plain
  | noack
  | ack (p : Pipe)
  deriving DecidableEq, Repr

/-- An entry of the peer's TX FIFO (20_memory.md R81). -/
structure TxEntry where
  kind : TxKind
  bytes : List Byte
  deriving DecidableEq, Repr

/-- The peer state `P` (20_memory.md R81). -/
structure Peer where
  /-- `P.reg` and `P.addr`. -/
  mem : Memory
  /-- `P.rx_dr`. -/
  rxDr : Bool
  /-- `P.tx_ds`. -/
  txDs : Bool
  /-- `P.max_rt`. -/
  maxRt : Bool
  /-- `P.tx_reuse`. -/
  txReuse : Bool
  /-- `P.rxf`, the head first. -/
  rxf : List RxEntry
  /-- `P.txf`, the head first. -/
  txf : List TxEntry
  deriving DecidableEq, Repr

/-! ### The environment -/

/-- The level of the peer (20_memory.md R80). -/
inductive PeerLevel where
  /-- L0: any answers. -/
  | any
  /-- L1: the contract of R62 to R70; what it leaves open is free. -/
  | contract
  /-- L2: the reference peer of R81 to R96. -/
  | reference
  deriving DecidableEq, Repr

/-- A move of the peer's radio side between two transactions (20_memory.md R96), and the peer's loss of power
(70_reset_and_hazards.md R301). -/
inductive Move where
  | rxArrive (p : Pipe) (w : Byte) (bytes : List Byte)
  | txDone
  | maxRt
  | observe (v : Byte)
  | powerLoss
  deriving DecidableEq, Repr

/-- What the outside does during the coming steps. -/
structure Env where
  level : PeerLevel
  /-- The answers of an L0 peer, the next first (log 8). -/
  answers : List (List Byte)
  /-- The moves before each coming transaction, the next first (20_memory.md R76, R96; log 10). -/
  radio : List (List Move)
  /-- How many more calls of the interfaces return; `none`: all (60_exceptions.md R288; log 11). -/
  allow : Option Nat
  /-- The number of exchanges so far, which the free values are applied to (log 8). -/
  ctr : Nat
  deriving DecidableEq, Repr

/-! ### The observation -/

/-- An event of the trace (00_scope.md R6). -/
inductive Event where
  | xfer (tx rx : List Byte)
  | ce (level : Bool)
  | dly (us : Nat)
  | cbTx (f c : Nat)
  | cbRx (f c : Nat) (dg : Datagram)
  deriving DecidableEq, Repr

/-- The result of a host operation (00_scope.md R8; 30_encoding.md R113, column result). -/
inductive Result where
  | ok
  | fail
  | status (st : Byte)
  | statusBytes (st : Byte) (bs : List Byte)
  | statusWidth (st w : Byte)
  | crc (m : CrcMode)
  | channel (c : BitVec 7)
  | rate (r : DataRate)
  | power (w : Power)
  | retry (v : BitVec 4)
  | base (b : BitVec 32)
  | addr (a : BitVec 40)
  | flag (b : Bool)
  deriving DecidableEq, Repr

/-! ### The host -/

/-- One operation as presented: its port, its bytes, and how many of its interface calls return (log 11). -/
structure Request where
  port : Port
  bytes : List Byte
  allow : Option Nat
  deriving DecidableEq, Repr

/-- What reaches the block from the host (00_scope.md R7, R13). -/
inductive Input where
  | op (r : Request)
  | reset
  deriving DecidableEq, Repr

/-! ### The machine -/

/-- The state of the machine. -/
structure State where
  cfg : Config
  blk : Block
  peer : Peer
  env : Env
  /-- The events since Reset, the oldest first (00_scope.md R6; 70_reset_and_hazards.md R300). -/
  trace : List Event
  /-- The results of the completed host operations since Reset, the oldest first (00_scope.md R6, R8). -/
  results : List Result
  /-- What the host presents, the next first (log 16). -/
  inbox : List Input
  deriving DecidableEq, Repr

/-- Runs that cannot continue: the spec gives them no step (60_exceptions.md R288). The block itself raises no
exception (R270). -/
inductive Fault where
  /-- Raised by every instruction when the sequencer is Busy: "An operation presented while the block is busy is not
  accepted (it has no step in the model)" (00_scope.md R7; 93_implementation_defined.md U10). Safe: the run stops. -/
  | notAccepted
  /-- Raised by `step` when the sequencer is Busy and no Reset comes: a call of an interface never returns, the run has
  no further step (60_exceptions.md R288; 93_implementation_defined.md U11). Safe: the run stops. -/
  | stuck
  deriving DecidableEq, Repr

/-- What the model refuses. -/
inductive Refusal where
  /-- Raised by an arm of `exec` whose instruction has no meaning yet. Safe: the run stops. -/
  | notModelled (mnemonic : String)
  /-- Raised by `step`: "A configuration that breaks one is refused by the model" (00_scope.md R5). Safe. -/
  | badConfig
  /-- Raised by `step`: a request at the host port whose operand list is not complete; the spec has no such request
  (30_encoding.md R112). Safe: the run stops. -/
  | truncatedRequest
  /-- Raised by `step`: bytes at the wire port that are no frame of 30_encoding.md R106 ("The block never sends one",
  20_memory.md R95). Safe: the run stops. -/
  | notAFrame
  /-- Raised by a wire command of more than 32 data bytes, which no frame can carry (30_encoding.md R100, R119 b).
  Safe: the run stops. -/
  | frameTooLong
  deriving DecidableEq, Repr

/-- The block after Reset (10_state.md R56). `xbuf`, `wLat`, `pLat` and `vTmp` are "unspecified" there: zeros and the
empty list are DESIGN CHOICES (log 6). -/
def Block.reset : Block where
  mode := .shutDown
  ce := false
  lastStatus := none
  pollStatus := none
  xbuf := Vector.replicate 33 0
  rxq := []
  txq := []
  rxCb := none
  txCb := none
  seq := .idle
  wLat := 0
  pLat := 0
  vTmp := []

/-- The reference peer after its own power-on (10_state.md R55; 20_memory.md R81). PRESUMED (log 7). -/
def Peer.powerOn : Peer where
  mem := []
  rxDr := false
  txDs := false
  maxRt := false
  txReuse := false
  rxf := []
  txf := []

/-- The environment of a run from reset: the reference peer, no radio move, every call returns (log 8, 10, 11). -/
def Env.quiet : Env where
  level := .reference
  answers := []
  radio := []
  allow := none
  ctr := 0

/-- The machine right after reset (10_state.md R55, R56; 70_reset_and_hazards.md R300): nothing presented. -/
def State.reset : State where
  cfg := Config.standard
  blk := Block.reset
  peer := Peer.powerOn
  env := Env.quiet
  trace := []
  results := []
  inbox := []

end Sys2Proof.Machine
end

