-- ==== Sys2Proof/Machine/Memory.lean ====
section
/-! DEFINITION. The peer register space as memory (20_memory.md R60, R61, R71, R72, R81): one list of cells in canonical
form. Byte `i` of the register of address `a` is the cell `8 * a + i` (log 20). -/

namespace Sys2Proof.Machine

open Sys2Proof

/-- The cell of byte `i` (0 the least significant, 20_memory.md R72) of the register of address `a`. -/
def cellOf (a : Reg) (i : Nat) : Nat := 8 * a.toNat + i

/-- The register a cell belongs to. -/
def regOfCell (k : Nat) : Reg := BitVec.ofNat 5 (k / 8)

/-- The cell exists: its address is one of 32, its byte lies in the register, and the register is not STATUS, which is
computed (20_memory.md R81). -/
def isCell (c : Codes) (k : Nat) : Bool :=
  k < 256 && k % 8 < c.regWidth (regOfCell k) && regOfCell k != c.regStatus

/-- What a cell that is not listed reads as: its power-on value (10_state.md R55, log 7). -/
def unlisted (c : Codes) (k : Nat) : Byte := c.powerOnByte (regOfCell k)

/-- The byte listed at a cell. -/
def Memory.find : Memory → Nat → Option Byte
  | [], _ => none
  | (k', v) :: m, k => if k' = k then some v else Memory.find m k

/-- Read one cell. -/
def Memory.read (c : Codes) (m : Memory) (k : Nat) : Byte := (Memory.find m k).getD (unlisted c k)

/-- Put a value at a cell, keeping the cells rising; a value equal to `d` is not listed. -/
def Memory.put (d : Byte) : Memory → Nat → Byte → Memory
  | [], k, v => if v = d then [] else [(k, v)]
  | (k', v') :: m, k, v =>
    if k < k' then (if v = d then (k', v') :: m else (k, v) :: (k', v') :: m)
    else if k = k' then (if v = d then m else (k, v) :: m)
    else (k', v') :: Memory.put d m k v

/-- Write one cell; there is nothing to write where no cell exists. -/
def Memory.write (c : Codes) (m : Memory) (k : Nat) (v : Byte) : Memory :=
  if isCell c k then Memory.put (unlisted c k) m k v else m

/-- The canonical form: the cells rise, each exists, and none holds what an unlisted cell reads as. -/
def Memory.wf (c : Codes) (m : Memory) : Bool :=
  decide (m.Pairwise (fun x y => x.1 < y.1)) && m.all (fun x => isCell c x.1 && x.2 != unlisted c x.1)

/-- The bytes of a register, least significant first (20_memory.md R72, R84). -/
def Memory.regBytes (c : Codes) (m : Memory) (a : Reg) : List Byte :=
  (List.range (c.regWidth a)).map (fun i => Memory.read c m (cellOf a i))

/-- Write bytes to rising cells. -/
def Memory.writeFrom (c : Codes) : Memory → Nat → List Byte → Memory
  | m, _, [] => m
  | m, k, b :: bs => Memory.writeFrom c (Memory.write c m k b) (k + 1) bs

/-- Replace the least significant bytes of a register; bytes beyond its width are dropped (20_memory.md R72, R85). -/
def Memory.writeReg (c : Codes) (m : Memory) (a : Reg) (d : List Byte) : Memory :=
  Memory.writeFrom c m (cellOf a 0) (d.take (c.regWidth a))

/-- Every cell of the register space. -/
def allCells (c : Codes) : List Nat := (List.range 256).filter (isCell c)

end Sys2Proof.Machine
end

