-- ==== Sys2Proof/Machine/Flags.lean ====
section
/-! DEFINITION. Flags and fields of bytes: the status byte (10_state.md R36, R52; 30_encoding.md R109; 20_memory.md R82),
write-one-to-clear (20_memory.md R66), and the field update of 30_encoding.md R116. Fields are read through the masks of
`cfg` (log 15). -/

namespace Sys2Proof.Machine

open Sys2Proof

/-- A flag, or any bit of a field, is 1. -/
def flagSet (m v : Byte) : Bool := v &&& m != 0

/-- The bit of a flag when it is 1. -/
def flagBit (m : Byte) (b : Bool) : Byte := if b then m else 0

/-- A field's value, shifted to bit 0. -/
def fieldGet (m v : Byte) : Byte := (v &&& m) >>> maskLow m

/-- A value in the field's place: `(x << lo) & mask` (30_encoding.md R116). -/
def fieldPut (m x : Byte) : Byte := (x <<< maskLow m) &&& m

/-- `(v & ~clr) | set`: a bit in both ends up 1 (30_encoding.md R116; 40_register_protocol.md R144). -/
def updateBits (v clr ones : Byte) : Byte := (v &&& ~~~clr) ||| ones

/-- `rx_p_no` of a status byte (30_encoding.md R109). -/
def rxPNo (c : Codes) (st : Byte) : Pipe := (fieldGet c.mRxPNo st).setWidth 3

/-- `PLOS_CNT`, the lost packets in an OBSERVE_TX byte (10_state.md R43). -/
def lostPackets (c : Codes) (v : Byte) : BitVec 4 := (fieldGet c.mPlosCnt v).setWidth 4

/-- `ARC_CNT`, the retransmissions in an OBSERVE_TX byte (10_state.md R43). -/
def retransmissions (c : Codes) (v : Byte) : BitVec 4 := (fieldGet c.mArcCnt v).setWidth 4

/-- The pipe of the head of the RX FIFO, or 7 when it is empty (20_memory.md R82). -/
def headPipe : List RxEntry → Pipe
  | [] => 7
  | e :: _ => e.pipe

/-- `STATUS(P)` (20_memory.md R82), at L1 too (PRESUMED, log 29). -/
def statusByte (c : Config) (p : Peer) : Byte :=
  flagBit c.codes.mRxDr p.rxDr ||| flagBit c.codes.mTxDs p.txDs ||| flagBit c.codes.mMaxRt p.maxRt
    ||| fieldPut c.codes.mRxPNo ((headPipe p.rxf).setWidth 8)
    ||| flagBit c.codes.mTxFull (decide (p.txf.length = c.fifoDepth))

/-- A write to STATUS: the flags whose bit is 1 are cleared, nothing else changes (20_memory.md R66, R85). -/
def clearFlags (c : Codes) (m : Byte) (p : Peer) : Peer :=
  { p with rxDr := p.rxDr && !flagSet c.mRxDr m
           txDs := p.txDs && !flagSet c.mTxDs m
           maxRt := p.maxRt && !flagSet c.mMaxRt m }

end Sys2Proof.Machine
end

