-- ==== Sys2Proof/Machine/Operands.lean ====
section
/-! DEFINITION. Operand assembly (30_encoding.md Part C): enumeration codes (R117), clips (R116), per-pipe bits (10_state.md
R38, R39, R47), addresses (R118). -/

namespace Sys2Proof.Machine

open Sys2Proof

/-- "pipe 0..5": a pipe operand of 6 or 7 is refused (30_encoding.md R119 a). -/
def pipeOk (p : Pipe) : Bool := p.toNat < nPipes

/-- The bit of a pipe in EN_AA, EN_RXADDR or DYNPD (10_state.md R38, R39, R47), from the register's bits of `cfg`. -/
def pipeBit (bits : Vector Byte 6) (p : Pipe) : Byte := bits.toList.getD p.toNat 0

/-- `min(v, 15)` (30_encoding.md R116; `MAX_RETRY` of 00_scope.md R4). -/
def clip15 (v : Byte) : Byte := if v ≤ 15 then v else 15

/-- The 2-bit coding of the mode (10_state.md R21; 92_eei_decisions.md D5). -/
def Mode.number : Mode → BitVec 2
  | .shutDown => 0
  | .standby => 1
  | .rx => 2
  | .tx => 3

/-- The CONFIG bits of a CRC mode: (EN_CRC, CRCO) of 30_encoding.md R117. -/
def crcCode (c : Codes) : CrcMode → Byte
  | .disabled => 0
  | .crc1 => c.mEnCrc
  | .crc2 => c.mEnCrc ||| c.mCrco

/-- The CRC mode of a CONFIG byte: EN_CRC = 0 is Disabled whatever CRCO is (30_encoding.md R117; 42_config_access.md R181). -/
def crcOf (c : Codes) (v : Byte) : CrcMode :=
  if flagSet c.mEnCrc v then (if flagSet c.mCrco v then .crc2 else .crc1) else .disabled

/-- The RF_SETUP bits of a data rate: (RF_DR_LOW, RF_DR_HIGH) of 30_encoding.md R117. -/
def rateCode (c : Codes) : DataRate → Byte
  | .r1M => 0
  | .r2M => c.mRfDrHigh
  | .r250K => c.mRfDrLow

/-- The data rate of an RF_SETUP byte; none for the reserved code (1,1) (42_config_access.md R185). -/
def rateOf (c : Codes) (v : Byte) : Option DataRate :=
  match flagSet c.mRfDrLow v, flagSet c.mRfDrHigh v with
  | false, false => some .r1M
  | false, true => some .r2M
  | true, false => some .r250K
  | true, true => none

/-- The RF_PWR code of a power (30_encoding.md R117; 42_config_access.md R188). -/
def powerCode : Power → Byte
  | .p0 => 3
  | .pm6 => 2
  | .pm12 => 1
  | .pm18 => 0

/-- The power of an RF_SETUP byte; all four codes are valid (42_config_access.md R187). -/
def powerOf (c : Codes) (v : Byte) : Power :=
  match (fieldGet c.mRfPwr v).setWidth 2 with
  | 3#2 => .p0
  | 2#2 => .pm6
  | 1#2 => .pm12
  | _ => .pm18

/-- The five data bytes of a 40-bit address, least significant first (30_encoding.md R118). -/
def addrBytes (a : BitVec 40) : List Byte :=
  [a.extractLsb' 0 8, a.extractLsb' 8 8, a.extractLsb' 16 8, a.extractLsb' 24 8, a.extractLsb' 32 8]

/-- The four data bytes of a 32-bit base, least significant first (42_config_access.md R194). -/
def baseBytes (b : BitVec 32) : List Byte :=
  [b.extractLsb' 0 8, b.extractLsb' 8 8, b.extractLsb' 16 8, b.extractLsb' 24 8]

/-- The byte in position `i` of the data received. -/
def byteAt (bs : List Byte) (i : Nat) : Byte := bs.getD i 0

/-- The 32-bit base in five received bytes: `b1 | (b2 << 8) | (b3 << 16) | (b4 << 24)` (30_encoding.md R118). -/
def baseOf (bs : List Byte) : BitVec 32 := byteAt bs 4 ++ byteAt bs 3 ++ byteAt bs 2 ++ byteAt bs 1

/-- An address of a unique byte and a base: `(base << 8) | unique` (30_encoding.md R118). -/
def joinAddr (base : BitVec 32) (unique : Byte) : BitVec 40 := base ++ unique

/-- The 40-bit address in five received bytes (30_encoding.md R118). -/
def addrOf (bs : List Byte) : BitVec 40 := joinAddr (baseOf bs) (byteAt bs 0)

end Sys2Proof.Machine
end

