-- ==== Sys2Proof/Machine/Peer.lean ====
section
/-! DEFINITION. The peer (20_memory.md Parts B and E): its answer to a frame at the three levels of R80, and the moves of
its radio side (R76, R96). At level L1 every value the contract leaves open is a free value (log 8, log 9). -/

namespace Sys2Proof.Machine

open Sys2Proof

/-! ### Values the contract leaves open -/

/-- A byte the peer drives where no rule gives one: 0x00 by the reference peer (20_memory.md R84 to R95), a free value at
L0 and L1 (R65, R73; 93_implementation_defined.md U1, U3, U4). `k` numbers the exchange, `j` the position. -/
def openByte (lv : PeerLevel) (k j : Nat) : Byte :=
  match lv with
  | .reference => 0
  | .contract => freeByte k j
  | .any => freeByte k j

/-- Exactly `n` bytes: those given, then open ones. -/
def fitBytes (lv : PeerLevel) (k n : Nat) (bs : List Byte) : List Byte :=
  (List.range n).map (fun j => (bs[j]?).getD (openByte lv k j))

/-- A free byte list of a free length up to 32. -/
def freePayload (k j : Nat) (n : Nat) : List Byte := (List.range n).map (fun i => freeByte k (1000 + 100 * j + i))

/-- A free entry of the RX FIFO, of the shape of 20_memory.md R81. -/
def freeRxEntry (k j : Nat) : RxEntry where
  pipe := BitVec.ofNat 3 (freeNat k (10 + j) % nPipes)
  width := BitVec.ofNat 8 (freeNat k (1000 + j))
  bytes := freePayload k (2 * j) (min (freeNat k (1000 + j) % 256) maxPayload)

/-- A free kind of TX FIFO entry. -/
def freeTxKind (n : Nat) : TxKind :=
  match n % 8 with
  | 6 => .plain
  | 7 => .noack
  | m => .ack (BitVec.ofNat 3 m)

/-- A free entry of the TX FIFO, of the shape of 20_memory.md R81. -/
def freeTxEntry (k j : Nat) : TxEntry where
  kind := freeTxKind (freeNat k (2000 + j))
  bytes := freePayload k (2 * j + 1) (freeNat k (3000 + j) % (maxPayload + 1))

/-- Any value in every cell. -/
def freeMemory (c : Codes) (k : Nat) : Memory :=
  (allCells c).foldl (fun m cell => Memory.write c m cell (freeByte k (100000 + cell))) []

/-- A peer state of which nothing is known ("unconstrained at L1", 93_implementation_defined.md U1, U2, U4, U5, G9). -/
def freePeer (c : Config) (k : Nat) : Peer where
  mem := freeMemory c.codes k
  rxDr := freeNat k 0 % 2 == 1
  txDs := freeNat k 1 % 2 == 1
  maxRt := freeNat k 2 % 2 == 1
  txReuse := freeNat k 3 % 2 == 1
  rxf := (List.range (freeNat k 4 % (c.fifoDepth + 1))).map (freeRxEntry k)
  txf := (List.range (freeNat k 5 % (c.fifoDepth + 1))).map (freeTxEntry k)

/-- The peer after an access whose effect the contract does not constrain: the reference peer's rule gives `p`, the
contract gives nothing. -/
def unconstrained (lv : PeerLevel) (c : Config) (k : Nat) (p : Peer) : Peer :=
  match lv with
  | .reference => p
  | .contract => freePeer c k
  | .any => freePeer c k

/-! ### The commands -/

/-- The data bytes of R_REGISTER (20_memory.md R84): STATUS is the snapshot `st`; an address the spec does not name reads
as any value at L1 (10_state.md R49). PRESUMED (log 29): at L1 too STATUS reads as `st`, where 40_register_protocol.md R131 says
so of the reference peer only. -/
def readRegister (lv : PeerLevel) (c : Codes) (p : Peer) (st : Byte) (a : Reg) : List Byte :=
  if a = c.regStatus then [st]
  else if lv = .reference ∨ c.namedReg a then Memory.regBytes c p.mem a
  else []

/-- The register a W_REGISTER writes: STATUS clears flags, OBSERVE_TX is read only, any other stores what fits
(20_memory.md R85). -/
def storeRegister (c : Codes) (p : Peer) (a : Reg) (d : List Byte) : Peer :=
  if a = c.regStatus then clearFlags c (byteAt d 0) p
  else if a = c.regObserveTx then p
  else { p with mem := Memory.writeReg c p.mem a d }

/-- W_REGISTER (20_memory.md R85): no data, no change. At L1 the effect of surplus bytes (93_implementation_defined.md U4)
and of a write to an unnamed address (G9) is not constrained. -/
def writeRegister (lv : PeerLevel) (c : Config) (k : Nat) (p : Peer) (a : Reg) (d : List Byte) : Peer :=
  if d = [] then p
  else if d.length ≤ c.codes.regWidth a ∧ c.codes.namedReg a then storeRegister c.codes p a d
  else unconstrained lv c k (storeRegister c.codes p a d)

/-- A payload appended to the TX FIFO when it has room (20_memory.md R88 to R90); a write to a full FIFO is not constrained
at L1 (93_implementation_defined.md U5). -/
def pushTx (lv : PeerLevel) (c : Config) (k : Nat) (p : Peer) (e : TxEntry) : Peer :=
  if p.txf.length < c.fifoDepth then { p with txf := p.txf ++ [e] } else unconstrained lv c k p

/-- W_TX_PAYLOAD and W_TX_PAYLOAD_NOACK end a reuse when they append (20_memory.md R88, R90). -/
def pushTxEndingReuse (lv : PeerLevel) (c : Config) (k : Nat) (p : Peer) (e : TxEntry) : Peer :=
  if p.txf.length < c.fifoDepth then { pushTx lv c k p e with txReuse := false } else pushTx lv c k p e

/-- The bytes R_RX_PL_WID reads: the width of the head, none when the FIFO is empty (20_memory.md R86). -/
def headWidth : List RxEntry → List Byte
  | [] => []
  | e :: _ => [e.width]

/-- The bytes R_RX_PAYLOAD reads (20_memory.md R87). -/
def headBytes : List RxEntry → List Byte
  | [] => []
  | e :: _ => e.bytes

/-- The peer's rule of a command with data `d` and snapshot `st`: its next state and the data bytes it drives that a rule
gives (20_memory.md R84 to R94). DESIGN CHOICE (log 27): at L1 too, a read of an address the spec does not name leaves the peer
as it is; R74 says so of a named register only. PRESUMED (log 22): at L1 too, an accepted acknowledge payload is appended and
leaves the reuse as it is; R89 is the reference peer's. PRESUMED (log 32): at L1 too, every command acts whatever PWR_UP is. -/
def applyCmd (lv : PeerLevel) (c : Config) (k : Nat) (p : Peer) (st : Byte) (cmd : WireCmd) (d : List Byte) :
    Peer × List Byte :=
  match cmd with
  | .rRegister a => (p, readRegister lv c.codes p st a)
  | .wRegister a => (writeRegister lv c k p a d, [])
  | .rRxPlWid => (p, headWidth p.rxf)
  | .rRxPayload => ({ p with rxf := p.rxf.tail }, headBytes p.rxf)
  | .wTxPayload => (pushTxEndingReuse lv c k p ⟨.plain, d⟩, [])
  | .wAckPayload q =>
    if q.toNat < nPipes then (pushTx lv c k p ⟨.ack q, d⟩, []) else (unconstrained lv c k p, [])
  | .wTxPayloadNoack => (pushTxEndingReuse lv c k p ⟨.noack, d⟩, [])
  | .flushTx => ({ p with txf := [], txReuse := false }, [])
  | .flushRx => ({ p with rxf := [] }, [])
  | .reuseTxPl => ({ p with txReuse := true }, [])
  | .nop => (p, [])

/-- `PeerXfer(P, tx)` (20_memory.md R83): the status byte is taken before the command acts (R63); an opcode byte that no row
matches is R95 (U1 at L1). PRESUMED (log 32): at L1 too, the peer answers while it is powered down; 60_exceptions.md R286 says so
of the reference peer only. -/
def peerXfer (lv : PeerLevel) (c : Config) (k : Nat) (p : Peer) : List Byte → Peer × List Byte
  | [] => (p, [])
  | op :: d =>
    match c.codes.wireLookup op with
    | none => (unconstrained lv c k p, statusByte c p :: fitBytes lv k d.length [])
    | some cmd =>
      let r := applyCmd lv c k p (statusByte c p) cmd d
      (r.1, statusByte c p :: fitBytes lv k d.length r.2)

/-! ### The radio side -/

/-- One move, where it is enabled (20_memory.md R96; 70_reset_and_hazards.md R301); a move that is not enabled does not
occur (log 10). -/
def applyMove (lv : PeerLevel) (c : Config) (k : Nat) (p : Peer) : Move → Peer
  | .rxArrive q w bytes =>
    if p.rxf.length < c.fifoDepth ∧ q.toNat < nPipes ∧ bytes.length = min w.toNat maxPayload
    then { p with rxf := p.rxf ++ [⟨q, w, bytes⟩], rxDr := true } else p
  | .txDone =>
    if p.txf = [] then p
    else { p with txDs := true, txf := if p.txReuse then p.txf else p.txf.tail }
  | .maxRt => if p.txf = [] then p else { p with maxRt := true }
  | .observe v => { p with mem := Memory.write c.codes p.mem (cellOf c.codes.regObserveTx 0) v }
  | .powerLoss =>
    match lv with
    | .reference => Peer.powerOn
    | .contract => freePeer c k
    | .any => freePeer c k

/-- A list of moves, in order. -/
def applyMoves (lv : PeerLevel) (c : Config) (k : Nat) : Peer → List Move → Peer
  | p, [] => p
  | p, m :: ms => applyMoves lv c k (applyMove lv c k p m) ms

/-! ### The answer -/

/-- What `Exchange(tx)` returns in a state and the state of peer and environment after it. L0: the next scripted answer, a
free value where it is too short (20_memory.md R80). L1 and L2: the radio's moves first (R76), then the transaction. -/
def answer (tx : List Byte) (s : State) : List Byte × State :=
  let k := s.env.ctr
  match s.env.level with
  | .any =>
    (fitBytes .any (2 * k) tx.length (s.env.answers.headD []),
      { s with env := { s.env with answers := s.env.answers.tail, ctr := k + 1 } })
  | lv =>
    let p := applyMoves lv s.cfg (2 * k) s.peer (s.env.radio.headD [])
    let r := peerXfer lv s.cfg (2 * k + 1) p tx
    (r.2, { s with peer := r.1, env := { s.env with radio := s.env.radio.tail, ctr := k + 1 } })

end Sys2Proof.Machine
end

