-- ==== Sys2Proof/Machine/Ops.lean ====
section
/-! DEFINITION. The shared operations: the interface events (00_scope.md R6, R9 to R12), the transaction `Xact`
(40_register_protocol.md R130), `RegRead`, `RegWrite`, `RMW` (R131, R132, R144), the callback, which is this hardware's
analogue of exception entry and return (60_exceptions.md R276, R279), Reset (70_reset_and_hazards.md R300), and accepting
and completing an operation (00_scope.md R7, R8; 10_state.md R31). -/

namespace Sys2Proof.Machine

open Sys2Proof

/-- An operation in progress that goes no further: a call of an interface has not returned (60_exceptions.md R288), or
Reset comes at this point (70_reset_and_hazards.md R300). -/
inductive Halt where
  | waiting
  deriving DecidableEq, Repr

/-- A part of an operation: from a state to a value and a state, or to the state it halts in. -/
abbrev Op := EStateM Halt State

/-! ### State updates -/

/-- Update the block. -/
def State.onBlk (f : Block → Block) (s : State) : State := { s with blk := f s.blk }

/-- The sequencer after one more event (10_state.md R31). -/
def Seq.advance : Seq → Seq
  | .idle => .idle
  | .busy i k => .busy i (k + 1)

/-- Add an event to the trace and advance the sequencer past it (00_scope.md R6; 10_state.md R31). -/
def State.emit (e : Event) (s : State) : State :=
  { s with trace := s.trace ++ [e], blk := { s.blk with seq := s.blk.seq.advance } }

/-- Take one returning call from what the environment allows; none where the call does not return (log 11). -/
def State.takeCall (s : State) : Option State :=
  match s.env.allow with
  | none => some s
  | some 0 => none
  | some (n + 1) => some { s with env := { s.env with allow := some n } }

/-- `xbuf[0..N] <- bytes`, the rest kept (10_state.md R25). -/
def loadXbuf (bs : List Byte) (buf : Vector Byte 33) : Vector Byte 33 :=
  ⟨((bs ++ buf.toList.drop bs.length).take 33).toArray, by simp; omega⟩

/-- Put bytes in the exchange buffer. -/
def State.fillXbuf (bs : List Byte) (s : State) : State :=
  s.onBlk (fun b => { b with xbuf := loadXbuf bs b.xbuf })

/-- The effect of a completed transaction with frame `tx` on the whole state: the peer answers, the answer overwrites the
buffer, its first byte is latched, one event is added (40_register_protocol.md R130). -/
def State.afterXfer (tx : List Byte) (s : State) : State :=
  let r := answer tx s
  ((r.2.fillXbuf r.1).onBlk (fun b => { b with lastStatus := some (byteAt r.1 0) })).emit (.xfer tx r.1)

/-! ### Interface events -/

/-- `Xact(op, data)` (40_register_protocol.md R130): one frame, one exchange; the status byte and the N data bytes. An
exchange that never returns adds no event (00_scope.md R14). -/
def xact (op : Byte) (data : List Byte) : Op (Byte × List Byte) := fun s =>
  let s1 := s.fillXbuf (op :: data)
  match s1.takeCall with
  | none => .error .waiting s1
  | some s2 =>
    let rx := (answer (op :: data) s2).1
    .ok (byteAt rx 0, rx.tail) (s2.afterXfer (op :: data))

/-- `CE(level)` (00_scope.md R10): the level is driven and held in `S.ce`; the call always returns. -/
def driveCe (level : Bool) : Op Unit := fun s =>
  .ok () ((s.onBlk (fun b => { b with ce := level })).emit (.ce level))

/-- A call that is an event when made and is then waited for: `Delay` (00_scope.md R11) and the callbacks
(60_exceptions.md R276). -/
def callAndWait (e : Event) : Op Unit := fun s =>
  let s1 := s.emit e
  match s1.takeCall with
  | none => .error .waiting s1
  | some s2 => .ok () s2

/-- `Delay(us)` (00_scope.md R11; 41_mode_control.md R167). -/
def delay (us : Nat) : Op Unit := callAndWait (.dly us)

/-- CALLBACK ENTRY AND RETURN, the one transfer of control out of the block (60_exceptions.md R276, R279): with a
registration the event is emitted and the host's return awaited, nothing is saved, changed or restored; with none nothing
happens. -/
def invokeCallback (cb : Option Callback) (e : Callback → Event) : Op Unit :=
  match cb with
  | none => return ()
  | some f => callAndWait (e f)

/-! ### Register access -/

/-- Update the block inside an operation. -/
def modifyBlk (f : Block → Block) : Op Unit := fun s => .ok () (s.onBlk f)

/-- The codes of the configuration. -/
def getCodes : Op Codes := fun s => .ok s.cfg.codes s

/-- `RegRead(a, n)` = `Xact(OPC_R_REGISTER | a, [FILL]*n)` (40_register_protocol.md R131). -/
def regRead (a : Reg) (n : Nat) : Op (Byte × List Byte) := do
  let c ← getCodes
  xact (opWithReg c.opcRRegister a) (List.replicate n fill)

/-- `RegWrite(a, bs)` = `Xact(OPC_W_REGISTER | a, bs)` (40_register_protocol.md R132). -/
def regWrite (a : Reg) (bs : List Byte) : Op Byte := do
  let c ← getCodes
  let r ← xact (opWithReg c.opcWRegister a) bs
  return r.1

/-- One byte of a register: `(_, [v]) <- RegRead(a, 1)`. -/
def regReadByte (a : Reg) : Op Byte := do
  let r ← regRead a 1
  return byteAt r.2 0

/-- `RMW(a, clr, set)`: a read and a write, always both; `S.v_tmp` holds the byte read (40_register_protocol.md R144). -/
def rmw (a : Reg) (clr ones : Byte) : Op Byte := do
  let v ← regReadByte a
  modifyBlk (fun b => { b with vTmp := [v] })
  let _ ← regWrite a [updateBits v clr ones]
  return updateBits v clr ones

/-- A command without operand or data, for its status byte. -/
def command (op : Codes → Byte) : Op Byte := do
  let c ← getCodes
  let r ← xact (op c) []
  return r.1

/-! ### Operations -/

/-- The block is idle: it accepts an operation (00_scope.md R7). -/
def State.idle (s : State) : Bool := s.blk.seq == .idle

/-- Accept an operation: its first event is next (10_state.md R31). -/
def State.accept (i : Instr) (s : State) : State := s.onBlk (fun b => { b with seq := .busy i 1 })

/-- The sequencer is idle again (10_state.md R31). -/
def State.finish (s : State) : State := s.onBlk (fun b => { b with seq := .idle })

/-- Complete a host operation: Idle, and its one result returned (00_scope.md R8; 10_state.md R31). -/
def State.complete (r : Result) (s : State) : State := { s.finish with results := s.results ++ [r] }

/-- Run a host operation: not accepted while busy (00_scope.md R7); the operand check comes before every event and gives
FAIL (30_encoding.md R119; 60_exceptions.md R278); then the body, to its result or to where it halts. -/
def runHost (i : Instr) (body : Op Result) (s : State) : Host.Outcome State Fault Refusal :=
  if !s.idle then .fault .notAccepted
  else if !i.wf s.cfg then .next ((s.accept i).complete .fail)
  else
    match body (s.accept i) with
    | .ok r t => .next (t.complete r)
    | .error _ t => .next t

/-- Run a wire command by itself: one transaction, no host result (log 3). -/
def runWire (i : Instr) (body : Op (Byte × List Byte)) (s : State) : Host.Outcome State Fault Refusal :=
  if !s.idle then .fault .notAccepted
  else if !i.wf s.cfg then .refused .frameTooLong
  else
    match body (s.accept i) with
    | .ok _ t => .next t.finish
    | .error _ t => .next t

/-- A request that names no operation or an operand outside its set: FAIL, no event, no state change
(30_encoding.md R113, R119; 93_implementation_defined.md U9). -/
def refuseRequest (s : State) : Host.Outcome State Fault Refusal :=
  if !s.idle then .fault .notAccepted else .next (s.complete .fail)

/-- `Reset` (70_reset_and_hazards.md R300, R301): the block takes its reset values, a running operation is abandoned with
no result and no further event, the trace starts empty; the peer keeps its state. -/
def State.applyReset (s : State) : State :=
  { s with blk := Block.reset, trace := [], results := [], env := { s.env with allow := none } }

end Sys2Proof.Machine
end

