-- ==== Sys2Proof/Machine/ConfigAccess.lean ====
section
/-! DEFINITION. The configuration get and set operations (42_config_access.md R180 to R206). -/

namespace Sys2Proof.Machine

open Sys2Proof

/-- GET_CRC (42_config_access.md R181). -/
def execGetCrc (s : State) : Host.Outcome State Fault Refusal :=
  runHost .getCrc (do
    let c ← getCodes
    let v ← regReadByte c.regConfig
    return .crc (crcOf c v)) s

/-- SET_CRC (42_config_access.md R182). -/
def execSetCrc (m : CrcMode) (s : State) : Host.Outcome State Fault Refusal :=
  runHost (.setCrc m) (do
    let c ← getCodes
    let _ ← rmw c.regConfig (c.mEnCrc ||| c.mCrco) (crcCode c m)
    return .ok) s

/-- GET_CHANNEL (42_config_access.md R183): the channel field; bit 7 is dropped. -/
def execGetChannel (s : State) : Host.Outcome State Fault Refusal :=
  runHost .getChannel (do
    let c ← getCodes
    let v ← regReadByte c.regRfCh
    return .channel ((fieldGet c.mRfCh v).setWidth 7)) s

/-- SET_CHANNEL (42_config_access.md R184): above 127 it is ignored and returns OK; else one write of the whole byte, which
is the channel itself at the default place of the field (log 15). -/
def execSetChannel (ch : Byte) (s : State) : Host.Outcome State Fault Refusal :=
  runHost (.setChannel ch) (do
    if ch.toNat > 127 then return .ok
    let c ← getCodes
    let _ ← regWrite c.regRfCh [fieldPut c.mRfCh ch]
    return .ok) s

/-- GET_DATA_RATE (42_config_access.md R185): FAIL for the reserved code. -/
def execGetDataRate (s : State) : Host.Outcome State Fault Refusal :=
  runHost .getDataRate (do
    let c ← getCodes
    let v ← regReadByte c.regRfSetup
    match rateOf c v with
    | some r => return .rate r
    | none => return .fail) s

/-- SET_DATA_RATE (42_config_access.md R186). -/
def execSetDataRate (r : DataRate) (s : State) : Host.Outcome State Fault Refusal :=
  runHost (.setDataRate r) (do
    let c ← getCodes
    let _ ← rmw c.regRfSetup (c.mRfDrLow ||| c.mRfDrHigh) (rateCode c r)
    return .ok) s

/-- GET_OUTPUT_POWER (42_config_access.md R187). -/
def execGetOutputPower (s : State) : Host.Outcome State Fault Refusal :=
  runHost .getOutputPower (do
    let c ← getCodes
    let v ← regReadByte c.regRfSetup
    return .power (powerOf c v)) s

/-- SET_OUTPUT_POWER (42_config_access.md R188). -/
def execSetOutputPower (w : Power) (s : State) : Host.Outcome State Fault Refusal :=
  runHost (.setOutputPower w) (do
    let c ← getCodes
    let _ ← rmw c.regRfSetup c.mRfPwr (fieldPut c.mRfPwr (powerCode w))
    return .ok) s

/-- GET_RETRY_COUNT (42_config_access.md R189): the field ARC, bits 3:0 by default. -/
def execGetRetryCount (s : State) : Host.Outcome State Fault Refusal :=
  runHost .getRetryCount (do
    let c ← getCodes
    let v ← regReadByte c.regSetupRetr
    return .retry ((fieldGet c.mArc v).setWidth 4)) s

/-- SET_RETRY_COUNT (42_config_access.md R190): clips to 15, keeps the delay. -/
def execSetRetryCount (n : Byte) (s : State) : Host.Outcome State Fault Refusal :=
  runHost (.setRetryCount n) (do
    let c ← getCodes
    let _ ← rmw c.regSetupRetr c.mArc (fieldPut c.mArc (clip15 n))
    return .ok) s

/-- GET_RETRY_DELAY (42_config_access.md R191): the field ARD, bits 7:4 by default. -/
def execGetRetryDelay (s : State) : Host.Outcome State Fault Refusal :=
  runHost .getRetryDelay (do
    let c ← getCodes
    let v ← regReadByte c.regSetupRetr
    return .retry ((fieldGet c.mArd v).setWidth 4)) s

/-- SET_RETRY_DELAY (42_config_access.md R192): clips to 15, keeps the count. -/
def execSetRetryDelay (d : Byte) (s : State) : Host.Outcome State Fault Refusal :=
  runHost (.setRetryDelay d) (do
    let c ← getCodes
    let _ ← rmw c.regSetupRetr c.mArd (fieldPut c.mArd (clip15 d))
    return .ok) s

/-- The register that holds the base of a pipe: RX_ADDR_P0 for pipe 0, RX_ADDR_P1 for the others
(42_config_access.md R193, R194). -/
def baseReg (c : Codes) (p : Pipe) : Reg := if p = 0 then c.regRxAddr 0 else c.regRxAddr 1

/-- GET_RX_BASE_ADDRESS (42_config_access.md R193). -/
def execGetRxBaseAddress (p : Pipe) (s : State) : Host.Outcome State Fault Refusal :=
  runHost (.getRxBaseAddress p) (do
    if !pipeOk p then return .fail
    let c ← getCodes
    let (_, bs) ← regRead (baseReg c p) 5
    return .base (baseOf bs)) s

/-- SET_RX_BASE_ADDRESS (42_config_access.md R194): the unique byte keeps its value. -/
def execSetRxBaseAddress (p : Pipe) (base : BitVec 32) (s : State) : Host.Outcome State Fault Refusal :=
  runHost (.setRxBaseAddress p base) (do
    if !pipeOk p then return .fail
    let c ← getCodes
    let (_, bs) ← regRead (baseReg c p) 5
    modifyBlk (fun b => { b with vTmp := bs })
    let _ ← regWrite (baseReg c p) (byteAt bs 0 :: baseBytes base)
    return .ok) s

/-- GET_RX_ADDRESS (42_config_access.md R195): pipes 2 to 5 take the base of RX_ADDR_P1 and their own suffix. -/
def execGetRxAddress (p : Pipe) (s : State) : Host.Outcome State Fault Refusal :=
  runHost (.getRxAddress p) (do
    if !pipeOk p then return .fail
    let c ← getCodes
    if p.toNat ≤ 1 then
      let (_, bs) ← regRead (c.regRxAddr p.toNat) 5
      return .addr (addrOf bs)
    else
      let (_, bs) ← regRead (c.regRxAddr 1) 5
      let v ← regReadByte (c.regRxAddr p.toNat)
      return .addr (joinAddr (baseOf bs) v)) s

/-- SET_RX_ADDRESS (42_config_access.md R196): pipes 2 to 5 write the suffix only. -/
def execSetRxAddress (p : Pipe) (addr : BitVec 40) (s : State) : Host.Outcome State Fault Refusal :=
  runHost (.setRxAddress p addr) (do
    if !pipeOk p then return .fail
    let c ← getCodes
    if p.toNat ≤ 1 then
      let _ ← regWrite (c.regRxAddr p.toNat) (addrBytes addr)
      return .ok
    else
      let _ ← regWrite (c.regRxAddr p.toNat) [addr.extractLsb' 0 8]
      return .ok) s

/-- GET_TX_ADDRESS (42_config_access.md R197). -/
def execGetTxAddress (s : State) : Host.Outcome State Fault Refusal :=
  runHost .getTxAddress (do
    let c ← getCodes
    let (_, bs) ← regRead c.regTxAddr 5
    return .addr (addrOf bs)) s

/-- SET_TX_ADDRESS (42_config_access.md R198): no RX address changes. -/
def execSetTxAddress (addr : BitVec 40) (s : State) : Host.Outcome State Fault Refusal :=
  runHost (.setTxAddress addr) (do
    let c ← getCodes
    let _ ← regWrite c.regTxAddr (addrBytes addr)
    return .ok) s

/-- Read the bit of a pipe in a per-pipe register (42_config_access.md R199, R201, R203). -/
def getPipeBit (reg : Codes → Reg) (bits : Codes → Vector Byte 6) (p : Pipe) : Op Result := do
  if !pipeOk p then return .fail
  let c ← getCodes
  let v ← regReadByte (reg c)
  return .flag (flagSet (pipeBit (bits c) p) v)

/-- Set or clear the bit of a pipe in a per-pipe register (42_config_access.md R200, R202, R204). -/
def setPipeBit (reg : Codes → Reg) (bits : Codes → Vector Byte 6) (p : Pipe) (e : Bool) : Op Result := do
  if !pipeOk p then return .fail
  let c ← getCodes
  if e then
    let _ ← rmw (reg c) 0 (pipeBit (bits c) p)
    return .ok
  else
    let _ ← rmw (reg c) (pipeBit (bits c) p) 0
    return .ok

/-- GET_DYN_PAYLOAD (42_config_access.md R199). -/
def execGetDynPayload (p : Pipe) (s : State) : Host.Outcome State Fault Refusal :=
  runHost (.getDynPayload p) (getPipeBit (·.regDynpd) (·.mDynpdP) p) s

/-- SET_DYN_PAYLOAD (42_config_access.md R200). -/
def execSetDynPayload (p : Pipe) (e : Bool) (s : State) : Host.Outcome State Fault Refusal :=
  runHost (.setDynPayload p e) (setPipeBit (·.regDynpd) (·.mDynpdP) p e) s

/-- GET_AUTO_ACK (42_config_access.md R201). -/
def execGetAutoAck (p : Pipe) (s : State) : Host.Outcome State Fault Refusal :=
  runHost (.getAutoAck p) (getPipeBit (·.regEnAa) (·.mEnAaP) p) s

/-- SET_AUTO_ACK (42_config_access.md R202). -/
def execSetAutoAck (p : Pipe) (e : Bool) (s : State) : Host.Outcome State Fault Refusal :=
  runHost (.setAutoAck p e) (setPipeBit (·.regEnAa) (·.mEnAaP) p e) s

/-- GET_PIPE_ENABLE (42_config_access.md R203). -/
def execGetPipeEnable (p : Pipe) (s : State) : Host.Outcome State Fault Refusal :=
  runHost (.getPipeEnable p) (getPipeBit (·.regEnRxaddr) (·.mEnRxaddrP) p) s

/-- SET_PIPE_ENABLE (42_config_access.md R204). -/
def execSetPipeEnable (p : Pipe) (e : Bool) (s : State) : Host.Outcome State Fault Refusal :=
  runHost (.setPipeEnable p e) (setPipeBit (·.regEnRxaddr) (·.mEnRxaddrP) p e) s

end Sys2Proof.Machine
end

