-- ==== Sys2Proof/Machine/EventLoop.lean ====
section
/-! DEFINITION. EventLoop and QueueManager (43_event_loop.md R230 to R246): INIT, the six steps of POLL, ENQUEUE_DATA, the
callback registrations, and the detector (R242). -/

namespace Sys2Proof.Machine

open Sys2Proof

/-- INIT (43_event_loop.md R230): five transactions. -/
def execInit (s : State) : Host.Outcome State Fault Refusal :=
  runHost .init (do
    let c ← getCodes
    let _ ← rmw c.regFeature (c.mEnDynAck ||| c.mEnAckPay) c.mEnDpl
    let _ ← regWrite c.regStatus [c.mRxDr ||| c.mTxDs ||| c.mMaxRt]
    let _ ← command (·.opcFlushRx)
    let _ ← command (·.opcFlushTx)
    return .ok) s

/-! ### The detector (43_event_loop.md R242) -/

/-- `det_rx_oversize`: the width just read is above 32. -/
def detRxOversize (w : Byte) : Bool := w.toNat > maxPayload

/-- `det_rxq_full`. The queue never exceeds its capacity (R245), so "equal" and "not less" agree there; R233 compares with
`<`. -/
def detRxqFull (s : State) : Bool := !(s.blk.rxq.length < s.cfg.rxqCap)

/-- `det_rxq_empty`. -/
def detRxqEmpty (s : State) : Bool := s.blk.rxq.isEmpty

/-- `det_txq_empty`. -/
def detTxqEmpty (s : State) : Bool := s.blk.txq.isEmpty

/-- `det_txq_full`. -/
def detTxqFull (s : State) : Bool := s.blk.txq.length == s.cfg.txqCap

/-- The latched status byte of this POLL (10_state.md R24); step 1 has written it (log 19). -/
def State.latched (s : State) : Byte := s.blk.pollStatus.getD 0

/-- `det_txfifo_full`: the full flag of the latched byte. -/
def detTxFifoFull (s : State) : Bool := flagSet s.cfg.codes.mTxFull s.latched

/-! ### POLL -/

/-- POLL step 1: latch the status (43_event_loop.md R232). -/
def pollStep1 : Op Unit := do
  let st ← command (·.opcNop)
  modifyBlk (fun b => { b with pollStatus := some st })

/-- The append of step 2: a full queue drops the new datagram (43_event_loop.md R233). -/
def appendRx (dg : Datagram) : Op Unit := fun s =>
  if detRxqFull s then .ok () s else .ok () (s.onBlk (fun b => { b with rxq := b.rxq ++ [dg] }))

/-- POLL step 2: RX data ready (43_event_loop.md R233). -/
def pollStep2 : Op Unit := do
  let s ← get
  let c := s.cfg.codes
  if flagSet c.mRxDr s.latched then
    modifyBlk (fun b => { b with pLat := rxPNo c s.latched })
    let (_, ws) ← xact c.opcRRxPlWid [fill]
    let w := byteAt ws 0
    modifyBlk (fun b => { b with wLat := w })
    if detRxOversize w then
      let _ ← command (·.opcFlushRx)
    else
      let (_, bs) ← xact c.opcRRxPayload (List.replicate w.toNat fill)
      let t ← get
      appendRx ⟨t.blk.pLat, bs⟩
    let _ ← regWrite c.regStatus [c.mRxDr]

/-- POLL step 3: TX data sent; the callback comes before the write-back (43_event_loop.md R234). -/
def pollStep3 : Op Unit := do
  let s ← get
  let c := s.cfg.codes
  if flagSet c.mTxDs s.latched then
    invokeCallback s.blk.txCb (fun f => .cbTx f.fn f.ctx)
    let _ ← regWrite c.regStatus [c.mTxDs]

/-- POLL step 4: maximum retransmissions; no callback (43_event_loop.md R235). -/
def pollStep4 : Op Unit := do
  let s ← get
  let c := s.cfg.codes
  if flagSet c.mMaxRt s.latched then
    let _ ← command (·.opcFlushTx)
    let _ ← regWrite c.regStatus [c.mMaxRt]

/-- POLL step 5: deliver one received datagram; the head leaves before the callback (43_event_loop.md R236;
60_exceptions.md R276). -/
def pollStep5 : Op Unit := do
  let s ← get
  match s.blk.rxq with
  | [] => return ()
  | dg :: rest =>
    modifyBlk (fun b => { b with rxq := rest })
    invokeCallback s.blk.rxCb (fun f => .cbRx f.fn f.ctx dg)

/-- POLL step 6: drain one datagram; the full flag is the latched one (43_event_loop.md R237). -/
def pollStep6 : Op Unit := do
  let s ← get
  match s.blk.txq with
  | [] => return ()
  | dg :: rest =>
    if !detTxFifoFull s then
      let _ ← xact s.cfg.codes.opcWTxPayload dg.bytes
      modifyBlk (fun b => { b with txq := rest })

/-- POLL (43_event_loop.md R231). -/
def execPoll (s : State) : Host.Outcome State Fault Refusal :=
  runHost .poll (do
    pollStep1
    pollStep2
    pollStep3
    pollStep4
    pollStep5
    pollStep6
    return .ok) s

/-! ### The queue and the registrations -/

/-- ENQUEUE_DATA (43_event_loop.md R239). -/
def execEnqueueData (dg : Datagram) (s : State) : Host.Outcome State Fault Refusal :=
  runHost (.enqueueData dg) (do
    let t ← get
    if detTxqFull t then return .fail
    modifyBlk (fun b => { b with txq := b.txq ++ [dg] })
    return .ok) s

/-- SET_RX_CALLBACK (43_event_loop.md R240). -/
def execSetRxCallback (cb : Option Callback) (s : State) : Host.Outcome State Fault Refusal :=
  runHost (.setRxCallback cb) (do
    modifyBlk (fun b => { b with rxCb := cb })
    return .ok) s

/-- SET_TX_CALLBACK (43_event_loop.md R241). -/
def execSetTxCallback (cb : Option Callback) (s : State) : Host.Outcome State Fault Refusal :=
  runHost (.setTxCallback cb) (do
    modifyBlk (fun b => { b with txCb := cb })
    return .ok) s

end Sys2Proof.Machine
end

