-- ==== Sys2Proof/Machine/ModeControl.lean ====
section
/-! DEFINITION. The mode state machine and the listening operations (41_mode_control.md R160 to R170). -/

namespace Sys2Proof.Machine

open Sys2Proof

/-- `S.mode <- m`, the last step of an ENTER operation (41_mode_control.md R168). -/
def setMode (m : Mode) : Op Unit := modifyBlk (fun b => { b with mode := m })

/-- ENTER_SHUTDOWN (41_mode_control.md R161). -/
def execEnterShutdown (s : State) : Host.Outcome State Fault Refusal :=
  runHost .enterShutdown (do
    let c ← getCodes
    driveCe false
    let _ ← rmw c.regConfig c.mPwrUp 0
    setMode .shutDown
    return .ok) s

/-- ENTER_STANDBY (41_mode_control.md R162). -/
def execEnterStandby (s : State) : Host.Outcome State Fault Refusal :=
  runHost .enterStandby (do
    let c ← getCodes
    driveCe false
    let _ ← rmw c.regConfig 0 c.mPwrUp
    setMode .standby
    return .ok) s

/-- ENTER_RX (41_mode_control.md R163, R167). -/
def execEnterRx (s : State) : Host.Outcome State Fault Refusal :=
  runHost .enterRx (do
    let c ← getCodes
    let _ ← rmw c.regConfig 0 (c.mPwrUp ||| c.mPrimRx)
    driveCe true
    delay s.cfg.tRxSettle
    setMode .rx
    return .ok) s

/-- ENTER_TX (41_mode_control.md R164, R167). -/
def execEnterTx (s : State) : Host.Outcome State Fault Refusal :=
  runHost .enterTx (do
    let c ← getCodes
    let _ ← rmw c.regConfig c.mPrimRx c.mPwrUp
    driveCe true
    delay s.cfg.tTxSettle
    setMode .tx
    return .ok) s

/-- START_LISTENING (41_mode_control.md R165). -/
def execStartListening (p : Pipe) (s : State) : Host.Outcome State Fault Refusal :=
  runHost (.startListening p) (do
    if !pipeOk p then return .fail
    let c ← getCodes
    let _ ← rmw c.regDynpd 0 (pipeBit c.mDynpdP p)
    let _ ← rmw c.regEnAa 0 (pipeBit c.mEnAaP p)
    let _ ← rmw c.regEnRxaddr 0 (pipeBit c.mEnRxaddrP p)
    return .ok) s

/-- STOP_LISTENING (41_mode_control.md R166). -/
def execStopListening (p : Pipe) (s : State) : Host.Outcome State Fault Refusal :=
  runHost (.stopListening p) (do
    if !pipeOk p then return .fail
    let c ← getCodes
    let _ ← rmw c.regDynpd (pipeBit c.mDynpdP p) 0
    let _ ← rmw c.regEnAa (pipeBit c.mEnAaP p) 0
    let _ ← rmw c.regEnRxaddr (pipeBit c.mEnRxaddrP p) 0
    return .ok) s

end Sys2Proof.Machine
end

