-- ==== Sys2Proof/Machine/RegisterProtocol.lean ====
section
/-! DEFINITION. The RegisterProtocol operations (40_register_protocol.md R131 to R141): one transaction each, and its status
byte returned (R142). -/

namespace Sys2Proof.Machine

open Sys2Proof

/-- RP_READ_REGISTER (40_register_protocol.md R131). -/
def execRpReadRegister (a : Reg) (n : Nat) (s : State) : Host.Outcome State Fault Refusal :=
  runHost (.rpReadRegister a n) (do
    let (st, bs) ← regRead a n
    return .statusBytes st bs) s

/-- RP_WRITE_REGISTER (40_register_protocol.md R132). -/
def execRpWriteRegister (a : Reg) (bs : List Byte) (s : State) : Host.Outcome State Fault Refusal :=
  runHost (.rpWriteRegister a bs) (do
    let st ← regWrite a bs
    return .status st) s

/-- RP_READ_PAYLOAD (40_register_protocol.md R133). -/
def execRpReadPayload (n : Nat) (s : State) : Host.Outcome State Fault Refusal :=
  runHost (.rpReadPayload n) (do
    let c ← getCodes
    let (st, bs) ← xact c.opcRRxPayload (List.replicate n fill)
    return .statusBytes st bs) s

/-- RP_WRITE_PAYLOAD (40_register_protocol.md R134): TX_FULL is not looked at. -/
def execRpWritePayload (bs : List Byte) (s : State) : Host.Outcome State Fault Refusal :=
  runHost (.rpWritePayload bs) (do
    let c ← getCodes
    let (st, _) ← xact c.opcWTxPayload bs
    return .status st) s

/-- RP_FLUSH_RX (40_register_protocol.md R135). -/
def execRpFlushRx (s : State) : Host.Outcome State Fault Refusal :=
  runHost .rpFlushRx (do
    let st ← command (·.opcFlushRx)
    return .status st) s

/-- RP_FLUSH_TX (40_register_protocol.md R136). -/
def execRpFlushTx (s : State) : Host.Outcome State Fault Refusal :=
  runHost .rpFlushTx (do
    let st ← command (·.opcFlushTx)
    return .status st) s

/-- RP_REUSE_TX_PL (40_register_protocol.md R137). -/
def execRpReuseTxPl (s : State) : Host.Outcome State Fault Refusal :=
  runHost .rpReuseTxPl (do
    let st ← command (·.opcReuseTxPl)
    return .status st) s

/-- RP_READ_PAYLOAD_WIDTH (40_register_protocol.md R138): the raw width byte, not compared with 32. -/
def execRpReadPayloadWidth (s : State) : Host.Outcome State Fault Refusal :=
  runHost .rpReadPayloadWidth (do
    let c ← getCodes
    let (st, bs) ← xact c.opcRRxPlWid [fill]
    return .statusWidth st (byteAt bs 0)) s

/-- RP_WRITE_ACK_PAYLOAD (40_register_protocol.md R139): pipes 6 and 7 are sent as composed. -/
def execRpWriteAckPayload (p : Pipe) (bs : List Byte) (s : State) : Host.Outcome State Fault Refusal :=
  runHost (.rpWriteAckPayload p bs) (do
    let c ← getCodes
    let (st, _) ← xact (opWithPipe c.opcWAckPayload p) bs
    return .status st) s

/-- RP_WRITE_NOACK_PAYLOAD (40_register_protocol.md R140). -/
def execRpWriteNoackPayload (bs : List Byte) (s : State) : Host.Outcome State Fault Refusal :=
  runHost (.rpWriteNoackPayload bs) (do
    let c ← getCodes
    let (st, _) ← xact c.opcWTxPayloadNoack bs
    return .status st) s

/-- RP_NOP (40_register_protocol.md R141). -/
def execRpNop (s : State) : Host.Outcome State Fault Refusal :=
  runHost .rpNop (do
    let st ← command (·.opcNop)
    return .status st) s

end Sys2Proof.Machine
end

