-- ==== Sys2Proof/Machine/Wire.lean ====
section
/-! DEFINITION. The wire commands (30_encoding.md R106): each is one transaction of the block with its frame
(40_register_protocol.md R130), answered by the peer's rule of the command (20_memory.md R84 to R94). -/

namespace Sys2Proof.Machine

open Sys2Proof

/-- R_REGISTER: `OPC_R_REGISTER | a` and `n` fillers (40_register_protocol.md R131; 20_memory.md R84). -/
def execRRegister (a : Reg) (n : Nat) (s : State) : Host.Outcome State Fault Refusal :=
  runWire (.rRegister a n) (xact (opWithReg s.cfg.codes.opcRRegister a) (List.replicate n fill)) s

/-- W_REGISTER: `OPC_W_REGISTER | a` and the bytes (40_register_protocol.md R132; 20_memory.md R85). -/
def execWRegister (a : Reg) (bs : List Byte) (s : State) : Host.Outcome State Fault Refusal :=
  runWire (.wRegister a bs) (xact (opWithReg s.cfg.codes.opcWRegister a) bs) s

/-- R_RX_PL_WID: one filler (40_register_protocol.md R138; 20_memory.md R86). -/
def execRRxPlWid (s : State) : Host.Outcome State Fault Refusal :=
  runWire .rRxPlWid (xact s.cfg.codes.opcRRxPlWid [fill]) s

/-- R_RX_PAYLOAD: `n` fillers (40_register_protocol.md R133; 20_memory.md R87). -/
def execRRxPayload (n : Nat) (s : State) : Host.Outcome State Fault Refusal :=
  runWire (.rRxPayload n) (xact s.cfg.codes.opcRRxPayload (List.replicate n fill)) s

/-- W_TX_PAYLOAD: the bytes (40_register_protocol.md R134; 20_memory.md R88). -/
def execWTxPayload (bs : List Byte) (s : State) : Host.Outcome State Fault Refusal :=
  runWire (.wTxPayload bs) (xact s.cfg.codes.opcWTxPayload bs) s

/-- W_ACK_PAYLOAD: `OPC_W_ACK_PAYLOAD | p` and the bytes (40_register_protocol.md R139; 20_memory.md R89). -/
def execWAckPayload (p : Pipe) (bs : List Byte) (s : State) : Host.Outcome State Fault Refusal :=
  runWire (.wAckPayload p bs) (xact (opWithPipe s.cfg.codes.opcWAckPayload p) bs) s

/-- W_TX_PAYLOAD_NOACK: the bytes (40_register_protocol.md R140; 20_memory.md R90). -/
def execWTxPayloadNoack (bs : List Byte) (s : State) : Host.Outcome State Fault Refusal :=
  runWire (.wTxPayloadNoack bs) (xact s.cfg.codes.opcWTxPayloadNoack bs) s

/-- FLUSH_TX: no data (40_register_protocol.md R136; 20_memory.md R91). -/
def execFlushTx (s : State) : Host.Outcome State Fault Refusal :=
  runWire .flushTx (xact s.cfg.codes.opcFlushTx []) s

/-- FLUSH_RX: no data (40_register_protocol.md R135; 20_memory.md R92). -/
def execFlushRx (s : State) : Host.Outcome State Fault Refusal :=
  runWire .flushRx (xact s.cfg.codes.opcFlushRx []) s

/-- REUSE_TX_PL: no data (40_register_protocol.md R137; 20_memory.md R93). -/
def execReuseTxPl (s : State) : Host.Outcome State Fault Refusal :=
  runWire .reuseTxPl (xact s.cfg.codes.opcReuseTxPl []) s

/-- NOP: no data (40_register_protocol.md R141; 20_memory.md R94). -/
def execNop (s : State) : Host.Outcome State Fault Refusal :=
  runWire .nop (xact s.cfg.codes.opcNop []) s

end Sys2Proof.Machine
end

