-- ==== Sys2Proof/Machine/Dispatch.lean ====
section
/-! DEFINITION. The meaning of every instruction, by constructor. -/

namespace Sys2Proof.Machine

open Sys2Proof

/-- The effect of an instruction on a state. -/
def exec (i : Instr) (s : State) : Host.Outcome State Fault Refusal :=
  match i with
  | .rRegister a n => Sys2Proof.Machine.execRRegister a n s
  | .wRegister a bs => Sys2Proof.Machine.execWRegister a bs s
  | .rRxPlWid => Sys2Proof.Machine.execRRxPlWid s
  | .rRxPayload n => Sys2Proof.Machine.execRRxPayload n s
  | .wTxPayload bs => Sys2Proof.Machine.execWTxPayload bs s
  | .wAckPayload p bs => Sys2Proof.Machine.execWAckPayload p bs s
  | .wTxPayloadNoack bs => Sys2Proof.Machine.execWTxPayloadNoack bs s
  | .flushTx => Sys2Proof.Machine.execFlushTx s
  | .flushRx => Sys2Proof.Machine.execFlushRx s
  | .reuseTxPl => Sys2Proof.Machine.execReuseTxPl s
  | .nop => Sys2Proof.Machine.execNop s
  | .rpReadRegister a n => Sys2Proof.Machine.execRpReadRegister a n s
  | .rpWriteRegister a bs => Sys2Proof.Machine.execRpWriteRegister a bs s
  | .rpReadPayload n => Sys2Proof.Machine.execRpReadPayload n s
  | .rpWritePayload bs => Sys2Proof.Machine.execRpWritePayload bs s
  | .rpFlushRx => Sys2Proof.Machine.execRpFlushRx s
  | .rpFlushTx => Sys2Proof.Machine.execRpFlushTx s
  | .rpReuseTxPl => Sys2Proof.Machine.execRpReuseTxPl s
  | .rpReadPayloadWidth => Sys2Proof.Machine.execRpReadPayloadWidth s
  | .rpWriteAckPayload p bs => Sys2Proof.Machine.execRpWriteAckPayload p bs s
  | .rpWriteNoackPayload bs => Sys2Proof.Machine.execRpWriteNoackPayload bs s
  | .rpNop => Sys2Proof.Machine.execRpNop s
  | .enterShutdown => Sys2Proof.Machine.execEnterShutdown s
  | .enterStandby => Sys2Proof.Machine.execEnterStandby s
  | .enterRx => Sys2Proof.Machine.execEnterRx s
  | .enterTx => Sys2Proof.Machine.execEnterTx s
  | .startListening p => Sys2Proof.Machine.execStartListening p s
  | .stopListening p => Sys2Proof.Machine.execStopListening p s
  | .getCrc => Sys2Proof.Machine.execGetCrc s
  | .setCrc m => Sys2Proof.Machine.execSetCrc m s
  | .getChannel => Sys2Proof.Machine.execGetChannel s
  | .setChannel ch => Sys2Proof.Machine.execSetChannel ch s
  | .getDataRate => Sys2Proof.Machine.execGetDataRate s
  | .setDataRate r => Sys2Proof.Machine.execSetDataRate r s
  | .getOutputPower => Sys2Proof.Machine.execGetOutputPower s
  | .setOutputPower w => Sys2Proof.Machine.execSetOutputPower w s
  | .getRetryCount => Sys2Proof.Machine.execGetRetryCount s
  | .setRetryCount ch => Sys2Proof.Machine.execSetRetryCount ch s
  | .getRetryDelay => Sys2Proof.Machine.execGetRetryDelay s
  | .setRetryDelay d => Sys2Proof.Machine.execSetRetryDelay d s
  | .getRxBaseAddress p => Sys2Proof.Machine.execGetRxBaseAddress p s
  | .setRxBaseAddress p base => Sys2Proof.Machine.execSetRxBaseAddress p base s
  | .getRxAddress p => Sys2Proof.Machine.execGetRxAddress p s
  | .setRxAddress p addr => Sys2Proof.Machine.execSetRxAddress p addr s
  | .getTxAddress => Sys2Proof.Machine.execGetTxAddress s
  | .setTxAddress addr => Sys2Proof.Machine.execSetTxAddress addr s
  | .getDynPayload p => Sys2Proof.Machine.execGetDynPayload p s
  | .setDynPayload p e => Sys2Proof.Machine.execSetDynPayload p e s
  | .getAutoAck p => Sys2Proof.Machine.execGetAutoAck p s
  | .setAutoAck p e => Sys2Proof.Machine.execSetAutoAck p e s
  | .getPipeEnable p => Sys2Proof.Machine.execGetPipeEnable p s
  | .setPipeEnable p e => Sys2Proof.Machine.execSetPipeEnable p e s
  | .init => Sys2Proof.Machine.execInit s
  | .poll => Sys2Proof.Machine.execPoll s
  | .enqueueData dg => Sys2Proof.Machine.execEnqueueData dg s
  | .setRxCallback cb => Sys2Proof.Machine.execSetRxCallback cb s
  | .setTxCallback cb => Sys2Proof.Machine.execSetTxCallback cb s

end Sys2Proof.Machine
end

