-- ==== Sys2Proof/Machine/Fetch.lean ====
section
/-! DEFINITION. How an operation reaches the block (00_scope.md R7; 30_encoding.md R112, R113): the request at the head of the
inbox is read by the decoder; what is no operation is answered or refused by name (log 16, log 23). -/

namespace Sys2Proof.Machine

open Sys2Proof

/-- The request is taken from the inbox, with what it says of the calls that return. -/
def State.take (r : Request) (rest : List Input) (s : State) : State :=
  { s with inbox := rest, env := { s.env with allow := r.allow } }

/-- Decode a request with the configuration of the state. -/
def State.decodeRequest (s : State) (r : Request) : Except DecodeError (Instr × List Byte) :=
  decode s.cfg r.port r.bytes

/-- A request that is no instruction: an undefined operation number or operand gives FAIL (30_encoding.md R113, R119); an
incomplete operand list and bytes that are no frame are refused. -/
def rejectRequest (e : DecodeError) (s : State) : Host.Outcome State Fault Refusal :=
  match e with
  | .noOperation _ => refuseRequest s
  | .badOperand => refuseRequest s
  | .truncated => .refused .truncatedRequest
  | .noCommand _ => .refused .notAFrame
  | .badLength => .refused .notAFrame

/-- The block waits for the host (00_scope.md R7); a busy block with nothing presented is stuck (60_exceptions.md R288). -/
def waitForHost (s : State) : Host.Outcome State Fault Refusal :=
  if s.idle then .next s else .fault .stuck

/-- Reset reaches the block (70_reset_and_hazards.md R300). -/
def takeReset (rest : List Input) (s : State) : Host.Outcome State Fault Refusal :=
  .next { s.applyReset with inbox := rest }

/-- The request of a word of spec/opcode_table.json (log 1). -/
def wordRequest (nbits w : Nat) : Request :=
  { port := (tableRequest nbits w).1, bytes := (tableRequest nbits w).2, allow := none }

/-- The block idle, and the request of a table word presented next. -/
def State.present (nbits w : Nat) (s : State) : State :=
  { s.finish with inbox := .op (wordRequest nbits w) :: s.inbox }

end Sys2Proof.Machine
end

