-- ==== Sys2Proof/Machine/Step.lean ====
section
/-! DEFINITION. One step of the machine: the next input is taken, and a host operation or wire command runs to its result
(10_state.md R31: "A model may run an operation as one function over the peer oracle"). -/

namespace Sys2Proof.Machine

open Sys2Proof

/-- One step. A configuration that breaks 00_scope.md R5 is refused. -/
def step (s : State) : Host.Outcome State Fault Refusal :=
  if !s.cfg.ok then .refused .badConfig else
  match s.inbox with
  | [] => waitForHost s
  | .reset :: rest => takeReset rest s
  | .op r :: rest =>
    match s.decodeRequest r with
    | .ok (i, _) => exec i (s.take r rest)
    | .error e => rejectRequest e (s.take r rest)

/-- The state in which the very next step runs the instruction of a table word. -/
def State.withFetchWord (s : State) (nbits w : Nat) : State := s.present nbits w

end Sys2Proof.Machine
end

