-- ==== Sys2Proof/Safety.lean ====
section
/-! DEFINITION. The terms claims are made in: when an operation runs to its end, what a state keeps, the invariant of every
step, the mode mirror (10_state.md R51), and the event sequences of the shared operations. -/

namespace Sys2Proof.Machine

open Sys2Proof

/-! ### Premises -/

/-- The block is idle and every interface call returns: the source's assumption (00_scope.md R9; 60_exceptions.md R288). -/
abbrev State.Ready (s : State) : Prop := s.blk.seq = .idle ∧ s.env.allow = none

/-- The peer keeps the contract of 20_memory.md R62 to R70: levels L1 and L2 (R80). -/
abbrev State.PeerKeepsContract (s : State) : Prop := s.env.level ≠ .any

/-- The radio's moves to come leave the peer its power (70_reset_and_hazards.md R311 c). -/
abbrev State.KeepsPower (s : State) : Prop := ∀ ms ∈ s.env.radio, Move.powerLoss ∉ ms

/-- The radio makes no move (20_memory.md R76). -/
abbrev State.RadioQuiet (s : State) : Prop := ∀ ms ∈ s.env.radio, ms = []

/-- The instruction is a host operation. -/
abbrev IsHost (c : Config) (i : Instr) : Prop := (encode c i).1 = .host

/-- The instruction is a wire command. -/
abbrev IsWire (c : Config) (i : Instr) : Prop := (encode c i).1 = .wire

/-- The pipe operand an operation checks (30_encoding.md R119 a); RP_WRITE_ACK_PAYLOAD and the datagram of ENQUEUE_DATA have
none. -/
def checkedPipe : Instr → Option Pipe
  | .startListening p => some p
  | .stopListening p => some p
  | .getRxBaseAddress p => some p
  | .setRxBaseAddress p _ => some p
  | .getRxAddress p => some p
  | .setRxAddress p _ => some p
  | .getDynPayload p => some p
  | .setDynPayload p _ => some p
  | .getAutoAck p => some p
  | .setAutoAck p _ => some p
  | .getPipeEnable p => some p
  | .setPipeEnable p _ => some p
  | _ => none

/-- An ENTER operation, with its mode (41_mode_control.md R160). -/
def enterMode : Instr → Option Mode
  | .enterShutdown => some .shutDown
  | .enterStandby => some .standby
  | .enterRx => some .rx
  | .enterTx => some .tx
  | _ => none

/-- The wire commands that carry data bytes: the write-style ones (30_encoding.md R106). -/
abbrev CarriesData (i : Instr) : Prop :=
  (∃ a d, i = .wRegister a d) ∨ (∃ d, i = .wTxPayload d) ∨ (∃ p d, i = .wAckPayload p d) ∨ ∃ d, i = .wTxPayloadNoack d

/-- Each mask of the wire table is the class bits of its layout (30_encoding.md R103 to R105): the default of `cfg`. -/
abbrev MasksFollowLayouts (c : Codes) : Prop := ∀ r ∈ c.wireTable, r.pat.mask = ~~~r.operand

/-- In EN_AA, EN_RXADDR and DYNPD the bit position is the pipe number (10_state.md R38, R39, R47): the default of `cfg`. -/
abbrev BitPerPipe (c : Codes) : Prop :=
  ∀ bits ∈ [c.mDynpdP, c.mEnAaP, c.mEnRxaddrP], bits = #v[0x01, 0x02, 0x04, 0x08, 0x10, 0x20]

/-! ### The invariant -/

/-- An entry of the RX FIFO has the shape of 20_memory.md R81. -/
abbrev RxEntry.Wf (e : RxEntry) : Prop := e.pipe.toNat < nPipes ∧ e.bytes.length = min e.width.toNat maxPayload

/-- The kind of a TX FIFO entry names a pipe (20_memory.md R81, R89). -/
def TxKind.wf : TxKind → Bool
  | .plain => true
  | .noack => true
  | .ack p => p.toNat < nPipes

/-- An entry of the TX FIFO has the shape of 20_memory.md R81. -/
abbrev TxEntry.Wf (e : TxEntry) : Prop := e.kind.wf = true ∧ e.bytes.length ≤ maxPayload

/-- The peer state has the shape of 20_memory.md R81: memory canonical, FIFOs within their depth. -/
abbrev Peer.Wf (c : Config) (p : Peer) : Prop :=
  Memory.wf c.codes p.mem = true
    ∧ p.rxf.length ≤ c.fifoDepth ∧ (∀ e ∈ p.rxf, RxEntry.Wf e)
    ∧ p.txf.length ≤ c.fifoDepth ∧ (∀ e ∈ p.txf, TxEntry.Wf e)

/-- The block state has the shape of 10_state.md R20 to R32: queues within their capacities, datagrams of at most 32 bytes,
tokens of `CB_W` bits, at most 5 bytes latched; and no received datagram waits while the block is idle
(70_reset_and_hazards.md R320). -/
abbrev Block.Wf (c : Config) (b : Block) : Prop :=
  b.rxq.length ≤ c.rxqCap ∧ (∀ d ∈ b.rxq, d.wf = true)
    ∧ b.txq.length ≤ c.txqCap ∧ (∀ d ∈ b.txq, d.wf = true)
    ∧ callbackOperandOk c b.rxCb = true ∧ callbackOperandOk c b.txCb = true
    ∧ b.vTmp.length ≤ 5
    ∧ (b.seq = .idle → b.rxq = [])

/-- The invariant of every step. -/
abbrev State.Inv (s : State) : Prop := Block.Wf s.cfg s.blk ∧ Peer.Wf s.cfg s.peer

/-! ### The mode mirror -/

/-- The peer's CONFIG byte. -/
def configByte (s : State) : Byte := Memory.read s.cfg.codes s.peer.mem (cellOf s.cfg.codes.regConfig 0)

/-- The table of 10_state.md R51: the mode, `ce`, PWR_UP and PRIM_RX agree. -/
abbrev State.Mirror (s : State) : Prop :=
  match s.blk.mode with
  | .shutDown => s.blk.ce = false ∧ flagSet s.cfg.codes.mPwrUp (configByte s) = false
  | .standby => s.blk.ce = false ∧ flagSet s.cfg.codes.mPwrUp (configByte s) = true
  | .rx => s.blk.ce = true ∧ flagSet s.cfg.codes.mPwrUp (configByte s) = true
      ∧ flagSet s.cfg.codes.mPrimRx (configByte s) = true
  | .tx => s.blk.ce = true ∧ flagSet s.cfg.codes.mPwrUp (configByte s) = true
      ∧ flagSet s.cfg.codes.mPrimRx (configByte s) = false

/-! ### The latches -/

/-- The status byte of the last transaction of a run of events, or the earlier one (10_state.md R23). -/
def latestStatus (before : Option Byte) (evs : List Event) : Option Byte :=
  evs.foldl (fun l e => match e with | .xfer _ rx => some (byteAt rx 0) | _ => l) before

/-- The exchange buffer after a run of events: each answer overwrites the positions of its frame (10_state.md R25). -/
def bufferAfter (before : Vector Byte 33) (evs : List Event) : Vector Byte 33 :=
  evs.foldl (fun b e => match e with | .xfer _ rx => loadXbuf rx b | _ => b) before

/-! ### Frames -/

/-- The operation has completed: idle again, with these events and results added; the status latch and the exchange buffer
follow the events (40_register_protocol.md R130); the configuration, the inbox, the peer's level and the allowance of calls
are as they were. -/
abbrev Done (s t : State) (evs : List Event) (rs : List Result) : Prop :=
  t.blk.seq = .idle ∧ t.trace = s.trace ++ evs ∧ t.results = s.results ++ rs
    ∧ t.blk.lastStatus = latestStatus s.blk.lastStatus evs ∧ t.blk.xbuf = bufferAfter s.blk.xbuf evs
    ∧ t.cfg = s.cfg ∧ t.inbox = s.inbox ∧ t.env.level = s.env.level ∧ t.env.allow = s.env.allow

/-- The mode and the chip-enable output are as they were. -/
abbrev KeepsMode (s t : State) : Prop := t.blk.mode = s.blk.mode ∧ t.blk.ce = s.blk.ce

/-- The queues, the registrations and the latches of POLL are as they were. -/
abbrev KeepsQueues (s t : State) : Prop :=
  t.blk.rxq = s.blk.rxq ∧ t.blk.txq = s.blk.txq ∧ t.blk.rxCb = s.blk.rxCb ∧ t.blk.txCb = s.blk.txCb
    ∧ t.blk.pollStatus = s.blk.pollStatus ∧ t.blk.wLat = s.blk.wLat ∧ t.blk.pLat = s.blk.pLat

/-- The block outside the status latch and the exchange buffer is as it was ("Nothing else of the block changes",
40_register_protocol.md R130). -/
abbrev KeepsRest (s t : State) : Prop := KeepsMode s t ∧ KeepsQueues s t ∧ t.blk.vTmp = s.blk.vTmp

/-- The peer outside its register space is as it was: flags, FIFOs and reuse. -/
abbrev KeepsFifos (p q : Peer) : Prop :=
  q.rxDr = p.rxDr ∧ q.txDs = p.txDs ∧ q.maxRt = p.maxRt ∧ q.txReuse = p.txReuse ∧ q.rxf = p.rxf ∧ q.txf = p.txf

/-! ### The peer -/

/-- The peer as the next transaction finds it: after the radio's moves (20_memory.md R76). -/
def State.peerNow (s : State) : Peer :=
  applyMoves s.env.level s.cfg (2 * s.env.ctr) s.peer (s.env.radio.headD [])

/-- One exchange took `s` to `t`, with frame `tx` and answer `rx`: the answer has the frame's length (00_scope.md R9); an L0
peer has no state that changes; a peer at L1 or L2 makes its radio moves and then the transaction (20_memory.md R76,
R83). -/
abbrev OneExchange (s t : State) (tx rx : List Byte) : Prop :=
  rx.length = tx.length
    ∧ (s.env.level = .any → t.peer = s.peer)
    ∧ (s.PeerKeepsContract → (t.peer, rx) = peerXfer s.env.level s.cfg (2 * s.env.ctr + 1) s.peerNow tx)

/-- A byte of the peer's register space. -/
abbrev State.cell (s : State) (k : Nat) : Byte := Memory.read s.cfg.codes s.peer.mem k

/-- Cell 0 of a register. -/
abbrev regCell (a : Reg) : Nat := cellOf a 0

/-- The byte a one-byte register holds. -/
abbrev State.regByte (s : State) (a : Reg) : Byte := s.cell (regCell a)

/-- The cell of OBSERVE_TX, the one register the radio changes (20_memory.md R76). -/
abbrev State.observeCell (s : State) : Nat := regCell s.cfg.codes.regObserveTx

/-- A peer that keeps the contract, with the default codes and its registers in canonical form: the premise under which a
write takes effect as written (20_memory.md R67; 93_implementation_defined.md U14), while powered down too (log 32). -/
abbrev State.FaithfulPeer (s : State) : Prop :=
  s.cfg.codes = Codes.standard ∧ s.PeerKeepsContract ∧ Memory.wf s.cfg.codes s.peer.mem = true

/-- Every cell outside `stored` reads as before, but the one the radio may change. -/
abbrev KeepsCellsBut (s t : State) (stored : Nat → Prop) : Prop :=
  ∀ k, ¬ stored k → k ≠ s.observeCell → t.cell k = s.cell k

/-- With a quiet radio, OBSERVE_TX and all of the peer but its registers are as before. -/
abbrev QuietKeeps (s t : State) : Prop := t.cell s.observeCell = s.cell s.observeCell ∧ KeepsFifos s.peer t.peer

/-! ### Shared operations, for any peer and for a peer that keeps the contract -/

/-- `RegRead(a, n)` read the bytes `bs` (40_register_protocol.md R131). -/
abbrev ReadsReg (c : Codes) (a : Reg) (n : Nat) (bs : List Byte) (evs : List Event) : Prop :=
  ∃ st, bs.length = n ∧ evs = [.xfer (opWithReg c.opcRRegister a :: List.replicate n fill) (st :: bs)]

/-- One frame of a write-style command, whatever is answered (30_encoding.md R108). -/
abbrev Sends (op : Byte) (data : List Byte) (evs : List Event) : Prop :=
  ∃ rx, rx.length = data.length + 1 ∧ evs = [.xfer (op :: data) rx]

/-- `RegWrite(a, bs)` (40_register_protocol.md R132). -/
abbrev WritesReg (c : Codes) (a : Reg) (bs : List Byte) (evs : List Event) : Prop :=
  Sends (opWithReg c.opcWRegister a) bs evs

/-- A command with no data (30_encoding.md R106). -/
abbrev Commands (op : Byte) (evs : List Event) : Prop := ∃ st, evs = [.xfer [op] [st]]

/-- `RMW(a, clr, set)` on the byte `v` it read (40_register_protocol.md R144). -/
abbrev RmwEvents (c : Codes) (a : Reg) (v clr ones : Byte) (evs : List Event) : Prop :=
  ∃ e1 e2, ReadsReg c a 1 [v] e1 ∧ WritesReg c a [(v &&& ~~~clr) ||| ones] e2 ∧ evs = e1 ++ e2

/-- One RMW of a register: on the bus, for any peer, two transactions on the byte `v` read, which `S.v_tmp` then holds; in a
peer that keeps the contract the register takes its new byte and every other cell reads as before
(40_register_protocol.md R144; 30_encoding.md R116; 20_memory.md R67). -/
abbrev UpdatesReg (s t : State) (a : Reg) (clr ones : Byte) (evs : List Event) : Prop :=
  (∃ v, RmwEvents s.cfg.codes a v clr ones evs ∧ t.blk.vTmp = [v])
    ∧ (s.FaithfulPeer → s.KeepsPower →
        t.regByte a = (s.regByte a &&& ~~~clr) ||| ones ∧ KeepsCellsBut s t (· = regCell a))
    ∧ (s.FaithfulPeer → s.RadioQuiet → QuietKeeps s t)
    ∧ (s.env.level = .any → t.peer = s.peer)

/-- A read of `n` bytes of a register: on the bus, for any peer, the bytes `bs`; in a peer that keeps the contract `bs` are the
register's bytes, and every cell reads as before (20_memory.md R64, R74). -/
abbrev ReadsBytes (s t : State) (a : Reg) (n : Nat) (bs : List Byte) (evs : List Event) : Prop :=
  ReadsReg s.cfg.codes a n bs evs
    ∧ (s.FaithfulPeer → s.KeepsPower →
        (∀ i < n, bs[i]? = some (s.cell (cellOf a i))) ∧ KeepsCellsBut s t (fun _ => False))
    ∧ (s.FaithfulPeer → s.RadioQuiet → t.peer = s.peer)
    ∧ (s.env.level = .any → t.peer = s.peer)

/-- A write of all bytes of a register: on the bus, for any peer, one frame; in a peer that keeps the contract the register's
cells take the bytes and every other cell reads as before (20_memory.md R67, R72). -/
abbrev StoresBytes (s t : State) (a : Reg) (bs : List Byte) (evs : List Event) : Prop :=
  WritesReg s.cfg.codes a bs evs
    ∧ (s.FaithfulPeer → s.KeepsPower →
        (∀ i < bs.length, some (t.cell (cellOf a i)) = bs[i]?)
          ∧ KeepsCellsBut s t (fun k => cellOf a 0 ≤ k ∧ k < cellOf a bs.length))
    ∧ (s.FaithfulPeer → s.RadioQuiet → QuietKeeps s t)
    ∧ (s.env.level = .any → t.peer = s.peer)

/-- The states agree on all that an operation reads or shows: they may differ in the mode, `ce`, the status latches, the
exchange buffer and the working latches (10_state.md R21 to R25, R32). -/
abbrev AgreeButHidden (s u : State) : Prop :=
  s.cfg = u.cfg ∧ s.peer = u.peer ∧ s.env = u.env ∧ s.trace = u.trace ∧ s.results = u.results ∧ s.inbox = u.inbox
    ∧ s.blk.rxq = u.blk.rxq ∧ s.blk.txq = u.blk.txq ∧ s.blk.rxCb = u.blk.rxCb ∧ s.blk.txCb = u.blk.txCb
    ∧ s.blk.seq = u.blk.seq

/-- The event is an exchange whose frame is one of the eleven commands, of 1 to 33 bytes, or no exchange
(30_encoding.md R100, R110). -/
def soundEvent (c : Codes) : Event → Bool
  | .xfer tx rx => (c.wireLookup (tx.headD 0)).isSome && 1 ≤ tx.length && tx.length ≤ 33 && rx.length == tx.length
  | .ce _ => true
  | .dly _ => true
  | .cbTx _ _ => true
  | .cbRx _ _ _ => true

/-- The event is an exchange. -/
def isXfer : Event → Bool
  | .xfer _ _ => true
  | .ce _ => false
  | .dly _ => false
  | .cbTx _ _ => false
  | .cbRx _ _ _ => false

/-- The event is an invocation of the TX callback. -/
def isCbTx : Event → Bool
  | .xfer _ _ => false
  | .ce _ => false
  | .dly _ => false
  | .cbTx _ _ => true
  | .cbRx _ _ _ => false

/-- The event is an invocation of the RX callback. -/
def isCbRx : Event → Bool
  | .xfer _ _ => false
  | .ce _ => false
  | .dly _ => false
  | .cbTx _ _ => false
  | .cbRx _ _ _ => true

/-- The instruction writes CONFIG as the host chose: what 70_reset_and_hazards.md R311 (b) excludes. -/
def writesConfig (c : Codes) : Instr → Bool
  | .wRegister a _ => a == c.regConfig
  | .rpWriteRegister a _ => a == c.regConfig
  | _ => false

/-! ### The steps of POLL, for any peer (43_event_loop.md R232 to R237) -/

/-- Step 2 with latched byte `st`: the events, the width read `w`, and the datagram taken in, if any. -/
abbrev PollRx (c : Codes) (st w : Byte) (evs : List Event) (got : Option Datagram) : Prop :=
  if flagSet c.mRxDr st then
    ∃ s1 e2 e3, evs = .xfer [c.opcRRxPlWid, fill] [s1, w] :: (e2 ++ e3)
      ∧ WritesReg c c.regStatus [c.mRxDr] e3
      ∧ (if w.toNat > 32 then Commands c.opcFlushRx e2 ∧ got = none
         else ∃ s2 bs, bs.length = w.toNat
           ∧ e2 = [.xfer (c.opcRRxPayload :: List.replicate w.toNat fill) (s2 :: bs)]
           ∧ got = some ⟨rxPNo c st, bs⟩)
  else evs = [] ∧ got = none

/-- Step 3 with latched byte `st` and the TX registration `cb`. -/
abbrev PollTxSent (c : Codes) (st : Byte) (cb : Option Callback) (evs : List Event) : Prop :=
  if flagSet c.mTxDs st then
    ∃ e1, WritesReg c c.regStatus [c.mTxDs] e1
      ∧ evs = (match cb with | some f => [Event.cbTx f.fn f.ctx] | none => []) ++ e1
  else evs = []

/-- Step 4 with latched byte `st`. -/
abbrev PollMaxRt (c : Codes) (st : Byte) (evs : List Event) : Prop :=
  if flagSet c.mMaxRt st then
    ∃ e1 e2, Commands c.opcFlushTx e1 ∧ WritesReg c c.regStatus [c.mMaxRt] e2 ∧ evs = e1 ++ e2
  else evs = []

/-- Step 5 with the RX queue `q` and the RX registration `cb`. -/
def deliverEvents (q : List Datagram) (cb : Option Callback) : List Event :=
  match q, cb with
  | dg :: _, some f => [.cbRx f.fn f.ctx dg]
  | _, _ => []

/-- Step 6 with latched byte `st` and the TX queue `q`: the events and the queue after. -/
abbrev PollDrain (c : Codes) (st : Byte) (q : List Datagram) (evs : List Event) (q' : List Datagram) : Prop :=
  match q with
  | [] => evs = [] ∧ q' = []
  | dg :: rest =>
    if flagSet c.mTxFull st then evs = [] ∧ q' = dg :: rest
    else q' = rest ∧ Sends c.opcWTxPayload dg.bytes evs

/-- The RX queue after the append of step 2: a full queue drops the new datagram (43_event_loop.md R233). -/
def queueAfterRx (cap : Nat) (q : List Datagram) (got : Option Datagram) : List Datagram :=
  match got with
  | none => q
  | some dg => if q.length < cap then q ++ [dg] else q

end Sys2Proof.Machine
end

