-- ==== Sys2Proof/Certificates/Slice0/Obligations.lean ====
section
/-! DEFINITION. The statements about the model. Each docstring names the rules of spec/ it formalises; a clause that rests on
the model's own choice names the log entry. -/

open Sys2Proof Sys2Proof.Machine

/-! ### Reset and the step -/

/-- 70_reset_and_hazards.md R300: Reset at any time, busy or idle, gives `S` the values of 10_state.md R56, an empty trace, no
further result, and leaves the peer alone. -/
def Obligations.ResetGivesTheResetValues : Prop :=
  ∀ (s : State) (rest : List Input), s.cfg.ok = true → s.inbox = .reset :: rest →
    ∃ t, step s = .next t ∧ t.blk.mode = .shutDown ∧ t.blk.ce = false ∧ t.blk.lastStatus = none
      ∧ t.blk.pollStatus = none ∧ t.blk.rxq = [] ∧ t.blk.txq = [] ∧ t.blk.rxCb = none ∧ t.blk.txCb = none
      ∧ t.blk.seq = .idle ∧ t.trace = [] ∧ t.results <+: s.results ∧ t.peer = s.peer ∧ t.cfg = s.cfg ∧ t.inbox = rest

/-- 10_state.md R56 (the block) and R55 with 20_memory.md R81 (the peer's power-on values, PRESUMED, log 7): what
`State.reset` holds. -/
def Obligations.ResetStateHoldsTheListedValues : Prop :=
  State.reset.blk.mode = .shutDown ∧ State.reset.blk.mode.number = 0 ∧ State.reset.blk.ce = false ∧ State.reset.blk.lastStatus = none
    ∧ State.reset.blk.pollStatus = none ∧ State.reset.blk.rxq = [] ∧ State.reset.blk.txq = []
    ∧ State.reset.blk.rxCb = none ∧ State.reset.blk.txCb = none ∧ State.reset.blk.seq = .idle ∧ State.reset.trace = []
    ∧ (∀ x ∈ ([(0x00, 0x08), (0x01, 0x3F), (0x02, 0x03), (0x04, 0x03), (0x05, 0x02), (0x06, 0x0E), (0x08, 0x00),
        (0x0C, 0xC3), (0x0D, 0xC4), (0x0E, 0xC5), (0x0F, 0xC6), (0x1C, 0x00), (0x1D, 0x00)] : List (Reg × Byte)),
        Memory.regBytes Codes.standard State.reset.peer.mem x.1 = [x.2])
    ∧ (∀ x ∈ ([(0x0A, 0xE7), (0x0B, 0xC2), (0x10, 0xE7)] : List (Reg × Byte)),
        Memory.regBytes Codes.standard State.reset.peer.mem x.1 = List.replicate 5 x.2)
    ∧ statusByte Config.standard State.reset.peer = 0x0E
    ∧ State.reset.peer.rxf = [] ∧ State.reset.peer.txf = [] ∧ State.reset.peer.txReuse = false

/-- The state after reset meets the invariant of `Obligations.StepKeepsTheInvariant`. -/
def Obligations.ResetMeetsTheInvariant : Prop := State.reset.Inv

/-- 10_state.md R26 to R30 and R32, 43_event_loop.md R245, 20_memory.md R81, 70_reset_and_hazards.md R320: every step, whatever
the peer answers and the host presents, keeps the queues and FIFOs within their bounds, the received queue empty while idle,
and the register space canonical. R81 is the reference peer's: that a peer of level L1 keeps the shape of its FIFOs and entries, also
after an access the contract leaves unconstrained, is the model's choice (log 9). -/
def Obligations.StepKeepsTheInvariant : Prop :=
  ∀ s t : State, s.Inv → step s = .next t → t.Inv

/-- 00_scope.md R7, 10_state.md R31: where the bytes presented next decode to `i`, the step is the effect of `i` on the state in
which the request has been taken. -/
def Obligations.StepRunsTheDecodedInstruction : Prop :=
  ∀ (s : State) (r : Request) (rest : List Input) (i : Instr) (more : List Byte),
    s.cfg.ok = true → s.inbox = .op r :: rest → decode s.cfg r.port r.bytes = .ok (i, more) →
      step s = exec i { s with inbox := rest, env := { s.env with allow := r.allow } }

/-- 00_scope.md R5: a configuration that breaks one of its conditions is refused by every step. That R5 asks of the patterns that
each composed opcode is read back as its own command is the model's reading (log 24, DEDUCED). -/
def Obligations.BrokenConfigurationIsRefused : Prop :=
  ∀ s : State,
    (¬ (s.cfg.codes.wireTable.Pairwise fun r q => ∀ b : Byte, ¬ (r.hits b = true ∧ q.hits b = true))
      ∨ (∃ cmd, s.cfg.codes.wireLookup (s.cfg.codes.opcodeOf cmd) ≠ some cmd)
      ∨ s.cfg.codes.opcRRegister &&& 0x1F ≠ 0 ∨ s.cfg.codes.opcWRegister &&& 0x1F ≠ 0
      ∨ s.cfg.codes.opcWAckPayload &&& 0x07 ≠ 0
      ∨ s.cfg.codes.mRxDr = s.cfg.codes.mTxDs ∨ s.cfg.codes.mTxDs = s.cfg.codes.mMaxRt
      ∨ s.cfg.codes.mRxDr = s.cfg.codes.mMaxRt
      ∨ (s.cfg.codes.mRxDr ||| s.cfg.codes.mTxDs ||| s.cfg.codes.mMaxRt)
          &&& (s.cfg.codes.mRxPNo ||| s.cfg.codes.mTxFull) ≠ 0) →
    step s = .refused .badConfig

/-- 00_scope.md R7, 60_exceptions.md R288 (93_implementation_defined.md U10, U11): a busy block accepts no operation and, with
nothing presented, has no step. That an idle block with nothing presented has a step that changes nothing is the model's choice
(log 16). -/
def Obligations.BusyBlockAcceptsNothing : Prop :=
  (∀ (i : Instr) (s : State), s.blk.seq ≠ .idle → exec i s = .fault .notAccepted)
    ∧ (∀ s : State, s.cfg.ok = true → s.inbox = [] → s.blk.seq ≠ .idle → step s = .fault .stuck)
    ∧ (∀ s : State, s.cfg.ok = true → s.inbox = [] → s.blk.seq = .idle → step s = .next s)

/-- 30_encoding.md R113: an operation number that is none of the 46 gives FAIL and does nothing else. -/
def Obligations.UnknownOperationGivesFail : Prop :=
  ∀ (s : State) (r : Request) (rest : List Input) (hop : Byte) (ops : List Byte),
    s.cfg.ok = true → s.blk.seq = .idle → s.inbox = .op r :: rest → r.port = .host → r.bytes = hop :: ops →
    ¬ (hop ≤ 0x0A ∨ (0x10 ≤ hop ∧ hop ≤ 0x15) ∨ (0x20 ≤ hop ∧ hop ≤ 0x37) ∨ (0x40 ≤ hop ∧ hop ≤ 0x44)) →
      step s = .next { s with inbox := rest, env := { s.env with allow := r.allow }, results := s.results ++ [.fail] }

/-- 30_encoding.md R119 (a), (b): in an idle block a pipe operand of 6 or 7, or a length above 32, gives FAIL, with no event
and no other change of state. Two clauses are the model's choice (log 14, DEDUCED), stated by no rule: a callback token of more
than CB_W bits gives FAIL in the same way, and a wire command of more than 33 bytes is refused by name. -/
def Obligations.RefusedOperandsChangeNothing : Prop :=
  ∀ (i : Instr) (s : State), s.blk.seq = .idle →
    ((IsHost s.cfg i ∧ (i.wf s.cfg = false ∨ ∃ p, checkedPipe i = some p ∧ 6 ≤ p.toNat)) →
        exec i s = .next { s with results := s.results ++ [.fail] })
      ∧ ((IsWire s.cfg i ∧ i.wf s.cfg = false) → exec i s = .refused .frameTooLong)

/-- 00_scope.md R8, 60_exceptions.md R270: every host operation accepted completes and adds exactly one result, whatever its
operands and the peer's answers. -/
def Obligations.EveryHostOperationCompletes : Prop :=
  ∀ (i : Instr) (s : State), IsHost s.cfg i → s.Ready →
    ∃ t r, exec i s = .next t ∧ t.blk.seq = .idle ∧ t.results = s.results ++ [r]

/-! ### Decoding and encoding -/

/-- 30_encoding.md R106, R113: some words of the tables. That the operands of a host operation are these bytes is the model's
choice (log 2), and so is the port of a table word whose number both tables use (log 1). -/
def Obligations.TableWordsDecode : Prop :=
  decode Config.standard .wire [0x3C, 0x02] = .ok (.wRegister 0x1C [0x02], [])
    ∧ decode Config.standard .wire [0x1C, 0xFF] = .ok (.rRegister 0x1C 1, [])
    ∧ decode Config.standard .wire [0xAB, 0x55] = .ok (.wAckPayload 3 [0x55], [])
    ∧ decode Config.standard .wire [0x60, 0xFF] = .ok (.rRxPlWid, [])
    ∧ decode Config.standard .wire [0xA1] = .error (.noCommand 0xA1)
    ∧ decode Config.standard .host [0x23, 0x4C] = .ok (.setChannel 0x4C, [])
    ∧ decode Config.standard .host [0x14, 0x05] = .ok (.startListening 5, [])
    ∧ decode Config.standard .host [0x41] = .ok (.poll, [])
    ∧ decodeTableWord 8 0xE1 = some .flushTx
    ∧ decodeTableWord 8 0x12 = some .enterRx

/-- 30_encoding.md R112, R113 with the operand layout of log 2: a host operation, followed by anything, is read back whole. -/
def Obligations.HostOperationsReadBack : Prop :=
  ∀ (c : Config) (i : Instr) (rest : List Byte), i.wf c = true → IsHost c i →
    decode c .host ((encode c i).2 ++ rest) = .ok (i, rest)

/-- 30_encoding.md R100 to R106: the frame of a wire command is read back whole, under any admissible codes. -/
def Obligations.WireCommandsReadBack : Prop :=
  ∀ (c : Config) (i : Instr), c.ok = true → i.wf c = true → IsWire c i →
    decode c .wire (encode c i).2 = .ok (i, [])

/-- 30_encoding.md R101, R102, R106: a frame that is read as a command has an opcode byte of that command's row, as the command's
own frame has, and as many data bytes, the same ones when it carries data or its data positions hold the filler (R107). Where
the masks are those of the layouts (R103 to R105) its opcode byte is the command's own. -/
def Obligations.FramesReadAreTheCommandsOwn : Prop :=
  ∀ (c : Config) (bs : List Byte) (i : Instr) (more : List Byte), c.ok = true → decode c .wire bs = .ok (i, more) →
    more = [] ∧ i.wf c = true ∧ (encode c i).1 = .wire ∧ (encode c i).2.length = bs.length
      ∧ (∃ r ∈ c.codes.wireTable, r.hits (bs.headD 0) = true ∧ r.hits ((encode c i).2.headD 0) = true)
      ∧ ((∀ b ∈ bs.tail, b = fill) ∨ CarriesData i → (encode c i).2.tail = bs.tail)
      ∧ (MasksFollowLayouts c.codes → (encode c i).2.head? = bs.head?
          ∧ ((∀ b ∈ bs.tail, b = fill) ∨ CarriesData i → (encode c i).2 = bs))

/-! ### The wire commands and the peer -/

/-- 40_register_protocol.md R130: a wire command run by itself is one exchange of its frame; the status is latched, the buffer
overwritten, and nothing else of the block changes (that it returns no host result is log 3). -/
def Obligations.WireCommandIsOneTransaction : Prop :=
  ∀ (i : Instr) (s : State), IsWire s.cfg i → i.wf s.cfg = true → s.Ready →
    ∃ t rx, exec i s = .next t ∧ Done s t [.xfer (encode s.cfg i).2 rx] [] ∧ KeepsRest s t
      ∧ OneExchange s t (encode s.cfg i).2 rx

/-- 20_memory.md R63: at L1 and L2 the first byte answered is the status before the command acts, and the answer has the frame's
length. R36 gives its bits with the default masks; that at L1 too bit 7 is 0, an empty RX FIFO shows pipe 7 and TX_FULL is "length
= depth" is R82, a rule of the reference peer, and for L1 the model's choice (log 29). -/
def Obligations.StatusComesFirst : Prop :=
  ∀ (lv : PeerLevel) (c : Config) (k : Nat) (p : Peer) (op : Byte) (d : List Byte), c.codes = Codes.standard →
    ∃ st out, (peerXfer lv c k p (op :: d)).2 = st :: out ∧ out.length = d.length
      ∧ st.getLsbD 7 = false ∧ st.getLsbD 6 = p.rxDr ∧ st.getLsbD 5 = p.txDs ∧ st.getLsbD 4 = p.maxRt
      ∧ st.extractLsb' 1 3 = (match p.rxf with | [] => 7 | e :: _ => e.pipe)
      ∧ st.getLsbD 0 = decide (p.txf.length = c.fifoDepth)

/-- 20_memory.md R84: R_REGISTER of the reference peer changes nothing and drives the register's bytes, least significant
first, then 0x00. -/
def Obligations.ReferencePeerReadsRegisters : Prop :=
  ∀ (c : Config) (k : Nat) (p : Peer) (a : Reg) (d : List Byte), c.codes = Codes.standard →
    ∃ out, peerXfer .reference c k p (a.setWidth 8 :: d) = (p, statusByte c p :: out) ∧ out.length = d.length
      ∧ ∀ j < d.length, out[j]? = some (
          if a = 0x07 then (if j = 0 then statusByte c p else 0)
          else if j < (if a = 0x0A ∨ a = 0x0B ∨ a = 0x10 then 5 else 1) then Memory.read c.codes p.mem (cellOf a j)
          else 0)

/-- 20_memory.md R85: W_REGISTER of the reference peer. -/
def Obligations.ReferencePeerWritesRegisters : Prop :=
  ∀ (c : Config) (k : Nat) (p : Peer) (a : Reg) (d : List Byte), c.codes = Codes.standard →
    Memory.wf c.codes p.mem = true →
    ∃ q, peerXfer .reference c k p ((0x20 ||| a.setWidth 8) :: d) = (q, statusByte c p :: List.replicate d.length 0)
      ∧ (d = [] ∨ a = 0x08 → q = p)
      ∧ (∀ m ms, d = m :: ms → a = 0x07 →
          q = { p with rxDr := p.rxDr && !m.getLsbD 6, txDs := p.txDs && !m.getLsbD 5, maxRt := p.maxRt && !m.getLsbD 4 })
      ∧ (a ≠ 0x07 → KeepsFifos p q)
      ∧ (∀ b j, j < 8 → Memory.read c.codes q.mem (cellOf b j) =
          if b = a ∧ a ≠ 0x07 ∧ a ≠ 0x08 ∧ j < min d.length (if a = 0x0A ∨ a = 0x0B ∨ a = 0x10 then 5 else 1)
          then d.getD j 0 else Memory.read c.codes p.mem (cellOf b j))

/-- 20_memory.md R86 to R90: R_RX_PL_WID, R_RX_PAYLOAD and the payload writes of the reference peer. -/
def Obligations.ReferencePeerMovesPayloads : Prop :=
  ∀ (c : Config) (k : Nat) (p : Peer) (d : List Byte), c.codes = Codes.standard →
    (∃ out, peerXfer .reference c k p (0x60 :: d) = (p, statusByte c p :: out) ∧ out.length = d.length
      ∧ ∀ j < d.length, out[j]? = some (if j = 0 then (match p.rxf with | [] => 0 | e :: _ => e.width) else 0))
    ∧ (∃ out, peerXfer .reference c k p (0x61 :: d) = ({ p with rxf := p.rxf.tail }, statusByte c p :: out)
      ∧ out.length = d.length
      ∧ ∀ j < d.length, out[j]? = some ((match p.rxf with | [] => [] | e :: _ => e.bytes).getD j 0))
    ∧ (peerXfer .reference c k p (0xA0 :: d)
      = ((if p.txf.length < c.fifoDepth then { p with txf := p.txf ++ [⟨.plain, d⟩], txReuse := false } else p),
          statusByte c p :: List.replicate d.length 0))
    ∧ (∀ q : Pipe, peerXfer .reference c k p ((0xA8 ||| q.setWidth 8) :: d)
      = ((if p.txf.length < c.fifoDepth ∧ q.toNat ≤ 5 then { p with txf := p.txf ++ [⟨.ack q, d⟩] } else p),
          statusByte c p :: List.replicate d.length 0))
    ∧ (peerXfer .reference c k p (0xB0 :: d)
      = ((if p.txf.length < c.fifoDepth then { p with txf := p.txf ++ [⟨.noack, d⟩], txReuse := false } else p),
          statusByte c p :: List.replicate d.length 0))

/-- 20_memory.md R91 to R95: the flushes, REUSE_TX_PL, NOP and an opcode byte no row matches. -/
def Obligations.ReferencePeerRunsCommands : Prop :=
  ∀ (c : Config) (k : Nat) (p : Peer) (d : List Byte), c.codes = Codes.standard →
    (peerXfer .reference c k p (0xE1 :: d)
      = ({ p with txf := [], txReuse := false }, statusByte c p :: List.replicate d.length 0))
    ∧ (peerXfer .reference c k p (0xE2 :: d) = ({ p with rxf := [] }, statusByte c p :: List.replicate d.length 0))
    ∧ (peerXfer .reference c k p (0xE3 :: d) = ({ p with txReuse := true }, statusByte c p :: List.replicate d.length 0))
    ∧ (peerXfer .reference c k p (0xFF :: d) = (p, statusByte c p :: List.replicate d.length 0))
    ∧ (∀ op : Byte, (0x40 ≤ op ∧ op ≤ 0x5F ∨ 0x62 ≤ op ∧ op ≤ 0x9F ∨ 0xA1 ≤ op ∧ op ≤ 0xA7 ∨ 0xB1 ≤ op ∧ op ≤ 0xE0
        ∨ 0xE4 ≤ op ∧ op ≤ 0xFE) →
        peerXfer .reference c k p (op :: d) = (p, statusByte c p :: List.replicate d.length 0))

/-- 20_memory.md R96: the moves of the reference peer's radio side, each where it is enabled. -/
def Obligations.RadioMovesDoWhatTheyMay : Prop :=
  ∀ (c : Config) (k : Nat) (p : Peer), c.codes = Codes.standard → Memory.wf c.codes p.mem = true →
    (∀ (q : Pipe) (w : Byte) (bs : List Byte), q.toNat ≤ 5 → bs.length = min w.toNat 32 → p.rxf.length < c.fifoDepth →
      applyMove .reference c k p (.rxArrive q w bs) = { p with rxf := p.rxf ++ [⟨q, w, bs⟩], rxDr := true })
    ∧ (p.txf ≠ [] → applyMove .reference c k p .txDone
        = { p with txDs := true, txf := if p.txReuse then p.txf else p.txf.tail })
    ∧ (p.txf ≠ [] → applyMove .reference c k p .maxRt = { p with maxRt := true })
    ∧ (∀ v : Byte, ∃ q, applyMove .reference c k p (.observe v) = q ∧ KeepsFifos p q
        ∧ Memory.read c.codes q.mem (cellOf 0x08 0) = v
        ∧ ∀ j, j ≠ cellOf 0x08 0 → Memory.read c.codes q.mem j = Memory.read c.codes p.mem j)

/-- 20_memory.md R66: at L1 and L2 a W_REGISTER to STATUS with data byte `m` clears exactly the flags whose bit is 1 in `m`,
as they stand at the transaction, and changes nothing else in the peer. -/
def Obligations.StatusFlagsAreWriteOneToClear : Prop :=
  ∀ (s : State) (m : Byte), s.Ready → s.PeerKeepsContract → s.cfg.codes = Codes.standard →
    ∃ t, exec (.wRegister 0x07 [m]) s = .next t
      ∧ t.peer = { s.peerNow with rxDr := s.peerNow.rxDr && !m.getLsbD 6, txDs := s.peerNow.txDs && !m.getLsbD 5
                                  maxRt := s.peerNow.maxRt && !m.getLsbD 4 }

/-- 20_memory.md R67: in a peer that keeps the contract, writing a plain-value register and reading it back yields what was
written, for every named one-byte register and every address register. -/
def Obligations.PlainRegistersReadBack : Prop :=
  ∀ (s : State) (a : Reg) (bs : List Byte), s.Ready → s.FaithfulPeer → s.KeepsPower →
    (bs.length = 1 ∧ a ∈ ([0x00, 0x01, 0x02, 0x04, 0x05, 0x06, 0x0C, 0x0D, 0x0E, 0x0F, 0x1C, 0x1D] : List Reg)
      ∨ bs.length = 5 ∧ a ∈ ([0x0A, 0x0B, 0x10] : List Reg)) →
    ∃ t u st1 st2, exec (.rpWriteRegister a bs) s = .next t ∧ exec (.rpReadRegister a bs.length) t = .next u
      ∧ u.results = s.results ++ [.status st1, .statusBytes st2 bs]

/-- 20_memory.md R70, R74: at L1 and L2 R_REGISTER, R_RX_PL_WID and NOP leave the peer as they find it (at L1, for an address the
spec does not name, the model's choice, log 27), R_RX_PAYLOAD removes the head of the RX FIFO alone (PRESUMED at L1, log 22), FLUSH_RX empties the RX FIFO and FLUSH_TX the TX FIFO. -/
def Obligations.ReadsAndFlushesActOnThePeer : Prop :=
  ∀ s : State, s.Ready → s.PeerKeepsContract → s.cfg.codes = Codes.standard →
    (∀ a n, n ≤ 32 → ∃ t, exec (.rRegister a n) s = .next t ∧ t.peer = s.peerNow)
    ∧ (∃ t, exec .rRxPlWid s = .next t ∧ t.peer = s.peerNow)
    ∧ (∃ t, exec .nop s = .next t ∧ t.peer = s.peerNow)
    ∧ (∀ n, n ≤ 32 → ∃ t, exec (.rRxPayload n) s = .next t ∧ t.peer = { s.peerNow with rxf := s.peerNow.rxf.tail })
    ∧ (∃ t, exec .flushRx s = .next t ∧ t.peer.rxf = []) ∧ (∃ t, exec .flushTx s = .next t ∧ t.peer.txf = [])

/-! ### RegisterProtocol operations -/

/-- 40_register_protocol.md R131, R133, R138: RP_READ_REGISTER, RP_READ_PAYLOAD, RP_READ_PAYLOAD_WIDTH: one transaction, its status
byte and the bytes received returned, nothing else of the block changed. -/
def Obligations.RpReadsReturnWhatWasReceived : Prop :=
  ∀ s : State, s.Ready →
    (∀ a n, n ≤ 32 → ∃ t st bs, exec (.rpReadRegister a n) s = .next t
      ∧ Done s t [.xfer ((s.cfg.codes.opcRRegister ||| a.setWidth 8) :: List.replicate n 0xFF) (st :: bs)]
          [.statusBytes st bs]
      ∧ KeepsRest s t
      ∧ OneExchange s t ((s.cfg.codes.opcRRegister ||| a.setWidth 8) :: List.replicate n 0xFF) (st :: bs))
    ∧ (∀ n, n ≤ 32 → ∃ t st bs, exec (.rpReadPayload n) s = .next t
      ∧ Done s t [.xfer (s.cfg.codes.opcRRxPayload :: List.replicate n 0xFF) (st :: bs)] [.statusBytes st bs]
      ∧ KeepsRest s t ∧ OneExchange s t (s.cfg.codes.opcRRxPayload :: List.replicate n 0xFF) (st :: bs))
    ∧ (∃ t st w, exec .rpReadPayloadWidth s = .next t
      ∧ Done s t [.xfer [s.cfg.codes.opcRRxPlWid, 0xFF] [st, w]] [.statusWidth st w]
      ∧ KeepsRest s t ∧ OneExchange s t [s.cfg.codes.opcRRxPlWid, 0xFF] [st, w])

/-- 40_register_protocol.md R132, R134, R139, R140: RP_WRITE_REGISTER, RP_WRITE_PAYLOAD, RP_WRITE_ACK_PAYLOAD (any 3-bit pipe) and
RP_WRITE_NOACK_PAYLOAD: one transaction with the caller's bytes, its status byte returned. -/
def Obligations.RpWritesSendTheBytes : Prop :=
  ∀ (s : State) (bs : List Byte) (a : Reg) (p : Pipe), s.Ready → bs.length ≤ 32 →
    ∀ x ∈ [(Instr.rpWriteRegister a bs, s.cfg.codes.opcWRegister ||| a.setWidth 8),
        (.rpWritePayload bs, s.cfg.codes.opcWTxPayload),
        (.rpWriteAckPayload p bs, s.cfg.codes.opcWAckPayload ||| p.setWidth 8),
        (.rpWriteNoackPayload bs, s.cfg.codes.opcWTxPayloadNoack)],
      ∃ t st rx, exec x.1 s = .next t ∧ Done s t [.xfer (x.2 :: bs) (st :: rx)] [.status st] ∧ KeepsRest s t
        ∧ OneExchange s t (x.2 :: bs) (st :: rx)

/-- 40_register_protocol.md R135, R136, R137, R141: RP_FLUSH_RX, RP_FLUSH_TX, RP_REUSE_TX_PL, RP_NOP: the opcode alone, its status
byte returned. -/
def Obligations.RpCommandsReturnTheStatus : Prop :=
  ∀ s : State, s.Ready →
    ∀ x ∈ [(Instr.rpFlushRx, s.cfg.codes.opcFlushRx), (.rpFlushTx, s.cfg.codes.opcFlushTx),
        (.rpReuseTxPl, s.cfg.codes.opcReuseTxPl), (.rpNop, s.cfg.codes.opcNop)],
      ∃ t st, exec x.1 s = .next t ∧ Done s t [.xfer [x.2] [st]] [.status st] ∧ KeepsRest s t ∧ OneExchange s t [x.2] [st]

/-! ### Mode control -/

/-- 41_mode_control.md R161, R162: ENTER_SHUTDOWN and ENTER_STANDBY deassert chip-enable, then clear or set PWR_UP by one RMW;
PRIM_RX and every other bit of CONFIG is kept. -/
def Obligations.EnterShutdownAndStandby : Prop :=
  ∀ s : State, s.Ready →
    (∃ t evs, exec .enterShutdown s = .next t ∧ Done s t (.ce false :: evs) [.ok]
      ∧ t.blk.mode = .shutDown ∧ t.blk.ce = false ∧ KeepsQueues s t
      ∧ UpdatesReg s t s.cfg.codes.regConfig s.cfg.codes.mPwrUp 0 evs)
    ∧ (∃ t evs, exec .enterStandby s = .next t ∧ Done s t (.ce false :: evs) [.ok]
      ∧ t.blk.mode = .standby ∧ t.blk.ce = false ∧ KeepsQueues s t
      ∧ UpdatesReg s t s.cfg.codes.regConfig 0 s.cfg.codes.mPwrUp evs)

/-- 41_mode_control.md R163, R164, R167: ENTER_RX and ENTER_TX set PWR_UP and set or clear PRIM_RX by one RMW, assert chip-enable,
wait for the settling delay, and only then are complete. -/
def Obligations.EnterRxAndTx : Prop :=
  ∀ s : State, s.Ready →
    (∃ t evs, exec .enterRx s = .next t ∧ Done s t (evs ++ [.ce true, .dly s.cfg.tRxSettle]) [.ok]
      ∧ t.blk.mode = .rx ∧ t.blk.ce = true ∧ KeepsQueues s t
      ∧ UpdatesReg s t s.cfg.codes.regConfig 0 (s.cfg.codes.mPwrUp ||| s.cfg.codes.mPrimRx) evs)
    ∧ (∃ t evs, exec .enterTx s = .next t ∧ Done s t (evs ++ [.ce true, .dly s.cfg.tTxSettle]) [.ok]
      ∧ t.blk.mode = .tx ∧ t.blk.ce = true ∧ KeepsQueues s t
      ∧ UpdatesReg s t s.cfg.codes.regConfig s.cfg.codes.mPrimRx s.cfg.codes.mPwrUp evs)

/-- 41_mode_control.md R165, R166: START_LISTENING sets, STOP_LISTENING clears the bit of the pipe (bit p, as R38, R39 and R47 of
10_state.md place it) in DYNPD, EN_AA and EN_RXADDR, in this order, by three RMWs, and changes no other cell of the peer; a pipe
above 5 gives FAIL. -/
def Obligations.ListeningTogglesThreeBits : Prop :=
  ∀ (s : State) (p : Pipe), s.Ready →
    ∀ x ∈ [(Instr.startListening p, (0 : Byte), (1 : Byte) <<< p.toNat), (.stopListening p, (1 : Byte) <<< p.toNat, 0)],
      (6 ≤ p.toNat → exec x.1 s = .next { s with results := s.results ++ [.fail] })
      ∧ (p.toNat ≤ 5 → BitPerPipe s.cfg.codes → ∃ t v1 v2 v3 e1 e2 e3, exec x.1 s = .next t
        ∧ Done s t (e1 ++ e2 ++ e3) [.ok] ∧ KeepsMode s t ∧ KeepsQueues s t
        ∧ RmwEvents s.cfg.codes s.cfg.codes.regDynpd v1 x.2.1 x.2.2 e1
        ∧ RmwEvents s.cfg.codes s.cfg.codes.regEnAa v2 x.2.1 x.2.2 e2
        ∧ RmwEvents s.cfg.codes s.cfg.codes.regEnRxaddr v3 x.2.1 x.2.2 e3
        ∧ t.blk.vTmp = [v3]
        ∧ (s.FaithfulPeer → s.KeepsPower →
            (∀ a ∈ ([0x1C, 0x01, 0x02] : List Reg), t.regByte a = (s.regByte a &&& ~~~x.2.1) ||| x.2.2)
            ∧ KeepsCellsBut s t (fun k => k = regCell 0x1C ∨ k = regCell 0x01 ∨ k = regCell 0x02))
        ∧ (s.FaithfulPeer → s.RadioQuiet → QuietKeeps s t)
        ∧ (s.env.level = .any → t.peer = s.peer))

/-- 41_mode_control.md R160: an ENTER operation completes in every mode with its own mode as the next; no other instruction,
completed or cut short, changes the mode or the chip-enable output. R167, R168: an ENTER operation whose exchange or delay has not
returned still holds the previous mode. -/
def Obligations.OnlyEnterChangesTheMode : Prop :=
  ∀ (i : Instr) (s : State),
    (∀ m, enterMode i = some m → s.Ready → ∃ t, exec i s = .next t ∧ t.blk.mode = m)
      ∧ (enterMode i = none → ∀ t, exec i s = .next t → KeepsMode s t)
      ∧ (∀ t, exec i s = .next t → t.blk.seq ≠ .idle → t.blk.mode = s.blk.mode)

/-- 10_state.md R51 with the premises of 70_reset_and_hazards.md R311, and 41_mode_control.md R169: with the reference peer, its
power kept and CONFIG left to the block, every instruction that completes keeps the mode mirror, and every ENTER operation
that completes makes it true whatever was before. -/
def Obligations.MirrorIsKept : Prop :=
  ∀ (i : Instr) (s t : State), s.cfg.codes = Codes.standard → s.env.level = .reference →
    Memory.wf s.cfg.codes s.peer.mem = true → s.KeepsPower → writesConfig s.cfg.codes i = false →
    (s.Mirror ∨ enterMode i ≠ none) → exec i s = .next t → t.blk.seq = .idle → t.Mirror

/-- 30_encoding.md R115: START_LISTENING and STOP_LISTENING have the trace of the three per-pipe SET operations, and leave
block, peer and environment as these do. -/
def Obligations.ListeningIsThreeSets : Prop :=
  ∀ (s : State) (p : Pipe), s.Ready → p.toNat ≤ 5 →
    ∀ x ∈ [(Instr.startListening p, true), (.stopListening p, false)],
      ∃ t t1 t2 t3, exec x.1 s = .next t
        ∧ exec (.setDynPayload p x.2) s = .next t1 ∧ exec (.setAutoAck p x.2) t1 = .next t2
        ∧ exec (.setPipeEnable p x.2) t2 = .next t3
        ∧ t.trace = t3.trace ∧ t.blk = t3.blk ∧ t.peer = t3.peer ∧ t.env = t3.env

/-! ### Configuration access -/

/-- 42_config_access.md R181, R182: GET_CRC and SET_CRC. -/
def Obligations.CrcIsReadAndSet : Prop :=
  ∀ s : State, s.Ready →
    (∃ t evs v, exec .getCrc s = .next t
      ∧ Done s t evs [.crc (if v &&& s.cfg.codes.mEnCrc = 0 then .disabled
          else if v &&& s.cfg.codes.mCrco = 0 then .crc1 else .crc2)]
      ∧ KeepsRest s t ∧ ReadsBytes s t s.cfg.codes.regConfig 1 [v] evs)
    ∧ (∀ m : CrcMode, ∃ t evs, exec (.setCrc m) s = .next t ∧ Done s t evs [.ok] ∧ KeepsMode s t ∧ KeepsQueues s t
      ∧ UpdatesReg s t s.cfg.codes.regConfig (s.cfg.codes.mEnCrc ||| s.cfg.codes.mCrco)
          (match m with
            | .disabled => 0
            | .crc1 => s.cfg.codes.mEnCrc
            | .crc2 => s.cfg.codes.mEnCrc ||| s.cfg.codes.mCrco) evs)

/-- 42_config_access.md R183, R184, with the default place of the channel (bits 6:0): GET_CHANNEL drops bit 7; SET_CHANNEL writes a channel up to 127 whole and ignores a larger
one, returning OK. -/
def Obligations.ChannelIsReadAndSet : Prop :=
  ∀ s : State, s.Ready →
    (s.cfg.codes.mRfCh = 0x7F → ∃ t evs v, exec .getChannel s = .next t ∧ Done s t evs [.channel (v.extractLsb' 0 7)] ∧ KeepsRest s t
      ∧ ReadsBytes s t s.cfg.codes.regRfCh 1 [v] evs)
    ∧ (s.cfg.codes.mRfCh = 0x7F → ∀ ch : Byte, ch.toNat ≤ 127 → ∃ t evs, exec (.setChannel ch) s = .next t ∧ Done s t evs [.ok] ∧ KeepsRest s t
      ∧ StoresBytes s t s.cfg.codes.regRfCh [ch] evs)
    ∧ (∀ ch : Byte, 127 < ch.toNat → exec (.setChannel ch) s = .next { s with results := s.results ++ [.ok] })

/-- 42_config_access.md R185, R186: GET_DATA_RATE, FAIL for the reserved code, and SET_DATA_RATE. -/
def Obligations.DataRateIsReadAndSet : Prop :=
  ∀ s : State, s.Ready →
    (∃ t evs v, exec .getDataRate s = .next t
      ∧ Done s t evs [if v &&& s.cfg.codes.mRfDrLow = 0 then
            (if v &&& s.cfg.codes.mRfDrHigh = 0 then .rate .r1M else .rate .r2M)
          else if v &&& s.cfg.codes.mRfDrHigh = 0 then .rate .r250K else .fail]
      ∧ KeepsRest s t ∧ ReadsBytes s t s.cfg.codes.regRfSetup 1 [v] evs)
    ∧ (∀ r : DataRate, ∃ t evs, exec (.setDataRate r) s = .next t ∧ Done s t evs [.ok] ∧ KeepsMode s t ∧ KeepsQueues s t
      ∧ UpdatesReg s t s.cfg.codes.regRfSetup (s.cfg.codes.mRfDrLow ||| s.cfg.codes.mRfDrHigh)
          (match r with | .r1M => 0 | .r2M => s.cfg.codes.mRfDrHigh | .r250K => s.cfg.codes.mRfDrLow) evs)

/-- 42_config_access.md R187, R188, with the default place of the power field (bits 2:1): GET_OUTPUT_POWER and
SET_OUTPUT_POWER. -/
def Obligations.OutputPowerIsReadAndSet : Prop :=
  ∀ s : State, s.Ready → s.cfg.codes.mRfPwr = 0x06 →
    (∃ t evs v, exec .getOutputPower s = .next t
      ∧ Done s t evs [.power (if v.extractLsb' 1 2 = 3#2 then .p0 else if v.extractLsb' 1 2 = 2#2 then .pm6
          else if v.extractLsb' 1 2 = 1#2 then .pm12 else .pm18)]
      ∧ KeepsRest s t ∧ ReadsBytes s t s.cfg.codes.regRfSetup 1 [v] evs)
    ∧ (∀ w : Power, ∃ t evs, exec (.setOutputPower w) s = .next t ∧ Done s t evs [.ok] ∧ KeepsMode s t ∧ KeepsQueues s t
      ∧ UpdatesReg s t s.cfg.codes.regRfSetup 0x06
          (match w with | .p0 => 3 <<< 1 | .pm6 => 2 <<< 1 | .pm12 => 1 <<< 1 | .pm18 => 0 <<< 1) evs)

/-- 42_config_access.md R189, R190, R191, R192, with the default places of the two fields: the retry count in bits 3:0 and the retry delay in bits 7:4 of SETUP_RETR, each
clipped to 15 when set, each set without changing the other. -/
def Obligations.RetriesAreReadAndClipped : Prop :=
  ∀ s : State, s.Ready → s.cfg.codes.mArc = 0x0F → s.cfg.codes.mArd = 0xF0 →
    (∃ t evs v, exec .getRetryCount s = .next t ∧ Done s t evs [.retry (v.extractLsb' 0 4)] ∧ KeepsRest s t
      ∧ ReadsBytes s t s.cfg.codes.regSetupRetr 1 [v] evs)
    ∧ (∃ t evs v, exec .getRetryDelay s = .next t ∧ Done s t evs [.retry (v.extractLsb' 4 4)] ∧ KeepsRest s t
      ∧ ReadsBytes s t s.cfg.codes.regSetupRetr 1 [v] evs)
    ∧ (∀ n : Byte, ∃ t evs, exec (.setRetryCount n) s = .next t ∧ Done s t evs [.ok] ∧ KeepsMode s t ∧ KeepsQueues s t
      ∧ UpdatesReg s t s.cfg.codes.regSetupRetr 0x0F (BitVec.ofNat 8 (min n.toNat 15)) evs)
    ∧ (∀ n : Byte, ∃ t evs, exec (.setRetryDelay n) s = .next t ∧ Done s t evs [.ok] ∧ KeepsMode s t ∧ KeepsQueues s t
      ∧ UpdatesReg s t s.cfg.codes.regSetupRetr 0xF0 (BitVec.ofNat 8 (16 * min n.toNat 15)) evs)

/-- 42_config_access.md R193, R194: the 32-bit base of a pipe, in RX_ADDR_P0 for pipe 0 and in RX_ADDR_P1 for pipes 1 to 5; setting
it keeps the unique byte, in one write of five bytes (92_eei_decisions.md D15, D16). A pipe above 5 gives FAIL. -/
def Obligations.BaseAddressIsReadAndSet : Prop :=
  ∀ (s : State) (p : Pipe), s.Ready →
    (6 ≤ p.toNat → exec (.getRxBaseAddress p) s = .next { s with results := s.results ++ [.fail] }
      ∧ ∀ base, exec (.setRxBaseAddress p base) s = .next { s with results := s.results ++ [.fail] })
    ∧ (p.toNat ≤ 5 → ∃ t evs b0 b1 b2 b3 b4, exec (.getRxBaseAddress p) s = .next t
      ∧ Done s t evs [.base (b4 ++ b3 ++ b2 ++ b1 : BitVec 32)] ∧ KeepsRest s t
      ∧ ReadsBytes s t (s.cfg.codes.regRxAddr (if p = 0 then 0 else 1)) 5 [b0, b1, b2, b3, b4] evs)
    ∧ (p.toNat ≤ 5 → ∀ base : BitVec 32, ∃ t e1 e2 b0 b1 b2 b3 b4, exec (.setRxBaseAddress p base) s = .next t
      ∧ Done s t (e1 ++ e2) [.ok] ∧ KeepsMode s t ∧ KeepsQueues s t ∧ t.blk.vTmp = [b0, b1, b2, b3, b4]
      ∧ ReadsReg s.cfg.codes (s.cfg.codes.regRxAddr (if p = 0 then 0 else 1)) 5 [b0, b1, b2, b3, b4] e1
      ∧ WritesReg s.cfg.codes (s.cfg.codes.regRxAddr (if p = 0 then 0 else 1))
          [b0, base.extractLsb' 0 8, base.extractLsb' 8 8, base.extractLsb' 16 8, base.extractLsb' 24 8] e2
      ∧ (s.FaithfulPeer → s.KeepsPower → ∀ a : Reg, a = (if p = 0 then 0x0A else 0x0B) →
          t.cell (cellOf a 0) = s.cell (cellOf a 0)
          ∧ (∀ j < 4, t.cell (cellOf a (j + 1)) = base.extractLsb' (8 * j) 8)
          ∧ KeepsCellsBut s t (fun k => cellOf a 1 ≤ k ∧ k < cellOf a 5))
      ∧ (s.FaithfulPeer → s.RadioQuiet → QuietKeeps s t)
      ∧ (s.env.level = .any → t.peer = s.peer))

/-- 42_config_access.md R195, R196: GET_RX_ADDRESS reads the register for pipes 0 and 1, the shared base and then the suffix for
pipes 2 to 5; SET_RX_ADDRESS writes the five bytes for pipes 0 and 1, the suffix alone for pipes 2 to 5 (92_eei_decisions.md
D15, D16). A pipe above 5 gives FAIL. -/
def Obligations.RxAddressIsReadAndSet : Prop :=
  ∀ (s : State) (p : Pipe), s.Ready →
    (6 ≤ p.toNat → exec (.getRxAddress p) s = .next { s with results := s.results ++ [.fail] }
      ∧ ∀ addr, exec (.setRxAddress p addr) s = .next { s with results := s.results ++ [.fail] })
    ∧ (p.toNat ≤ 1 → ∃ t evs b0 b1 b2 b3 b4, exec (.getRxAddress p) s = .next t
      ∧ Done s t evs [.addr (b4 ++ b3 ++ b2 ++ b1 ++ b0 : BitVec 40)] ∧ KeepsRest s t
      ∧ ReadsBytes s t (s.cfg.codes.regRxAddr p.toNat) 5 [b0, b1, b2, b3, b4] evs)
    ∧ (2 ≤ p.toNat → p.toNat ≤ 5 → ∃ t e1 e2 b0 b1 b2 b3 b4 sfx, exec (.getRxAddress p) s = .next t
      ∧ Done s t (e1 ++ e2) [.addr (b4 ++ b3 ++ b2 ++ b1 ++ sfx : BitVec 40)] ∧ KeepsRest s t
      ∧ ReadsReg s.cfg.codes (s.cfg.codes.regRxAddr 1) 5 [b0, b1, b2, b3, b4] e1
      ∧ ReadsReg s.cfg.codes (s.cfg.codes.regRxAddr p.toNat) 1 [sfx] e2
      ∧ (s.FaithfulPeer → s.KeepsPower →
          [b0, b1, b2, b3, b4] = (List.range 5).map (fun j => s.cell (cellOf 0x0B j))
          ∧ sfx = s.regByte (s.cfg.codes.regRxAddr p.toNat) ∧ KeepsCellsBut s t (fun _ => False))
      ∧ (s.FaithfulPeer → s.RadioQuiet → t.peer = s.peer)
      ∧ (s.env.level = .any → t.peer = s.peer))
    ∧ (p.toNat ≤ 5 → ∀ addr : BitVec 40, ∃ t evs, exec (.setRxAddress p addr) s = .next t ∧ Done s t evs [.ok]
      ∧ KeepsRest s t
      ∧ StoresBytes s t (s.cfg.codes.regRxAddr p.toNat)
          (if p.toNat ≤ 1 then [addr.extractLsb' 0 8, addr.extractLsb' 8 8, addr.extractLsb' 16 8, addr.extractLsb' 24 8,
            addr.extractLsb' 32 8] else [addr.extractLsb' 0 8]) evs)

/-- 42_config_access.md R197, R198: GET_TX_ADDRESS and SET_TX_ADDRESS; no RX address changes. -/
def Obligations.TxAddressIsReadAndSet : Prop :=
  ∀ s : State, s.Ready →
    (∃ t evs b0 b1 b2 b3 b4, exec .getTxAddress s = .next t
      ∧ Done s t evs [.addr (b4 ++ b3 ++ b2 ++ b1 ++ b0 : BitVec 40)] ∧ KeepsRest s t
      ∧ ReadsBytes s t s.cfg.codes.regTxAddr 5 [b0, b1, b2, b3, b4] evs)
    ∧ (∀ addr : BitVec 40, ∃ t evs, exec (.setTxAddress addr) s = .next t ∧ Done s t evs [.ok] ∧ KeepsRest s t
      ∧ StoresBytes s t s.cfg.codes.regTxAddr [addr.extractLsb' 0 8, addr.extractLsb' 8 8, addr.extractLsb' 16 8,
          addr.extractLsb' 24 8, addr.extractLsb' 32 8] evs)

/-- 42_config_access.md R199, R201, R203: GET_DYN_PAYLOAD, GET_AUTO_ACK and GET_PIPE_ENABLE return the bit of the pipe;
a pipe above 5 gives FAIL. -/
def Obligations.PipeBitsAreRead : Prop :=
  ∀ (s : State) (p : Pipe), s.Ready →
    ∀ x ∈ [(Instr.getDynPayload p, s.cfg.codes.regDynpd), (.getAutoAck p, s.cfg.codes.regEnAa),
        (.getPipeEnable p, s.cfg.codes.regEnRxaddr)],
      (6 ≤ p.toNat → exec x.1 s = .next { s with results := s.results ++ [.fail] })
      ∧ (p.toNat ≤ 5 → BitPerPipe s.cfg.codes → ∃ t evs v, exec x.1 s = .next t ∧ Done s t evs [.flag (v.getLsbD p.toNat)] ∧ KeepsRest s t
        ∧ ReadsBytes s t x.2 1 [v] evs)

/-- 42_config_access.md R200, R202, R204: SET_DYN_PAYLOAD, SET_AUTO_ACK and SET_PIPE_ENABLE set or clear the bit of the pipe and
keep those of the others; a pipe above 5 gives FAIL. -/
def Obligations.PipeBitsAreSet : Prop :=
  ∀ (s : State) (p : Pipe) (e : Bool), s.Ready →
    ∀ x ∈ [(Instr.setDynPayload p e, s.cfg.codes.regDynpd), (.setAutoAck p e, s.cfg.codes.regEnAa),
        (.setPipeEnable p e, s.cfg.codes.regEnRxaddr)],
      (6 ≤ p.toNat → exec x.1 s = .next { s with results := s.results ++ [.fail] })
      ∧ (p.toNat ≤ 5 → BitPerPipe s.cfg.codes → ∃ t evs, exec x.1 s = .next t ∧ Done s t evs [.ok] ∧ KeepsMode s t ∧ KeepsQueues s t
        ∧ UpdatesReg s t x.2 (if e then 0 else (1 : Byte) <<< p.toNat) (if e then (1 : Byte) <<< p.toNat else 0) evs)

/-- 42_config_access.md R205: what was set is what is then got, in a peer that keeps the contract. -/
def Obligations.SettingsRoundTrip : Prop :=
  ∀ (s : State) (m : CrcMode) (ch n d : Byte) (r : DataRate) (w : Power) (ta : BitVec 40), s.Ready → s.FaithfulPeer →
    s.KeepsPower →
    ∀ x ∈ [(Instr.setCrc m, Instr.getCrc, Result.crc m), (.setDataRate r, .getDataRate, .rate r),
        (.setOutputPower w, .getOutputPower, .power w),
        (.setChannel ch, .getChannel,
          .channel (if ch.toNat ≤ 127 then ch.extractLsb' 0 7 else (s.regByte 0x05).extractLsb' 0 7)),
        (.setRetryCount n, .getRetryCount, .retry (BitVec.ofNat 4 (min n.toNat 15))),
        (.setRetryDelay d, .getRetryDelay, .retry (BitVec.ofNat 4 (min d.toNat 15))),
        (.setTxAddress ta, .getTxAddress, .addr ta)],
      ∃ t u, exec x.1 s = .next t ∧ exec x.2.1 t = .next u ∧ u.results = s.results ++ [.ok, x.2.2]

/-- 42_config_access.md R205, the per-pipe settings: what was set for a pipe is what is then got; a pipe 2 to 5 keeps the base of
pipe 1. -/
def Obligations.PipeSettingsRoundTrip : Prop :=
  ∀ (s : State) (p : Pipe) (e : Bool) (addr : BitVec 40), s.Ready → s.FaithfulPeer → s.KeepsPower → p.toNat ≤ 5 →
    ∀ x ∈ [(Instr.setDynPayload p e, Instr.getDynPayload p, Result.flag e), (.setAutoAck p e, .getAutoAck p, .flag e),
        (.setPipeEnable p e, .getPipeEnable p, .flag e),
        (.setRxAddress p addr, .getRxAddress p, .addr (if p.toNat ≤ 1 then addr else
          s.cell (cellOf 0x0B 4) ++ s.cell (cellOf 0x0B 3) ++ s.cell (cellOf 0x0B 2) ++ s.cell (cellOf 0x0B 1)
            ++ addr.extractLsb' 0 8)),
        (.setRxBaseAddress p (addr.extractLsb' 8 32), .getRxBaseAddress p, .base (addr.extractLsb' 8 32))],
      ∃ t u, exec x.1 s = .next t ∧ exec x.2.1 t = .next u ∧ u.results = s.results ++ [.ok, x.2.2]

/-- 42_config_access.md R205, last sentence: setting one field of a shared register does not change what the GET of the other
field, or of another pipe, returns. -/
def Obligations.FieldsAreIndependent : Prop :=
  ∀ (s : State) (n : Byte) (r : DataRate) (w : Power) (p q : Pipe) (e : Bool), s.Ready → s.FaithfulPeer → s.KeepsPower →
    p.toNat ≤ 5 → q.toNat ≤ 5 → p ≠ q →
    ∀ x ∈ [(Instr.setDataRate r, Instr.getOutputPower), (.setOutputPower w, .getDataRate),
        (.setRetryCount n, .getRetryDelay), (.setRetryDelay n, .getRetryCount), (.enterRx, .getCrc), (.enterTx, .getCrc),
        (.setDynPayload p e, .getDynPayload q), (.setAutoAck p e, .getAutoAck q),
        (.setPipeEnable p e, .getPipeEnable q)],
      ∃ t u v g, exec x.1 s = .next t ∧ exec x.2 t = .next u ∧ exec x.2 s = .next v
        ∧ u.results = s.results ++ [.ok, g] ∧ v.results = s.results ++ [g]

/-! ### The event loop -/

/-- 43_event_loop.md R230: INIT. That FLUSH_TX ends a reuse is 20_memory.md R91 of the reference peer; for a peer of level L1 it
is the model's choice (log 22, PRESUMED). -/
def Obligations.InitPreparesThePeer : Prop :=
  ∀ s : State, s.Ready →
    ∃ t v e1 e2 e3 e4, exec .init s = .next t ∧ Done s t (e1 ++ e2 ++ e3 ++ e4) [.ok] ∧ KeepsMode s t ∧ KeepsQueues s t
      ∧ t.blk.vTmp = [v]
      ∧ RmwEvents s.cfg.codes s.cfg.codes.regFeature v (s.cfg.codes.mEnDynAck ||| s.cfg.codes.mEnAckPay)
          s.cfg.codes.mEnDpl e1
      ∧ WritesReg s.cfg.codes s.cfg.codes.regStatus
          [s.cfg.codes.mRxDr ||| s.cfg.codes.mTxDs ||| s.cfg.codes.mMaxRt] e2
      ∧ Commands s.cfg.codes.opcFlushRx e3 ∧ Commands s.cfg.codes.opcFlushTx e4
      ∧ (s.FaithfulPeer → s.KeepsPower →
          t.regByte 0x1D = (s.regByte 0x1D &&& 0xFC) ||| 0x04 ∧ KeepsCellsBut s t (· = regCell 0x1D)
          ∧ t.peer.txf = [])
      ∧ (s.FaithfulPeer → s.RadioQuiet → t.cell s.observeCell = s.cell s.observeCell
          ∧ t.peer.rxDr = false ∧ t.peer.txDs = false ∧ t.peer.maxRt = false ∧ t.peer.rxf = [] ∧ t.peer.txReuse = false)
      ∧ (s.env.level = .any → t.peer = s.peer)

/-- 43_event_loop.md R231 to R237, for any answers of the peer: POLL runs its six steps in order, all on the byte latched in
step 1. -/
def Obligations.PollRunsItsSixSteps : Prop :=
  ∀ s : State, s.Ready →
    ∃ t st w got e2 e3 e4 e6, exec .poll s = .next t
      ∧ Done s t ([.xfer [s.cfg.codes.opcNop] [st]] ++ e2 ++ e3 ++ e4
          ++ deliverEvents (queueAfterRx s.cfg.rxqCap s.blk.rxq got) s.blk.rxCb ++ e6) [.ok]
      ∧ KeepsMode s t ∧ t.blk.rxCb = s.blk.rxCb ∧ t.blk.txCb = s.blk.txCb ∧ t.blk.vTmp = s.blk.vTmp
      ∧ t.blk.pollStatus = some st
      ∧ t.blk.wLat = (if flagSet s.cfg.codes.mRxDr st then w else s.blk.wLat)
      ∧ t.blk.pLat = (if flagSet s.cfg.codes.mRxDr st then rxPNo s.cfg.codes st else s.blk.pLat)
      ∧ t.blk.rxq = (queueAfterRx s.cfg.rxqCap s.blk.rxq got).tail
      ∧ PollRx s.cfg.codes st w e2 got
      ∧ PollTxSent s.cfg.codes st s.blk.txCb e3
      ∧ PollMaxRt s.cfg.codes st e4
      ∧ PollDrain s.cfg.codes st s.blk.txq e6 t.blk.txq
      ∧ (s.env.level = .any → t.peer = s.peer)

/-- 43_event_loop.md R233 to R237 on the peer (60_exceptions.md R275): while the radio is quiet, POLL clears every flag it
found set, reads or flushes the head of the RX FIFO when RX_DR was set, flushes the TX FIFO when MAX_RT was set, and appends
the head of the TX queue unless TX_FULL was latched; registers are untouched. A reuse is ended by the flush (20_memory.md R91) and
by the push (R88). -/
def Obligations.PollServesThePeer : Prop :=
  ∀ s : State, s.Ready → s.Inv → s.FaithfulPeer → s.env.level = .reference → s.RadioQuiet →
    ∃ t, exec .poll s = .next t
      ∧ t.peer = {
          mem := s.peer.mem
          rxDr := false
          txDs := false
          maxRt := false
          rxf := if s.peer.rxDr then
              (match s.peer.rxf with | [] => [] | e :: rest => if 32 < e.width.toNat then [] else rest)
            else s.peer.rxf
          txf := (if s.peer.maxRt then [] else s.peer.txf)
            ++ (if s.peer.txf.length = s.cfg.fifoDepth then [] else s.blk.txq.head?.toList.map (fun d => ⟨.plain, d.bytes⟩))
          txReuse := s.peer.txReuse && !s.peer.maxRt
            && !(decide (s.peer.txf.length ≠ s.cfg.fifoDepth) && !s.blk.txq.isEmpty) }
      ∧ t.blk.txq = (if s.peer.txf.length = s.cfg.fifoDepth then s.blk.txq else s.blk.txq.tail)

/-- 43_event_loop.md R233, R236 and 60_exceptions.md R272: with the reference peer, a payload waiting with RX_DR set is handed
to the RX callback by the same POLL, with its pipe and bytes; one whose width is above 32 is not, and the RX FIFO is empty
after. -/
def Obligations.ArrivalIsDeliveredOrFlushed : Prop :=
  ∀ (s : State) (e : RxEntry) (rest : List RxEntry) (f : Callback), s.Ready → s.Inv → s.cfg.ok = true → s.FaithfulPeer →
    s.env.level = .reference → s.RadioQuiet → s.peer.rxDr = true → s.peer.rxf = e :: rest → s.blk.rxCb = some f →
    ∃ t evs, exec .poll s = .next t ∧ t.trace = s.trace ++ evs ∧ t.blk.rxq = [] ∧ t.peer.rxDr = false
      ∧ (e.width.toNat ≤ 32 → evs.filter isCbRx = [.cbRx f.fn f.ctx ⟨e.pipe, e.bytes⟩] ∧ t.peer.rxf = rest)
      ∧ (32 < e.width.toNat → evs.filter isCbRx = [] ∧ t.peer.rxf = [])

/-- 43_event_loop.md R245, 10_state.md R31: one POLL, completed or cut short, makes at most 8 exchanges, one TX callback and one
RX callback; at most one datagram enters the RX queue, at its tail, and at most one leaves each queue, at its head. -/
def Obligations.PollIsBounded : Prop :=
  ∀ s t : State, exec .poll s = .next t →
    ∃ evs, t.trace = s.trace ++ evs ∧ (evs.filter isXfer).length ≤ 8 ∧ (evs.filter isCbTx).length ≤ 1
      ∧ (evs.filter isCbRx).length ≤ 1 ∧ evs.length ≤ 10
      ∧ (t.blk.rxq = s.blk.rxq ∨ t.blk.rxq = s.blk.rxq.tail
          ∨ ∃ d, t.blk.rxq = s.blk.rxq ++ [d] ∨ t.blk.rxq = (s.blk.rxq ++ [d]).tail)
      ∧ (t.blk.txq = s.blk.txq ∨ t.blk.txq = s.blk.txq.tail)

/-- 43_event_loop.md R234, R235 and 60_exceptions.md R274: a POLL calls the TX callback only with TX_DS latched and the
registration it found, and never for MAX_RT alone. -/
def Obligations.TxCallbackOnlyAfterASend : Prop :=
  ∀ s t : State, exec .poll s = .next t →
    ∃ evs, t.trace = s.trace ++ evs
      ∧ ∀ f x, Event.cbTx f x ∈ evs →
          s.blk.txCb = some ⟨f, x⟩ ∧ ∃ st, t.blk.pollStatus = some st ∧ flagSet s.cfg.codes.mTxDs st = true

/-- 43_event_loop.md R239: ENQUEUE_DATA appends at the tail, or fails at capacity and changes nothing. -/
def Obligations.EnqueueAppendsOrFails : Prop :=
  ∀ (s : State) (dg : Datagram), s.blk.seq = .idle → dg.bytes.length ≤ 32 →
    (s.blk.txq.length = s.cfg.txqCap → exec (.enqueueData dg) s = .next { s with results := s.results ++ [.fail] })
    ∧ (s.blk.txq.length ≠ s.cfg.txqCap → exec (.enqueueData dg) s
        = .next { s with blk := { s.blk with txq := s.blk.txq ++ [dg] }, results := s.results ++ [.ok] })

/-- 43_event_loop.md R240, R241: a registration replaces the previous one of its direction and touches nothing else. -/
def Obligations.RegistrationsAreReplaced : Prop :=
  ∀ (s : State) (cb : Option Callback), s.blk.seq = .idle → (∀ f, cb = some f → f.fn < 2 ^ s.cfg.cbW ∧ f.ctx < 2 ^ s.cfg.cbW) →
    exec (.setRxCallback cb) s = .next { s with blk := { s.blk with rxCb := cb }, results := s.results ++ [.ok] }
    ∧ exec (.setTxCallback cb) s = .next { s with blk := { s.blk with txCb := cb }, results := s.results ++ [.ok] }

/-! ### The whole machine -/

/-- 10_state.md R27 to R30, 20_memory.md R99, 43_event_loop.md R244: of all instructions, completed or cut short, only ENQUEUE_DATA
extends the TX queue, at its tail; only POLL shortens it, at its head; only POLL touches the RX queue; each registration is
written by its own SET alone. -/
def Obligations.QueuesAndRegistrationsHaveTheirWriters : Prop :=
  ∀ (i : Instr) (s t : State), exec i s = .next t →
    (t.blk.txq = s.blk.txq ∨ (i = .poll ∧ t.blk.txq = s.blk.txq.tail)
        ∨ ∃ dg, i = .enqueueData dg ∧ t.blk.txq = s.blk.txq ++ [dg])
      ∧ (i ≠ .poll → t.blk.rxq = s.blk.rxq ∧ t.blk.pollStatus = s.blk.pollStatus ∧ t.blk.wLat = s.blk.wLat
          ∧ t.blk.pLat = s.blk.pLat)
      ∧ (t.blk.rxCb = s.blk.rxCb ∨ i = .setRxCallback t.blk.rxCb)
      ∧ (t.blk.txCb = s.blk.txCb ∨ i = .setTxCallback t.blk.txCb)

/-- 00_scope.md R6, R8, 10_state.md R23: every instruction, completed or cut short, only adds to the trace and to the results; the
status latch is the first byte of the last answer in the trace; configuration, inbox and level are never written. -/
def Obligations.TheObservationOnlyGrows : Prop :=
  ∀ (i : Instr) (s t : State), exec i s = .next t →
    ∃ evs rs, t.trace = s.trace ++ evs ∧ t.results = s.results ++ rs ∧ rs.length ≤ 1
      ∧ t.blk.lastStatus = latestStatus s.blk.lastStatus evs
      ∧ t.cfg = s.cfg ∧ t.inbox = s.inbox ∧ t.env.level = s.env.level

/-- 30_encoding.md R100, R108, R110: whatever the instruction and the answers, every frame the block sends is one of the eleven
commands and has 1 to 33 bytes, and its answer has its length. -/
def Obligations.EveryFrameIsACommand : Prop :=
  ∀ (i : Instr) (s t : State), s.cfg.ok = true → s.Inv → exec i s = .next t →
    ∃ evs, t.trace = s.trace ++ evs ∧ ∀ e ∈ evs, soundEvent s.cfg.codes e = true

/-- 10_state.md R21 to R25, R32, 41_mode_control.md R160, 42_config_access.md R180: the mode, `ce`, the status latches, the exchange
buffer and the working latches of earlier operations are read by nothing: states that differ only in them stay so, with the
same outcome, trace and results, under every instruction. -/
def Obligations.HiddenStateIsNeverRead : Prop :=
  ∀ (i : Instr) (s u : State), AgreeButHidden s u →
    match exec i s, exec i u with
    | .next t, .next v => AgreeButHidden t v
    | .fault f, .fault g => f = g
    | .refused r, .refused q => r = q
    | _, _ => False

/-- 20_memory.md R80: whether the block has a step, and whether it completes, never depends on the peer: with the same
instruction, block, configuration and all calls returning, any two peers at any levels with any radio let it finish. -/
def Obligations.StepsDoNotDependOnThePeer : Prop :=
  ∀ (i : Instr) (s u : State), s.blk = u.blk → s.cfg = u.cfg → s.env.allow = none → u.env.allow = none →
    match exec i s, exec i u with
    | .next t, .next v => t.blk.seq = .idle ∧ v.blk.seq = .idle
    | .fault f, .fault g => f = g
    | .refused r, .refused q => r = q
    | _, _ => False

/-- 60_exceptions.md R288 with 00_scope.md R14: an operation whose calls stop returning shows a prefix of what it would have shown,
and returns no result; if it completes it shows the same. The number of calls that still return is log 11. -/
def Obligations.ACutRunShowsAPrefix : Prop :=
  ∀ (i : Instr) (s t v : State) (n : Nat), s.env.allow = some n → exec i s = .next t →
    exec i { s with env := { s.env with allow := none } } = .next v →
    (t.blk.seq = .idle → t.trace = v.trace ∧ t.results = v.results ∧ t.blk = v.blk ∧ t.peer = v.peer)
      ∧ (t.blk.seq ≠ .idle → t.trace <+: v.trace ∧ t.results = s.results)
end

