-- ==== Sys2Proof/Laws/Codes.lean ====
section
/-! SUPPORT. Under a configuration that meets 00_scope.md R5 an opcode byte is read back as the command it was composed
for (30_encoding.md R102, R106). -/

-- One theorem after the other: elaborated side by side, they wait for each other, and each waiting one holds a thread's stack.
set_option Elab.async false

namespace Sys2Proof

/-- Two rows that match the same byte overlap. -/
theorem WireRow.overlaps_of_hits {r q : WireRow} {b : Byte} (hr : r.hits b = true) (hq : q.hits b = true) :
    r.overlaps q = true := by
  simp only [WireRow.hits, beq_iff_eq] at hr hq
  simp only [WireRow.overlaps, beq_iff_eq]
  rw [← hr, ← hq]
  apply BitVec.eq_of_getLsbD_eq
  intro i hi
  simp only [BitVec.getLsbD_and, BitVec.getLsbD_xor, BitVec.ofNat_eq_ofNat, BitVec.getLsbD_zero]
  cases b.getLsbD i <;> cases r.pat.mask.getLsbD i <;> cases q.pat.mask.getLsbD i <;> rfl

/-- In a list of rows that do not overlap, the row that matches a byte is the one found. -/
theorem find_hits {rows : List WireRow} (hd : disjointRows rows = true) {r : WireRow} (hr : r ∈ rows) {b : Byte}
    (hb : r.hits b = true) : (rows.find? (·.hits b)).map (·.cmd b) = some (r.cmd b) := by
  induction rows with
  | nil => simp at hr
  | cons q rows ih =>
    simp only [disjointRows, Bool.and_eq_true, List.all_eq_true] at hd
    by_cases hq : q.hits b = true
    · rcases List.mem_cons.1 hr with rfl | hr
      · simp [List.find?, hq]
      · have := hd.1 r hr
        simp [WireRow.overlaps_of_hits hq hb] at this
    · rcases List.mem_cons.1 hr with rfl | hr
      · exact absurd hb hq
      · simp only [List.find?, hq]
        exact ih hd.2 hr

theorem Config.rows_disjoint {c : Config} (h : c.ok = true) : disjointRows c.codes.wireTable = true := by
  simp only [Config.ok, Bool.and_eq_true] at h
  exact h.1.1.1.1.1.1

theorem Config.row_ok {c : Config} (h : c.ok = true) {r : WireRow} (hr : r ∈ c.codes.wireTable) :
    r.base &&& r.operand = 0 ∧ r.pat.mask &&& r.operand = 0 ∧ r.base &&& r.pat.mask = r.pat.value := by
  simp only [Config.ok, Bool.and_eq_true] at h
  have := List.all_eq_true.1 h.1.1.1.1.1.2 r hr
  simpa [WireRow.ok, and_assoc] using this

/-- A row's pattern matches its base with any operand in the operand's place (30_encoding.md R102, R106). -/
theorem Config.row_hits {c : Config} (h : c.ok = true) {r : WireRow} (hr : r ∈ c.codes.wireTable) {x : Byte}
    (hx : x &&& r.operand = x) : r.hits (r.base ||| x) = true := by
  obtain ⟨-, hm, hv⟩ := c.row_ok h hr
  simp only [WireRow.hits, beq_iff_eq]
  rw [← hv, ← hx]
  apply BitVec.eq_of_getLsbD_eq
  intro i hi
  have := congrArg (fun v => v.getLsbD i) hm
  simp only [BitVec.getLsbD_and, BitVec.getLsbD_or, BitVec.ofNat_eq_ofNat, BitVec.getLsbD_zero] at this ⊢
  revert this
  cases r.pat.mask.getLsbD i <;> cases r.operand.getLsbD i <;> cases r.base.getLsbD i <;> cases x.getLsbD i <;> decide

theorem reg_in_place (a : Reg) : a.setWidth 8 &&& (0x1F : Byte) = a.setWidth 8 := by revert a; decide

theorem pipe_in_place (p : Pipe) : p.setWidth 8 &&& (0x07 : Byte) = p.setWidth 8 := by revert p; decide

theorem reg_of_opcode {base : Byte} (h : base &&& 0x1F = 0) (a : Reg) : (opWithReg base a).setWidth 5 = a := by
  have hb : base.setWidth 5 = 0 := by revert base; decide
  simp only [opWithReg, BitVec.setWidth_or, hb]
  revert a; decide

theorem pipe_of_opcode {base : Byte} (h : base &&& 0x07 = 0) (p : Pipe) : (opWithPipe base p).setWidth 3 = p := by
  have hb : base.setWidth 3 = 0 := by revert base; decide
  simp only [opWithPipe, BitVec.setWidth_or, hb]
  revert p; decide

/-- Each command has a row, which matches its opcode byte and reads the command from it. -/
theorem Config.row_of {c : Config} (h : c.ok = true) (cmd : WireCmd) :
    ∃ r ∈ c.codes.wireTable, r.hits (c.codes.opcodeOf cmd) = true ∧ r.cmd (c.codes.opcodeOf cmd) = cmd := by
  have fixed : ∀ r ∈ c.codes.wireTable, r.hits r.base = true := fun r hr => by
    simpa using c.row_hits h hr (x := 0) (by simp)
  cases cmd with
  | rRegister a =>
    have hr : (c.codes.wireTable[0]'(show 0 < 11 by decide)) ∈ c.codes.wireTable := List.getElem_mem _
    exact ⟨_, hr, c.row_hits h hr (reg_in_place a), congrArg _ (reg_of_opcode (c.row_ok h hr).1 a)⟩
  | wRegister a =>
    have hr : (c.codes.wireTable[1]'(show 1 < 11 by decide)) ∈ c.codes.wireTable := List.getElem_mem _
    exact ⟨_, hr, c.row_hits h hr (reg_in_place a), congrArg _ (reg_of_opcode (c.row_ok h hr).1 a)⟩
  | wAckPayload p =>
    have hr : (c.codes.wireTable[5]'(show 5 < 11 by decide)) ∈ c.codes.wireTable := List.getElem_mem _
    exact ⟨_, hr, c.row_hits h hr (pipe_in_place p), congrArg _ (pipe_of_opcode (c.row_ok h hr).1 p)⟩
  | rRxPlWid => exact ⟨_, List.getElem_mem (by decide : 2 < 11), fixed _ (List.getElem_mem _), rfl⟩
  | rRxPayload => exact ⟨_, List.getElem_mem (by decide : 3 < 11), fixed _ (List.getElem_mem _), rfl⟩
  | wTxPayload => exact ⟨_, List.getElem_mem (by decide : 4 < 11), fixed _ (List.getElem_mem _), rfl⟩
  | wTxPayloadNoack => exact ⟨_, List.getElem_mem (by decide : 6 < 11), fixed _ (List.getElem_mem _), rfl⟩
  | flushTx => exact ⟨_, List.getElem_mem (by decide : 7 < 11), fixed _ (List.getElem_mem _), rfl⟩
  | flushRx => exact ⟨_, List.getElem_mem (by decide : 8 < 11), fixed _ (List.getElem_mem _), rfl⟩
  | reuseTxPl => exact ⟨_, List.getElem_mem (by decide : 9 < 11), fixed _ (List.getElem_mem _), rfl⟩
  | nop => exact ⟨_, List.getElem_mem (by decide : 10 < 11), fixed _ (List.getElem_mem _), rfl⟩

/-- The opcode byte of a command is read back as that command. -/
theorem wireLookup_opcodeOf {c : Config} (h : c.ok = true) (cmd : WireCmd) :
    c.codes.wireLookup (c.codes.opcodeOf cmd) = some cmd := by
  obtain ⟨r, hr, hh, hc⟩ := c.row_of h cmd
  rw [Codes.wireLookup, find_hits (c.rows_disjoint h) hr hh, hc]

/-- Under the class bits alone a byte that a row matches is its base with the byte's own operand bits. -/
theorem base_or_operand {base mask v op b : Byte} (h0 : base &&& op = 0) (h1 : base &&& mask = v) (h2 : mask = ~~~op)
    (h3 : b &&& mask = v) : base ||| (b &&& op) = b := by
  subst h2
  rw [← h1] at h3
  apply BitVec.eq_of_getLsbD_eq
  intro i hi
  have a := congrArg (fun v => v.getLsbD i) h0
  have d := congrArg (fun v => v.getLsbD i) h3
  simp only [BitVec.getLsbD_and, BitVec.getLsbD_or, BitVec.getLsbD_not, hi, decide_true, Bool.true_and, BitVec.ofNat_eq_ofNat,
    BitVec.getLsbD_zero] at a d ⊢
  revert a d
  cases b.getLsbD i <;> cases base.getLsbD i <;> cases op.getLsbD i <;> decide

theorem reg_bits (b : Byte) : (b.setWidth 5).setWidth 8 = b &&& (0x1F : Byte) := by revert b; decide
theorem pipe_bits (b : Byte) : (b.setWidth 3).setWidth 8 = b &&& (0x07 : Byte) := by revert b; decide

/-- The opcode of the command a row reads from a byte is the row's base with the byte's operand bits. -/
theorem opcodeOf_row (c : Codes) {r : WireRow} (hr : r ∈ c.wireTable) (b : Byte) :
    c.opcodeOf (r.cmd b) = r.base ||| (b &&& r.operand) := by
  simp only [Codes.wireTable, List.mem_cons, List.not_mem_nil, or_false] at hr
  rcases hr with rfl | rfl | rfl | rfl | rfl | rfl | rfl | rfl | rfl | rfl | rfl <;>
    simp [Codes.opcodeOf, opWithReg, opWithPipe, reg_bits, pipe_bits]

/-- A byte read as a command lies in a row that matches that command's own opcode too. -/
theorem row_of_lookup {c : Config} (h : c.ok = true) {b : Byte} {cmd : WireCmd} (hl : c.codes.wireLookup b = some cmd) :
    ∃ r ∈ c.codes.wireTable, r.hits b = true ∧ r.hits (c.codes.opcodeOf cmd) = true
      ∧ (r.pat.mask = ~~~r.operand → c.codes.opcodeOf cmd = b) := by
  simp only [Codes.wireLookup, Option.map_eq_some_iff] at hl
  obtain ⟨r, hf, rfl⟩ := hl
  have hr := List.mem_of_find?_eq_some hf
  have hb : r.hits b = true := by simpa using List.find?_some hf
  refine ⟨r, hr, hb, ?_, fun hm => ?_⟩
  · rw [opcodeOf_row _ hr]
    exact c.row_hits h hr (by rw [BitVec.and_assoc, BitVec.and_self])
  · obtain ⟨h0, -, h1⟩ := c.row_ok h hr
    rw [opcodeOf_row _ hr]
    exact base_or_operand h0 h1 hm (by simpa [WireRow.hits] using hb)

end Sys2Proof
end

