-- ==== Sys2Proof/Laws/Fields.lean ====
section
/-! SUPPORT. The fields of one-byte registers at their default places (10_state.md R38 to R41, R47), the bits of the pipes, and the
coding of the mode: each said once, so that no proof unfolds a mask. -/

-- One theorem after the other: elaborated side by side, they wait for each other, and each waiting one holds a thread's stack.
set_option Elab.async false

namespace Sys2Proof.Machine

open Sys2Proof

/-- ARC is bits 3:0. -/
@[simp] theorem fieldGet_arc (v : Byte) : (fieldGet 15#8 v).setWidth 4 = v.extractLsb' 0 4 := by
  revert v; decide

/-- ARD is bits 7:4. -/
@[simp] theorem fieldGet_ard (v : Byte) : (fieldGet 240#8 v).setWidth 4 = v.extractLsb' 4 4 := by
  revert v; decide

/-- The channel is bits 6:0. -/
@[simp] theorem fieldGet_channel (v : Byte) : (fieldGet 127#8 v).setWidth 7 = v.extractLsb' 0 7 := by
  revert v; decide

/-- A clipped count in the place of ARC. -/
@[simp] theorem fieldPut_arc (n : Byte) : fieldPut 15#8 (clip15 n) = BitVec.ofNat 8 (min n.toNat 15) := by
  revert n; decide

/-- A clipped delay in the place of ARD. -/
@[simp] theorem fieldPut_ard (n : Byte) : fieldPut 240#8 (clip15 n) = BitVec.ofNat 8 (16 * min n.toNat 15) := by
  revert n; decide

/-- A channel up to 127 in its place is itself. -/
theorem fieldPut_channel {ch : Byte} (h : ch.toNat ≤ 127) : fieldPut 127#8 ch = ch := by
  revert h; revert ch; decide

/-- Where the bit position is the pipe number, the bit of pipe `p` is `1 << p`. -/
theorem pipeBit_eq_shift {bits : Vector Byte 6} {p : Pipe} (hb : bits = #v[0x01, 0x02, 0x04, 0x08, 0x10, 0x20])
    (h : p.toNat ≤ 5) : pipeBit bits p = (1 : Byte) <<< p.toNat := by
  subst hb
  revert h; revert p; decide

/-- Testing the bit of a pipe is testing bit `p`. -/
theorem flagSet_shift {p : Pipe} (h : p.toNat ≤ 5) (v : Byte) : flagSet ((1 : Byte) <<< p.toNat) v = v.getLsbD p.toNat := by
  revert h; revert p v; decide

/-- The default configuration has the bit of each pipe at its number. -/
theorem bitPerPipe_standard : BitPerPipe Codes.standard := by
  intro bits h
  simp only [List.mem_cons, List.not_mem_nil, or_false] at h
  obtain rfl | rfl | rfl := h <;> rfl

/-- The four modes have four codes (10_state.md R21). -/
theorem Mode.number_injective {m n : Mode} (h : m.number = n.number) : m = n := by
  revert h; cases m <;> cases n <;> decide

end Sys2Proof.Machine
end

