-- ==== Sys2Proof/Laws/Memory.lean ====
section
/-! SUPPORT. The laws of the peer register space: a read after a write, a write leaves every other cell alone, and every
memory operation keeps the canonical form. -/

-- One theorem after the other: elaborated side by side, they wait for each other, and each waiting one holds a thread's stack.
set_option Elab.async false

namespace Sys2Proof.Machine

open Sys2Proof

/-- The part of the canonical form that does not name the configuration: the cells rise. -/
abbrev Memory.Rising (m : Memory) : Prop := m.Pairwise (fun x y => x.1 < y.1)

theorem Memory.wf_iff {c : Codes} {m : Memory} :
    Memory.wf c m = true ↔ Memory.Rising m ∧ ∀ x ∈ m, isCell c x.1 = true ∧ x.2 ≠ unlisted c x.1 := by
  simp [Memory.wf]

theorem Memory.find_eq_none_of_lt {m : Memory} {k : Nat} (h : ∀ x ∈ m, k < x.1) : Memory.find m k = none := by
  induction m with
  | nil => rfl
  | cons x m ih =>
    have hx := h x (by simp)
    have : x.1 ≠ k := by omega
    simp [Memory.find, this, ih (fun y hy => h y (by simp [hy]))]

theorem Memory.find_put_other (d v : Byte) {k j : Nat} (h : j ≠ k) (m : Memory) :
    Memory.find (Memory.put d m k v) j = Memory.find m j := by
  have hk : ¬ k = j := fun e => h e.symm
  induction m with
  | nil => simp only [Memory.put]; split <;> simp [Memory.find, hk]
  | cons x m ih =>
    obtain ⟨k', v'⟩ := x
    simp only [Memory.put]
    split_ifs <;> simp_all [Memory.find]

theorem Memory.find_put_same {d v : Byte} {k : Nat} {m : Memory} (h : Memory.Rising m) :
    Memory.find (Memory.put d m k v) k = if v = d then none else some v := by
  induction m with
  | nil => simp only [Memory.put]; split <;> simp [Memory.find]
  | cons x m ih =>
    obtain ⟨k', v'⟩ := x
    obtain ⟨h1, h2⟩ := List.pairwise_cons.1 h
    have low : k ≤ k' → Memory.find m k = none := fun hle =>
      Memory.find_eq_none_of_lt (fun y hy => lt_of_le_of_lt hle (h1 y hy))
    simp only [Memory.put]
    by_cases hlt : k < k'
    · have hne : k' ≠ k := by omega
      by_cases hv : v = d <;> simp [hlt, hv, Memory.find, hne, low hlt.le]
    · by_cases heq : k = k'
      · subst heq
        by_cases hv : v = d <;> simp [hv, Memory.find, low le_rfl]
      · have hne : ¬ k' = k := fun e => heq e.symm
        simp [hlt, heq, Memory.find, hne, ih h2]

theorem Memory.mem_put {d v : Byte} {k : Nat} {x : Host.Cell} {m : Memory} (h : x ∈ Memory.put d m k v) :
    x ∈ m ∨ (x = (k, v) ∧ v ≠ d) := by
  induction m with
  | nil => simp only [Memory.put] at h; split at h <;> simp_all
  | cons y m ih =>
    obtain ⟨k', v'⟩ := y
    simp only [Memory.put] at h
    by_cases hlt : k < k'
    · by_cases hv : v = d <;> simp_all
      tauto
    · by_cases heq : k = k'
      · by_cases hv : v = d <;> simp_all
        tauto
      · simp only [hlt, heq, if_false, List.mem_cons] at h ⊢
        rcases h with h | h
        · exact .inl (.inl h)
        · rcases ih h with h | h
          · exact .inl (.inr h)
          · exact .inr h

theorem Memory.rising_put {d v : Byte} {k : Nat} {m : Memory} (h : Memory.Rising m) :
    Memory.Rising (Memory.put d m k v) := by
  induction m with
  | nil => simp only [Memory.put]; split <;> simp [Memory.Rising]
  | cons y m ih =>
    obtain ⟨k', v'⟩ := y
    obtain ⟨h1, h2⟩ := List.pairwise_cons.1 h
    simp only [Memory.put]
    by_cases hlt : k < k'
    · by_cases hv : v = d
      · simpa [hlt, hv] using h
      · simp only [hlt, hv, if_true, if_false]
        refine List.pairwise_cons.2 ⟨fun z hz => ?_, h⟩
        rcases List.mem_cons.1 hz with rfl | hz
        · exact hlt
        · exact lt_trans hlt (h1 z hz)
    · by_cases heq : k = k'
      · subst heq
        by_cases hv : v = d
        · simpa [hv] using h2
        · simpa [hv] using List.pairwise_cons.2 ⟨h1, h2⟩
      · simp only [hlt, heq, if_false]
        refine List.pairwise_cons.2 ⟨fun z hz => ?_, ih h2⟩
        rcases Memory.mem_put hz with hz | ⟨rfl, -⟩
        · exact h1 z hz
        · show k' < k
          omega

/-- A write keeps the canonical form. -/
theorem Memory.wf_write {c : Codes} {m : Memory} (h : Memory.wf c m = true) (k : Nat) (v : Byte) :
    Memory.wf c (Memory.write c m k v) = true := by
  rw [Memory.wf_iff] at h ⊢
  unfold Memory.write
  split
  · next hc =>
    refine ⟨Memory.rising_put h.1, fun x hx => ?_⟩
    rcases Memory.mem_put hx with hx | ⟨rfl, hv⟩
    · exact h.2 x hx
    · exact ⟨hc, hv⟩
  · exact h

/-- A run of writes keeps the canonical form. -/
theorem Memory.wf_writeFrom {c : Codes} {bs : List Byte} {m : Memory} {k : Nat} (h : Memory.wf c m = true) :
    Memory.wf c (Memory.writeFrom c m k bs) = true := by
  induction bs generalizing m k with
  | nil => exact h
  | cons b bs ih => exact ih (Memory.wf_write h k b)

/-- Writing a register keeps the canonical form. -/
theorem Memory.wf_writeReg {c : Codes} {m : Memory} (h : Memory.wf c m = true) (a : Reg) (d : List Byte) :
    Memory.wf c (Memory.writeReg c m a d) = true :=
  Memory.wf_writeFrom h

/-- Memory in which nothing is listed has the canonical form. -/
theorem Memory.wf_nil (c : Codes) : Memory.wf c [] = true := rfl

/-- A read of the cell written gives the value written. -/
theorem Memory.read_write_same {c : Codes} {m : Memory} (h : Memory.wf c m = true) {k : Nat} (hk : isCell c k = true)
    (v : Byte) : Memory.read c (Memory.write c m k v) k = v := by
  have hr := (Memory.wf_iff.1 h).1
  simp only [Memory.read, Memory.write, hk, if_true, Memory.find_put_same hr]
  split <;> simp_all

/-- A write leaves every other cell alone. -/
theorem Memory.read_write_other (c : Codes) (m : Memory) {k j : Nat} (h : j ≠ k) (v : Byte) :
    Memory.read c (Memory.write c m k v) j = Memory.read c m j := by
  unfold Memory.write
  split
  · simp [Memory.read, Memory.find_put_other _ _ h]
  · rfl

/-- A run of writes leaves the cells before and after it alone. -/
theorem Memory.read_writeFrom_outside {c : Codes} {bs : List Byte} {m : Memory} {k j : Nat}
    (h : j < k ∨ k + bs.length ≤ j) : Memory.read c (Memory.writeFrom c m k bs) j = Memory.read c m j := by
  induction bs generalizing m k with
  | nil => rfl
  | cons b bs ih =>
    simp only [List.length_cons] at h
    simp only [Memory.writeFrom]
    rw [ih (by omega), Memory.read_write_other c m (by omega) b]

/-- A run of writes to existing cells gives each its byte. -/
theorem Memory.read_writeFrom_inside {c : Codes} {bs : List Byte} {m : Memory} {k : Nat} (hm : Memory.wf c m = true)
    (hc : ∀ i < bs.length, isCell c (k + i) = true) {i : Nat} (hi : i < bs.length) :
    Memory.read c (Memory.writeFrom c m k bs) (k + i) = bs[i] := by
  induction bs generalizing m k i with
  | nil => simp at hi
  | cons b bs ih =>
    simp only [Memory.writeFrom]
    cases i with
    | zero =>
      have h0 : isCell c k = true := by simpa using hc 0 (by simp)
      rw [Memory.read_writeFrom_outside (by omega), Nat.add_zero, Memory.read_write_same hm h0]
      simp
    | succ i =>
      have := ih (m := Memory.write c m k b) (k := k + 1) (i := i) (Memory.wf_write hm k b)
        (fun j hj => by simpa [Nat.add_assoc, Nat.add_comm 1 j] using hc (j + 1) (by simp; omega))
        (by simpa using hi)
      simpa [Nat.add_assoc, Nat.add_comm 1 i] using this

/-- A fold of writes over cells keeps the canonical form. -/
theorem Memory.wf_foldl_write {c : Codes} (f : Nat → Byte) (ks : List Nat) {m : Memory} (h : Memory.wf c m = true) :
    Memory.wf c (ks.foldl (fun m k => Memory.write c m k (f k)) m) = true := by
  induction ks generalizing m with
  | nil => exact h
  | cons k ks ih => exact ih (Memory.wf_write h k (f k))

end Sys2Proof.Machine
end

