-- ==== Sys2Proof/Laws/State.lean ====
section
/-! SUPPORT. One lemma per field per update of the state, each true by definition. -/

-- One theorem after the other: elaborated side by side, they wait for each other, and each waiting one holds a thread's stack.
set_option Elab.async false

namespace Sys2Proof.Machine

open Sys2Proof

variable (s : State)

/-! ### onBlk -/

@[simp] theorem State.onBlk_blk (f : Block → Block) : (s.onBlk f).blk = f s.blk := rfl
@[simp] theorem State.onBlk_cfg (f : Block → Block) : (s.onBlk f).cfg = s.cfg := rfl
@[simp] theorem State.onBlk_peer (f : Block → Block) : (s.onBlk f).peer = s.peer := rfl
@[simp] theorem State.onBlk_env (f : Block → Block) : (s.onBlk f).env = s.env := rfl
@[simp] theorem State.onBlk_trace (f : Block → Block) : (s.onBlk f).trace = s.trace := rfl
@[simp] theorem State.onBlk_results (f : Block → Block) : (s.onBlk f).results = s.results := rfl
@[simp] theorem State.onBlk_inbox (f : Block → Block) : (s.onBlk f).inbox = s.inbox := rfl

/-! ### emit -/

@[simp] theorem State.emit_trace (e : Event) : (s.emit e).trace = s.trace ++ [e] := rfl
@[simp] theorem State.emit_blk_seq (e : Event) : (s.emit e).blk.seq = s.blk.seq.advance := rfl
@[simp] theorem State.emit_blk_mode (e : Event) : (s.emit e).blk.mode = s.blk.mode := rfl
@[simp] theorem State.emit_blk_ce (e : Event) : (s.emit e).blk.ce = s.blk.ce := rfl
@[simp] theorem State.emit_blk_lastStatus (e : Event) : (s.emit e).blk.lastStatus = s.blk.lastStatus := rfl
@[simp] theorem State.emit_blk_pollStatus (e : Event) : (s.emit e).blk.pollStatus = s.blk.pollStatus := rfl
@[simp] theorem State.emit_blk_xbuf (e : Event) : (s.emit e).blk.xbuf = s.blk.xbuf := rfl
@[simp] theorem State.emit_blk_rxq (e : Event) : (s.emit e).blk.rxq = s.blk.rxq := rfl
@[simp] theorem State.emit_blk_txq (e : Event) : (s.emit e).blk.txq = s.blk.txq := rfl
@[simp] theorem State.emit_blk_rxCb (e : Event) : (s.emit e).blk.rxCb = s.blk.rxCb := rfl
@[simp] theorem State.emit_blk_txCb (e : Event) : (s.emit e).blk.txCb = s.blk.txCb := rfl
@[simp] theorem State.emit_blk_wLat (e : Event) : (s.emit e).blk.wLat = s.blk.wLat := rfl
@[simp] theorem State.emit_blk_pLat (e : Event) : (s.emit e).blk.pLat = s.blk.pLat := rfl
@[simp] theorem State.emit_blk_vTmp (e : Event) : (s.emit e).blk.vTmp = s.blk.vTmp := rfl
@[simp] theorem State.emit_cfg (e : Event) : (s.emit e).cfg = s.cfg := rfl
@[simp] theorem State.emit_peer (e : Event) : (s.emit e).peer = s.peer := rfl
@[simp] theorem State.emit_env (e : Event) : (s.emit e).env = s.env := rfl
@[simp] theorem State.emit_results (e : Event) : (s.emit e).results = s.results := rfl
@[simp] theorem State.emit_inbox (e : Event) : (s.emit e).inbox = s.inbox := rfl

/-! ### fillXbuf -/

@[simp] theorem State.fillXbuf_blk_xbuf (bs : List Byte) : (s.fillXbuf bs).blk.xbuf = loadXbuf bs s.blk.xbuf := rfl
@[simp] theorem State.fillXbuf_blk_mode (bs : List Byte) : (s.fillXbuf bs).blk.mode = s.blk.mode := rfl
@[simp] theorem State.fillXbuf_blk_ce (bs : List Byte) : (s.fillXbuf bs).blk.ce = s.blk.ce := rfl
@[simp] theorem State.fillXbuf_blk_lastStatus (bs : List Byte) : (s.fillXbuf bs).blk.lastStatus = s.blk.lastStatus := rfl
@[simp] theorem State.fillXbuf_blk_pollStatus (bs : List Byte) : (s.fillXbuf bs).blk.pollStatus = s.blk.pollStatus := rfl
@[simp] theorem State.fillXbuf_blk_rxq (bs : List Byte) : (s.fillXbuf bs).blk.rxq = s.blk.rxq := rfl
@[simp] theorem State.fillXbuf_blk_txq (bs : List Byte) : (s.fillXbuf bs).blk.txq = s.blk.txq := rfl
@[simp] theorem State.fillXbuf_blk_rxCb (bs : List Byte) : (s.fillXbuf bs).blk.rxCb = s.blk.rxCb := rfl
@[simp] theorem State.fillXbuf_blk_txCb (bs : List Byte) : (s.fillXbuf bs).blk.txCb = s.blk.txCb := rfl
@[simp] theorem State.fillXbuf_blk_seq (bs : List Byte) : (s.fillXbuf bs).blk.seq = s.blk.seq := rfl
@[simp] theorem State.fillXbuf_blk_wLat (bs : List Byte) : (s.fillXbuf bs).blk.wLat = s.blk.wLat := rfl
@[simp] theorem State.fillXbuf_blk_pLat (bs : List Byte) : (s.fillXbuf bs).blk.pLat = s.blk.pLat := rfl
@[simp] theorem State.fillXbuf_blk_vTmp (bs : List Byte) : (s.fillXbuf bs).blk.vTmp = s.blk.vTmp := rfl
@[simp] theorem State.fillXbuf_cfg (bs : List Byte) : (s.fillXbuf bs).cfg = s.cfg := rfl
@[simp] theorem State.fillXbuf_peer (bs : List Byte) : (s.fillXbuf bs).peer = s.peer := rfl
@[simp] theorem State.fillXbuf_env (bs : List Byte) : (s.fillXbuf bs).env = s.env := rfl
@[simp] theorem State.fillXbuf_trace (bs : List Byte) : (s.fillXbuf bs).trace = s.trace := rfl
@[simp] theorem State.fillXbuf_results (bs : List Byte) : (s.fillXbuf bs).results = s.results := rfl
@[simp] theorem State.fillXbuf_inbox (bs : List Byte) : (s.fillXbuf bs).inbox = s.inbox := rfl

/-! ### accept -/

@[simp] theorem State.accept_blk_seq (i : Instr) : (s.accept i).blk.seq = .busy i 1 := rfl
@[simp] theorem State.accept_blk_mode (i : Instr) : (s.accept i).blk.mode = s.blk.mode := rfl
@[simp] theorem State.accept_blk_ce (i : Instr) : (s.accept i).blk.ce = s.blk.ce := rfl
@[simp] theorem State.accept_blk_lastStatus (i : Instr) : (s.accept i).blk.lastStatus = s.blk.lastStatus := rfl
@[simp] theorem State.accept_blk_pollStatus (i : Instr) : (s.accept i).blk.pollStatus = s.blk.pollStatus := rfl
@[simp] theorem State.accept_blk_xbuf (i : Instr) : (s.accept i).blk.xbuf = s.blk.xbuf := rfl
@[simp] theorem State.accept_blk_rxq (i : Instr) : (s.accept i).blk.rxq = s.blk.rxq := rfl
@[simp] theorem State.accept_blk_txq (i : Instr) : (s.accept i).blk.txq = s.blk.txq := rfl
@[simp] theorem State.accept_blk_rxCb (i : Instr) : (s.accept i).blk.rxCb = s.blk.rxCb := rfl
@[simp] theorem State.accept_blk_txCb (i : Instr) : (s.accept i).blk.txCb = s.blk.txCb := rfl
@[simp] theorem State.accept_blk_wLat (i : Instr) : (s.accept i).blk.wLat = s.blk.wLat := rfl
@[simp] theorem State.accept_blk_pLat (i : Instr) : (s.accept i).blk.pLat = s.blk.pLat := rfl
@[simp] theorem State.accept_blk_vTmp (i : Instr) : (s.accept i).blk.vTmp = s.blk.vTmp := rfl
@[simp] theorem State.accept_cfg (i : Instr) : (s.accept i).cfg = s.cfg := rfl
@[simp] theorem State.accept_peer (i : Instr) : (s.accept i).peer = s.peer := rfl
@[simp] theorem State.accept_env (i : Instr) : (s.accept i).env = s.env := rfl
@[simp] theorem State.accept_trace (i : Instr) : (s.accept i).trace = s.trace := rfl
@[simp] theorem State.accept_results (i : Instr) : (s.accept i).results = s.results := rfl
@[simp] theorem State.accept_inbox (i : Instr) : (s.accept i).inbox = s.inbox := rfl

/-! ### finish -/

@[simp] theorem State.finish_blk_seq : (s.finish).blk.seq = .idle := rfl
@[simp] theorem State.finish_blk_mode : (s.finish).blk.mode = s.blk.mode := rfl
@[simp] theorem State.finish_blk_ce : (s.finish).blk.ce = s.blk.ce := rfl
@[simp] theorem State.finish_blk_lastStatus : (s.finish).blk.lastStatus = s.blk.lastStatus := rfl
@[simp] theorem State.finish_blk_pollStatus : (s.finish).blk.pollStatus = s.blk.pollStatus := rfl
@[simp] theorem State.finish_blk_xbuf : (s.finish).blk.xbuf = s.blk.xbuf := rfl
@[simp] theorem State.finish_blk_rxq : (s.finish).blk.rxq = s.blk.rxq := rfl
@[simp] theorem State.finish_blk_txq : (s.finish).blk.txq = s.blk.txq := rfl
@[simp] theorem State.finish_blk_rxCb : (s.finish).blk.rxCb = s.blk.rxCb := rfl
@[simp] theorem State.finish_blk_txCb : (s.finish).blk.txCb = s.blk.txCb := rfl
@[simp] theorem State.finish_blk_wLat : (s.finish).blk.wLat = s.blk.wLat := rfl
@[simp] theorem State.finish_blk_pLat : (s.finish).blk.pLat = s.blk.pLat := rfl
@[simp] theorem State.finish_blk_vTmp : (s.finish).blk.vTmp = s.blk.vTmp := rfl
@[simp] theorem State.finish_cfg : (s.finish).cfg = s.cfg := rfl
@[simp] theorem State.finish_peer : (s.finish).peer = s.peer := rfl
@[simp] theorem State.finish_env : (s.finish).env = s.env := rfl
@[simp] theorem State.finish_trace : (s.finish).trace = s.trace := rfl
@[simp] theorem State.finish_results : (s.finish).results = s.results := rfl
@[simp] theorem State.finish_inbox : (s.finish).inbox = s.inbox := rfl

/-! ### complete -/

@[simp] theorem State.complete_blk_seq (r : Result) : (s.complete r).blk.seq = .idle := rfl
@[simp] theorem State.complete_results (r : Result) : (s.complete r).results = s.results ++ [r] := rfl
@[simp] theorem State.complete_blk_mode (r : Result) : (s.complete r).blk.mode = s.blk.mode := rfl
@[simp] theorem State.complete_blk_ce (r : Result) : (s.complete r).blk.ce = s.blk.ce := rfl
@[simp] theorem State.complete_blk_lastStatus (r : Result) : (s.complete r).blk.lastStatus = s.blk.lastStatus := rfl
@[simp] theorem State.complete_blk_pollStatus (r : Result) : (s.complete r).blk.pollStatus = s.blk.pollStatus := rfl
@[simp] theorem State.complete_blk_xbuf (r : Result) : (s.complete r).blk.xbuf = s.blk.xbuf := rfl
@[simp] theorem State.complete_blk_rxq (r : Result) : (s.complete r).blk.rxq = s.blk.rxq := rfl
@[simp] theorem State.complete_blk_txq (r : Result) : (s.complete r).blk.txq = s.blk.txq := rfl
@[simp] theorem State.complete_blk_rxCb (r : Result) : (s.complete r).blk.rxCb = s.blk.rxCb := rfl
@[simp] theorem State.complete_blk_txCb (r : Result) : (s.complete r).blk.txCb = s.blk.txCb := rfl
@[simp] theorem State.complete_blk_wLat (r : Result) : (s.complete r).blk.wLat = s.blk.wLat := rfl
@[simp] theorem State.complete_blk_pLat (r : Result) : (s.complete r).blk.pLat = s.blk.pLat := rfl
@[simp] theorem State.complete_blk_vTmp (r : Result) : (s.complete r).blk.vTmp = s.blk.vTmp := rfl
@[simp] theorem State.complete_cfg (r : Result) : (s.complete r).cfg = s.cfg := rfl
@[simp] theorem State.complete_peer (r : Result) : (s.complete r).peer = s.peer := rfl
@[simp] theorem State.complete_env (r : Result) : (s.complete r).env = s.env := rfl
@[simp] theorem State.complete_trace (r : Result) : (s.complete r).trace = s.trace := rfl
@[simp] theorem State.complete_inbox (r : Result) : (s.complete r).inbox = s.inbox := rfl

/-! ### applyReset -/

@[simp] theorem State.applyReset_blk : (s.applyReset).blk = Block.reset := rfl
@[simp] theorem State.applyReset_trace : (s.applyReset).trace = [] := rfl
@[simp] theorem State.applyReset_results : (s.applyReset).results = [] := rfl
@[simp] theorem State.applyReset_env_allow : (s.applyReset).env.allow = none := rfl
@[simp] theorem State.applyReset_env_level : (s.applyReset).env.level = s.env.level := rfl
@[simp] theorem State.applyReset_env_answers : (s.applyReset).env.answers = s.env.answers := rfl
@[simp] theorem State.applyReset_env_radio : (s.applyReset).env.radio = s.env.radio := rfl
@[simp] theorem State.applyReset_env_ctr : (s.applyReset).env.ctr = s.env.ctr := rfl
@[simp] theorem State.applyReset_cfg : (s.applyReset).cfg = s.cfg := rfl
@[simp] theorem State.applyReset_peer : (s.applyReset).peer = s.peer := rfl
@[simp] theorem State.applyReset_inbox : (s.applyReset).inbox = s.inbox := rfl

/-! ### take -/

@[simp] theorem State.take_inbox (r : Request) (rest : List Input) : (s.take r rest).inbox = rest := rfl
@[simp] theorem State.take_env_allow (r : Request) (rest : List Input) : (s.take r rest).env.allow = r.allow := rfl
@[simp] theorem State.take_env_level (r : Request) (rest : List Input) : (s.take r rest).env.level = s.env.level := rfl
@[simp] theorem State.take_env_answers (r : Request) (rest : List Input) : (s.take r rest).env.answers = s.env.answers := rfl
@[simp] theorem State.take_env_radio (r : Request) (rest : List Input) : (s.take r rest).env.radio = s.env.radio := rfl
@[simp] theorem State.take_env_ctr (r : Request) (rest : List Input) : (s.take r rest).env.ctr = s.env.ctr := rfl
@[simp] theorem State.take_cfg (r : Request) (rest : List Input) : (s.take r rest).cfg = s.cfg := rfl
@[simp] theorem State.take_blk (r : Request) (rest : List Input) : (s.take r rest).blk = s.blk := rfl
@[simp] theorem State.take_peer (r : Request) (rest : List Input) : (s.take r rest).peer = s.peer := rfl
@[simp] theorem State.take_trace (r : Request) (rest : List Input) : (s.take r rest).trace = s.trace := rfl
@[simp] theorem State.take_results (r : Request) (rest : List Input) : (s.take r rest).results = s.results := rfl

end Sys2Proof.Machine
end

