-- ==== Sys2Proof/Laws/Ops.lean ====
section
/-! SUPPORT. What each shared operation can do, said once: the peer's answer has the frame's length and touches nothing of
the block; a transaction, a callback and a register access in a state where calls return; running an operation. -/

-- One theorem after the other: elaborated side by side, they wait for each other, and each waiting one holds a thread's stack.
set_option Elab.async false

namespace Sys2Proof.Machine

open Sys2Proof

/-! ### The answer -/

@[simp] theorem fitBytes_length (lv : PeerLevel) (k n : Nat) (bs : List Byte) : (fitBytes lv k n bs).length = n := by
  simp [fitBytes]

/-- Bytes that are there are kept. -/
theorem fitBytes_of_length {lv : PeerLevel} {k n : Nat} {bs : List Byte} (h : bs.length = n) :
    fitBytes lv k n bs = bs := by
  subst h
  apply List.ext_getElem
  · simp
  · intro i h1 h2
    simp [fitBytes, h2]

/-- The answer of the peer has the length of the frame (00_scope.md R9). -/
theorem peerXfer_length (lv : PeerLevel) (c : Config) (k : Nat) (p : Peer) (tx : List Byte) :
    (peerXfer lv c k p tx).2.length = tx.length := by
  cases tx with
  | nil => rfl
  | cons op d =>
    simp only [peerXfer]
    split <;> simp

/-- The answer has the length of the frame (00_scope.md R9). -/
theorem answer_length (tx : List Byte) (s : State) : (answer tx s).1.length = tx.length := by
  unfold answer
  split
  · simp
  · simp [peerXfer_length]

@[simp] theorem answer_blk (tx : List Byte) (s : State) : (answer tx s).2.blk = s.blk := by
  unfold answer; split <;> rfl

@[simp] theorem answer_cfg (tx : List Byte) (s : State) : (answer tx s).2.cfg = s.cfg := by
  unfold answer; split <;> rfl

@[simp] theorem answer_trace (tx : List Byte) (s : State) : (answer tx s).2.trace = s.trace := by
  unfold answer; split <;> rfl

@[simp] theorem answer_results (tx : List Byte) (s : State) : (answer tx s).2.results = s.results := by
  unfold answer; split <;> rfl

@[simp] theorem answer_inbox (tx : List Byte) (s : State) : (answer tx s).2.inbox = s.inbox := by
  unfold answer; split <;> rfl

@[simp] theorem answer_allow (tx : List Byte) (s : State) : (answer tx s).2.env.allow = s.env.allow := by
  unfold answer; split <;> rfl

@[simp] theorem answer_level (tx : List Byte) (s : State) : (answer tx s).2.env.level = s.env.level := by
  unfold answer; split <;> rfl

/-- The bytes answered do not depend on the block. -/
@[simp] theorem answer_onBlk (tx : List Byte) (f : Block → Block) (s : State) :
    answer tx (s.onBlk f) = ((answer tx s).1, (answer tx s).2.onBlk f) := by
  rcases h : s.env.level <;> simp [answer, State.onBlk, h]

@[simp] theorem answer_fillXbuf (tx bs : List Byte) (s : State) :
    answer tx (s.fillXbuf bs) = ((answer tx s).1, (answer tx s).2.fillXbuf bs) := answer_onBlk tx _ s

@[simp] theorem answer_accept (tx : List Byte) (i : Instr) (s : State) :
    answer tx (s.accept i) = ((answer tx s).1, (answer tx s).2.accept i) := answer_onBlk tx _ s

/-- Each level's answer depends on the configuration, the peer and the environment alone. -/
theorem answer_congr {s t : State} (hc : s.cfg = t.cfg) (hp : s.peer = t.peer) (he : s.env = t.env) (tx : List Byte) :
    (answer tx s).1 = (answer tx t).1 ∧ (answer tx s).2.peer = (answer tx t).2.peer
      ∧ (answer tx s).2.env = (answer tx t).2.env := by
  rcases h : t.env.level <;> simp [answer, hc, hp, he, h]

/-! ### A completed transaction -/

/-- The state after `Xact(op, data)` has returned. -/
def State.xacted (op : Byte) (data : List Byte) (s : State) : State :=
  (s.fillXbuf (op :: data)).afterXfer (op :: data)

/-- The answer `Xact(op, data)` gets. -/
abbrev State.reply (op : Byte) (data : List Byte) (s : State) : List Byte := (answer (op :: data) s).1

theorem reply_length (op : Byte) (data : List Byte) (s : State) : (s.reply op data).length = data.length + 1 := by
  simp [State.reply, answer_length]

theorem reply_eq_cons (op : Byte) (data : List Byte) (s : State) :
    s.reply op data = byteAt (s.reply op data) 0 :: (s.reply op data).tail := by
  have := reply_length op data s
  cases h : s.reply op data with
  | nil => simp [h] at this
  | cons b bs => rfl

theorem reply_tail_length (op : Byte) (data : List Byte) (s : State) : (s.reply op data).tail.length = data.length := by
  simp [List.length_tail, reply_length]

section
variable (op : Byte) (data : List Byte) (s : State)

@[simp] theorem xacted_trace : (s.xacted op data).trace = s.trace ++ [.xfer (op :: data) (s.reply op data)] := by
  simp [State.xacted, State.afterXfer]

@[simp] theorem xacted_lastStatus : (s.xacted op data).blk.lastStatus = some (byteAt (s.reply op data) 0) := by
  simp [State.xacted, State.afterXfer]

@[simp] theorem xacted_seq : (s.xacted op data).blk.seq = s.blk.seq.advance := by simp [State.xacted, State.afterXfer]
@[simp] theorem xacted_mode : (s.xacted op data).blk.mode = s.blk.mode := by simp [State.xacted, State.afterXfer]
@[simp] theorem xacted_ce : (s.xacted op data).blk.ce = s.blk.ce := by simp [State.xacted, State.afterXfer]
@[simp] theorem xacted_pollStatus : (s.xacted op data).blk.pollStatus = s.blk.pollStatus := by
  simp [State.xacted, State.afterXfer]
@[simp] theorem xacted_rxq : (s.xacted op data).blk.rxq = s.blk.rxq := by simp [State.xacted, State.afterXfer]
@[simp] theorem xacted_txq : (s.xacted op data).blk.txq = s.blk.txq := by simp [State.xacted, State.afterXfer]
@[simp] theorem xacted_rxCb : (s.xacted op data).blk.rxCb = s.blk.rxCb := by simp [State.xacted, State.afterXfer]
@[simp] theorem xacted_txCb : (s.xacted op data).blk.txCb = s.blk.txCb := by simp [State.xacted, State.afterXfer]
@[simp] theorem xacted_wLat : (s.xacted op data).blk.wLat = s.blk.wLat := by simp [State.xacted, State.afterXfer]
@[simp] theorem xacted_pLat : (s.xacted op data).blk.pLat = s.blk.pLat := by simp [State.xacted, State.afterXfer]
@[simp] theorem xacted_vTmp : (s.xacted op data).blk.vTmp = s.blk.vTmp := by simp [State.xacted, State.afterXfer]
@[simp] theorem xacted_cfg : (s.xacted op data).cfg = s.cfg := by simp [State.xacted, State.afterXfer]
@[simp] theorem xacted_results : (s.xacted op data).results = s.results := by simp [State.xacted, State.afterXfer]
@[simp] theorem xacted_inbox : (s.xacted op data).inbox = s.inbox := by simp [State.xacted, State.afterXfer]
@[simp] theorem xacted_allow : (s.xacted op data).env.allow = s.env.allow := by simp [State.xacted, State.afterXfer]
@[simp] theorem xacted_level : (s.xacted op data).env.level = s.env.level := by simp [State.xacted, State.afterXfer]
@[simp] theorem xacted_peer : (s.xacted op data).peer = (answer (op :: data) s).2.peer := by
  simp [State.xacted, State.afterXfer]
@[simp] theorem xacted_env : (s.xacted op data).env = (answer (op :: data) s).2.env := by
  simp [State.xacted, State.afterXfer]

end

/-! ### The operations, where calls return -/

section
variable {s : State}

/-- `Xact` where the exchange returns (40_register_protocol.md R130). -/
theorem xact_returns (h : s.env.allow = none) (op : Byte) (data : List Byte) :
    xact op data s = .ok (byteAt (s.reply op data) 0, (s.reply op data).tail) (s.xacted op data) := by
  simp [xact, State.takeCall, h, State.xacted, State.reply]

/-- A call that returns leaves its event and nothing else. -/
theorem callAndWait_returns (h : s.env.allow = none) (e : Event) : callAndWait e s = .ok () (s.emit e) := by
  simp [callAndWait, State.takeCall, h]

@[simp] theorem op_bind {α β : Type} (m : Op α) (f : α → Op β) (s : State) :
    (m >>= f) s = match m s with
      | .ok a t => f a t
      | .error e t => .error e t := by
  show EStateM.bind m f s = _
  unfold EStateM.bind
  cases m s <;> rfl

@[simp] theorem op_map {α β : Type} (f : α → β) (m : Op α) (s : State) :
    (f <$> m) s = match m s with
      | .ok a t => .ok (f a) t
      | .error e t => .error e t := by
  show EStateM.map f m s = _
  unfold EStateM.map
  cases m s <;> rfl

@[simp] theorem op_pure {α : Type} (a : α) (s : State) : (pure a : Op α) s = .ok a s := rfl

@[simp] theorem op_get (s : State) : (get : Op State) s = .ok s s := rfl

@[simp] theorem getCodes_eq (s : State) : getCodes s = .ok s.cfg.codes s := rfl

@[simp] theorem modifyBlk_eq (f : Block → Block) (s : State) : modifyBlk f s = .ok () (s.onBlk f) := rfl

@[simp] theorem driveCe_eq (b : Bool) (s : State) :
    driveCe b s = .ok () ((s.onBlk (fun x => { x with ce := b })).emit (.ce b)) := rfl

/-- `RegRead` where the exchange returns (40_register_protocol.md R131). -/
theorem regRead_returns (h : s.env.allow = none) (a : Reg) (n : Nat) :
    regRead a n s = .ok (byteAt (s.reply (opWithReg s.cfg.codes.opcRRegister a) (List.replicate n fill)) 0,
        (s.reply (opWithReg s.cfg.codes.opcRRegister a) (List.replicate n fill)).tail)
      (s.xacted (opWithReg s.cfg.codes.opcRRegister a) (List.replicate n fill)) := by
  simp [regRead, xact_returns h]

/-- The byte a one-byte register read gives, and an RMW works on. -/
abbrev State.rmwRead (a : Reg) (s : State) : Byte :=
  byteAt (s.reply (opWithReg s.cfg.codes.opcRRegister a) [fill]).tail 0

/-- One byte read where the exchange returns. -/
theorem regReadByte_returns (h : s.env.allow = none) (a : Reg) :
    regReadByte a s = .ok (s.rmwRead a)
      (s.xacted (opWithReg s.cfg.codes.opcRRegister a) [fill]) := by
  simp [regReadByte, regRead_returns h]

/-- `RegWrite` where the exchange returns (40_register_protocol.md R132). -/
theorem regWrite_returns (h : s.env.allow = none) (a : Reg) (bs : List Byte) :
    regWrite a bs s = .ok (byteAt (s.reply (opWithReg s.cfg.codes.opcWRegister a) bs) 0)
      (s.xacted (opWithReg s.cfg.codes.opcWRegister a) bs) := by
  simp [regWrite, xact_returns h]

/-- The state after an RMW (40_register_protocol.md R144). -/
def State.rmwed (a : Reg) (clr ones : Byte) (s : State) : State :=
  ((s.xacted (opWithReg s.cfg.codes.opcRRegister a) [fill]).onBlk
    (fun b => { b with vTmp := [s.rmwRead a] })).xacted (opWithReg s.cfg.codes.opcWRegister a)
      [updateBits (s.rmwRead a) clr ones]

/-- `RMW` where the exchanges return: two transactions, in this order, always (40_register_protocol.md R144). -/
theorem rmw_returns (h : s.env.allow = none) (a : Reg) (clr ones : Byte) :
    rmw a clr ones s = .ok (updateBits (s.rmwRead a) clr ones) (s.rmwed a clr ones) := by
  have h2 : ((s.xacted (opWithReg s.cfg.codes.opcRRegister a) [fill]).onBlk
      (fun b => { b with vTmp := [s.rmwRead a] })).env.allow = none := by
    rw [State.onBlk_env, xacted_allow, h]
  simp only [rmw, op_bind, regReadByte_returns h, modifyBlk_eq, regWrite_returns h2, op_pure]
  simp [State.rmwed]

/-- A command without data where the exchange returns. -/
theorem command_returns (h : s.env.allow = none) (op : Codes → Byte) :
    command op s = .ok (byteAt (s.reply (op s.cfg.codes) []) 0) (s.xacted (op s.cfg.codes) []) := by
  simp [command, xact_returns h]

/-- A callback where the host returns: its event where there is a registration, nothing where there is none
(60_exceptions.md R276, R279). -/
theorem invokeCallback_returns (h : s.env.allow = none) (cb : Option Callback) (e : Callback → Event) :
    invokeCallback cb e s = .ok () (match cb with | none => s | some f => s.emit (e f)) := by
  cases cb with
  | none => rfl
  | some f => exact callAndWait_returns h (e f)

/-! ### Running an operation -/

/-- A body that returns completes the operation with its result. -/
theorem runHost_returns {i : Instr} {body : Op Result} {r : Result} {t : State} (hi : s.blk.seq = .idle)
    (hw : i.wf s.cfg = true) (hb : body (s.accept i) = .ok r t) : runHost i body s = .next (t.complete r) := by
  simp [runHost, State.idle, hi, hw, hb]

/-- A refused operand gives FAIL and nothing else (30_encoding.md R119). -/
theorem runHost_refuses {i : Instr} {body : Op Result} (hi : s.blk.seq = .idle) (hw : i.wf s.cfg = false) :
    runHost i body s = .next ((s.accept i).complete .fail) := by
  simp [runHost, State.idle, hi, hw]

/-- A busy block accepts nothing (00_scope.md R7). -/
theorem runHost_busy {i : Instr} {body : Op Result} (h : s.blk.seq ≠ .idle) :
    runHost i body s = .fault .notAccepted := by
  simp [runHost, State.idle, h]

/-- A wire command whose transaction returns. -/
theorem runWire_returns {i : Instr} {op : Byte} {data : List Byte} (hi : s.blk.seq = .idle) (ha : s.env.allow = none)
    (hw : i.wf s.cfg = true) :
    runWire i (xact op data) s = .next ((s.accept i).xacted op data).finish := by
  have ha' : (s.accept i).env.allow = none := ha
  simp [runWire, State.idle, hi, hw, xact_returns ha']

/-- Every next state of `runHost` is a refusal of operands, a completion of the body or a halt of the body. -/
theorem runHost_cases {i : Instr} {body : Op Result} {t : State} (h : runHost i body s = .next t) :
    s.blk.seq = .idle ∧
    ((i.wf s.cfg = false ∧ t = (s.accept i).complete .fail)
      ∨ (i.wf s.cfg = true ∧ ∃ r u, body (s.accept i) = .ok r u ∧ t = u.complete r)
      ∨ (i.wf s.cfg = true ∧ ∃ e, body (s.accept i) = .error e t)) := by
  unfold runHost at h
  by_cases hi : s.blk.seq = .idle
  · refine ⟨hi, ?_⟩
    cases hw : i.wf s.cfg
    · simp only [State.idle, hi, hw] at h
      exact .inl ⟨rfl, by simpa using h.symm⟩
    · cases hb : body (s.accept i) with
      | ok r u =>
        simp only [State.idle, hi, hw, hb] at h
        exact .inr (.inl ⟨rfl, r, u, rfl, by simpa using h.symm⟩)
      | error e u =>
        simp only [State.idle, hi, hw, hb] at h
        have : u = t := by simpa using h
        exact .inr (.inr ⟨rfl, e, by rw [this]⟩)
  · simp [State.idle, hi] at h

/-- Every next state of `runWire` is a completion or a halt of its transaction. -/
theorem runWire_cases {i : Instr} {body : Op (Byte × List Byte)} {t : State} (h : runWire i body s = .next t) :
    s.blk.seq = .idle ∧ i.wf s.cfg = true ∧
    ((∃ r u, body (s.accept i) = .ok r u ∧ t = u.finish) ∨ ∃ e, body (s.accept i) = .error e t) := by
  unfold runWire at h
  by_cases hi : s.blk.seq = .idle
  · cases hw : i.wf s.cfg
    · simp [State.idle, hi, hw] at h
    · refine ⟨hi, rfl, ?_⟩
      cases hb : body (s.accept i) with
      | ok r u =>
        simp only [State.idle, hi, hw, hb] at h
        exact .inl ⟨r, u, rfl, by simpa using h.symm⟩
      | error e u =>
        simp only [State.idle, hi, hw, hb] at h
        have : u = t := by simpa using h
        exact .inr ⟨e, by rw [this]⟩
  · simp [State.idle, hi] at h

end

/-! ### Relations every part of an operation keeps -/

/-- The state an operation part ends in, returned or halted. -/
def finalState {α : Type} : EStateM.Result Halt State α → State
  | .ok _ t => t
  | .error _ t => t

/-- Whatever a part does, it relates the state before and the state after. -/
def Keeps (R : State → State → Prop) {α : Type} (m : Op α) : Prop := ∀ s, R s (finalState (m s))

theorem Keeps.pure {R : State → State → Prop} (refl : ∀ s, R s s) {α : Type} (a : α) : Keeps R (pure a : Op α) :=
  fun s => refl s

theorem Keeps.bind {R : State → State → Prop} (trans : ∀ {s t u}, R s t → R t u → R s u) {α β : Type} {m : Op α}
    {f : α → Op β} (hm : Keeps R m) (hf : ∀ a, Keeps R (f a)) : Keeps R (m >>= f) := by
  intro s
  have h1 := hm s
  simp only [op_bind]
  cases h : m s with
  | ok a t => rw [h] at h1; exact trans h1 (hf a t)
  | error e t => rw [h] at h1; exact h1

end Sys2Proof.Machine
end

