-- ==== Sys2Proof/Laws/Micro.lean ====
section
/-! SUPPORT. What an instruction can do, said once: the micro-steps each instruction may make, and that every part of every
operation, completed or cut short, is a run of its instruction's micro-steps. A claim about every instruction follows from the
micro-steps alone. At the end: an ENTER operation cut short leaves the previous mode. -/

-- One theorem after the other: elaborated side by side, they wait for each other, and each waiting one holds a thread's stack.
set_option Elab.async false

namespace Sys2Proof.Machine

open Sys2Proof

/-- One micro-step of instruction `i`: an interface event with its effect, or an update of the block. -/
inductive Micro (i : Instr) : State → State → Prop
  /-- A frame is put in the buffer. -/
  | frame (s : State) (bs : List Byte) : Micro i s (s.fillXbuf bs)
  /-- A call returns. -/
  | call {s t : State} (h : s.takeCall = some t) : Micro i s t
  /-- A transaction of one of the eleven commands; only POLL sends bytes it holds itself. -/
  | xfer (s : State) (cmd : WireCmd) (data : List Byte)
      (h : data.length ≤ 32 ∨ (i = .poll ∧ ∃ dg ∈ s.blk.txq, data = dg.bytes)) :
      Micro i s (s.afterXfer (s.cfg.codes.opcodeOf cmd :: data))
  /-- The chip-enable output is driven. -/
  | ce (s : State) (b : Bool) (h : enterMode i ≠ none) :
      Micro i s ((s.onBlk (fun x => { x with ce := b })).emit (.ce b))
  /-- The delay is called. -/
  | dly (s : State) (us : Nat) (h : enterMode i ≠ none) : Micro i s (s.emit (.dly us))
  /-- The TX callback is called, with TX_DS latched. -/
  | cbTx (s : State) (f : Callback) (st : Byte) (h : i = .poll) (hf : s.blk.txCb = some f)
      (hl : s.blk.pollStatus = some st) (hs : flagSet s.cfg.codes.mTxDs st = true) : Micro i s (s.emit (.cbTx f.fn f.ctx))
  /-- The RX callback is called. -/
  | cbRx (s : State) (f : Callback) (dg : Datagram) (h : i = .poll) (hf : s.blk.rxCb = some f) :
      Micro i s (s.emit (.cbRx f.fn f.ctx dg))
  /-- The register value read is latched. -/
  | vTmp (s : State) (bs : List Byte) (h : bs.length ≤ 5) : Micro i s (s.onBlk (fun b => { b with vTmp := bs }))
  /-- POLL latches the status. -/
  | pollStatus (s : State) (st : Byte) (h : i = .poll) : Micro i s (s.onBlk (fun b => { b with pollStatus := some st }))
  /-- POLL latches the pipe. -/
  | pLat (s : State) (p : Pipe) (h : i = .poll) : Micro i s (s.onBlk (fun b => { b with pLat := p }))
  /-- POLL latches the width. -/
  | wLat (s : State) (w : Byte) (h : i = .poll) : Micro i s (s.onBlk (fun b => { b with wLat := w }))
  /-- POLL takes a datagram in. -/
  | takeIn (s : State) (dg : Datagram) (h : i = .poll) (hw : dg.wf = true) (hq : s.blk.rxq.length < s.cfg.rxqCap) :
      Micro i s (s.onBlk (fun b => { b with rxq := b.rxq ++ [dg] }))
  /-- POLL hands a datagram out. -/
  | handOut (s : State) (h : i = .poll) : Micro i s (s.onBlk (fun b => { b with rxq := b.rxq.tail }))
  /-- POLL drops the datagram it has sent. -/
  | sent (s : State) (h : i = .poll) : Micro i s (s.onBlk (fun b => { b with txq := b.txq.tail }))
  /-- A datagram is queued. -/
  | enqueue (s : State) (dg : Datagram) (h : i = .enqueueData dg) (hq : s.blk.txq.length ≠ s.cfg.txqCap) :
      Micro i s (s.onBlk (fun b => { b with txq := b.txq ++ [dg] }))
  /-- The RX registration is replaced. -/
  | rxCb (s : State) (cb : Option Callback) (h : i = .setRxCallback cb) :
      Micro i s (s.onBlk (fun b => { b with rxCb := cb }))
  /-- The TX registration is replaced. -/
  | txCb (s : State) (cb : Option Callback) (h : i = .setTxCallback cb) :
      Micro i s (s.onBlk (fun b => { b with txCb := cb }))
  /-- The mode is written. -/
  | mode (s : State) (m : Mode) (h : enterMode i = some m) : Micro i s (s.onBlk (fun b => { b with mode := m }))

/-- A run of micro-steps. -/
abbrev Reach (i : Instr) : State → State → Prop := Relation.ReflTransGen (Micro i)

/-- From `s`, the part `m` of an operation of `i` is a run of its micro-steps, to where it returns or halts. -/
abbrev Runs (i : Instr) {α : Type} (m : Op α) (s : State) : Prop := Reach i s (finalState (m s))

section
variable {i : Instr}

theorem takeCall_cfg {s t : State} (h : s.takeCall = some t) : t.cfg = s.cfg := by
  unfold State.takeCall at h
  split at h <;> simp at h <;> subst h <;> rfl

theorem takeCall_blk {s t : State} (h : s.takeCall = some t) : t.blk = s.blk := by
  unfold State.takeCall at h
  split at h <;> simp at h <;> subst h <;> rfl

/-- No micro-step writes the configuration. -/
theorem Micro.cfg {s t : State} (h : Micro i s t) : t.cfg = s.cfg := by
  cases h with
  | call h => exact takeCall_cfg h
  | xfer => simp [State.afterXfer]
  | _ => rfl

theorem Reach.cfg {s t : State} (h : Reach i s t) : t.cfg = s.cfg := by
  induction h with
  | refl => rfl
  | tail _ h ih => rw [h.cfg, ih]

theorem Runs.pure {α : Type} (a : α) (s : State) : Runs i (pure a : Op α) s := .refl

theorem Runs.bind {α β : Type} {m : Op α} {f : α → Op β} {s : State} (hm : Runs i m s)
    (hf : ∀ a t, m s = .ok a t → t.cfg = s.cfg → Runs i (f a) t) : Runs i (m >>= f) s := by
  unfold Runs at *
  simp only [op_bind]
  cases h : m s with
  | ok a t =>
    rw [h] at hm
    exact Relation.ReflTransGen.trans hm (hf a t h (Reach.cfg hm))
  | error e t => rw [h] at hm; exact hm

theorem Runs.map {α β : Type} {m : Op α} (f : α → β) {s : State} (hm : Runs i m s) : Runs i (f <$> m) s := by
  unfold Runs at *
  simp only [op_map]
  cases h : m s <;> rw [h] at hm <;> exact hm

/-- A read of the codes, and what follows in the same state. -/
theorem Runs.getCodes {β : Type} {f : Codes → Op β} {s : State} (h : Runs i (f s.cfg.codes) s) :
    Runs i (getCodes >>= f) s := by
  unfold Runs at *
  simpa using h

/-- A read of the state, and what follows in it. -/
theorem Runs.get {β : Type} {f : State → Op β} {s : State} (h : Runs i (f s) s) : Runs i (get >>= f) s := by
  unfold Runs at *
  simpa using h

theorem Runs.modifyBlk {f : Block → Block} {s : State} (h : Micro i s (s.onBlk f)) : Runs i (modifyBlk f) s := .single h

theorem Runs.driveCe (h : enterMode i ≠ none) (b : Bool) (s : State) : Runs i (driveCe b) s := .single (.ce s b h)

/-- A transaction is a run of micro-steps. -/
theorem Runs.xact {s : State} {op : Byte} {data : List Byte} (cmd : WireCmd) (ho : s.cfg.codes.opcodeOf cmd = op)
    (h : data.length ≤ 32 ∨ (i = .poll ∧ ∃ dg ∈ s.blk.txq, data = dg.bytes)) : Runs i (xact op data) s := by
  subst ho
  have h1 : Reach i s (s.fillXbuf (s.cfg.codes.opcodeOf cmd :: data)) := .single (.frame s _)
  unfold Runs Machine.xact
  simp only
  split
  · exact h1
  · next t ht =>
    refine (h1.tail (.call ht)).tail ?_
    have hc := takeCall_cfg ht
    have hb := takeCall_blk ht
    have := Micro.xfer (i := i) t cmd data (by rw [hb]; exact h)
    rwa [hc] at this

theorem Runs.callAndWait {s : State} {e : Event} (h : Micro i s (s.emit e)) : Runs i (callAndWait e) s := by
  unfold Runs Machine.callAndWait
  simp only
  split
  · exact .single h
  · next t ht => exact (Relation.ReflTransGen.single h).tail (.call ht)

theorem Runs.delay (h : enterMode i ≠ none) (us : Nat) (s : State) : Runs i (delay us) s := .callAndWait (.dly s us h)

theorem Runs.regRead (a : Reg) {n : Nat} (h : n ≤ 32) (s : State) : Runs i (regRead a n) s :=
  .getCodes (.xact (.rRegister a) rfl (.inl (by simpa using h)))

theorem Runs.regWrite (a : Reg) {bs : List Byte} (h : bs.length ≤ 32) (s : State) : Runs i (regWrite a bs) s :=
  .getCodes (.bind (.xact (.wRegister a) rfl (.inl h)) fun _ _ _ _ => .pure _ _)

theorem Runs.regReadByte (a : Reg) (s : State) : Runs i (regReadByte a) s :=
  .bind (.regRead a (by omega) s) fun _ _ _ _ => .pure _ _

theorem Runs.rmw (a : Reg) (clr ones : Byte) (s : State) : Runs i (rmw a clr ones) s :=
  .bind (.regReadByte a s) fun v _ _ _ => .bind (.modifyBlk (.vTmp _ [v] (by simp))) fun _ _ _ _ =>
    .bind (.regWrite a (by simp) _) fun _ _ _ _ => .pure _ _

theorem Runs.command (cmd : WireCmd) {op : Codes → Byte} (h : ∀ c : Codes, c.opcodeOf cmd = op c) (s : State) :
    Runs i (command op) s :=
  .getCodes (.bind (.xact cmd (h _) (.inl (by simp))) fun _ _ _ _ => .pure _ _)

/-! ### The steps of POLL -/

theorem Runs.pollStep1 (s : State) : Runs .poll pollStep1 s :=
  .bind (.command .nop (fun _ => rfl) s) fun _ _ _ _ => .modifyBlk (.pollStatus _ _ rfl)

/-- The bytes a returned transaction gives are as many as were sent. -/
theorem xact_ok_length {op : Byte} {data : List Byte} {s t : State} {r : Byte × List Byte}
    (h : Machine.xact op data s = .ok r t) : r.2.length = data.length := by
  unfold Machine.xact at h
  simp only at h
  split at h
  · exact absurd h (by simp)
  · next u _ =>
    simp only [EStateM.Result.ok.injEq] at h
    rw [← h.1]
    simp [List.length_tail, answer_length]

theorem Runs.pollStep2 (s : State) : Runs .poll pollStep2 s := by
  refine .get ?_
  simp only
  split
  · refine .bind (.modifyBlk (.pLat _ _ rfl)) fun _ t _ ht => ?_
    refine .bind (.xact .rRxPlWid (by rw [ht]; rfl) (.inl (by simp))) fun r u _ hu => ?_
    refine .bind (.modifyBlk (.wLat _ _ rfl)) fun _ v _ hv => ?_
    split
    · exact .bind (.command .flushRx (fun _ => rfl) _) fun _ _ _ _ => .bind (.regWrite _ (by simp) _) fun _ _ _ _ =>
        .pure _ _
    · next hw =>
      have hw' : (byteAt r.2 0).toNat ≤ 32 := by simpa [detRxOversize, maxPayload] using hw
      refine .bind (.xact .rRxPayload (by rw [hv, hu, ht]; rfl) (.inl (by simpa using hw'))) fun q x hx _ => ?_
      have hl := xact_ok_length hx
      refine .get (.bind ?_ fun _ _ _ _ => .bind (.regWrite _ (by simp) _) fun _ _ _ _ => .pure _ _)
      unfold Runs appendRx
      split
      · exact .refl
      · next hf =>
        refine .single (.takeIn _ _ rfl ?_ (by simpa [detRxqFull] using hf))
        simpa [Datagram.wf, lenOk, hl, maxPayload] using hw'
  · exact .pure _ _

/-- The status POLL works on. -/
theorem latched_of {s : State} {st : Byte} (h : s.blk.pollStatus = some st) : s.latched = st := by
  simp [State.latched, h]

theorem Runs.pollStep3 {s : State} (h : s.blk.pollStatus ≠ none) : Runs .poll pollStep3 s := by
  refine .get ?_
  simp only
  obtain ⟨st, hst⟩ := Option.ne_none_iff_exists'.1 h
  split
  · next hf =>
    rw [latched_of hst] at hf
    refine .bind ?_ fun _ _ _ _ => .bind (.regWrite _ (by simp) _) fun _ _ _ _ => .pure _ _
    cases hcb : s.blk.txCb with
    | none => exact .refl
    | some f => exact .callAndWait (.cbTx _ f st rfl hcb hst hf)
  · exact .pure _ _

theorem Runs.pollStep4 (s : State) : Runs .poll pollStep4 s := by
  refine .get ?_
  simp only
  split
  · exact .bind (.command .flushTx (fun _ => rfl) _) fun _ _ _ _ => .bind (.regWrite _ (by simp) _) fun _ _ _ _ =>
      .pure _ _
  · exact .pure _ _

theorem Runs.pollStep5 (s : State) : Runs .poll pollStep5 s := by
  refine .get ?_
  split
  · exact .pure _ _
  · next dg rest hq =>
    have h1 : Micro .poll s (s.onBlk (fun b => { b with rxq := rest })) := by
      have := Micro.handOut (i := .poll) s rfl
      rwa [State.onBlk, hq] at this
    refine .bind (.modifyBlk h1) fun _ t ht _ => ?_
    have hcb : t.blk.rxCb = s.blk.rxCb := by
      simp only [modifyBlk_eq, EStateM.Result.ok.injEq, true_and] at ht
      rw [← ht]; rfl
    cases h : s.blk.rxCb with
    | none => exact .refl
    | some f => exact .callAndWait (.cbRx _ f dg rfl (hcb.trans h))

theorem Runs.pollStep6 (s : State) : Runs .poll pollStep6 s := by
  refine .get ?_
  split
  · exact .pure _ _
  · next dg rest hq =>
    split
    · refine .bind (.xact .wTxPayload rfl (.inr ⟨rfl, dg, by simp [hq], rfl⟩)) fun _ t ht _ => ?_
      have hb : t.blk.txq = s.blk.txq := by
        unfold Machine.xact at ht
        simp only at ht
        split at ht
        · exact absurd ht (by simp)
        · next u hu =>
          simp only [EStateM.Result.ok.injEq] at ht
          rw [← ht.2]
          simp [State.afterXfer, takeCall_blk hu]
      have := Micro.sent (i := .poll) t rfl
      refine .modifyBlk ?_
      rwa [State.onBlk, hb, hq] at this
    · exact .pure _ _

/-- The run up to where a part returned. -/
theorem Runs.to_ok {α : Type} {m : Op α} {s t : State} {a : α} (h : Runs i m s) (hm : m s = .ok a t) : Reach i s t := by
  unfold Runs at h
  rwa [hm] at h

/-- A latched status stays latched. -/
theorem Reach.pollStatus_ne_none {s t : State} (h : Reach i s t) (hs : s.blk.pollStatus ≠ none) :
    t.blk.pollStatus ≠ none := by
  induction h with
  | refl => exact hs
  | tail _ h ih =>
    cases h with
    | call h => rwa [takeCall_blk h]
    | xfer => simpa [State.afterXfer] using ih
    | pollStatus => simp
    | _ => exact ih

/-- The six steps of POLL are a run of its micro-steps. -/
theorem runs_poll (s : State) : Runs .poll (do
    pollStep1; Machine.pollStep2; Machine.pollStep3; Machine.pollStep4; Machine.pollStep5; Machine.pollStep6
    return Result.ok) s := by
  refine .bind (.pollStep1 s) fun _ t ht _ => ?_
  have h1 : t.blk.pollStatus ≠ none := by
    simp only [Machine.pollStep1, op_bind] at ht
    split at ht
    · simp only [modifyBlk_eq, EStateM.Result.ok.injEq, true_and] at ht
      rw [← ht]
      simp
    · exact absurd ht (by simp)
  refine .bind (.pollStep2 t) fun _ u hu _ => ?_
  have h2 := ((Runs.pollStep2 t).to_ok hu).pollStatus_ne_none h1
  exact .bind (.pollStep3 h2) fun _ _ _ _ => .bind (.pollStep4 _) fun _ _ _ _ => .bind (.pollStep5 _) fun _ _ _ _ =>
    .bind (.pollStep6 _) fun _ _ _ _ => .pure _ _

/-! ### Every instruction -/

/-- What a next state of an instruction is: completed with a result, completed with none (a wire command), or cut short; each
after a run of the instruction's micro-steps from its acceptance, and no step where an operand was refused. -/
inductive Ended (i : Instr) (s : State) : State → Prop
  | completed {u : State} (r : Result) (h : Reach i (s.accept i) u) (hw : i.wf s.cfg = true ∨ u = s.accept i) :
      Ended i s (u.complete r)
  | wired {u : State} (h : Reach i (s.accept i) u) (hw : IsWire s.cfg i) : Ended i s u.finish
  | cut {u : State} (h : Reach i (s.accept i) u) (hw : i.wf s.cfg = true) : Ended i s u

theorem runHost_ended_of_wf {body : Op Result} {s t : State} (hb : i.wf s.cfg = true → Runs i body (s.accept i))
    (h : runHost i body s = .next t) : s.blk.seq = .idle ∧ Ended i s t := by
  obtain ⟨hi, ⟨-, rfl⟩ | ⟨hw, r, u, hu, rfl⟩ | ⟨hw, e, he⟩⟩ := runHost_cases h
  · exact ⟨hi, .completed _ .refl (.inr rfl)⟩
  · exact ⟨hi, .completed r ((hb hw).to_ok hu) (.inl hw)⟩
  · refine ⟨hi, .cut ?_ hw⟩
    have := hb hw
    unfold Runs at this
    rwa [he] at this

theorem runHost_ended {body : Op Result} {s t : State} (hb : Runs i body (s.accept i)) (h : runHost i body s = .next t) :
    s.blk.seq = .idle ∧ Ended i s t := runHost_ended_of_wf (fun _ => hb) h

theorem runWire_ended {op : Byte} {data : List Byte} {s t : State} (cmd : WireCmd) (ho : s.cfg.codes.opcodeOf cmd = op)
    (hd : i.wf s.cfg = true → data.length ≤ 32) (hw : IsWire s.cfg i) (h : runWire i (xact op data) s = .next t) :
    s.blk.seq = .idle ∧ Ended i s t := by
  obtain ⟨hi, hwf, hc⟩ := runWire_cases h
  have hb : Runs i (xact op data) (s.accept i) := .xact cmd ho (.inl (hd hwf))
  rcases hc with ⟨r, u, hu, rfl⟩ | ⟨e, he⟩
  · exact ⟨hi, .wired (hb.to_ok hu) hw⟩
  · refine ⟨hi, .cut ?_ hwf⟩
    unfold Runs at hb
    rwa [he] at hb


theorem runs_getPipeBit (reg : Codes → Reg) (bits : Codes → Vector Byte 6) (p : Pipe) (s : State) :
    Runs i (getPipeBit reg bits p) s := by
  unfold getPipeBit
  split
  · exact .pure _ _
  · exact .getCodes (.bind (.regReadByte _ _) fun _ _ _ _ => .pure _ _)

theorem runs_setPipeBit (reg : Codes → Reg) (bits : Codes → Vector Byte 6) (p : Pipe) (e : Bool) (s : State) :
    Runs i (setPipeBit reg bits p e) s := by
  unfold setPipeBit
  split
  · exact .pure _ _
  · refine .getCodes ?_
    split <;> exact .bind (.rmw _ _ _ _) fun _ _ _ _ => .pure _ _

/-- WHAT A STEP CAN DO: every next state of an instruction is an end of a run of its micro-steps. -/
theorem exec_ended {s t : State} (h : exec i s = .next t) : s.blk.seq = .idle ∧ Ended i s t := by
  cases i with
  | rRegister a n => exact runWire_ended (.rRegister a) rfl (fun hw => by simpa using of_decide_eq_true hw) rfl h
  | wRegister a bs => exact runWire_ended (.wRegister a) rfl (fun hw => of_decide_eq_true hw) rfl h
  | rRxPlWid => exact runWire_ended .rRxPlWid rfl (fun _ => by simp) rfl h
  | rRxPayload n => exact runWire_ended .rRxPayload rfl (fun hw => by simpa using of_decide_eq_true hw) rfl h
  | wTxPayload bs => exact runWire_ended .wTxPayload rfl (fun hw => of_decide_eq_true hw) rfl h
  | wAckPayload p bs => exact runWire_ended (.wAckPayload p) rfl (fun hw => of_decide_eq_true hw) rfl h
  | wTxPayloadNoack bs => exact runWire_ended .wTxPayloadNoack rfl (fun hw => of_decide_eq_true hw) rfl h
  | flushTx => exact runWire_ended .flushTx rfl (fun _ => by simp) rfl h
  | flushRx => exact runWire_ended .flushRx rfl (fun _ => by simp) rfl h
  | reuseTxPl => exact runWire_ended .reuseTxPl rfl (fun _ => by simp) rfl h
  | nop => exact runWire_ended .nop rfl (fun _ => by simp) rfl h
  | rpReadRegister a n =>
    exact runHost_ended_of_wf (fun hw => .bind (.regRead a (of_decide_eq_true hw) _) fun _ _ _ _ => .pure _ _) h
  | rpWriteRegister a bs =>
    exact runHost_ended_of_wf (fun hw => .bind (.regWrite a (of_decide_eq_true hw) _) fun _ _ _ _ => .pure _ _) h
  | rpReadPayload n =>
    exact runHost_ended_of_wf (fun hw => .getCodes (.bind (.xact .rRxPayload rfl
      (.inl (by simpa using of_decide_eq_true hw))) fun _ _ _ _ => .pure _ _)) h
  | rpWritePayload bs =>
    exact runHost_ended_of_wf (fun hw => .getCodes (.bind (.xact .wTxPayload rfl (.inl (of_decide_eq_true hw)))
      fun _ _ _ _ => .pure _ _)) h
  | rpFlushRx => exact runHost_ended (.bind (.command .flushRx (fun _ => rfl) _) fun _ _ _ _ => .pure _ _) h
  | rpFlushTx => exact runHost_ended (.bind (.command .flushTx (fun _ => rfl) _) fun _ _ _ _ => .pure _ _) h
  | rpReuseTxPl => exact runHost_ended (.bind (.command .reuseTxPl (fun _ => rfl) _) fun _ _ _ _ => .pure _ _) h
  | rpReadPayloadWidth =>
    exact runHost_ended (.getCodes (.bind (.xact .rRxPlWid rfl (.inl (by simp))) fun _ _ _ _ => .pure _ _)) h
  | rpWriteAckPayload p bs =>
    exact runHost_ended_of_wf (fun hw => .getCodes (.bind (.xact (.wAckPayload p) rfl (.inl (of_decide_eq_true hw)))
      fun _ _ _ _ => .pure _ _)) h
  | rpWriteNoackPayload bs =>
    exact runHost_ended_of_wf (fun hw => .getCodes (.bind (.xact .wTxPayloadNoack rfl (.inl (of_decide_eq_true hw)))
      fun _ _ _ _ => .pure _ _)) h
  | rpNop => exact runHost_ended (.bind (.command .nop (fun _ => rfl) _) fun _ _ _ _ => .pure _ _) h
  | enterShutdown =>
    exact runHost_ended (.getCodes (.bind (.driveCe (by simp [enterMode]) _ _) fun _ _ _ _ =>
      .bind (.rmw _ _ _ _) fun _ _ _ _ => .bind (.modifyBlk (.mode _ _ rfl)) fun _ _ _ _ => .pure _ _)) h
  | enterStandby =>
    exact runHost_ended (.getCodes (.bind (.driveCe (by simp [enterMode]) _ _) fun _ _ _ _ =>
      .bind (.rmw _ _ _ _) fun _ _ _ _ => .bind (.modifyBlk (.mode _ _ rfl)) fun _ _ _ _ => .pure _ _)) h
  | enterRx =>
    exact runHost_ended (.getCodes (.bind (.rmw _ _ _ _) fun _ _ _ _ => .bind (.driveCe (by simp [enterMode]) _ _)
      fun _ _ _ _ => .bind (.delay (by simp [enterMode]) _ _) fun _ _ _ _ => .bind (.modifyBlk (.mode _ _ rfl))
      fun _ _ _ _ => .pure _ _)) h
  | enterTx =>
    exact runHost_ended (.getCodes (.bind (.rmw _ _ _ _) fun _ _ _ _ => .bind (.driveCe (by simp [enterMode]) _ _)
      fun _ _ _ _ => .bind (.delay (by simp [enterMode]) _ _) fun _ _ _ _ => .bind (.modifyBlk (.mode _ _ rfl))
      fun _ _ _ _ => .pure _ _)) h
  | startListening p =>
    refine runHost_ended ?_ h
    split
    · exact .pure _ _
    · exact .getCodes (.bind (.rmw _ _ _ _) fun _ _ _ _ => .bind (.rmw _ _ _ _) fun _ _ _ _ =>
        .bind (.rmw _ _ _ _) fun _ _ _ _ => .pure _ _)
  | stopListening p =>
    refine runHost_ended ?_ h
    split
    · exact .pure _ _
    · exact .getCodes (.bind (.rmw _ _ _ _) fun _ _ _ _ => .bind (.rmw _ _ _ _) fun _ _ _ _ =>
        .bind (.rmw _ _ _ _) fun _ _ _ _ => .pure _ _)
  | getCrc => exact runHost_ended (.getCodes (.bind (.regReadByte _ _) fun _ _ _ _ => .pure _ _)) h
  | setCrc m => exact runHost_ended (.getCodes (.bind (.rmw _ _ _ _) fun _ _ _ _ => .pure _ _)) h
  | getChannel => exact runHost_ended (.getCodes (.bind (.regReadByte _ _) fun _ _ _ _ => .pure _ _)) h
  | setChannel ch =>
    refine runHost_ended ?_ h
    split
    · exact .pure _ _
    · exact .getCodes (.bind (.regWrite _ (by simp) _) fun _ _ _ _ => .pure _ _)
  | getDataRate =>
    refine runHost_ended (.getCodes (.bind (.regReadByte _ _) fun _ _ _ _ => ?_)) h
    split <;> exact .pure _ _
  | setDataRate r => exact runHost_ended (.getCodes (.bind (.rmw _ _ _ _) fun _ _ _ _ => .pure _ _)) h
  | getOutputPower => exact runHost_ended (.getCodes (.bind (.regReadByte _ _) fun _ _ _ _ => .pure _ _)) h
  | setOutputPower w => exact runHost_ended (.getCodes (.bind (.rmw _ _ _ _) fun _ _ _ _ => .pure _ _)) h
  | getRetryCount => exact runHost_ended (.getCodes (.bind (.regReadByte _ _) fun _ _ _ _ => .pure _ _)) h
  | setRetryCount n => exact runHost_ended (.getCodes (.bind (.rmw _ _ _ _) fun _ _ _ _ => .pure _ _)) h
  | getRetryDelay => exact runHost_ended (.getCodes (.bind (.regReadByte _ _) fun _ _ _ _ => .pure _ _)) h
  | setRetryDelay d => exact runHost_ended (.getCodes (.bind (.rmw _ _ _ _) fun _ _ _ _ => .pure _ _)) h
  | getRxBaseAddress p =>
    refine runHost_ended ?_ h
    split
    · exact .pure _ _
    · exact .getCodes (.bind (.regRead _ (n := 5) (by omega) _) fun _ _ _ _ => .pure _ _)
  | setRxBaseAddress p base =>
    refine runHost_ended ?_ h
    split
    · exact .pure _ _
    · refine .getCodes (.bind (.regRead _ (n := 5) (by omega) _) fun r t ht _ => ?_)
      refine .bind (.modifyBlk (.vTmp _ r.2 ?_)) fun _ _ _ _ => .bind (.regWrite _ (by simp [baseBytes]) _)
        fun _ _ _ _ => .pure _ _
      have := xact_ok_length ht
      simp at this
      omega
  | getRxAddress p =>
    refine runHost_ended ?_ h
    split
    · exact .pure _ _
    · refine .getCodes ?_
      split
      · exact .bind (.regRead _ (n := 5) (by omega) _) fun _ _ _ _ => .pure _ _
      · exact .bind (.regRead _ (n := 5) (by omega) _) fun _ _ _ _ => .bind (.regReadByte _ _) fun _ _ _ _ =>
          .pure _ _
  | setRxAddress p addr =>
    refine runHost_ended ?_ h
    split
    · exact .pure _ _
    · refine .getCodes ?_
      split
      · exact .bind (.regWrite _ (bs := addrBytes addr) (by simp [addrBytes]) _) fun _ _ _ _ => .pure _ _
      · exact .bind (.regWrite _ (by simp) _) fun _ _ _ _ => .pure _ _
  | getTxAddress => exact runHost_ended (.getCodes (.bind (.regRead _ (n := 5) (by omega) _) fun _ _ _ _ => .pure _ _)) h
  | setTxAddress addr =>
    exact runHost_ended (.getCodes (.bind (.regWrite _ (bs := addrBytes addr) (by simp [addrBytes]) _) fun _ _ _ _ => .pure _ _)) h
  | getDynPayload p => exact runHost_ended (runs_getPipeBit _ _ p _) h
  | setDynPayload p e => exact runHost_ended (runs_setPipeBit _ _ p e _) h
  | getAutoAck p => exact runHost_ended (runs_getPipeBit _ _ p _) h
  | setAutoAck p e => exact runHost_ended (runs_setPipeBit _ _ p e _) h
  | getPipeEnable p => exact runHost_ended (runs_getPipeBit _ _ p _) h
  | setPipeEnable p e => exact runHost_ended (runs_setPipeBit _ _ p e _) h
  | init =>
    exact runHost_ended (.getCodes (.bind (.rmw _ _ _ _) fun _ _ _ _ => .bind (.regWrite _ (by simp) _) fun _ _ _ _ =>
      .bind (.command .flushRx (fun _ => rfl) _) fun _ _ _ _ => .bind (.command .flushTx (fun _ => rfl) _) fun _ _ _ _ =>
      .pure _ _)) h
  | poll => exact runHost_ended (runs_poll _) h
  | enqueueData dg =>
    refine runHost_ended (.get ?_) h
    split
    · exact .pure _ _
    · next hf => exact .bind (.modifyBlk (.enqueue _ dg rfl (by simpa [detTxqFull] using hf))) fun _ _ _ _ => .pure _ _
  | setRxCallback cb => exact runHost_ended (.bind (.modifyBlk (.rxCb _ cb rfl)) fun _ _ _ _ => .pure _ _) h
  | setTxCallback cb => exact runHost_ended (.bind (.modifyBlk (.txCb _ cb rfl)) fun _ _ _ _ => .pure _ _) h

end

/-! ### Where the mode is written -/

/-- The mode is the same in both states. -/
abbrev SameMode (s t : State) : Prop := t.blk.mode = s.blk.mode

theorem keepsMode_bind {α β : Type} {m : Op α} {f : α → Op β} (hm : Keeps SameMode m) (hf : ∀ a, Keeps SameMode (f a)) :
    Keeps SameMode (m >>= f) := Keeps.bind (fun h1 h2 => h2.trans h1) hm hf

theorem keepsMode_xact (op : Byte) (data : List Byte) : Keeps SameMode (xact op data) := by
  intro s
  simp only [xact]
  split
  · rfl
  · next t ht => simp [finalState, SameMode, State.afterXfer, takeCall_blk ht]

theorem keepsMode_driveCe (b : Bool) : Keeps SameMode (driveCe b) := fun _ => rfl

theorem keepsMode_delay (us : Nat) : Keeps SameMode (delay us) := by
  intro s
  simp only [delay, callAndWait]
  split
  · rfl
  · next t ht => simp [finalState, SameMode, takeCall_blk ht]

theorem keepsMode_getCodes : Keeps SameMode getCodes := fun _ => rfl

theorem keepsMode_rmw (a : Reg) (clr ones : Byte) : Keeps SameMode (rmw a clr ones) :=
  keepsMode_bind (keepsMode_bind (keepsMode_bind keepsMode_getCodes fun _ => keepsMode_xact _ _) fun _ _ => rfl) fun _ =>
    keepsMode_bind (fun _ => rfl) fun _ =>
      keepsMode_bind (keepsMode_bind keepsMode_getCodes fun _ => keepsMode_bind (keepsMode_xact _ _) fun _ _ => rfl)
        fun _ _ => rfl

/-- Where a part halts, the mode is the one it began with (41_mode_control.md R168). -/
def HaltsInOldMode {α : Type} (m : Op α) : Prop := ∀ s e t, m s = .error e t → SameMode s t

theorem HaltsInOldMode.bind {α β : Type} {m : Op α} {f : α → Op β} (hm : Keeps SameMode m) (hf : ∀ a, HaltsInOldMode (f a)) :
    HaltsInOldMode (m >>= f) := by
  intro s e t h
  have h1 := hm s
  simp only [op_bind] at h
  cases hs : m s with
  | ok a u => rw [hs] at h h1; exact (hf a u e t h).trans h1
  | error e' u => rw [hs] at h h1; cases h; exact h1

/-- `S.mode <- m` is the last step: nothing after it halts. -/
theorem haltsInOldMode_setMode (m : Mode) (r : Result) : HaltsInOldMode (do setMode m; return r) := by
  intro s e t h
  cases h

/-- Cut short, an operation whose body halts in the old mode leaves that mode. -/
theorem runHost_cut_short {i : Instr} {body : Op Result} {s t : State} (hb : HaltsInOldMode body)
    (h : runHost i body s = .next t) (hs : t.blk.seq ≠ .idle) : SameMode s t := by
  obtain ⟨-, ⟨-, rfl⟩ | ⟨-, r, u, -, rfl⟩ | ⟨-, e, he⟩⟩ := runHost_cases h
  · exact absurd rfl hs
  · exact absurd rfl hs
  · exact hb (s.accept i) _ _ he

/-- An ENTER operation cut short leaves the previous mode (41_mode_control.md R167, R168). -/
theorem enter_cut_short {i : Instr} {s t : State} (hi : enterMode i ≠ none) (h : exec i s = .next t)
    (hs : t.blk.seq ≠ .idle) : SameMode s t := by
  cases i with
  | enterShutdown =>
    exact runHost_cut_short (.bind keepsMode_getCodes fun _ => .bind (keepsMode_driveCe _) fun _ =>
      .bind (keepsMode_rmw _ _ _) fun _ => haltsInOldMode_setMode _ _) h hs
  | enterStandby =>
    exact runHost_cut_short (.bind keepsMode_getCodes fun _ => .bind (keepsMode_driveCe _) fun _ =>
      .bind (keepsMode_rmw _ _ _) fun _ => haltsInOldMode_setMode _ _) h hs
  | enterRx =>
    exact runHost_cut_short (.bind keepsMode_getCodes fun _ => .bind (keepsMode_rmw _ _ _) fun _ =>
      .bind (keepsMode_driveCe _) fun _ => .bind (keepsMode_delay _) fun _ => haltsInOldMode_setMode _ _) h hs
  | enterTx =>
    exact runHost_cut_short (.bind keepsMode_getCodes fun _ => .bind (keepsMode_rmw _ _ _) fun _ =>
      .bind (keepsMode_driveCe _) fun _ => .bind (keepsMode_delay _) fun _ => haltsInOldMode_setMode _ _) h hs
  | _ => exact absurd rfl hi

end Sys2Proof.Machine
end

