-- ==== Sys2Proof/Laws/Peer.lean ====
section
/-! SUPPORT. What one exchange does in a peer that keeps the contract: the radio's moves leave the registers alone, a register
read gives the register's bytes, a register write stores them and nothing else. -/

-- One theorem after the other: elaborated side by side, they wait for each other, and each waiting one holds a thread's stack.
set_option Elab.async false

namespace Sys2Proof.Machine

open Sys2Proof

/-! ### The default codes tell their commands apart -/

@[simp] theorem standard_lookup_rRegister (a : Reg) :
    Codes.standard.wireLookup (opWithReg Codes.standard.opcRRegister a) = some (.rRegister a) := by
  revert a; decide

@[simp] theorem standard_lookup_wRegister (a : Reg) :
    Codes.standard.wireLookup (opWithReg Codes.standard.opcWRegister a) = some (.wRegister a) := by
  revert a; decide

@[simp] theorem standard_lookup_wAckPayload (p : Pipe) :
    Codes.standard.wireLookup (opWithPipe Codes.standard.opcWAckPayload p) = some (.wAckPayload p) := by
  revert p; decide

/-- A register has at most five bytes. -/
theorem Codes.regWidth_le (c : Codes) (a : Reg) : c.regWidth a ≤ 5 := by
  unfold Codes.regWidth
  split <;> omega

/-- The register space of the default codes: which cells exist. -/
theorem standard_isCell {a : Reg} {j : Nat} (ha : a ≠ Codes.standard.regStatus) (hj : j < Codes.standard.regWidth a) :
    isCell Codes.standard (cellOf a j) = true := by
  have all : ∀ j < 5, ∀ a : Reg, a ≠ Codes.standard.regStatus → j < Codes.standard.regWidth a →
      isCell Codes.standard (cellOf a j) = true := by decide
  exact all j (lt_of_lt_of_le hj (Codes.regWidth_le _ a)) a ha hj

/-- Different registers have different cells. -/
theorem cellOf_inj {a b : Reg} {i j : Nat} (hi : i < 8) (hj : j < 8) (h : cellOf a i = cellOf b j) : a = b ∧ i = j := by
  simp only [cellOf] at h
  exact ⟨BitVec.eq_of_toNat_eq (by omega), by omega⟩

/-! ### The radio's moves -/

section
variable {lv : PeerLevel} {c : Config} {k : Nat}

/-- A move that leaves the peer its power leaves every cell but OBSERVE_TX (20_memory.md R76). -/
theorem applyMove_cells {p : Peer} {m : Move} (h : m ≠ .powerLoss) {j : Nat} (hj : j ≠ cellOf c.codes.regObserveTx 0) :
    Memory.read c.codes (applyMove lv c k p m).mem j = Memory.read c.codes p.mem j := by
  cases m with
  | rxArrive q w bs => simp only [applyMove]; split <;> rfl
  | txDone => simp only [applyMove]; split <;> rfl
  | maxRt => simp only [applyMove]; split <;> rfl
  | observe v => exact Memory.read_write_other _ _ hj v
  | powerLoss => exact absurd rfl h

/-- A move that leaves the peer its power keeps the canonical form. -/
theorem applyMove_memory_wf {p : Peer} {m : Move} (h : m ≠ .powerLoss) (hp : Memory.wf c.codes p.mem = true) :
    Memory.wf c.codes (applyMove lv c k p m).mem = true := by
  cases m with
  | rxArrive q w bs => simp only [applyMove]; split <;> exact hp
  | txDone => simp only [applyMove]; split <;> exact hp
  | maxRt => simp only [applyMove]; split <;> exact hp
  | observe v => exact Memory.wf_write hp _ _
  | powerLoss => exact absurd rfl h

theorem applyMoves_cells {p : Peer} {ms : List Move} (h : Move.powerLoss ∉ ms) {j : Nat}
    (hj : j ≠ cellOf c.codes.regObserveTx 0) :
    Memory.read c.codes (applyMoves lv c k p ms).mem j = Memory.read c.codes p.mem j := by
  induction ms generalizing p with
  | nil => rfl
  | cons m ms ih =>
    simp only [List.mem_cons, not_or] at h
    simp only [applyMoves]
    rw [ih h.2, applyMove_cells (fun e => h.1 e.symm) hj]

theorem applyMoves_memory_wf {p : Peer} {ms : List Move} (h : Move.powerLoss ∉ ms) (hp : Memory.wf c.codes p.mem = true) :
    Memory.wf c.codes (applyMoves lv c k p ms).mem = true := by
  induction ms generalizing p with
  | nil => exact hp
  | cons m ms ih =>
    simp only [List.mem_cons, not_or] at h
    exact ih h.2 (applyMove_memory_wf (fun e => h.1 e.symm) hp)

end

/-! ### The peer at the next transaction -/

section
variable {s : State}

theorem State.KeepsPower.head (h : s.KeepsPower) : Move.powerLoss ∉ s.env.radio.headD [] := by
  cases hr : s.env.radio with
  | nil => simp
  | cons ms rest => exact h ms (by simp [hr])

theorem State.RadioQuiet.keepsPower (h : s.RadioQuiet) : s.KeepsPower := by
  intro ms hms
  simp [h ms hms]

/-- With a quiet radio the next transaction finds the peer as it is. -/
theorem State.RadioQuiet.peerNow (h : s.RadioQuiet) : s.peerNow = s.peer := by
  have : s.env.radio.headD [] = [] := by
    cases hr : s.env.radio with
    | nil => rfl
    | cons ms rest => exact h ms (by simp [hr])
  simp only [State.peerNow, this, applyMoves]

theorem State.KeepsPower.peerNow_cells (h : s.KeepsPower) {j : Nat} (hj : j ≠ s.observeCell) :
    Memory.read s.cfg.codes s.peerNow.mem j = s.cell j :=
  applyMoves_cells h.head hj

theorem State.KeepsPower.peerNow_wf (h : s.KeepsPower) (hm : Memory.wf s.cfg.codes s.peer.mem = true) :
    Memory.wf s.cfg.codes s.peerNow.mem = true :=
  applyMoves_memory_wf h.head hm

/-! ### One exchange -/

/-- A peer that keeps the contract makes its radio moves and then the transaction (20_memory.md R76, R83). -/
theorem answer_contract (h : s.PeerKeepsContract) (tx : List Byte) :
    answer tx s = ((peerXfer s.env.level s.cfg (2 * s.env.ctr + 1) s.peerNow tx).2,
      { s with peer := (peerXfer s.env.level s.cfg (2 * s.env.ctr + 1) s.peerNow tx).1
               env := { s.env with radio := s.env.radio.tail, ctr := s.env.ctr + 1 } }) := by
  cases hl : s.env.level with
  | any => exact absurd hl h
  | contract => simp [answer, hl, State.peerNow]
  | reference => simp [answer, hl, State.peerNow]

/-- An L0 peer has no state that changes. -/
theorem answer_any_peer (h : s.env.level = .any) (tx : List Byte) : (answer tx s).2.peer = s.peer := by
  simp [answer, h]

theorem answer_radio (tx : List Byte) : (answer tx s).2.env.radio = s.env.radio.tail
    ∨ (answer tx s).2.env.radio = s.env.radio := by
  unfold answer
  split
  · exact .inr rfl
  · exact .inl rfl

variable (op : Byte) (data : List Byte)

@[simp] theorem xacted_xbuf : (s.xacted op data).blk.xbuf = loadXbuf (s.reply op data) (loadXbuf (op :: data) s.blk.xbuf) := by
  simp [State.xacted, State.afterXfer]

/-- What `Xact` does to the peer (`OneExchange`). -/
theorem xacted_oneExchange : OneExchange s (s.xacted op data) (op :: data) (s.reply op data) := by
  refine ⟨by simp [reply_length], fun h => ?_, fun h => ?_⟩
  · rw [xacted_peer, answer_any_peer h]
  · rw [xacted_peer, State.reply, answer_contract h]

theorem xacted_keepsPower (h : s.KeepsPower) : (s.xacted op data).KeepsPower := by
  intro ms hms
  rw [xacted_env] at hms
  rcases answer_radio (s := s) (op :: data) with hr | hr <;> rw [hr] at hms
  · exact h ms (List.mem_of_mem_tail hms)
  · exact h ms hms

theorem xacted_radioQuiet (h : s.RadioQuiet) : (s.xacted op data).RadioQuiet := by
  intro ms hms
  rw [xacted_env] at hms
  rcases answer_radio (s := s) (op :: data) with hr | hr <;> rw [hr] at hms
  · exact h ms (List.mem_of_mem_tail hms)
  · exact h ms hms

theorem xacted_peer_contract (h : s.PeerKeepsContract) :
    (s.xacted op data).peer = (peerXfer s.env.level s.cfg (2 * s.env.ctr + 1) s.peerNow (op :: data)).1 := by
  rw [xacted_peer, answer_contract h]

theorem reply_contract (h : s.PeerKeepsContract) :
    s.reply op data = (peerXfer s.env.level s.cfg (2 * s.env.ctr + 1) s.peerNow (op :: data)).2 := by
  rw [State.reply, answer_contract h]

end

/-! ### Register reads and writes in a faithful peer -/

section
variable {s : State} {a : Reg}

/-- R_REGISTER leaves the peer as it finds it (20_memory.md R74). -/
theorem State.FaithfulPeer.read_peer (hf : s.FaithfulPeer) (a : Reg) (data : List Byte) :
    (s.xacted (opWithReg s.cfg.codes.opcRRegister a) data).peer = s.peerNow := by
  obtain ⟨hc, hl, -⟩ := hf
  rw [xacted_peer_contract _ _ hl]
  simp [peerXfer, hc, applyCmd]

/-- R_REGISTER of a named register gives its bytes (20_memory.md R64). -/
theorem State.FaithfulPeer.read_reply (hf : s.FaithfulPeer) (hn : Codes.standard.namedReg a = true)
    (hs : a ≠ Codes.standard.regStatus) :
    (s.reply (opWithReg s.cfg.codes.opcRRegister a) (List.replicate (Codes.standard.regWidth a) fill)).tail
      = (List.range (Codes.standard.regWidth a)).map (fun i => Memory.read s.cfg.codes s.peerNow.mem (cellOf a i)) := by
  obtain ⟨hc, hl, -⟩ := hf
  rw [reply_contract _ _ hl]
  simp [peerXfer, hc, applyCmd, readRegister, hn, hs, Memory.regBytes, fitBytes_of_length]

/-- W_REGISTER of a named register stores the bytes (20_memory.md R67, R85). -/
theorem State.FaithfulPeer.write_peer (hf : s.FaithfulPeer) (hn : Codes.standard.namedReg a = true)
    (hs : a ≠ Codes.standard.regStatus) (ho : a ≠ Codes.standard.regObserveTx) {bs : List Byte}
    (hb : bs.length = Codes.standard.regWidth a) :
    (s.xacted (opWithReg s.cfg.codes.opcWRegister a) bs).peer
      = { s.peerNow with mem := Memory.writeFrom s.cfg.codes s.peerNow.mem (cellOf a 0) bs } := by
  obtain ⟨hc, hl, -⟩ := hf
  have hne : bs ≠ [] := by
    rintro rfl
    revert hb
    simp only [Codes.regWidth, List.length_nil]
    split <;> simp
  rw [xacted_peer_contract _ _ hl]
  simp [peerXfer, hc, applyCmd, writeRegister, storeRegister, hn, hs, ho, hne, Memory.writeReg, ← hb]

/-- W_REGISTER of STATUS clears the flags it names (20_memory.md R66). -/
theorem State.FaithfulPeer.status_peer (hc : s.cfg.codes = Codes.standard) (hl : s.PeerKeepsContract) (m : Byte) :
    (s.xacted (opWithReg s.cfg.codes.opcWRegister s.cfg.codes.regStatus) [m]).peer
      = clearFlags s.cfg.codes m s.peerNow := by
  have hw : Codes.standard.regWidth Codes.standard.regStatus = 1 := by decide
  have hn : Codes.standard.namedReg Codes.standard.regStatus = true := by decide
  rw [xacted_peer_contract _ _ hl]
  simp [peerXfer, hc, applyCmd, writeRegister, storeRegister, hw, hn, byteAt]

theorem State.FaithfulPeer.after_read (hf : s.FaithfulPeer) (hp : s.KeepsPower) (a : Reg) (data : List Byte) :
    (s.xacted (opWithReg s.cfg.codes.opcRRegister a) data).FaithfulPeer := by
  refine ⟨by simpa using hf.1, by simpa [State.PeerKeepsContract] using hf.2.1, ?_⟩
  rw [xacted_cfg, hf.read_peer]
  exact hp.peerNow_wf hf.2.2

theorem State.FaithfulPeer.after_write (hf : s.FaithfulPeer) (hp : s.KeepsPower) (hn : Codes.standard.namedReg a = true)
    (hs : a ≠ Codes.standard.regStatus) (ho : a ≠ Codes.standard.regObserveTx) {bs : List Byte}
    (hb : bs.length = Codes.standard.regWidth a) :
    (s.xacted (opWithReg s.cfg.codes.opcWRegister a) bs).FaithfulPeer := by
  refine ⟨by simpa using hf.1, by simpa [State.PeerKeepsContract] using hf.2.1, ?_⟩
  rw [xacted_cfg, hf.write_peer hn hs ho hb]
  exact Memory.wf_writeFrom (hp.peerNow_wf hf.2.2)

/-- A cell after a register write: its new byte inside the register, as before outside, OBSERVE_TX apart. -/
theorem State.FaithfulPeer.write_inside (hf : s.FaithfulPeer) (hp : s.KeepsPower) (hn : Codes.standard.namedReg a = true)
    (hs : a ≠ Codes.standard.regStatus) (ho : a ≠ Codes.standard.regObserveTx) {bs : List Byte}
    (hb : bs.length = Codes.standard.regWidth a) {i : Nat} (hi : i < bs.length) :
    (s.xacted (opWithReg s.cfg.codes.opcWRegister a) bs).cell (cellOf a i) = bs[i] := by
  simp only [State.cell, xacted_cfg, hf.write_peer hn hs ho hb]
  have hw : Memory.wf s.cfg.codes s.peerNow.mem = true := hp.peerNow_wf hf.2.2
  have hcells : ∀ j < bs.length, isCell s.cfg.codes (cellOf a 0 + j) = true := by
    intro j hj
    have := standard_isCell hs (j := j) (by omega)
    rw [hf.1]
    simpa [cellOf] using this
  have := Memory.read_writeFrom_inside hw hcells hi
  simpa [cellOf] using this

theorem State.FaithfulPeer.write_outside (hf : s.FaithfulPeer) (hp : s.KeepsPower) (hn : Codes.standard.namedReg a = true)
    (hs : a ≠ Codes.standard.regStatus) (ho : a ≠ Codes.standard.regObserveTx) {bs : List Byte}
    (hb : bs.length = Codes.standard.regWidth a) {k : Nat} (hk : ¬ (cellOf a 0 ≤ k ∧ k < cellOf a bs.length))
    (hk' : k ≠ s.observeCell) :
    (s.xacted (opWithReg s.cfg.codes.opcWRegister a) bs).cell k = s.cell k := by
  simp only [State.cell, xacted_cfg, hf.write_peer hn hs ho hb]
  rw [Memory.read_writeFrom_outside (by simp only [cellOf] at hk ⊢; omega)]
  exact hp.peerNow_cells hk'

theorem State.FaithfulPeer.read_cell (hf : s.FaithfulPeer) (hp : s.KeepsPower) (a : Reg) (data : List Byte) {k : Nat}
    (hk : k ≠ s.observeCell) : (s.xacted (opWithReg s.cfg.codes.opcRRegister a) data).cell k = s.cell k := by
  simp only [State.cell, xacted_cfg, hf.read_peer]
  exact hp.peerNow_cells hk

end

end Sys2Proof.Machine
end

