-- ==== Sys2Proof/Laws/PerInstr.lean ====
section
/-! SUPPORT. A statement about every instruction as syntax, one lemma per constructor: a well-formed instruction's request
fits its port. -/

-- One theorem after the other: elaborated side by side, they wait for each other, and each waiting one holds a thread's stack.
set_option Elab.async false

namespace Sys2Proof.Laws

open Sys2Proof

@[simp] theorem leBytes_length (n v : Nat) : (leBytes n v).length = n := by
  induction n generalizing v with
  | zero => rfl
  | succ n ih => simp [leBytes, ih]

/-- The longest request at a port: a frame is 1 to 33 bytes (30_encoding.md R100); a host request has at most 35 bytes and
two tokens (log 2). -/
def RequestFits.limit (c : Config) : Port → Nat
  | .wire => 33
  | .host => 35 + 2 * tokenBytes c

/-- The request of a well-formed instruction is not empty and fits its port. -/
def RequestFits.Statement (i : Instr) : Prop :=
  ∀ c : Config, i.wf c = true →
    1 ≤ (encode c i).2.length ∧ (encode c i).2.length ≤ RequestFits.limit c (encode c i).1

namespace RequestFits

theorem rRegister (a : Reg) (n : Nat) : Statement (.rRegister a n) := by
  intro cfg h
  have h : _ ≤ 32 := of_decide_eq_true h
  simp [limit, encode]
  omega

theorem wRegister (a : Reg) (bs : List Byte) : Statement (.wRegister a bs) := by
  intro cfg h
  have h : _ ≤ 32 := of_decide_eq_true h
  simp [limit, encode]
  omega

theorem rRxPlWid : Statement .rRxPlWid := by
  intro cfg _
  simp [limit, encode]

theorem rRxPayload (n : Nat) : Statement (.rRxPayload n) := by
  intro cfg h
  have h : _ ≤ 32 := of_decide_eq_true h
  simp [limit, encode]
  omega

theorem wTxPayload (bs : List Byte) : Statement (.wTxPayload bs) := by
  intro cfg h
  have h : _ ≤ 32 := of_decide_eq_true h
  simp [limit, encode]
  omega

theorem wAckPayload (p : Pipe) (bs : List Byte) : Statement (.wAckPayload p bs) := by
  intro cfg h
  have h : _ ≤ 32 := of_decide_eq_true h
  simp [limit, encode]
  omega

theorem wTxPayloadNoack (bs : List Byte) : Statement (.wTxPayloadNoack bs) := by
  intro cfg h
  have h : _ ≤ 32 := of_decide_eq_true h
  simp [limit, encode]
  omega

theorem flushTx : Statement .flushTx := by
  intro cfg _
  simp [limit, encode]

theorem flushRx : Statement .flushRx := by
  intro cfg _
  simp [limit, encode]

theorem reuseTxPl : Statement .reuseTxPl := by
  intro cfg _
  simp [limit, encode]

theorem nop : Statement .nop := by
  intro cfg _
  simp [limit, encode]

theorem rpReadRegister (a : Reg) (n : Nat) : Statement (.rpReadRegister a n) := by
  intro cfg _
  simp [limit, encode]
  omega

theorem rpWriteRegister (a : Reg) (bs : List Byte) : Statement (.rpWriteRegister a bs) := by
  intro cfg h
  have h : _ ≤ 32 := of_decide_eq_true h
  simp [limit, encode, counted]
  omega

theorem rpReadPayload (n : Nat) : Statement (.rpReadPayload n) := by
  intro cfg _
  simp [limit, encode]
  omega

theorem rpWritePayload (bs : List Byte) : Statement (.rpWritePayload bs) := by
  intro cfg h
  have h : _ ≤ 32 := of_decide_eq_true h
  simp [limit, encode, counted]
  omega

theorem rpFlushRx : Statement .rpFlushRx := by
  intro cfg _
  simp [limit, encode]
  omega

theorem rpFlushTx : Statement .rpFlushTx := by
  intro cfg _
  simp [limit, encode]
  omega

theorem rpReuseTxPl : Statement .rpReuseTxPl := by
  intro cfg _
  simp [limit, encode]
  omega

theorem rpReadPayloadWidth : Statement .rpReadPayloadWidth := by
  intro cfg _
  simp [limit, encode]
  omega

theorem rpWriteAckPayload (p : Pipe) (bs : List Byte) : Statement (.rpWriteAckPayload p bs) := by
  intro cfg h
  have h : _ ≤ 32 := of_decide_eq_true h
  simp [limit, encode, counted]
  omega

theorem rpWriteNoackPayload (bs : List Byte) : Statement (.rpWriteNoackPayload bs) := by
  intro cfg h
  have h : _ ≤ 32 := of_decide_eq_true h
  simp [limit, encode, counted]
  omega

theorem rpNop : Statement .rpNop := by
  intro cfg _
  simp [limit, encode]
  omega

theorem enterShutdown : Statement .enterShutdown := by
  intro cfg _
  simp [limit, encode]
  omega

theorem enterStandby : Statement .enterStandby := by
  intro cfg _
  simp [limit, encode]
  omega

theorem enterRx : Statement .enterRx := by
  intro cfg _
  simp [limit, encode]
  omega

theorem enterTx : Statement .enterTx := by
  intro cfg _
  simp [limit, encode]
  omega

theorem startListening (p : Pipe) : Statement (.startListening p) := by
  intro cfg _
  simp [limit, encode]
  omega

theorem stopListening (p : Pipe) : Statement (.stopListening p) := by
  intro cfg _
  simp [limit, encode]
  omega

theorem getCrc : Statement .getCrc := by
  intro cfg _
  simp [limit, encode]
  omega

theorem setCrc (m : CrcMode) : Statement (.setCrc m) := by
  intro cfg _
  simp [limit, encode]
  omega

theorem getChannel : Statement .getChannel := by
  intro cfg _
  simp [limit, encode]
  omega

theorem setChannel (c : Byte) : Statement (.setChannel c) := by
  intro cfg _
  simp [limit, encode]
  omega

theorem getDataRate : Statement .getDataRate := by
  intro cfg _
  simp [limit, encode]
  omega

theorem setDataRate (r : DataRate) : Statement (.setDataRate r) := by
  intro cfg _
  simp [limit, encode]
  omega

theorem getOutputPower : Statement .getOutputPower := by
  intro cfg _
  simp [limit, encode]
  omega

theorem setOutputPower (w : Power) : Statement (.setOutputPower w) := by
  intro cfg _
  simp [limit, encode]
  omega

theorem getRetryCount : Statement .getRetryCount := by
  intro cfg _
  simp [limit, encode]
  omega

theorem setRetryCount (c : Byte) : Statement (.setRetryCount c) := by
  intro cfg _
  simp [limit, encode]
  omega

theorem getRetryDelay : Statement .getRetryDelay := by
  intro cfg _
  simp [limit, encode]
  omega

theorem setRetryDelay (d : Byte) : Statement (.setRetryDelay d) := by
  intro cfg _
  simp [limit, encode]
  omega

theorem getRxBaseAddress (p : Pipe) : Statement (.getRxBaseAddress p) := by
  intro cfg _
  simp [limit, encode]
  omega

theorem setRxBaseAddress (p : Pipe) (base : BitVec 32) : Statement (.setRxBaseAddress p base) := by
  intro cfg _
  simp [limit, encode]
  omega

theorem getRxAddress (p : Pipe) : Statement (.getRxAddress p) := by
  intro cfg _
  simp [limit, encode]
  omega

theorem setRxAddress (p : Pipe) (addr : BitVec 40) : Statement (.setRxAddress p addr) := by
  intro cfg _
  simp [limit, encode]
  omega

theorem getTxAddress : Statement .getTxAddress := by
  intro cfg _
  simp [limit, encode]
  omega

theorem setTxAddress (addr : BitVec 40) : Statement (.setTxAddress addr) := by
  intro cfg _
  simp [limit, encode]
  omega

theorem getDynPayload (p : Pipe) : Statement (.getDynPayload p) := by
  intro cfg _
  simp [limit, encode]
  omega

theorem setDynPayload (p : Pipe) (e : Bool) : Statement (.setDynPayload p e) := by
  intro cfg _
  simp [limit, encode]
  omega

theorem getAutoAck (p : Pipe) : Statement (.getAutoAck p) := by
  intro cfg _
  simp [limit, encode]
  omega

theorem setAutoAck (p : Pipe) (e : Bool) : Statement (.setAutoAck p e) := by
  intro cfg _
  simp [limit, encode]
  omega

theorem getPipeEnable (p : Pipe) : Statement (.getPipeEnable p) := by
  intro cfg _
  simp [limit, encode]
  omega

theorem setPipeEnable (p : Pipe) (e : Bool) : Statement (.setPipeEnable p e) := by
  intro cfg _
  simp [limit, encode]
  omega

theorem init : Statement .init := by
  intro cfg _
  simp [limit, encode]
  omega

theorem poll : Statement .poll := by
  intro cfg _
  simp [limit, encode]
  omega

theorem enqueueData (dg : Datagram) : Statement (.enqueueData dg) := by
  intro cfg h
  have h : dg.bytes.length ≤ 32 := of_decide_eq_true h
  simp [limit, encode, datagramBytes, counted]
  omega

theorem setRxCallback (cb : Option Callback) : Statement (.setRxCallback cb) := by
  intro cfg _
  cases cb <;> simp [limit, encode, callbackBytes] <;> omega

theorem setTxCallback (cb : Option Callback) : Statement (.setTxCallback cb) := by
  intro cfg _
  cases cb <;> simp [limit, encode, callbackBytes] <;> omega

end RequestFits

end Sys2Proof.Laws
end

