-- ==== Sys2Proof/Laws/Run.lean ====
section
/-! SUPPORT. Runs of events: what a part of an operation adds to the observation (`Ran`), composed along an operation, and what
an RMW and a register access do, in the terms of Safety. -/

-- One theorem after the other: elaborated side by side, they wait for each other, and each waiting one holds a thread's stack.
set_option Elab.async false

namespace Sys2Proof.Machine

open Sys2Proof

/-! ### The latches along a run -/

@[simp] theorem latestStatus_append (l : Option Byte) (e1 e2 : List Event) :
    latestStatus l (e1 ++ e2) = latestStatus (latestStatus l e1) e2 := by
  simp [latestStatus]

@[simp] theorem bufferAfter_append (b : Vector Byte 33) (e1 e2 : List Event) :
    bufferAfter b (e1 ++ e2) = bufferAfter (bufferAfter b e1) e2 := by
  simp [bufferAfter]

/-- A load overwrites the first positions and keeps the others (10_state.md R25). -/
theorem loadXbuf_getElem (bs : List Byte) (b : Vector Byte 33) {i : Nat} (h : i < 33) :
    (loadXbuf bs b)[i] = (bs[i]?).getD b[i] := by
  simp only [loadXbuf, Vector.getElem_mk, List.getElem_toArray, List.getElem_take]
  by_cases hi : i < bs.length
  · simp [List.getElem_append_left, hi]
  · rw [List.getElem_append_right (by omega)]
    simp only [List.getElem_drop, Nat.add_sub_cancel' (show bs.length ≤ i by omega)]
    simp [List.getElem?_eq_none (show bs.length ≤ i by omega)]

/-- A second load of as many bytes hides the first (10_state.md R25). -/
theorem loadXbuf_loadXbuf {xs ys : List Byte} (h : ys.length = xs.length) (b : Vector Byte 33) :
    loadXbuf ys (loadXbuf xs b) = loadXbuf ys b := by
  ext i hi
  rw [loadXbuf_getElem, loadXbuf_getElem, loadXbuf_getElem]
  by_cases hl : i < ys.length
  · simp [hl]
  · simp [List.getElem?_eq_none (show xs.length ≤ i by omega)]

/-- `t` is `s` after the events `evs` of a part of an operation. -/
structure Ran (s t : State) (evs : List Event) : Prop where
  trace : t.trace = s.trace ++ evs
  results : t.results = s.results
  last : t.blk.lastStatus = latestStatus s.blk.lastStatus evs
  xbuf : t.blk.xbuf = bufferAfter s.blk.xbuf evs
  cfg : t.cfg = s.cfg
  inbox : t.inbox = s.inbox
  level : t.env.level = s.env.level
  allow : t.env.allow = s.env.allow

theorem Ran.trans {s t u : State} {e1 e2 : List Event} (h : Ran s t e1) (g : Ran t u e2) : Ran s u (e1 ++ e2) where
  trace := by rw [g.trace, h.trace, List.append_assoc]
  results := by rw [g.results, h.results]
  last := by rw [g.last, h.last, latestStatus_append]
  xbuf := by rw [g.xbuf, h.xbuf, bufferAfter_append]
  cfg := by rw [g.cfg, h.cfg]
  inbox := by rw [g.inbox, h.inbox]
  level := by rw [g.level, h.level]
  allow := by rw [g.allow, h.allow]

/-- A transaction is one event. -/
theorem ran_xacted (s : State) (op : Byte) (data : List Byte) :
    Ran s (s.xacted op data) [.xfer (op :: data) (s.reply op data)] where
  trace := xacted_trace op data s
  results := xacted_results op data s
  last := xacted_lastStatus op data s
  xbuf := by
    rw [xacted_xbuf]
    exact loadXbuf_loadXbuf (by simp [reply_length]) _
  cfg := xacted_cfg op data s
  inbox := xacted_inbox op data s
  level := xacted_level op data s
  allow := xacted_allow op data s

/-- An event that is no exchange leaves the latches. -/
theorem ran_emit (s : State) {e : Event} (h : isXfer e = false) : Ran s (s.emit e) [e] where
  trace := rfl
  results := rfl
  last := by cases e <;> simp_all [latestStatus, isXfer, State.emit]
  xbuf := by cases e <;> simp_all [bufferAfter, isXfer, State.emit]
  cfg := rfl
  inbox := rfl
  level := rfl
  allow := rfl

/-- An update of the block outside the two latches is no event. -/
theorem ran_onBlk (s : State) {f : Block → Block} (h1 : (f s.blk).lastStatus = s.blk.lastStatus)
    (h2 : (f s.blk).xbuf = s.blk.xbuf) : Ran s (s.onBlk f) [] where
  trace := by simp
  results := rfl
  last := h1
  xbuf := h2
  cfg := rfl
  inbox := rfl
  level := rfl
  allow := rfl

/-- A completed host operation, from the run of its body. -/
theorem Ran.done {s u : State} {i : Instr} {evs : List Event} {r : Result} (h : Ran (s.accept i) u evs) :
    Done s (u.complete r) evs [r] :=
  ⟨rfl, h.trace, by simp [State.complete, h.results, State.accept], h.last, h.xbuf, h.cfg, h.inbox, h.level, h.allow⟩

/-- A completed wire command, from the run of its body. -/
theorem Ran.done_wire {s u : State} {i : Instr} {evs : List Event} (h : Ran (s.accept i) u evs) :
    Done s u.finish evs [] :=
  ⟨rfl, h.trace, by simp [State.finish, h.results, State.accept], h.last, h.xbuf, h.cfg, h.inbox, h.level, h.allow⟩

/-! ### Events of register accesses -/

section
variable (s : State)

theorem readsReg_xacted (a : Reg) (n : Nat) :
    ReadsReg s.cfg.codes a n (s.reply (opWithReg s.cfg.codes.opcRRegister a) (List.replicate n fill)).tail
      [.xfer (opWithReg s.cfg.codes.opcRRegister a :: List.replicate n fill)
        (s.reply (opWithReg s.cfg.codes.opcRRegister a) (List.replicate n fill))] :=
  ⟨_, by simp [reply_length], by rw [← reply_eq_cons]⟩

theorem sends_xacted (op : Byte) (data : List Byte) : Sends op data [.xfer (op :: data) (s.reply op data)] :=
  ⟨_, reply_length op data s, rfl⟩

theorem commands_xacted (op : Byte) : Commands op [.xfer [op] (s.reply op [])] := by
  have h := reply_length op [] s
  match hr : s.reply op [], h with
  | [b], _ => exact ⟨b, rfl⟩

theorem reply_one (op b : Byte) : s.reply op [b] = [byteAt (s.reply op [b]) 0, byteAt (s.reply op [b]).tail 0] := by
  have h := reply_length op [b] s
  match hr : s.reply op [b], h with
  | [x, y], _ => rfl

end

/-! ### Read-modify-write -/

/-- A named register the radio does not touch and no special rule applies to (20_memory.md R67). -/
abbrev PlainReg (a : Reg) : Prop :=
  Codes.standard.namedReg a = true ∧ a ≠ Codes.standard.regStatus ∧ a ≠ Codes.standard.regObserveTx

section
variable (s : State) (a : Reg) (clr ones : Byte)

/-- The events of an RMW. -/
def State.rmwEvents : List Event :=
  let s1 := (s.xacted (opWithReg s.cfg.codes.opcRRegister a) [fill]).onBlk (fun b => { b with vTmp := [s.rmwRead a] })
  [.xfer [opWithReg s.cfg.codes.opcRRegister a, fill] (s.reply (opWithReg s.cfg.codes.opcRRegister a) [fill])]
    ++ [.xfer [opWithReg s.cfg.codes.opcWRegister a, updateBits (s.rmwRead a) clr ones]
        (s1.reply (opWithReg s.cfg.codes.opcWRegister a) [updateBits (s.rmwRead a) clr ones])]

theorem ran_rmwed : Ran s (s.rmwed a clr ones) (s.rmwEvents a clr ones) := by
  have h1 := (ran_xacted s (opWithReg s.cfg.codes.opcRRegister a) [fill]).trans
    (ran_onBlk _ (f := fun b => { b with vTmp := [s.rmwRead a] }) rfl rfl)
  exact h1.trans (ran_xacted _ _ _)

theorem rmwEvents_spec : RmwEvents s.cfg.codes a (s.rmwRead a) clr ones (s.rmwEvents a clr ones) := by
  refine ⟨_, _, ⟨byteAt (s.reply (opWithReg s.cfg.codes.opcRRegister a) [fill]) 0, rfl, ?_⟩, sends_xacted _ _ _, rfl⟩
  exact congrArg (fun x => [Event.xfer _ x]) (reply_one s _ _)

@[simp] theorem rmwed_vTmp : (s.rmwed a clr ones).blk.vTmp = [s.rmwRead a] := by simp [State.rmwed]
@[simp] theorem rmwed_mode : (s.rmwed a clr ones).blk.mode = s.blk.mode := by simp [State.rmwed]
@[simp] theorem rmwed_ce : (s.rmwed a clr ones).blk.ce = s.blk.ce := by simp [State.rmwed]
@[simp] theorem rmwed_pollStatus : (s.rmwed a clr ones).blk.pollStatus = s.blk.pollStatus := by simp [State.rmwed]
@[simp] theorem rmwed_rxq : (s.rmwed a clr ones).blk.rxq = s.blk.rxq := by simp [State.rmwed]
@[simp] theorem rmwed_txq : (s.rmwed a clr ones).blk.txq = s.blk.txq := by simp [State.rmwed]
@[simp] theorem rmwed_rxCb : (s.rmwed a clr ones).blk.rxCb = s.blk.rxCb := by simp [State.rmwed]
@[simp] theorem rmwed_txCb : (s.rmwed a clr ones).blk.txCb = s.blk.txCb := by simp [State.rmwed]
@[simp] theorem rmwed_wLat : (s.rmwed a clr ones).blk.wLat = s.blk.wLat := by simp [State.rmwed]
@[simp] theorem rmwed_pLat : (s.rmwed a clr ones).blk.pLat = s.blk.pLat := by simp [State.rmwed]
@[simp] theorem rmwed_cfg : (s.rmwed a clr ones).cfg = s.cfg := by simp [State.rmwed]
@[simp] theorem rmwed_level : (s.rmwed a clr ones).env.level = s.env.level := by simp [State.rmwed]
@[simp] theorem rmwed_allow : (s.rmwed a clr ones).env.allow = s.env.allow := by simp [State.rmwed]
@[simp] theorem rmwed_inbox : (s.rmwed a clr ones).inbox = s.inbox := by simp [State.rmwed]
@[simp] theorem rmwed_results : (s.rmwed a clr ones).results = s.results := by simp [State.rmwed]

variable {s a clr ones}

theorem rmwed_keepsPower (h : s.KeepsPower) : (s.rmwed a clr ones).KeepsPower :=
  xacted_keepsPower _ _ (show State.KeepsPower (State.onBlk _ _) from xacted_keepsPower _ _ h)

theorem rmwed_radioQuiet (h : s.RadioQuiet) : (s.rmwed a clr ones).RadioQuiet :=
  xacted_radioQuiet _ _ (show State.RadioQuiet (State.onBlk _ _) from xacted_radioQuiet _ _ h)

/-- The byte an RMW reads is the register's (20_memory.md R64). -/
theorem rmwRead_faithful (hf : s.FaithfulPeer) (hp : s.KeepsPower) (ha : PlainReg a)
    (hw : Codes.standard.regWidth a = 1) : s.rmwRead a = s.regByte a := by
  have h := hf.read_reply ha.1 ha.2.1
  rw [hw] at h
  have h' : (s.reply (opWithReg s.cfg.codes.opcRRegister a) [fill]).tail
      = [Memory.read s.cfg.codes s.peerNow.mem (cellOf a 0)] := by simpa using h
  rw [State.rmwRead, h']
  refine hp.peerNow_cells ?_
  rw [State.observeCell, hf.1]
  intro he
  exact ha.2.2 (cellOf_inj (by omega) (by omega) he).1

/-- The state in which an RMW writes: after its read. -/
abbrev State.midRmw (a : Reg) (s : State) : State :=
  (s.xacted (opWithReg s.cfg.codes.opcRRegister a) [fill]).onBlk (fun b => { b with vTmp := [s.rmwRead a] })

theorem midRmw_faithful (hf : s.FaithfulPeer) (hp : s.KeepsPower) (a : Reg) : (s.midRmw a).FaithfulPeer :=
  hf.after_read hp a [fill]

theorem midRmw_keepsPower (hp : s.KeepsPower) (a : Reg) : (s.midRmw a).KeepsPower :=
  xacted_keepsPower (s := s) _ _ hp

theorem rmwed_eq : s.rmwed a clr ones
    = (s.midRmw a).xacted (opWithReg (s.midRmw a).cfg.codes.opcWRegister a) [updateBits (s.rmwRead a) clr ones] := by
  simp [State.rmwed]

theorem rmwed_faithful (hf : s.FaithfulPeer) (hp : s.KeepsPower) (ha : PlainReg a)
    (hw : Codes.standard.regWidth a = 1) : (s.rmwed a clr ones).FaithfulPeer := by
  rw [rmwed_eq]
  exact (midRmw_faithful hf hp a).after_write (midRmw_keepsPower hp a) ha.1 ha.2.1 ha.2.2 (by simp [hw])

/-- The register takes its new byte. -/
theorem rmwed_inside (hf : s.FaithfulPeer) (hp : s.KeepsPower) (ha : PlainReg a) (hw : Codes.standard.regWidth a = 1) :
    (s.rmwed a clr ones).regByte a = (s.regByte a &&& ~~~clr) ||| ones := by
  rw [rmwed_eq]
  have h := (midRmw_faithful hf hp a).write_inside (midRmw_keepsPower hp a) ha.1 ha.2.1 ha.2.2
    (bs := [updateBits (s.rmwRead a) clr ones]) (by simp [hw]) (i := 0) (by simp)
  rw [State.regByte, regCell, h, rmwRead_faithful hf hp ha hw]
  rfl

/-- Every other cell reads as before, OBSERVE_TX apart. -/
theorem rmwed_outside (hf : s.FaithfulPeer) (hp : s.KeepsPower) (ha : PlainReg a) (hw : Codes.standard.regWidth a = 1)
    {k : Nat} (hk : k ≠ regCell a) (ho : k ≠ s.observeCell) : (s.rmwed a clr ones).cell k = s.cell k := by
  rw [rmwed_eq, (midRmw_faithful hf hp a).write_outside (midRmw_keepsPower hp a) ha.1 ha.2.1 ha.2.2 (by simp [hw])
    (by simp only [regCell, cellOf] at hk ⊢; simp; omega) (by simpa [State.observeCell] using ho)]
  exact hf.read_cell hp a [fill] ho

/-- With a quiet radio an RMW writes its register and nothing else of the peer. -/
theorem rmwed_quiet_peer (hf : s.FaithfulPeer) (hq : s.RadioQuiet) (ha : PlainReg a)
    (hw : Codes.standard.regWidth a = 1) :
    (s.rmwed a clr ones).peer
      = { s.peer with
          mem := Memory.writeFrom s.cfg.codes s.peer.mem (cellOf a 0) [updateBits (s.rmwRead a) clr ones] } := by
  have hqm : (s.midRmw a).RadioQuiet := xacted_radioQuiet (s := s) _ _ hq
  have hm : (s.midRmw a).peer = s.peer := by
    show (s.xacted (opWithReg s.cfg.codes.opcRRegister a) [fill]).peer = s.peer
    rw [hf.read_peer, hq.peerNow]
  rw [rmwed_eq, (midRmw_faithful hf hq.keepsPower a).write_peer ha.1 ha.2.1 ha.2.2 (by simp [hw]), hqm.peerNow, hm]
  simp

theorem rmwed_any_peer (h : s.env.level = .any) : (s.rmwed a clr ones).peer = s.peer := by
  have h2 : (s.midRmw a).env.level = .any := by simpa using h
  rw [rmwed_eq, xacted_peer, answer_any_peer h2]
  show (s.xacted (opWithReg s.cfg.codes.opcRRegister a) [fill]).peer = s.peer
  rw [xacted_peer, answer_any_peer h]

/-- What an RMW does, in the terms of Safety. -/
theorem rmwed_updates {t : State} (ha : s.cfg.codes = Codes.standard → PlainReg a ∧ Codes.standard.regWidth a = 1)
    (hp : t.peer = (s.rmwed a clr ones).peer) (hc : t.cfg = s.cfg) (hv : t.blk.vTmp = [s.rmwRead a]) :
    UpdatesReg s t a clr ones (s.rmwEvents a clr ones) := by
  have hcell : ∀ k, t.cell k = (s.rmwed a clr ones).cell k := fun k => by simp [State.cell, hp, hc]
  refine ⟨⟨_, rmwEvents_spec _ _ _ _, hv⟩, fun hf hk => ⟨?_, fun k hk1 hk2 => ?_⟩, fun hf hq => ⟨?_, ?_⟩, fun h => ?_⟩
  · rw [State.regByte, hcell]
    exact rmwed_inside hf hk (ha hf.1).1 (ha hf.1).2
  · rw [hcell, rmwed_outside hf hk (ha hf.1).1 (ha hf.1).2 hk1 hk2]
  · obtain ⟨h1, h2⟩ := ha hf.1
    rw [hcell, State.cell, rmwed_quiet_peer hf hq h1 h2, rmwed_cfg,
      Memory.read_writeFrom_outside, State.cell]
    have hne : regCell a ≠ s.observeCell := by
      rw [State.observeCell, hf.1]
      intro he
      exact h1.2.2 (cellOf_inj (by omega) (by omega) he).1
    simp only [regCell, List.length_singleton] at hne ⊢
    omega
  · rw [hp, rmwed_quiet_peer hf hq (ha hf.1).1 (ha hf.1).2]
    exact ⟨rfl, rfl, rfl, rfl, rfl, rfl⟩
  · rw [hp, rmwed_any_peer h]

/-! ### Whole-register reads and writes -/

theorem plainReg_ne_observe (hc : s.cfg.codes = Codes.standard) (ha : PlainReg a) {j : Nat} (hj : j < 8) :
    cellOf a j ≠ s.observeCell := by
  rw [State.observeCell, hc]
  intro he
  exact ha.2.2 (cellOf_inj hj (by omega) he).1

/-- What a whole-register read does, in the terms of Safety. -/
theorem xacted_reads {t : State} {n : Nat}
    (ha : s.cfg.codes = Codes.standard → PlainReg a ∧ Codes.standard.regWidth a = n)
    (hp : t.peer = (s.xacted (opWithReg s.cfg.codes.opcRRegister a) (List.replicate n fill)).peer) (hc : t.cfg = s.cfg) :
    ReadsBytes s t a n (s.reply (opWithReg s.cfg.codes.opcRRegister a) (List.replicate n fill)).tail
      [.xfer (opWithReg s.cfg.codes.opcRRegister a :: List.replicate n fill)
        (s.reply (opWithReg s.cfg.codes.opcRRegister a) (List.replicate n fill))] := by
  refine ⟨readsReg_xacted s a n, fun hf hk => ⟨fun j hj => ?_, fun k _ hk2 => ?_⟩, fun hf hq => ?_, fun h => ?_⟩
  · obtain ⟨h1, h2⟩ := ha hf.1
    have hr := hf.read_reply h1.1 h1.2.1
    rw [h2] at hr
    have hj8 : j < 8 := by have := Codes.regWidth_le Codes.standard a; omega
    rw [hr]
    simp [hj, hk.peerNow_cells (plainReg_ne_observe hf.1 h1 hj8)]
  · have := hf.read_cell hk a (List.replicate n fill) hk2
    simpa [State.cell, hp, hc] using this
  · rw [hp, hf.read_peer, hq.peerNow]
  · rw [hp, xacted_peer, answer_any_peer h]

/-- What a whole-register write does, in the terms of Safety. -/
theorem xacted_stores {t : State} {bs : List Byte}
    (ha : s.cfg.codes = Codes.standard → PlainReg a ∧ Codes.standard.regWidth a = bs.length)
    (hp : t.peer = (s.xacted (opWithReg s.cfg.codes.opcWRegister a) bs).peer) (hc : t.cfg = s.cfg) :
    StoresBytes s t a bs
      [.xfer (opWithReg s.cfg.codes.opcWRegister a :: bs) (s.reply (opWithReg s.cfg.codes.opcWRegister a) bs)] := by
  have hcell : ∀ k, t.cell k = (s.xacted (opWithReg s.cfg.codes.opcWRegister a) bs).cell k := fun k => by
    simp [State.cell, hp, hc]
  refine ⟨sends_xacted s _ _, fun hf hk => ⟨fun j hj => ?_, fun k hk1 hk2 => ?_⟩, fun hf hq => ⟨?_, ?_⟩, fun h => ?_⟩
  · obtain ⟨h1, h2⟩ := ha hf.1
    rw [hcell, hf.write_inside hk h1.1 h1.2.1 h1.2.2 h2.symm hj]
    simp [hj]
  · obtain ⟨h1, h2⟩ := ha hf.1
    rw [hcell, hf.write_outside hk h1.1 h1.2.1 h1.2.2 h2.symm hk1 hk2]
  · obtain ⟨h1, h2⟩ := ha hf.1
    have hw := Codes.regWidth_le Codes.standard a
    have hne : ∀ j < 8, cellOf a j ≠ s.observeCell := fun j hj => plainReg_ne_observe hf.1 h1 hj
    have hout : s.observeCell < cellOf a 0 ∨ cellOf a 0 + bs.length ≤ s.observeCell := by
      by_contra hcon
      have := hne (s.observeCell - cellOf a 0) (by omega)
      simp only [cellOf] at this hcon
      omega
    rw [hcell, State.cell, hf.write_peer h1.1 h1.2.1 h1.2.2 h2.symm, hq.peerNow, xacted_cfg,
      Memory.read_writeFrom_outside hout]
  · obtain ⟨h1, h2⟩ := ha hf.1
    rw [hp, hf.write_peer h1.1 h1.2.1 h1.2.2 h2.symm, hq.peerNow]
    exact ⟨rfl, rfl, rfl, rfl, rfl, rfl⟩
  · rw [hp, xacted_peer, answer_any_peer h]

end

end Sys2Proof.Machine
end

