-- ==== Sys2Proof/Laws/Shapes.lean ====
section
/-! SUPPORT. The shapes of host operations, once each: an answer alone, one transaction, one register read, one RMW, one register write. An
operation's own claim follows by giving its body. -/

-- One theorem after the other: elaborated side by side, they wait for each other, and each waiting one holds a thread's stack.
set_option Elab.async false

namespace Sys2Proof.Machine

open Sys2Proof

section
variable {s : State} {i : Instr} {body : Op Result}

/-- One byte of a list of one. -/
theorem tail_reply_one (s : State) (op b : Byte) : (s.reply op [b]).tail = [byteAt (s.reply op [b]).tail 0] :=
  congrArg List.tail (reply_one s op b)

/-- An operation that is one transaction. -/
theorem runHost_one_transaction {op : Byte} {data : List Byte} {r : Result} (h : s.Ready) (hw : i.wf s.cfg = true)
    (hb : body (s.accept i) = .ok r ((s.accept i).xacted op data)) :
    ∃ t, runHost i body s = .next t
      ∧ Done s t [.xfer (op :: data) ((s.accept i).reply op data)] [r] ∧ KeepsRest s t
      ∧ OneExchange s t (op :: data) ((s.accept i).reply op data) := by
  refine ⟨_, runHost_returns h.1 hw hb, (ran_xacted _ _ _).done, ?_, xacted_oneExchange (s := s.accept i) op data⟩
  simp [KeepsRest, KeepsMode, KeepsQueues]

/-- An operation that gives a result and does nothing else. -/
theorem runHost_only_answers {r : Result} (hi : s.blk.seq = .idle) (hw : i.wf s.cfg = true)
    (hb : body (s.accept i) = .ok r (s.accept i)) :
    runHost i body s = .next { s with results := s.results ++ [r] } := by
  rw [runHost_returns hi hw hb]
  cases s with
  | mk cfg blk peer env trace results inbox =>
    cases blk
    simp_all [State.complete, State.finish, State.accept, State.onBlk]

/-- An operation that reads a register and computes its result from the bytes. -/
theorem runHost_reads {a : Reg} {n : Nat} {r : Result} (h : s.Ready) (hw : i.wf s.cfg = true)
    (ha : s.cfg.codes = Codes.standard → PlainReg a ∧ Codes.standard.regWidth a = n)
    (hb : body (s.accept i)
      = .ok r ((s.accept i).xacted (opWithReg s.cfg.codes.opcRRegister a) (List.replicate n fill))) :
    ∃ t evs, runHost i body s = .next t ∧ Done s t evs [r] ∧ KeepsRest s t
      ∧ ReadsBytes s t a n ((s.accept i).reply (opWithReg s.cfg.codes.opcRRegister a) (List.replicate n fill)).tail evs := by
  refine ⟨_, _, runHost_returns h.1 hw hb, (ran_xacted _ _ _).done, ?_, xacted_reads (s := s.accept i) ha rfl ?_⟩
  · simp [KeepsRest, KeepsMode, KeepsQueues]
  · simp

/-- An operation that is one RMW. -/
theorem runHost_updates {a : Reg} {clr ones : Byte} {r : Result} (h : s.Ready) (hw : i.wf s.cfg = true)
    (ha : s.cfg.codes = Codes.standard → PlainReg a ∧ Codes.standard.regWidth a = 1)
    (hb : body (s.accept i) = .ok r ((s.accept i).rmwed a clr ones)) :
    ∃ t evs, runHost i body s = .next t ∧ Done s t evs [r] ∧ KeepsMode s t ∧ KeepsQueues s t
      ∧ UpdatesReg s t a clr ones evs := by
  refine ⟨_, _, runHost_returns h.1 hw hb, (ran_rmwed _ _ _ _).done, ?_, ?_, rmwed_updates (s := s.accept i) ha rfl ?_ ?_⟩
  all_goals simp [KeepsMode, KeepsQueues]

/-- An operation that writes a whole register. -/
theorem runHost_stores {a : Reg} {bs : List Byte} {r : Result} (h : s.Ready) (hw : i.wf s.cfg = true)
    (ha : s.cfg.codes = Codes.standard → PlainReg a ∧ Codes.standard.regWidth a = bs.length)
    (hb : body (s.accept i) = .ok r ((s.accept i).xacted (opWithReg s.cfg.codes.opcWRegister a) bs)) :
    ∃ t evs, runHost i body s = .next t ∧ Done s t evs [r] ∧ KeepsRest s t ∧ StoresBytes s t a bs evs := by
  refine ⟨_, _, runHost_returns h.1 hw hb, (ran_xacted _ _ _).done, ?_, xacted_stores (s := s.accept i) ha rfl ?_⟩
  · simp [KeepsRest, KeepsMode, KeepsQueues]
  · simp

end

end Sys2Proof.Machine
end

