-- ==== Sys2Proof/Tests/Slice0.lean ====
section
/-! SUPPORT. Tests: ill-formed terms that are refused, words written out from the tables of 30_encoding.md R106 and R113, one
step of every instruction against the vectors of 95_test_vectors.md (with the reference peer), and a witness for the premises
of every statement. -/

-- One theorem after the other: elaborated side by side, they wait for each other, and each waiting one holds a thread's stack.
set_option Elab.async false

namespace Sys2Proof.Tests

open Sys2Proof Sys2Proof.Machine

/-! ### Well-formedness -/

/-- 33 bytes: one more than `MAX_PAYLOAD`. -/
def tooMany : List Byte := List.replicate 33 0

/-- 32 bytes. -/
def asManyAsFit : List Byte := List.replicate 32 0

theorem test_a_length_of_33_is_refused :
    ∀ i ∈ [Instr.rRegister 0x05 33, .wRegister 0x05 tooMany, .rRxPayload 33, .wTxPayload tooMany, .wAckPayload 0 tooMany,
        .wTxPayloadNoack tooMany, .rpReadRegister 0x05 33, .rpWriteRegister 0x05 tooMany, .rpReadPayload 33,
        .rpWritePayload tooMany, .rpWriteAckPayload 0 tooMany, .rpWriteNoackPayload tooMany, .enqueueData ⟨0, tooMany⟩],
      i.wf Config.standard = false := by decide

theorem test_a_length_of_32_is_accepted :
    ∀ i ∈ [Instr.rRegister 0x05 32, .wRegister 0x05 asManyAsFit, .rRxPayload 32, .wTxPayload asManyAsFit,
        .wAckPayload 7 asManyAsFit, .wTxPayloadNoack asManyAsFit, .rpReadRegister 0x05 32, .rpWriteRegister 0x05 asManyAsFit,
        .rpReadPayload 32, .rpWritePayload asManyAsFit, .rpWriteAckPayload 7 asManyAsFit, .rpWriteNoackPayload asManyAsFit,
        .enqueueData ⟨7, asManyAsFit⟩],
      i.wf Config.standard = true := by decide

theorem test_a_token_of_33_bits_is_refused :
    ∀ i ∈ [Instr.setRxCallback (some ⟨2 ^ 32, 0⟩), .setRxCallback (some ⟨0, 2 ^ 32⟩), .setTxCallback (some ⟨2 ^ 32, 0⟩),
        .setTxCallback (some ⟨0, 2 ^ 32⟩)],
      i.wf Config.standard = false := by decide

/-! ### Words written out from the tables -/

/-- 30_encoding.md R106, R102, and 95_test_vectors.md B1: opcode = base OR operand, then the data. -/
def wireWords : List (List Byte × Instr) :=
  [ ([0b00000111, 0xFF], .rRegister 0x07 1), ([0b00011101], .rRegister 0x1D 0), ([0b00011111, 0xFF, 0xFF], .rRegister 0x1F 2),
    ([0b00100101, 0x4C], .wRegister 0x05 [0x4C]), ([0b00111100, 0x04], .wRegister 0x1C [0x04]),
    ([0b00110000, 5, 4, 3, 2, 1], .wRegister 0x10 [5, 4, 3, 2, 1]),
    ([0b01100000, 0xFF], .rRxPlWid), ([0b01100001, 0xFF, 0xFF], .rRxPayload 2),
    ([0b10100000, 1, 2], .wTxPayload [1, 2]),
    ([0b10101000], .wAckPayload 0 []), ([0b10101011, 9], .wAckPayload 3 [9]), ([0b10101111, 1], .wAckPayload 7 [1]),
    ([0b10110000, 9], .wTxPayloadNoack [9]),
    ([0b11100001], .flushTx), ([0b11100010], .flushRx), ([0b11100011], .reuseTxPl), ([0b11111111], .nop) ]

theorem test_wire_words_decode : ∀ x ∈ wireWords, decode Config.standard .wire x.1 = .ok (x.2, []) := by decide

theorem test_wire_words_encode : ∀ x ∈ wireWords, encode Config.standard x.2 = (.wire, x.1) := by decide

/-- 30_encoding.md R106, R110; 95_test_vectors.md B1: bytes no row matches, and frames of a length no command has. -/
theorem test_other_frames_are_refused :
    (∀ b ∈ ([0x40, 0x5F, 0x62, 0x9F, 0xA1, 0xA7, 0xB1, 0xE0, 0xE4, 0xFE] : List Byte),
        decode Config.standard .wire [b] = .error (.noCommand b))
      ∧ ∀ bs ∈ ([[], [0xE1, 0], [0xE2, 0], [0xE3, 0], [0xFF, 0xFF], [0x60], [0x60, 0xFF, 0xFF], 0xA0 :: tooMany]
          : List (List Byte)),
        decode Config.standard .wire bs = .error .badLength := by decide

/-- 30_encoding.md R113, rows 0x00 to 0x15, with the operand bytes of log 2. -/
def hostWordsA : List (List Byte × Instr) :=
  [ ([0x00, 0x07, 1], .rpReadRegister 0x07 1), ([0x01, 0x05, 1, 0x4C], .rpWriteRegister 0x05 [0x4C]),
    ([0x02, 32], .rpReadPayload 32), ([0x03, 2, 0x11, 0x22], .rpWritePayload [0x11, 0x22]), ([0x04], .rpFlushRx),
    ([0x05], .rpFlushTx), ([0x06], .rpReuseTxPl), ([0x07], .rpReadPayloadWidth),
    ([0x08, 7, 1, 0x55], .rpWriteAckPayload 7 [0x55]), ([0x09, 0], .rpWriteNoackPayload []), ([0x0A], .rpNop),
    ([0x10], .enterShutdown), ([0x11], .enterStandby), ([0x12], .enterRx), ([0x13], .enterTx),
    ([0x14, 5], .startListening 5), ([0x15, 6], .stopListening 6) ]

/-- 30_encoding.md R113, rows 0x20 to 0x44, with the operand bytes of log 2. -/
def hostWordsB : List (List Byte × Instr) :=
  [ ([0x20], .getCrc), ([0x21, 2], .setCrc .crc2), ([0x22], .getChannel), ([0x23, 200], .setChannel 200),
    ([0x24], .getDataRate), ([0x25, 2], .setDataRate .r250K), ([0x26], .getOutputPower), ([0x27, 3], .setOutputPower .pm18),
    ([0x28], .getRetryCount), ([0x29, 255], .setRetryCount 255), ([0x2A], .getRetryDelay), ([0x2B, 5], .setRetryDelay 5),
    ([0x2C, 4], .getRxBaseAddress 4), ([0x2D, 3, 0xD4, 0xC3, 0xB2, 0xA1], .setRxBaseAddress 3 0xA1B2C3D4),
    ([0x2E, 1], .getRxAddress 1), ([0x2F, 4, 5, 4, 3, 2, 1], .setRxAddress 4 0x0102030405), ([0x30], .getTxAddress),
    ([0x31, 5, 4, 3, 2, 1], .setTxAddress 0x0102030405), ([0x32, 0], .getDynPayload 0), ([0x33, 0, 1], .setDynPayload 0 true),
    ([0x34, 2], .getAutoAck 2), ([0x35, 2, 0], .setAutoAck 2 false), ([0x36, 5], .getPipeEnable 5),
    ([0x37, 5, 1], .setPipeEnable 5 true), ([0x40], .init), ([0x41], .poll),
    ([0x42, 0, 2, 1, 2], .enqueueData ⟨0, [1, 2]⟩),
    ([0x43, 1, 0x78, 0x56, 0x34, 0x12, 7, 0, 0, 0], .setRxCallback (some ⟨0x12345678, 7⟩)), ([0x44, 0], .setTxCallback none) ]

theorem test_host_words_decode :
    ∀ x ∈ hostWordsA ++ hostWordsB, decode Config.standard .host x.1 = .ok (x.2, []) := by decide

theorem test_host_words_encode : ∀ x ∈ hostWordsA ++ hostWordsB, encode Config.standard x.2 = (.host, x.1) := by decide

/-- 30_encoding.md R113, R119, R120: undefined numbers and operands outside their sets; a wider register address is masked. -/
theorem test_other_requests_are_refused :
    (∀ b ∈ ([0x0B, 0x0F, 0x16, 0x1F, 0x38, 0x3F, 0x45, 0xFF] : List Byte),
        decode Config.standard .host [b, 0, 0] = .error (.noOperation b))
      ∧ (∀ bs ∈ ([[0x21, 3], [0x25, 3], [0x27, 4], [0x33, 0, 2], [0x02, 33], [0x14, 8]] : List (List Byte)),
        decode Config.standard .host bs = .error .badOperand)
      ∧ decode Config.standard .host [0x01, 0x05] = .error .truncated
      ∧ decode Config.standard .host [0x00, 0x25, 1] = .ok (.rpReadRegister 0x05 1, []) := by decide

/-! ### One step of every instruction -/

/-- What a completed instruction adds to the trace, and its result. -/
def observed (i : Instr) (s : State) : Option (List Event × Option Result) :=
  match exec i s with
  | .next t => some (t.trace.drop s.trace.length, t.results.getLast?)
  | .fault _ => none
  | .refused _ => none

/-- A state after the reset, its peer and block changed. -/
def with' (p : Peer → Peer) (b : Block → Block) : State :=
  { State.reset with peer := p State.reset.peer, blk := b State.reset.blk }

/-- After the reset, but a register of the peer holds these bytes. -/
def holding (a : Reg) (bs : List Byte) : State := with' (fun p => { p with mem := Memory.writeReg Codes.standard p.mem a bs }) id

/-- After the reset, but the RX FIFO holds one payload and RX_DR is set. -/
def received (e : RxEntry) (b : Block → Block) : State := with' (fun p => { p with rxDr := true, rxf := [e] }) b

/-- A registration. -/
def someone : Callback := ⟨0xF, 0xC⟩

-- 95_test_vectors.md B2, as bare transactions
theorem test_r_register : observed (.rRegister 0x05 3) (holding 0x05 [0x4C])
    = some ([.xfer [0x05, 0xFF, 0xFF, 0xFF] [0x0E, 0x4C, 0, 0]], none) := by decide
theorem test_w_register : observed (.wRegister 0x07 [0x40]) (with' (fun p => { p with rxDr := true }) id)
    = some ([.xfer [0x27, 0x40] [0x4E, 0]], none) := by decide
theorem test_r_rx_pl_wid : observed .rRxPlWid (received ⟨4, 2, [7, 8]⟩ id)
    = some ([.xfer [0x60, 0xFF] [0x48, 2]], none) := by decide
theorem test_r_rx_payload : observed (.rRxPayload 2) (received ⟨4, 2, [7, 8]⟩ id)
    = some ([.xfer [0x61, 0xFF, 0xFF] [0x48, 7, 8]], none) := by decide
theorem test_w_tx_payload : observed (.wTxPayload [0x11]) State.reset = some ([.xfer [0xA0, 0x11] [0x0E, 0]], none) := by
  decide
theorem test_w_ack_payload : observed (.wAckPayload 1 [0x55]) State.reset
    = some ([.xfer [0xA9, 0x55] [0x0E, 0]], none) := by decide
theorem test_w_tx_payload_noack : observed (.wTxPayloadNoack [9]) State.reset
    = some ([.xfer [0xB0, 9] [0x0E, 0]], none) := by decide
theorem test_flush_tx : observed .flushTx (with' (fun p => { p with maxRt := true }) id)
    = some ([.xfer [0xE1] [0x1E]], none) := by decide
theorem test_flush_rx : observed .flushRx (received ⟨4, 2, [7, 8]⟩ id) = some ([.xfer [0xE2] [0x48]], none) := by decide
theorem test_reuse_tx_pl : observed .reuseTxPl State.reset = some ([.xfer [0xE3] [0x0E]], none) := by decide
theorem test_nop : observed .nop State.reset = some ([.xfer [0xFF] [0x0E]], none) := by decide

-- 95_test_vectors.md B2
theorem test_rp_read_register : observed (.rpReadRegister 0x0A 5) State.reset
    = some ([.xfer [0x0A, 0xFF, 0xFF, 0xFF, 0xFF, 0xFF] [0x0E, 0xE7, 0xE7, 0xE7, 0xE7, 0xE7]],
      some (.statusBytes 0x0E [0xE7, 0xE7, 0xE7, 0xE7, 0xE7])) := by decide
theorem test_rp_write_register : observed (.rpWriteRegister 0x07 [0x40]) (with' (fun p => { p with rxDr := true }) id)
    = some ([.xfer [0x27, 0x40] [0x4E, 0]], some (.status 0x4E)) := by decide
theorem test_rp_read_payload : observed (.rpReadPayload 2) (received ⟨4, 2, [7, 8]⟩ id)
    = some ([.xfer [0x61, 0xFF, 0xFF] [0x48, 7, 8]], some (.statusBytes 0x48 [7, 8])) := by decide
theorem test_rp_write_payload : observed (.rpWritePayload [0x11]) State.reset
    = some ([.xfer [0xA0, 0x11] [0x0E, 0]], some (.status 0x0E)) := by decide
theorem test_rp_flush_rx : observed .rpFlushRx (received ⟨4, 2, [7, 8]⟩ id)
    = some ([.xfer [0xE2] [0x48]], some (.status 0x48)) := by decide
theorem test_rp_flush_tx : observed .rpFlushTx State.reset = some ([.xfer [0xE1] [0x0E]], some (.status 0x0E)) := by decide
theorem test_rp_reuse_tx_pl : observed .rpReuseTxPl State.reset = some ([.xfer [0xE3] [0x0E]], some (.status 0x0E)) := by
  decide
theorem test_rp_read_payload_width : observed .rpReadPayloadWidth (received ⟨4, 2, [7, 8]⟩ id)
    = some ([.xfer [0x60, 0xFF] [0x48, 2]], some (.statusWidth 0x48 2)) := by decide
theorem test_rp_write_ack_payload : observed (.rpWriteAckPayload 7 [1]) State.reset
    = some ([.xfer [0xAF, 1] [0x0E, 0]], some (.status 0x0E)) := by decide
theorem test_rp_write_noack_payload : observed (.rpWriteNoackPayload [9]) State.reset
    = some ([.xfer [0xB0, 9] [0x0E, 0]], some (.status 0x0E)) := by decide
theorem test_rp_nop : observed .rpNop (with' (fun p => { p with txf := List.replicate 3 ⟨.plain, [0]⟩ }) id)
    = some ([.xfer [0xFF] [0x0F]], some (.status 0x0F)) := by decide

-- 95_test_vectors.md B3
theorem test_enter_shutdown : observed .enterShutdown (holding 0x00 [0x7F])
    = some ([.ce false, .xfer [0x00, 0xFF] [0x0E, 0x7F], .xfer [0x20, 0x7D] [0x0E, 0]], some .ok) := by decide
theorem test_enter_standby : observed .enterStandby (holding 0x00 [0x0B])
    = some ([.ce false, .xfer [0x00, 0xFF] [0x0E, 0x0B], .xfer [0x20, 0x0B] [0x0E, 0]], some .ok) := by decide
theorem test_enter_rx : observed .enterRx (holding 0x00 [0x7C])
    = some ([.xfer [0x00, 0xFF] [0x0E, 0x7C], .xfer [0x20, 0x7F] [0x0E, 0], .ce true, .dly 130], some .ok) := by decide
theorem test_enter_tx : observed .enterTx (holding 0x00 [0x7D])
    = some ([.xfer [0x00, 0xFF] [0x0E, 0x7D], .xfer [0x20, 0x7E] [0x0E, 0], .ce true, .dly 130], some .ok) := by decide
/-- 10_state.md R21: the coding of the mode. -/
theorem test_mode_numbers :
    [Mode.shutDown, .standby, .rx, .tx].map Mode.number = [0, 1, 2, 3] := by decide

/-- 10_state.md R43: bits 7:4 and 3:0 of OBSERVE_TX. -/
theorem test_observe_tx_fields :
    lostPackets Codes.standard 0x5A = 5 ∧ retransmissions Codes.standard 0x5A = 10 := by decide

/-- 10_state.md R38: a configuration that moves the bits of the pipes moves what the operations write. -/
theorem test_pipe_bits_follow_the_configuration :
    observed (.setAutoAck 0 false) { State.reset with
        cfg := { Config.standard with codes := { Codes.standard with mEnAaP := #v[0x20, 0x10, 0x08, 0x04, 0x02, 0x01] } } }
      = some ([.xfer [0x01, 0xFF] [0x0E, 0x3F], .xfer [0x21, 0x1F] [0x0E, 0]], some .ok) := by decide

-- 95_test_vectors.md A10
theorem test_start_listening : observed (.startListening 0) State.reset
    = some ([.xfer [0x1C, 0xFF] [0x0E, 0], .xfer [0x3C, 1] [0x0E, 0], .xfer [0x01, 0xFF] [0x0E, 0x3F],
        .xfer [0x21, 0x3F] [0x0E, 0], .xfer [0x02, 0xFF] [0x0E, 3], .xfer [0x22, 3] [0x0E, 0]], some .ok) := by
  decide +kernel
theorem test_stop_listening : observed (.stopListening 0) (holding 0x1C [0x01])
    = some ([.xfer [0x1C, 0xFF] [0x0E, 1], .xfer [0x3C, 0] [0x0E, 0], .xfer [0x01, 0xFF] [0x0E, 0x3F],
        .xfer [0x21, 0x3E] [0x0E, 0], .xfer [0x02, 0xFF] [0x0E, 3], .xfer [0x22, 2] [0x0E, 0]], some .ok) := by
  decide +kernel
theorem test_pipe_6_is_refused : observed (.startListening 6) State.reset = some ([], some .fail)
    ∧ observed (.stopListening 7) State.reset = some ([], some .fail) := by decide

-- 95_test_vectors.md A2 to A5, B4
theorem test_get_crc : observed .getCrc (holding 0x00 [0x04])
    = some ([.xfer [0x00, 0xFF] [0x0E, 0x04]], some (.crc .disabled)) := by decide
theorem test_set_crc : observed (.setCrc .crc2) (holding 0x00 [0x0B])
    = some ([.xfer [0x00, 0xFF] [0x0E, 0x0B], .xfer [0x20, 0x0F] [0x0E, 0]], some .ok) := by decide
theorem test_get_channel : observed .getChannel (holding 0x05 [0xCC])
    = some ([.xfer [0x05, 0xFF] [0x0E, 0xCC]], some (.channel 76)) := by decide
theorem test_set_channel : observed (.setChannel 127) State.reset = some ([.xfer [0x25, 0x7F] [0x0E, 0]], some .ok) := by
  decide
theorem test_set_channel_ignores_128 : observed (.setChannel 128) State.reset = some ([], some .ok) := by decide
theorem test_get_data_rate : observed .getDataRate (holding 0x06 [0x26])
    = some ([.xfer [0x06, 0xFF] [0x0E, 0x26]], some (.rate .r250K)) := by decide
theorem test_get_data_rate_reserved : observed .getDataRate (holding 0x06 [0x28])
    = some ([.xfer [0x06, 0xFF] [0x0E, 0x28]], some .fail) := by decide
theorem test_set_data_rate : observed (.setDataRate .r250K) State.reset
    = some ([.xfer [0x06, 0xFF] [0x0E, 0x0E], .xfer [0x26, 0x26] [0x0E, 0]], some .ok) := by decide
theorem test_get_output_power : observed .getOutputPower (holding 0x06 [0x22])
    = some ([.xfer [0x06, 0xFF] [0x0E, 0x22]], some (.power .pm12)) := by decide
theorem test_set_output_power : observed (.setOutputPower .pm6) (holding 0x06 [0x26])
    = some ([.xfer [0x06, 0xFF] [0x0E, 0x26], .xfer [0x26, 0x24] [0x0E, 0]], some .ok) := by decide
theorem test_get_retry_count : observed .getRetryCount (holding 0x04 [0x5A])
    = some ([.xfer [0x04, 0xFF] [0x0E, 0x5A]], some (.retry 10)) := by decide
theorem test_set_retry_count : observed (.setRetryCount 16) State.reset
    = some ([.xfer [0x04, 0xFF] [0x0E, 0x03], .xfer [0x24, 0x0F] [0x0E, 0]], some .ok) := by decide
theorem test_get_retry_delay : observed .getRetryDelay (holding 0x04 [0x5A])
    = some ([.xfer [0x04, 0xFF] [0x0E, 0x5A]], some (.retry 5)) := by decide
theorem test_set_retry_delay : observed (.setRetryDelay 5) (holding 0x04 [0x0F])
    = some ([.xfer [0x04, 0xFF] [0x0E, 0x0F], .xfer [0x24, 0x5F] [0x0E, 0]], some .ok) := by decide
theorem test_get_rx_base_address : observed (.getRxBaseAddress 4) (holding 0x0B [0xC2, 0xD4, 0xC3, 0xB2, 0xA1])
    = some ([.xfer [0x0B, 0xFF, 0xFF, 0xFF, 0xFF, 0xFF] [0x0E, 0xC2, 0xD4, 0xC3, 0xB2, 0xA1]],
      some (.base 0xA1B2C3D4)) := by decide
theorem test_set_rx_base_address : observed (.setRxBaseAddress 3 0xA1B2C3D4) State.reset
    = some ([.xfer [0x0B, 0xFF, 0xFF, 0xFF, 0xFF, 0xFF] [0x0E, 0xC2, 0xC2, 0xC2, 0xC2, 0xC2],
        .xfer [0x2B, 0xC2, 0xD4, 0xC3, 0xB2, 0xA1] [0x0E, 0, 0, 0, 0, 0]], some .ok) := by decide
theorem test_get_rx_address : observed (.getRxAddress 5) (holding 0x0B [0xC2, 0xD4, 0xC3, 0xB2, 0xA1])
    = some ([.xfer [0x0B, 0xFF, 0xFF, 0xFF, 0xFF, 0xFF] [0x0E, 0xC2, 0xD4, 0xC3, 0xB2, 0xA1],
        .xfer [0x0F, 0xFF] [0x0E, 0xC6]], some (.addr 0xA1B2C3D4C6)) := by decide
theorem test_set_rx_address_suffix : observed (.setRxAddress 4 0x01020304AB) State.reset
    = some ([.xfer [0x2E, 0xAB] [0x0E, 0]], some .ok) := by decide
theorem test_set_rx_address : observed (.setRxAddress 1 0x0102030405) State.reset
    = some ([.xfer [0x2B, 5, 4, 3, 2, 1] [0x0E, 0, 0, 0, 0, 0]], some .ok) := by decide
theorem test_get_tx_address : observed .getTxAddress (holding 0x10 [5, 4, 3, 2, 1])
    = some ([.xfer [0x10, 0xFF, 0xFF, 0xFF, 0xFF, 0xFF] [0x0E, 5, 4, 3, 2, 1]], some (.addr 0x0102030405)) := by decide
theorem test_set_tx_address : observed (.setTxAddress 0x0102030405) State.reset
    = some ([.xfer [0x30, 5, 4, 3, 2, 1] [0x0E, 0, 0, 0, 0, 0]], some .ok) := by decide
theorem test_get_dyn_payload : observed (.getDynPayload 0) (holding 0x1C [0x01])
    = some ([.xfer [0x1C, 0xFF] [0x0E, 0x01]], some (.flag true)) := by decide
theorem test_set_dyn_payload : observed (.setDynPayload 0 true) State.reset
    = some ([.xfer [0x1C, 0xFF] [0x0E, 0], .xfer [0x3C, 1] [0x0E, 0]], some .ok) := by decide
theorem test_get_auto_ack : observed (.getAutoAck 2) (holding 0x01 [0x3B])
    = some ([.xfer [0x01, 0xFF] [0x0E, 0x3B]], some (.flag false)) := by decide
theorem test_set_auto_ack : observed (.setAutoAck 2 false) State.reset
    = some ([.xfer [0x01, 0xFF] [0x0E, 0x3F], .xfer [0x21, 0x3B] [0x0E, 0]], some .ok) := by decide
theorem test_get_pipe_enable : observed (.getPipeEnable 4) (holding 0x02 [0x23])
    = some ([.xfer [0x02, 0xFF] [0x0E, 0x23]], some (.flag false)) := by decide
theorem test_set_pipe_enable : observed (.setPipeEnable 5 true) State.reset
    = some ([.xfer [0x02, 0xFF] [0x0E, 0x03], .xfer [0x22, 0x23] [0x0E, 0]], some .ok) := by decide

-- 95_test_vectors.md B5, A7, C5
theorem test_init : observed .init (holding 0x1D [0xFB])
    = some ([.xfer [0x1D, 0xFF] [0x0E, 0xFB], .xfer [0x3D, 0xFC] [0x0E, 0], .xfer [0x27, 0x70] [0x0E, 0],
        .xfer [0xE2] [0x0E], .xfer [0xE1] [0x0E]], some .ok) := by decide +kernel

/-- Everything at once (95_test_vectors.md C5). -/
def everythingAtOnce : State :=
  { with' (fun p => { p with txf := [⟨.plain, [0x11]⟩, ⟨.plain, [0x22]⟩] })
      (fun b => { b with rxCb := some ⟨1, 2⟩, txCb := some someone, txq := [⟨0, [0x55, 0x66]⟩] }) with
    env := { Env.quiet with radio := [[.txDone, .maxRt, .rxArrive 2 2 [0xDE, 0xAD]]] } }

theorem test_poll_everything : observed .poll everythingAtOnce
    = some ([.xfer [0xFF] [0x74], .xfer [0x60, 0xFF] [0x74, 2], .xfer [0x61, 0xFF, 0xFF] [0x74, 0xDE, 0xAD],
        .xfer [0x27, 0x40] [0x7E, 0], .cbTx 0xF 0xC, .xfer [0x27, 0x20] [0x3E, 0], .xfer [0xE1] [0x1E],
        .xfer [0x27, 0x10] [0x1E, 0], .cbRx 1 2 ⟨2, [0xDE, 0xAD]⟩, .xfer [0xA0, 0x55, 0x66] [0x0E, 0, 0]],
      some .ok) := by decide +kernel

/-- 95_test_vectors.md B5: an L0 peer that answers 0xFF to everything. -/
theorem test_poll_any_peer : observed .poll
    { with' id (fun b => { b with rxCb := some ⟨1, 2⟩, txCb := some someone, txq := [⟨0, [0x44]⟩] }) with
      env := { Env.quiet with level := .any, answers := List.replicate 7 [0xFF, 0xFF] } }
    = some ([.xfer [0xFF] [0xFF], .xfer [0x60, 0xFF] [0xFF, 0xFF], .xfer [0xE2] [0xFF], .xfer [0x27, 0x40] [0xFF, 0xFF],
        .cbTx 0xF 0xC, .xfer [0x27, 0x20] [0xFF, 0xFF], .xfer [0xE1] [0xFF], .xfer [0x27, 0x10] [0xFF, 0xFF]],
      some .ok) := by decide +kernel

theorem test_enqueue_data :
    observed (.enqueueData ⟨0, [4]⟩) (with' id (fun b => { b with txq := List.replicate 3 ⟨0, [3]⟩ })) = some ([], some .ok)
      ∧ observed (.enqueueData ⟨0, [4]⟩) (with' id (fun b => { b with txq := List.replicate 4 ⟨0, [3]⟩ }))
        = some ([], some .fail) := by decide
theorem test_set_rx_callback : (match exec (.setRxCallback (some someone)) State.reset with
    | .next t => t.blk.rxCb == some someone && t.blk.txCb == none
    | _ => false) = true := by decide
theorem test_set_tx_callback : (match exec (.setTxCallback none) (with' id (fun b => { b with txCb := some someone })) with
    | .next t => t.blk.txCb == none
    | _ => false) = true := by decide

/-- A word of the table is run by the very next step (log 1, log 16). -/
theorem test_table_words_run :
    decodeTableWord 8 0x41 = some .poll ∧ decodeTableWord 8 0x07 = some .rpReadPayloadWidth
      ∧ decodeTableWord 8 0x0B = some (.rRegister 0x0B 0) ∧ decodeTableWord 8 0xB0 = some (.wTxPayloadNoack []) := by decide

theorem test_the_next_step_runs_the_word : step (State.reset.withFetchWord 8 0x22) = exec .getChannel State.reset := rfl

/-- 30_encoding.md R106: with the match and the mask of NOP at 0xF0, an opcode byte is NOP when its high half is 0xF, and the
block still sends the base. -/
theorem test_match_and_mask_are_configuration :
    let c := { Config.standard with codes := { Codes.standard with patNop := ⟨0xF0, 0xF0⟩ } }
    c.ok = true ∧ decode c .wire [0xF3] = .ok (.nop, []) ∧ (encode c .nop).2 = [0xFF] := by decide

/-! ### Witnesses: for every statement with premises, states and operands that meet them all -/

/-- The outcome is a next state. -/
def isNext (o : Host.Outcome State Fault Refusal) : Bool :=
  match o with
  | .next _ => true
  | .fault _ => false
  | .refused _ => false

theorem exists_next {o : Host.Outcome State Fault Refusal} (h : isNext o = true) : ∃ t, o = .next t := by
  cases o with
  | next t => exact ⟨t, rfl⟩
  | fault _ => exact absurd h Bool.false_ne_true
  | refused _ => exact absurd h Bool.false_ne_true

/-- After the reset, with this presented. -/
def presented (is : List Input) : State := { State.reset with inbox := is }

/-- After the reset, with a peer of this level and these moves to come. -/
def facing (lv : PeerLevel) (radio : List (List Move)) : State :=
  { State.reset with env := { Env.quiet with level := lv, radio := radio } }

/-- Busy with a POLL whose second event is next. -/
def busy : State := with' id (fun b => { b with seq := .busy .poll 2, mode := .rx, rxq := [⟨0, [1]⟩] })

theorem witness_ResetGivesTheResetValues :
    ∀ s ∈ [presented [.reset], { busy with inbox := [.reset] }],
      s.cfg.ok = true ∧ s.inbox = .reset :: [] := by decide

theorem witness_StepKeepsTheInvariant :
    ∀ s ∈ [presented [.op ⟨.host, [0x41], none⟩], { everythingAtOnce with inbox := [.op ⟨.host, [0x41], some 3⟩] },
        { busy with inbox := [.reset] }],
      s.Inv ∧ isNext (step s) = true := by decide +kernel

theorem witness_StepRunsTheDecodedInstruction :
    (presented [.op ⟨.host, [0x41, 9], none⟩]).cfg.ok = true
      ∧ (presented [.op ⟨.host, [0x41, 9], none⟩]).inbox = .op ⟨.host, [0x41, 9], none⟩ :: []
      ∧ decode Config.standard .host [0x41, 9] = .ok (.poll, [9]) := by decide

/-- After the reset, but with these codes. -/
def coded (f : Codes → Codes) : State := { State.reset with cfg := { Config.standard with codes := f Codes.standard } }

theorem witness_BrokenConfigurationIsRefused :
    (¬ ((coded (fun c => { c with opcNop := 0x61, patNop := ⟨0x61, 0xFF⟩ })).cfg.codes.wireTable.Pairwise
        fun r q => ∀ b : Byte, ¬ (r.hits b = true ∧ q.hits b = true)))
      ∧ (let c := (coded (fun c => { c with patNop := ⟨0xFE, 0xFF⟩ })).cfg.codes
        c.wireLookup (c.opcodeOf .nop) ≠ some .nop)
      ∧ (coded (fun c => { c with opcRRegister := 0x01 })).cfg.codes.opcRRegister &&& 0x1F ≠ 0
      ∧ (coded (fun c => { c with opcWRegister := 0x30 })).cfg.codes.opcWRegister &&& 0x1F ≠ 0
      ∧ (coded (fun c => { c with opcWAckPayload := 0xAC })).cfg.codes.opcWAckPayload &&& 0x07 ≠ 0
      ∧ (coded (fun c => { c with mTxDs := 0x40 })).cfg.codes.mRxDr = (coded (fun c => { c with mTxDs := 0x40 })).cfg.codes.mTxDs
      ∧ (coded (fun c => { c with mTxDs := 0x10 })).cfg.codes.mTxDs = (coded (fun c => { c with mTxDs := 0x10 })).cfg.codes.mMaxRt
      ∧ (coded (fun c => { c with mMaxRt := 0x40 })).cfg.codes.mRxDr = (coded (fun c => { c with mMaxRt := 0x40 })).cfg.codes.mMaxRt
      ∧ (coded (fun c => { c with mTxFull := 0x10 })).cfg.codes.mMaxRt &&& 0x10 ≠ 0 := by
  refine ⟨fun h => ?_, by decide⟩
  have h1 := (List.pairwise_iff_getElem.1 h) 3 10 (by decide) (by decide) (by decide) 0x61
  exact h1 (by decide)

theorem witness_BusyBlockAcceptsNothing :
    busy.blk.seq ≠ .idle ∧ busy.cfg.ok = true ∧ busy.inbox = []
      ∧ State.reset.cfg.ok = true ∧ State.reset.inbox = [] ∧ State.reset.blk.seq = .idle := by decide

theorem witness_UnknownOperationGivesFail :
    ∀ hop ∈ ([0x0B, 0x0F, 0x16, 0x1F, 0x38, 0x3F, 0x45, 0xFF] : List Byte),
      let s := presented [.op ⟨.host, [hop, 1], none⟩]
      s.cfg.ok = true ∧ s.blk.seq = .idle ∧ s.inbox = .op ⟨.host, [hop, 1], none⟩ :: []
        ∧ ¬ (hop ≤ 0x0A ∨ (0x10 ≤ hop ∧ hop ≤ 0x15) ∨ (0x20 ≤ hop ∧ hop ≤ 0x37) ∨ (0x40 ≤ hop ∧ hop ≤ 0x44)) := by decide

theorem witness_RefusedOperandsChangeNothing :
    State.reset.blk.seq = .idle
      ∧ (IsHost Config.standard (.rpReadPayload 33) ∧ (Instr.rpReadPayload 33).wf Config.standard = false)
      ∧ (IsHost Config.standard (.setAutoAck 6 true) ∧ checkedPipe (.setAutoAck 6 true) = some 6)
      ∧ (IsHost Config.standard (.startListening 7) ∧ checkedPipe (.startListening 7) = some 7)
      ∧ (∀ i ∈ [Instr.setRxCallback (some ⟨2 ^ 32, 0⟩), .setTxCallback (some ⟨0, 2 ^ 32⟩)],
          IsHost Config.standard i ∧ i.wf Config.standard = false)
      ∧ (IsWire Config.standard (.wTxPayload tooMany) ∧ (Instr.wTxPayload tooMany).wf Config.standard = false) := by decide

theorem witness_EveryHostOperationCompletes :
    IsHost Config.standard .poll ∧ (facing .any []).Ready ∧ IsHost Config.standard (.setTxAddress 1) ∧ everythingAtOnce.Ready := by
  decide

theorem witness_HostOperationsReadBack :
    ∀ i ∈ [Instr.rpWriteRegister 31 asManyAsFit, .setRxCallback (some ⟨2 ^ 32 - 1, 2 ^ 32 - 1⟩), .enqueueData ⟨7, []⟩,
        .setTxAddress (BitVec.allOnes 40)],
      i.wf Config.standard = true ∧ IsHost Config.standard i := by decide

theorem witness_WireCommandsReadBack :
    Config.standard.ok = true ∧ ∀ i ∈ [Instr.wRegister 31 asManyAsFit, .rRegister 0 0, .wAckPayload 7 asManyAsFit, .nop],
      i.wf Config.standard = true ∧ IsWire Config.standard i := by decide

theorem witness_FramesReadAreTheCommandsOwn :
    Config.standard.ok = true ∧ decode Config.standard .wire [0x05, 0xFF] = .ok (.rRegister 5 1, [])
      ∧ (∀ b ∈ [0x05, 0xFF].tail, b = fill) ∧ decode Config.standard .wire [0x3F, 1] = .ok (.wRegister 31 [1], [])
      ∧ decode Config.standard .wire [0xFF] = .ok (.nop, []) ∧ MasksFollowLayouts Config.standard.codes := by decide

theorem witness_WireCommandIsOneTransaction :
    ∀ i ∈ [Instr.rRegister 31 32, .wTxPayload asManyAsFit, .wAckPayload 6 [], .flushRx],
      IsWire Config.standard i ∧ i.wf Config.standard = true ∧ State.reset.Ready ∧ State.reset.PeerKeepsContract
        ∧ (facing .any []).Ready ∧ (facing .any []).env.level = .any := by decide

theorem witness_of_the_reference_peer_statements :
    Config.standard.codes = Codes.standard ∧ Memory.wf Codes.standard State.reset.peer.mem = true
      ∧ Memory.wf Codes.standard (holding 0x0A [1, 2, 3, 4, 5]).peer.mem = true := by decide

theorem witness_StatusComesFirst : Config.standard.codes = Codes.standard := rfl

theorem witness_ReferencePeerReadsRegisters : Config.standard.codes = Codes.standard := rfl

theorem witness_ReferencePeerWritesRegisters :
    Config.standard.codes = Codes.standard ∧ Memory.wf Codes.standard (holding 0x0A [1, 2, 3, 4, 5]).peer.mem = true := by decide

theorem witness_ReferencePeerMovesPayloads : Config.standard.codes = Codes.standard := rfl

theorem witness_ReferencePeerRunsCommands :
    Config.standard.codes = Codes.standard ∧ ∀ op ∈ ([0x40, 0x5F, 0x62, 0x9F, 0xA1, 0xA7, 0xB1, 0xE0, 0xE4, 0xFE] : List Byte),
      (0x40 ≤ op ∧ op ≤ 0x5F ∨ 0x62 ≤ op ∧ op ≤ 0x9F ∨ 0xA1 ≤ op ∧ op ≤ 0xA7 ∨ 0xB1 ≤ op ∧ op ≤ 0xE0
        ∨ 0xE4 ≤ op ∧ op ≤ 0xFE) := by decide

theorem witness_RadioMovesDoWhatTheyMay :
    Config.standard.codes = Codes.standard ∧ Memory.wf Codes.standard everythingAtOnce.peer.mem = true
      ∧ (5 : Pipe).toNat ≤ 5 ∧ asManyAsFit.length = min (255 : Byte).toNat 32 ∧ ([] : List Byte).length = min (0 : Byte).toNat 32
      ∧ everythingAtOnce.peer.rxf.length < Config.standard.fifoDepth ∧ everythingAtOnce.peer.txf ≠ [] := by decide

theorem witness_StatusFlagsAreWriteOneToClear :
    ∀ s ∈ [everythingAtOnce, facing .contract [[.txDone]]],
      s.Ready ∧ s.PeerKeepsContract ∧ s.cfg.codes = Codes.standard := by decide

/-- A state of each level: Ready, and with the premises of the peer's part of a statement where the level has them. -/
abbrev ReadyAtEveryLevel : Prop :=
  (∀ s ∈ [State.reset, facing .contract [[.observe 0x12], [.rxArrive 5 32 asManyAsFit]], facing .contract [[], []]],
      s.Ready ∧ s.FaithfulPeer ∧ s.KeepsPower)
    ∧ (∀ s ∈ [State.reset, facing .contract [[], []]], s.RadioQuiet)
    ∧ (facing .any []).Ready ∧ (facing .any []).env.level = .any

theorem readyAtEveryLevel : ReadyAtEveryLevel := by decide

theorem witness_PlainRegistersReadBack :
    ReadyAtEveryLevel
      ∧ ([0x4C] : List Byte).length = 1
      ∧ (0x1D : Reg) ∈ ([0x00, 0x01, 0x02, 0x04, 0x05, 0x06, 0x0C, 0x0D, 0x0E, 0x0F, 0x1C, 0x1D] : List Reg)
      ∧ ([1, 2, 3, 4, 5] : List Byte).length = 5 ∧ (0x10 : Reg) ∈ ([0x0A, 0x0B, 0x10] : List Reg) := by decide

theorem witness_ReadsAndFlushesActOnThePeer :
    ∀ s ∈ [everythingAtOnce, facing .contract [[.txDone]]],
      s.Ready ∧ s.PeerKeepsContract ∧ s.cfg.codes = Codes.standard := by decide

theorem witness_RpReadsReturnWhatWasReceived : ReadyAtEveryLevel := readyAtEveryLevel
theorem witness_RpWritesSendTheBytes : ReadyAtEveryLevel ∧ asManyAsFit.length ≤ 32 := by decide
theorem witness_RpCommandsReturnTheStatus : ReadyAtEveryLevel := readyAtEveryLevel
theorem witness_EnterShutdownAndStandby : ReadyAtEveryLevel := readyAtEveryLevel
theorem witness_EnterRxAndTx : ReadyAtEveryLevel := readyAtEveryLevel
theorem witness_ListeningTogglesThreeBits :
    ReadyAtEveryLevel ∧ BitPerPipe State.reset.cfg.codes ∧ (0 : Pipe).toNat ≤ 5 ∧ (5 : Pipe).toNat ≤ 5
      ∧ 6 ≤ (6 : Pipe).toNat ∧ 6 ≤ (7 : Pipe).toNat :=
  ⟨readyAtEveryLevel, bitPerPipe_standard, by decide⟩

/-- The instruction completes. -/
def completes (i : Instr) (s : State) : Bool :=
  match exec i s with
  | .next t => t.blk.seq == .idle
  | .fault _ => false
  | .refused _ => false

/-- After the reset, but only the first `n` calls return. -/
def returning (n : Nat) : State := { State.reset with env := { Env.quiet with allow := some n } }

/-- ENTER_RX cut short at its first exchange, its second, and its delay; with three calls it completes. -/
theorem witness_OnlyEnterChangesTheMode :
    enterMode .enterRx = some .rx ∧ State.reset.Ready ∧ enterMode .poll = none ∧ isNext (exec .poll everythingAtOnce) = true
      ∧ (∀ n ∈ [0, 1, 2], isNext (exec .enterRx (returning n)) = true ∧ completes .enterRx (returning n) = false)
      ∧ completes .enterRx (returning 3) = true := by
  decide +kernel

/-- After the reset, but the mode says RX: the mirror does not hold. -/
def unmirrored : State := with' id (fun b => { b with mode := .rx })

theorem witness_MirrorIsKept :
    State.reset.Mirror ∧ enterMode .enterStandby ≠ none
      ∧ ∀ x ∈ [(Instr.poll, State.reset), (.enterRx, State.reset), (.setCrc .crc2, State.reset), (.enterStandby, unmirrored)],
        x.2.cfg.codes = Codes.standard ∧ x.2.env.level = .reference ∧ Memory.wf x.2.cfg.codes x.2.peer.mem = true
          ∧ x.2.KeepsPower ∧ writesConfig x.2.cfg.codes x.1 = false ∧ completes x.1 x.2 = true :=
  ⟨⟨rfl, by decide⟩, by decide, by decide +kernel⟩

theorem witness_ListeningIsThreeSets : ReadyAtEveryLevel ∧ (0 : Pipe).toNat ≤ 5 ∧ (5 : Pipe).toNat ≤ 5 := by decide
theorem witness_CrcIsReadAndSet : ReadyAtEveryLevel := readyAtEveryLevel
theorem witness_ChannelIsReadAndSet :
    ReadyAtEveryLevel ∧ State.reset.cfg.codes.mRfCh = 0x7F ∧ (127 : Byte).toNat ≤ 127 ∧ 127 < (128 : Byte).toNat := by decide
theorem witness_DataRateIsReadAndSet : ReadyAtEveryLevel := readyAtEveryLevel
theorem witness_OutputPowerIsReadAndSet : ReadyAtEveryLevel ∧ State.reset.cfg.codes.mRfPwr = 0x06 := by decide
theorem witness_RetriesAreReadAndClipped :
    ReadyAtEveryLevel ∧ State.reset.cfg.codes.mArc = 0x0F ∧ State.reset.cfg.codes.mArd = 0xF0 := by decide
theorem witness_BaseAddressIsReadAndSet :
    ReadyAtEveryLevel ∧ (0 : Pipe).toNat ≤ 5 ∧ (5 : Pipe).toNat ≤ 5 ∧ 6 ≤ (6 : Pipe).toNat ∧ 6 ≤ (7 : Pipe).toNat := by decide
theorem witness_RxAddressIsReadAndSet :
    ReadyAtEveryLevel ∧ (1 : Pipe).toNat ≤ 1 ∧ 2 ≤ (2 : Pipe).toNat ∧ (5 : Pipe).toNat ≤ 5 ∧ 6 ≤ (6 : Pipe).toNat := by decide
theorem witness_TxAddressIsReadAndSet : ReadyAtEveryLevel := readyAtEveryLevel
theorem witness_PipeBitsAreRead :
    ReadyAtEveryLevel ∧ BitPerPipe State.reset.cfg.codes ∧ (0 : Pipe).toNat ≤ 5 ∧ (5 : Pipe).toNat ≤ 5
      ∧ 6 ≤ (6 : Pipe).toNat ∧ 6 ≤ (7 : Pipe).toNat :=
  ⟨readyAtEveryLevel, bitPerPipe_standard, by decide⟩
theorem witness_PipeBitsAreSet :
    ReadyAtEveryLevel ∧ BitPerPipe State.reset.cfg.codes ∧ (0 : Pipe).toNat ≤ 5 ∧ (5 : Pipe).toNat ≤ 5
      ∧ 6 ≤ (6 : Pipe).toNat ∧ 6 ≤ (7 : Pipe).toNat :=
  ⟨readyAtEveryLevel, bitPerPipe_standard, by decide⟩
theorem witness_SettingsRoundTrip : ReadyAtEveryLevel := readyAtEveryLevel
theorem witness_PipeSettingsRoundTrip : ReadyAtEveryLevel ∧ (0 : Pipe).toNat ≤ 5 ∧ (5 : Pipe).toNat ≤ 5 := by decide
theorem witness_FieldsAreIndependent :
    ReadyAtEveryLevel ∧ (0 : Pipe).toNat ≤ 5 ∧ (5 : Pipe).toNat ≤ 5 ∧ (0 : Pipe) ≠ 5 := by decide
theorem witness_InitPreparesThePeer : ReadyAtEveryLevel := readyAtEveryLevel
theorem witness_PollRunsItsSixSteps : ReadyAtEveryLevel := readyAtEveryLevel

/-- States of a POLL at its boundaries: nothing to do; all flags, with a width of 32; a width of 33; a full TX FIFO. -/
def pollStates : List State :=
  [ State.reset,
    with' (fun p => { p with rxDr := true, txDs := true, maxRt := true, rxf := [⟨5, 32, asManyAsFit⟩], txf := [⟨.ack 5, []⟩] })
      (fun b => { b with rxCb := some someone, txq := [⟨0, [1]⟩, ⟨7, []⟩] }),
    received ⟨0, 33, asManyAsFit⟩ (fun b => { b with rxCb := some someone }),
    with' (fun p => { p with txf := List.replicate 3 ⟨.noack, [1]⟩, txReuse := true }) (fun b => { b with txq := [⟨0, [2]⟩] }) ]

theorem witness_PollServesThePeer :
    ∀ s ∈ pollStates, s.Ready ∧ s.Inv ∧ s.FaithfulPeer ∧ s.env.level = .reference ∧ s.RadioQuiet := by decide +kernel

theorem witness_ArrivalIsDeliveredOrFlushed :
    ∀ e ∈ [(⟨0, 0, []⟩ : RxEntry), ⟨5, 32, asManyAsFit⟩, ⟨0, 33, asManyAsFit⟩, ⟨1, 255, asManyAsFit⟩],
      let s := received e (fun b => { b with rxCb := some someone })
      s.Ready ∧ s.Inv ∧ s.cfg.ok = true ∧ s.FaithfulPeer ∧ s.env.level = .reference ∧ s.RadioQuiet ∧ s.peer.rxDr = true
        ∧ s.peer.rxf = e :: [] ∧ s.blk.rxCb = some someone := by decide +kernel

theorem witness_PollIsBounded : isNext (exec .poll everythingAtOnce) = true := by decide +kernel
theorem witness_TxCallbackOnlyAfterASend : isNext (exec .poll everythingAtOnce) = true := by decide +kernel

theorem witness_EnqueueAppendsOrFails :
    ∀ n ∈ [0, 3, 4], (with' id (fun b => { b with txq := List.replicate n ⟨0, []⟩ })).blk.seq = .idle
      ∧ asManyAsFit.length ≤ 32
      ∧ ((with' id (fun b => { b with txq := List.replicate n ⟨0, []⟩ })).blk.txq.length = 4 ↔ n = 4) := by decide

theorem witness_RegistrationsAreReplaced :
    State.reset.blk.seq = .idle ∧ (2 ^ 32 - 1 < 2 ^ State.reset.cfg.cbW ∧ 0 < 2 ^ State.reset.cfg.cbW) := by decide

theorem witness_QueuesAndRegistrationsHaveTheirWriters :
    ∀ i ∈ [Instr.poll, .enqueueData ⟨0, [1]⟩, .setRxCallback none, .setTxCallback (some someone), .nop],
      isNext (exec i everythingAtOnce) = true := by decide +kernel

theorem witness_TheObservationOnlyGrows :
    ∀ i ∈ [Instr.poll, .enterRx, .nop], isNext (exec i everythingAtOnce) = true := by decide +kernel

theorem witness_EveryFrameIsACommand :
    everythingAtOnce.cfg.ok = true ∧ everythingAtOnce.Inv ∧ ∀ i ∈ [Instr.poll, .init, .wAckPayload 7 asManyAsFit],
      isNext (exec i everythingAtOnce) = true := by decide +kernel

theorem witness_HiddenStateIsNeverRead :
    AgreeButHidden State.reset (with' id (fun b =>
      { b with mode := .tx, ce := true, lastStatus := some 1, pollStatus := some 0x7F, wLat := 40, pLat := 7, vTmp := [9] })) := by
  decide

theorem witness_StepsDoNotDependOnThePeer :
    State.reset.blk = (facing .any [[.powerLoss]]).blk ∧ State.reset.cfg = (facing .any [[.powerLoss]]).cfg
      ∧ State.reset.env.allow = none ∧ (facing .any [[.powerLoss]]).env.allow = none := by decide

/-- The allowance runs out inside the POLL, or only after it. -/
theorem witness_ACutRunShowsAPrefix :
    ∀ n ∈ [0, 5, 6, 9, 10], isNext (exec .poll everythingAtOnce) = true
      ∧ isNext (exec .poll { everythingAtOnce with env := { everythingAtOnce.env with allow := some n } }) = true
      ∧ completes .poll { everythingAtOnce with env := { everythingAtOnce.env with allow := some n } } = decide (n = 10) := by
  decide +kernel

end Sys2Proof.Tests
end

section
/-! Claims about the configuration check and the step: what 00_scope.md R5 makes the step refuse, and what the step runs. -/

set_option Elab.async false

namespace Sys2Proof

/-! ### What an admissible configuration satisfies (00_scope.md R5) -/

/-- Rows without overlap match no byte in common. -/
theorem pairwise_apart_of_disjointRows {rows : List WireRow} (h : disjointRows rows = true) :
    rows.Pairwise fun r q => ∀ b : Byte, ¬ (r.hits b = true ∧ q.hits b = true) := by
  induction rows with
  | nil => exact .nil
  | cons r rows ih =>
    simp only [disjointRows, Bool.and_eq_true, List.all_eq_true] at h
    obtain ⟨hr, hrows⟩ := h
    refine .cons (fun q hq b ⟨hrb, hqb⟩ => ?_) (ih hrows)
    have hno := hr q hq
    simp [WireRow.overlaps_of_hits hrb hqb] at hno

/-- Masks without a common bit meet pairwise in nothing. -/
theorem pairwise_and_eq_zero_of_disjointMasks {ms : List Byte} (h : disjointMasks ms = true) :
    ms.Pairwise fun m q => m &&& q = 0 := by
  induction ms with
  | nil => exact .nil
  | cons m ms ih =>
    simp only [disjointMasks, Bool.and_eq_true, List.all_eq_true, beq_iff_eq] at h
    exact .cons h.1 (ih h.2)

theorem singleBit_ne_zero {m : Byte} (h : singleBit m = true) : m ≠ 0 := by
  rintro rfl
  exact absurd h (by decide)

theorem Config.status_bits_single {c : Config} (h : c.ok = true) :
    ∀ m ∈ [c.codes.mRxDr, c.codes.mTxDs, c.codes.mMaxRt, c.codes.mTxFull], singleBit m = true := by
  simp only [Config.ok, Bool.and_eq_true] at h
  obtain ⟨⟨⟨⟨⟨-, hbits⟩, -⟩, -⟩, -⟩, -⟩ := h
  exact List.all_eq_true.1 hbits

theorem Config.status_masks_apart {c : Config} (h : c.ok = true) :
    [c.codes.mRxDr, c.codes.mTxDs, c.codes.mMaxRt, c.codes.mTxFull, c.codes.mRxPNo].Pairwise
      fun m q => m &&& q = 0 := by
  simp only [Config.ok, Bool.and_eq_true] at h
  obtain ⟨⟨⟨⟨-, hmasks⟩, -⟩, -⟩, -⟩ := h
  exact pairwise_and_eq_zero_of_disjointMasks hmasks

/-- A mask that is not empty is none that it has no bit in common with. -/
theorem ne_of_and_eq_zero {m q : Byte} (hm : m ≠ 0) (h : m &&& q = 0) : m ≠ q := by
  rintro rfl
  exact hm (by rwa [BitVec.and_self] at h)

/-- The three flags of STATUS are different bits, outside RX_P_NO and TX_FULL. -/
theorem Config.status_flags_distinct {c : Config} (h : c.ok = true) :
    c.codes.mRxDr ≠ c.codes.mTxDs ∧ c.codes.mTxDs ≠ c.codes.mMaxRt ∧ c.codes.mRxDr ≠ c.codes.mMaxRt
      ∧ (c.codes.mRxDr ||| c.codes.mTxDs ||| c.codes.mMaxRt) &&& (c.codes.mRxPNo ||| c.codes.mTxFull) = 0 := by
  have hbit := c.status_bits_single h
  have hapart := c.status_masks_apart h
  simp only [List.pairwise_cons, List.forall_mem_cons] at hbit hapart
  obtain ⟨hRxDr, hTxDs, -⟩ := hbit
  obtain ⟨⟨rxTx, rxMax, rxFull, rxPipe, -⟩, ⟨txMax, txFull, txPipe, -⟩, ⟨maxFull, maxPipe, -⟩, -⟩ := hapart
  refine ⟨ne_of_and_eq_zero (singleBit_ne_zero hRxDr) rxTx, ne_of_and_eq_zero (singleBit_ne_zero hTxDs) txMax,
    ne_of_and_eq_zero (singleBit_ne_zero hRxDr) rxMax, ?_⟩
  simp [BitVec.and_or_distrib_left, BitVec.and_or_distrib_right, rxFull, rxPipe, txFull, txPipe, maxFull, maxPipe]

/-- The bases of the commands with an operand have zeros where it goes. -/
theorem Config.operand_places_empty {c : Config} (h : c.ok = true) :
    c.codes.opcRRegister &&& 0x1F = 0 ∧ c.codes.opcWRegister &&& 0x1F = 0 ∧ c.codes.opcWAckPayload &&& 0x07 = 0 :=
  have place (k : Nat) (hk : k < 11) := (c.row_ok h (List.getElem_mem (l := c.codes.wireTable) (n := k) hk)).1
  ⟨place 0 (by decide), place 1 (by decide), place 5 (by decide)⟩

end Sys2Proof

namespace Sys2Proof.Machine

open Sys2Proof

/-! ### The step -/

section
variable {s : State}

theorem step_of_bad_config (h : s.cfg.ok ≠ true) : step s = .refused .badConfig := by
  simp [step, h]

theorem step_of_empty_inbox (hok : s.cfg.ok = true) (hin : s.inbox = []) : step s = waitForHost s := by
  simp [step, hok, hin]

theorem step_of_decoded {r : Request} {rest : List Input} {i : Instr} {more : List Byte} (hok : s.cfg.ok = true)
    (hin : s.inbox = .op r :: rest) (hdec : s.decodeRequest r = .ok (i, more)) : step s = exec i (s.take r rest) := by
  simp [step, hok, hin, hdec]

theorem waitForHost_busy (h : s.blk.seq ≠ .idle) : waitForHost s = .fault .stuck := by
  simp [waitForHost, State.idle, h]

theorem waitForHost_idle (h : s.blk.seq = .idle) : waitForHost s = .next s := by
  simp [waitForHost, State.idle, h]

end

/-- Settles O6: an admissible configuration satisfies every condition of R5, so one that breaks a condition is not
admissible, and the step refuses it. -/
theorem brokenConfigurationIsRefused : Obligations.BrokenConfigurationIsRefused := by
  intro s hbroken
  refine step_of_bad_config fun hok => ?_
  obtain ⟨hr, hw, hack⟩ := Config.operand_places_empty hok
  obtain ⟨rxTx, txMax, rxMax, hmeet⟩ := Config.status_flags_distinct hok
  rcases hbroken with hrows | ⟨cmd, hcmd⟩ | h | h | h | h | h | h | h
  · exact hrows (pairwise_apart_of_disjointRows (Config.rows_disjoint hok))
  · exact hcmd (wireLookup_opcodeOf hok cmd)
  · exact h hr
  · exact h hw
  · exact h hack
  · exact rxTx h
  · exact txMax h
  · exact rxMax h
  · exact h hmeet

/-- Settles O5: the state `exec` is given is the one in which the request has been taken. -/
theorem stepRunsTheDecodedInstruction : Obligations.StepRunsTheDecodedInstruction :=
  fun _ _ _ _ _ hok hin hdec => step_of_decoded hok hin hdec

end Sys2Proof.Machine
end

section
/-! Every host operation completes: where interface calls return, so does each part of an operation, and it adds to the
observation only (`Ran`). The claims about completion and about a busy block follow from the form of `exec`. -/

set_option Elab.async false

namespace Sys2Proof.Machine

open Sys2Proof

/-! ### Parts that return -/

/-- Where every interface call returns, the part returns too, having added a run of events. -/
def Returns {α : Type} (m : Op α) : Prop :=
  ∀ s : State, s.env.allow = none → ∃ a t evs, m s = .ok a t ∧ Ran s t evs

theorem Ran.refl (s : State) : Ran s s [] := ran_onBlk s (f := id) rfl rfl

namespace Returns

theorem pure {α : Type} (a : α) : Returns (pure a : Op α) := fun s _ => ⟨a, s, [], rfl, .refl s⟩

theorem bind {α β : Type} {m : Op α} {f : α → Op β} (hm : Returns m) (hf : ∀ a, Returns (f a)) :
    Returns (m >>= f) := by
  intro s hs
  obtain ⟨a, t, e1, hmt, hran⟩ := hm s hs
  obtain ⟨b, u, e2, hfu, hran'⟩ := hf a t (hran.allow.trans hs)
  exact ⟨b, u, e1 ++ e2, by simp [hmt, hfu], hran.trans hran'⟩

/-- A part, and then a value made from what it gives. -/
theorem thenPure {α β : Type} {m : Op α} {g : α → β} (hm : Returns m) :
    Returns (m >>= fun a => (Pure.pure (g a) : Op β)) := hm.bind fun _ => .pure _

theorem get : Returns (get : Op State) := fun s _ => ⟨s, s, [], rfl, .refl s⟩

theorem getCodes : Returns getCodes := fun s _ => ⟨s.cfg.codes, s, [], rfl, .refl s⟩

theorem modifyBlk {f : Block → Block} (hlast : ∀ b, (f b).lastStatus = b.lastStatus) (hbuf : ∀ b, (f b).xbuf = b.xbuf) :
    Returns (modifyBlk f) := fun s _ => ⟨(), _, [], rfl, ran_onBlk s (hlast _) (hbuf _)⟩

theorem xact (op : Byte) (data : List Byte) : Returns (xact op data) :=
  fun s hs => ⟨_, _, _, xact_returns hs op data, ran_xacted s op data⟩

theorem driveCe (level : Bool) : Returns (driveCe level) :=
  fun s _ => ⟨(), _, _, rfl, (ran_onBlk s rfl rfl).trans (ran_emit _ rfl)⟩

theorem callAndWait {e : Event} (he : isXfer e = false) : Returns (callAndWait e) :=
  fun s hs => ⟨(), _, _, callAndWait_returns hs e, ran_emit s he⟩

theorem delay (us : Nat) : Returns (delay us) := .callAndWait rfl

theorem invokeCallback {cb : Option Callback} {e : Callback → Event} (he : ∀ f, isXfer (e f) = false) :
    Returns (invokeCallback cb e) := by
  cases cb with
  | none => exact .pure ()
  | some f => exact .callAndWait (he f)

theorem regRead (a : Reg) (n : Nat) : Returns (regRead a n) := .bind .getCodes fun _ => .xact _ _

theorem regWrite (a : Reg) (bs : List Byte) : Returns (regWrite a bs) := .bind .getCodes fun _ => .thenPure (.xact _ _)

theorem regReadByte (a : Reg) : Returns (regReadByte a) := .thenPure (.regRead a 1)

theorem rmw (a : Reg) (clr ones : Byte) : Returns (rmw a clr ones) :=
  fun s hs => ⟨_, _, _, rmw_returns hs a clr ones, ran_rmwed s a clr ones⟩

theorem command (op : Codes → Byte) : Returns (command op) := .bind .getCodes fun _ => .thenPure (.xact _ _)

theorem setMode (m : Mode) : Returns (setMode m) := .modifyBlk (fun _ => rfl) fun _ => rfl

theorem ite {α : Type} {p : Prop} [Decidable p] {m n : Op α} (hm : Returns m) (hn : Returns n) :
    Returns (if p then m else n) := by
  split
  · exact hm
  · exact hn

theorem getPipeBit (reg : Codes → Reg) (bits : Codes → Vector Byte 6) (p : Pipe) : Returns (getPipeBit reg bits p) :=
  .ite (.pure _) (.bind .getCodes fun _ => .thenPure (.regReadByte _))

theorem setPipeBit (reg : Codes → Reg) (bits : Codes → Vector Byte 6) (p : Pipe) (e : Bool) :
    Returns (setPipeBit reg bits p e) :=
  .ite (.pure _) (.bind .getCodes fun _ => .ite (.thenPure (.rmw _ _ _)) (.thenPure (.rmw _ _ _)))

/-! ### The steps of POLL -/

theorem appendRx (dg : Datagram) : Returns (appendRx dg) := by
  intro s _
  unfold Machine.appendRx
  split
  · exact ⟨(), s, [], rfl, .refl s⟩
  · exact ⟨(), _, [], rfl, ran_onBlk s rfl rfl⟩

theorem pollStep1 : Returns pollStep1 := .bind (.command _) fun _ => .modifyBlk (fun _ => rfl) fun _ => rfl

theorem pollStep2 : Returns pollStep2 := by
  refine .bind .get fun s => .ite ?_ (.pure _)
  refine .bind (.modifyBlk (fun _ => rfl) fun _ => rfl) fun _ => .bind (.xact _ _) fun w =>
    .bind (.modifyBlk (fun _ => rfl) fun _ => rfl) fun _ => .ite ?_ ?_
  · exact .bind (.command _) fun _ => .thenPure (.regWrite _ _)
  · exact .bind (.xact _ _) fun _ => .bind .get fun _ => .bind (.appendRx _) fun _ => .thenPure (.regWrite _ _)

theorem pollStep3 : Returns pollStep3 :=
  .bind .get fun _ => .ite (.bind (.invokeCallback fun _ => rfl) fun _ => .thenPure (.regWrite _ _)) (.pure _)

theorem pollStep4 : Returns pollStep4 :=
  .bind .get fun _ => .ite (.bind (.command _) fun _ => .thenPure (.regWrite _ _)) (.pure _)

theorem pollStep5 : Returns pollStep5 := by
  refine .bind .get fun s => ?_
  split
  · exact .pure _
  · exact .bind (.modifyBlk (fun _ => rfl) fun _ => rfl) fun _ => .invokeCallback fun _ => rfl

theorem pollStep6 : Returns pollStep6 := by
  refine .bind .get fun s => ?_
  split
  · exact .pure _
  · exact .ite (.bind (.xact _ _) fun _ => .modifyBlk (fun _ => rfl) fun _ => rfl) (.pure _)

end Returns

/-! ### The form of every instruction -/

/-- THE FORM OF `exec`: a host operation runs a body that returns where calls return; a wire command runs one
transaction. -/
theorem exec_form (c : Config) (i : Instr) (s : State) :
    (IsHost c i ∧ ∃ body, exec i s = runHost i body s ∧ Returns body)
      ∨ (IsWire c i ∧ ∃ op data, exec i s = runWire i (xact op data) s) := by
  cases i with
  | rRegister | wRegister | rRxPlWid | rRxPayload | wTxPayload | wAckPayload | wTxPayloadNoack | flushTx | flushRx
  | reuseTxPl | nop => exact .inr ⟨rfl, _, _, rfl⟩
  | rpReadRegister => exact .inl ⟨rfl, _, rfl, .thenPure (.regRead _ _)⟩
  | rpWriteRegister => exact .inl ⟨rfl, _, rfl, .thenPure (.regWrite _ _)⟩
  | rpReadPayload | rpWritePayload | rpReadPayloadWidth | rpWriteAckPayload | rpWriteNoackPayload =>
    exact .inl ⟨rfl, _, rfl, .bind .getCodes fun _ => .thenPure (.xact _ _)⟩
  | rpFlushRx | rpFlushTx | rpReuseTxPl | rpNop => exact .inl ⟨rfl, _, rfl, .thenPure (.command _)⟩
  | enterShutdown | enterStandby =>
    exact .inl ⟨rfl, _, rfl, .bind .getCodes fun _ => .bind (.driveCe _) fun _ => .bind (.rmw _ _ _) fun _ =>
      .thenPure (.setMode _)⟩
  | enterRx | enterTx =>
    exact .inl ⟨rfl, _, rfl, .bind .getCodes fun _ => .bind (.rmw _ _ _) fun _ => .bind (.driveCe _) fun _ =>
      .bind (.delay _) fun _ => .thenPure (.setMode _)⟩
  | startListening | stopListening =>
    exact .inl ⟨rfl, _, rfl, .ite (.pure _) (.bind .getCodes fun _ => .bind (.rmw _ _ _) fun _ =>
      .bind (.rmw _ _ _) fun _ => .thenPure (.rmw _ _ _))⟩
  | getCrc | getChannel | getOutputPower | getRetryCount | getRetryDelay =>
    exact .inl ⟨rfl, _, rfl, .bind .getCodes fun _ => .thenPure (.regReadByte _)⟩
  | setCrc | setDataRate | setOutputPower | setRetryCount | setRetryDelay =>
    exact .inl ⟨rfl, _, rfl, .bind .getCodes fun _ => .thenPure (.rmw _ _ _)⟩
  | setChannel => exact .inl ⟨rfl, _, rfl, .ite (.pure _) (.bind .getCodes fun _ => .thenPure (.regWrite _ _))⟩
  | getDataRate =>
    refine .inl ⟨rfl, _, rfl, .bind .getCodes fun c => .bind (.regReadByte _) fun v => ?_⟩
    split
    · exact .pure _
    · exact .pure _
  | getRxBaseAddress => exact .inl ⟨rfl, _, rfl, .ite (.pure _) (.bind .getCodes fun _ => .thenPure (.regRead _ _))⟩
  | setRxBaseAddress =>
    exact .inl ⟨rfl, _, rfl, .ite (.pure _) (.bind .getCodes fun _ => .bind (.regRead _ _) fun _ =>
      .bind (.modifyBlk (fun _ => rfl) fun _ => rfl) fun _ => .thenPure (.regWrite _ _))⟩
  | getRxAddress =>
    exact .inl ⟨rfl, _, rfl, .ite (.pure _) (.bind .getCodes fun _ => .ite (.thenPure (.regRead _ _))
      (.bind (.regRead _ _) fun _ => .thenPure (.regReadByte _)))⟩
  | setRxAddress =>
    exact .inl ⟨rfl, _, rfl, .ite (.pure _) (.bind .getCodes fun _ => .ite (.thenPure (.regWrite _ _))
      (.thenPure (.regWrite _ _)))⟩
  | getTxAddress => exact .inl ⟨rfl, _, rfl, .bind .getCodes fun _ => .thenPure (.regRead _ _)⟩
  | setTxAddress => exact .inl ⟨rfl, _, rfl, .bind .getCodes fun _ => .thenPure (.regWrite _ _)⟩
  | getDynPayload | getAutoAck | getPipeEnable => exact .inl ⟨rfl, _, rfl, .getPipeBit _ _ _⟩
  | setDynPayload | setAutoAck | setPipeEnable => exact .inl ⟨rfl, _, rfl, .setPipeBit _ _ _ _⟩
  | init =>
    exact .inl ⟨rfl, _, rfl, .bind .getCodes fun _ => .bind (.rmw _ _ _) fun _ => .bind (.regWrite _ _) fun _ =>
      .bind (.command _) fun _ => .thenPure (.command _)⟩
  | poll =>
    exact .inl ⟨rfl, _, rfl, .bind .pollStep1 fun _ => .bind .pollStep2 fun _ => .bind .pollStep3 fun _ =>
      .bind .pollStep4 fun _ => .bind .pollStep5 fun _ => .thenPure .pollStep6⟩
  | enqueueData =>
    exact .inl ⟨rfl, _, rfl, .bind .get fun _ => .ite (.pure _) (.thenPure (.modifyBlk (fun _ => rfl) fun _ => rfl))⟩
  | setRxCallback cb =>
    exact .inl ⟨rfl, _, (rfl : execSetRxCallback cb s = _), .thenPure (.modifyBlk (fun _ => rfl) fun _ => rfl)⟩
  | setTxCallback cb =>
    exact .inl ⟨rfl, _, (rfl : execSetTxCallback cb s = _), .thenPure (.modifyBlk (fun _ => rfl) fun _ => rfl)⟩

/-- A host operation whose body returns is done, with one result; refused operands give one too. -/
theorem runHost_done {i : Instr} {body : Op Result} {s : State} (hb : Returns body) (h : s.Ready) :
    ∃ t evs r, runHost i body s = .next t ∧ Done s t evs [r] := by
  obtain ⟨hidle, hallow⟩ := h
  cases hw : i.wf s.cfg with
  | false => exact ⟨_, [], _, runHost_refuses hidle hw, (Ran.refl (s.accept i)).done⟩
  | true =>
    obtain ⟨r, u, evs, hu, hran⟩ := hb (s.accept i) hallow
    exact ⟨_, evs, r, runHost_returns hidle hw hu, hran.done⟩

/-- Every host operation in a ready block is done, with one result (00_scope.md R8). -/
theorem exec_host_done {i : Instr} {s : State} (hi : IsHost s.cfg i) (h : s.Ready) :
    ∃ t evs r, exec i s = .next t ∧ Done s t evs [r] := by
  obtain ⟨-, body, hexec, hb⟩ | ⟨hwire, -⟩ := exec_form s.cfg i s
  · rw [hexec]
    exact runHost_done hb h
  · exact absurd (hi.symm.trans hwire) (by decide)

/-- A busy block accepts no wire command (00_scope.md R7). -/
theorem runWire_busy {i : Instr} {body : Op (Byte × List Byte)} {s : State} (h : s.blk.seq ≠ .idle) :
    runWire i body s = .fault .notAccepted := by
  simp [runWire, State.idle, h]

/-- A busy block accepts no instruction (00_scope.md R7). -/
theorem exec_busy {i : Instr} {s : State} (h : s.blk.seq ≠ .idle) : exec i s = .fault .notAccepted := by
  obtain ⟨-, body, hexec, -⟩ | ⟨-, op, data, hexec⟩ := exec_form s.cfg i s
  · rw [hexec, runHost_busy h]
  · rw [hexec, runWire_busy h]

/-- Settles O10: the operation's body returns, and its result is the one added. -/
theorem everyHostOperationCompletes : Obligations.EveryHostOperationCompletes := by
  intro i s hi h
  obtain ⟨t, evs, r, hexec, hseq, -, hres, -⟩ := exec_host_done hi h
  exact ⟨t, r, hexec, hseq, hres⟩

/-- Settles O7: `exec` and the wait for the host both look at the sequencer first. -/
theorem busyBlockAcceptsNothing : Obligations.BusyBlockAcceptsNothing :=
  ⟨fun _ _ hbusy => exec_busy hbusy,
    fun _ hok hin hbusy => (step_of_empty_inbox hok hin).trans (waitForHost_busy hbusy),
    fun _ hok hin hidle => (step_of_empty_inbox hok hin).trans (waitForHost_idle hidle)⟩

end Sys2Proof.Machine
end

section
/-! Every instruction, completed or cut short, only adds to the observation: each of its micro-steps does. -/

set_option Elab.async false

namespace Sys2Proof.Machine

open Sys2Proof

/-- `t` is `s` with the events `evs` added, the status latch following them; the results, the configuration, what the
host presents and the peer's level are as they were. Unlike `Ran` it says nothing of the exchange buffer and of the calls
that still return, which change on the way to a halt. -/
structure Observed (s t : State) (evs : List Event) : Prop where
  trace : t.trace = s.trace ++ evs
  results : t.results = s.results
  last : t.blk.lastStatus = latestStatus s.blk.lastStatus evs
  cfg : t.cfg = s.cfg
  inbox : t.inbox = s.inbox
  level : t.env.level = s.env.level

namespace Observed

theorem trans {s t u : State} {e1 e2 : List Event} (h : Observed s t e1) (g : Observed t u e2) :
    Observed s u (e1 ++ e2) where
  trace := by rw [g.trace, h.trace, List.append_assoc]
  results := g.results.trans h.results
  last := by rw [g.last, h.last, latestStatus_append]
  cfg := g.cfg.trans h.cfg
  inbox := g.inbox.trans h.inbox
  level := g.level.trans h.level

theorem of_ran {s t : State} {evs : List Event} (h : Ran s t evs) : Observed s t evs :=
  ⟨h.trace, h.results, h.last, h.cfg, h.inbox, h.level⟩

/-- An update of the block that leaves the status latch. -/
theorem onBlk (s : State) {f : Block → Block} (h : (f s.blk).lastStatus = s.blk.lastStatus) :
    Observed s (s.onBlk f) [] :=
  ⟨(List.append_nil _).symm, rfl, h, rfl, rfl, rfl⟩

theorem takeCall {s t : State} (h : s.takeCall = some t) : Observed s t [] := by
  unfold State.takeCall at h
  split at h
  · cases h
    exact .of_ran (.refl s)
  · cases h
  · cases h
    exact ⟨(List.append_nil _).symm, rfl, rfl, rfl, rfl, rfl⟩

/-- The status latched is the first byte of the answer (10_state.md R23). -/
theorem afterXfer (s : State) (tx : List Byte) : Observed s (s.afterXfer tx) [.xfer tx (answer tx s).1] := by
  constructor <;> simp [State.afterXfer, latestStatus]

end Observed

/-- A micro-step adds events and the status latch follows them. -/
theorem Micro.observed {i : Instr} {s t : State} (h : Micro i s t) : ∃ evs, Observed s t evs := by
  cases h with
  | call h => exact ⟨_, .takeCall h⟩
  | xfer => exact ⟨_, .afterXfer _ _⟩
  | ce => exact ⟨_, (Observed.onBlk s rfl).trans (.of_ran (ran_emit _ rfl))⟩
  | dly | cbTx | cbRx => exact ⟨_, .of_ran (ran_emit s rfl)⟩
  | frame | vTmp | pollStatus | pLat | wLat | takeIn | handOut | sent | enqueue | rxCb | txCb | mode =>
    exact ⟨_, .onBlk s rfl⟩

theorem Reach.observed {i : Instr} {s t : State} (h : Reach i s t) : ∃ evs, Observed s t evs := by
  induction h with
  | refl => exact ⟨[], .of_ran (.refl s)⟩
  | tail _ hstep ih =>
    obtain ⟨e1, h1⟩ := ih
    obtain ⟨e2, h2⟩ := hstep.observed
    exact ⟨_, h1.trans h2⟩

/-- A run from the acceptance of an operation, seen from the state before it. -/
theorem Reach.observed_from_accept {i j : Instr} {s t : State} (h : Reach i (s.accept j) t) :
    ∃ evs, Observed s t evs := by
  obtain ⟨evs, hobs⟩ := h.observed
  exact ⟨_, (Observed.onBlk s rfl).trans hobs⟩

/-- Settles O56: every end of an instruction follows a run of micro-steps, and only a completed host operation adds a
result. -/
theorem theObservationOnlyGrows : Obligations.TheObservationOnlyGrows := by
  intro i s t h
  obtain ⟨-, hend⟩ := exec_ended h
  cases hend with
  | completed r hrun =>
    obtain ⟨evs, o⟩ := hrun.observed_from_accept
    exact ⟨evs, [r], o.trace, by simp [o.results], by simp, o.last, o.cfg, o.inbox, o.level⟩
  | wired hrun | cut hrun =>
    obtain ⟨evs, o⟩ := hrun.observed_from_accept
    exact ⟨evs, [], o.trace, by simp [o.results], by simp, o.last, o.cfg, o.inbox, o.level⟩

end Sys2Proof.Machine
end

section
/-! Who writes what of the block: what no transaction touches, what each step of POLL does to the queues, and which
micro-steps write the registrations and the latches of POLL. -/

set_option Elab.async false

namespace Sys2Proof.Machine

open Sys2Proof

/-! ### Parts in sequence -/

/-- A look at the state, and what follows in it. -/
theorem get_bind {β : Type} (f : State → Op β) (s : State) : (get >>= f) s = f s s := by
  rw [op_bind, op_get]

/-- A read of the codes, and what follows in the same state. -/
theorem getCodes_bind {β : Type} (f : Codes → Op β) (s : State) : (getCodes >>= f) s = f s.cfg.codes s := by
  rw [op_bind, getCodes_eq]

/-- A part that returns has its first part returned, and the rest from there. -/
theorem bind_ok {α β : Type} {m : Op α} {f : α → Op β} {s u : State} {b : β} (h : (m >>= f) s = .ok b u) :
    ∃ a t, m s = .ok a t ∧ f a t = .ok b u := by
  rw [op_bind] at h
  cases hm : m s with
  | ok a t =>
    rw [hm] at h
    exact ⟨a, t, rfl, h⟩
  | error e t =>
    rw [hm] at h
    cases h

/-- What a part keeps holds of where it returns. -/
theorem Keeps.of_ok {R : State → State → Prop} {α : Type} {m : Op α} (hm : Keeps R m) {s t : State} {a : α}
    (h : m s = .ok a t) : R s t := by
  have hs := hm s
  rwa [h] at hs

/-- Two parts in sequence, each with its own relation. -/
theorem Keeps.comp {R S T : State → State → Prop} {α β : Type} {m : Op α} {f : α → Op β} (hm : Keeps R m)
    (hf : ∀ a, Keeps S (f a)) (hhalt : ∀ {s t}, R s t → T s t) (hseq : ∀ {s t u}, R s t → S t u → T s u) :
    Keeps T (m >>= f) := by
  intro s
  have h1 := hm s
  rw [op_bind]
  cases h : m s with
  | ok a t =>
    rw [h] at h1
    exact hseq h1 (hf a t)
  | error e t =>
    rw [h] at h1
    exact hhalt h1

theorem Keeps.ite {R : State → State → Prop} {α : Type} {p : Prop} [Decidable p] {m n : Op α} (hm : Keeps R m)
    (hn : Keeps R n) : Keeps R (if p then m else n) := by
  split
  · exact hm
  · exact hn

/-! ### What no transaction touches -/

/-- `f` reads nothing of the block that an interface event writes: the buffer, the status latch and the sequencer. -/
structure Apart {α : Type} (f : Block → α) : Prop where
  xbuf : ∀ b x, f { b with xbuf := x } = f b
  lastStatus : ∀ b x, f { b with lastStatus := x } = f b
  seq : ∀ b x, f { b with seq := x } = f b

/-- What `f` reads of the block is the same in both states. -/
abbrev SameBy {α : Type} (f : Block → α) (s t : State) : Prop := f t.blk = f s.blk

/-- Two parts in sequence that both leave what `f` reads. -/
theorem Keeps.bindSame {α β γ : Type} {f : Block → α} {m : Op β} {g : β → Op γ} (hm : Keeps (SameBy f) m)
    (hg : ∀ a, Keeps (SameBy f) (g a)) : Keeps (SameBy f) (m >>= g) :=
  hm.bind (fun h1 h2 => h2.trans h1) hg

namespace Apart

variable {α : Type} {f : Block → α}

theorem fillXbuf (hf : Apart f) (bs : List Byte) (s : State) : f (s.fillXbuf bs).blk = f s.blk := hf.xbuf _ _

theorem emit (hf : Apart f) (e : Event) (s : State) : f (s.emit e).blk = f s.blk := hf.seq _ _

theorem afterXfer (hf : Apart f) (tx : List Byte) (s : State) : f (s.afterXfer tx).blk = f s.blk := by
  rw [State.afterXfer, hf.emit, State.onBlk_blk, hf.lastStatus, hf.fillXbuf, answer_blk]

theorem xact (hf : Apart f) (op : Byte) (data : List Byte) : Keeps (SameBy f) (xact op data) := by
  intro s
  simp only [Machine.xact]
  split
  · exact hf.fillXbuf _ s
  · next t ht =>
    rw [finalState, SameBy, hf.afterXfer, takeCall_blk ht, hf.fillXbuf]

theorem callAndWait (hf : Apart f) (e : Event) : Keeps (SameBy f) (callAndWait e) := by
  intro s
  simp only [Machine.callAndWait]
  split
  · exact hf.emit e s
  · next t ht => rw [finalState, SameBy, takeCall_blk ht, hf.emit]

theorem invokeCallback (hf : Apart f) (cb : Option Callback) (e : Callback → Event) :
    Keeps (SameBy f) (invokeCallback cb e) := by
  cases cb with
  | none => exact fun _ => rfl
  | some c => exact hf.callAndWait (e c)

theorem regWrite (hf : Apart f) (a : Reg) (bs : List Byte) : Keeps (SameBy f) (regWrite a bs) :=
  .bindSame (fun _ => rfl) fun _ => .bindSame (hf.xact _ _) fun _ _ => rfl

theorem command (hf : Apart f) (op : Codes → Byte) : Keeps (SameBy f) (command op) :=
  .bindSame (fun _ => rfl) fun _ => .bindSame (hf.xact _ _) fun _ _ => rfl

/-! ### The steps of POLL -/

theorem pollStep1 (hf : Apart f) (hp : ∀ b x, f { b with pollStatus := x } = f b) : Keeps (SameBy f) pollStep1 :=
  .bindSame (hf.command _) fun _ _ => hp _ _

theorem pollStep3 (hf : Apart f) : Keeps (SameBy f) pollStep3 :=
  .bindSame (fun _ => rfl) fun _ => .ite (.bindSame (hf.invokeCallback _ _) fun _ =>
    .bindSame (hf.regWrite _ _) fun _ _ => rfl) fun _ => rfl

theorem pollStep4 (hf : Apart f) : Keeps (SameBy f) pollStep4 :=
  .bindSame (fun _ => rfl) fun _ => .ite (.bindSame (hf.command _) fun _ =>
    .bindSame (hf.regWrite _ _) fun _ _ => rfl) fun _ => rfl

end Apart

theorem apart_rxq : Apart Block.rxq := ⟨fun _ _ => rfl, fun _ _ => rfl, fun _ _ => rfl⟩

theorem apart_txq : Apart Block.txq := ⟨fun _ _ => rfl, fun _ _ => rfl, fun _ _ => rfl⟩

/-! ### The TX queue -/

/-- Step 2 leaves the TX queue. -/
theorem pollStep2_txq : Keeps (SameBy Block.txq) pollStep2 := by
  have happend (dg : Datagram) : Keeps (SameBy Block.txq) (appendRx dg) := by
    intro s
    unfold appendRx
    split <;> rfl
  refine .bindSame (fun _ => rfl) fun s => .ite ?_ fun _ => rfl
  refine .bindSame (fun _ => rfl) fun _ => .bindSame (apart_txq.xact _ _) fun w =>
    .bindSame (fun _ => rfl) fun _ => .ite ?_ ?_
  · exact .bindSame (apart_txq.command _) fun _ => .bindSame (apart_txq.regWrite _ _) fun _ _ => rfl
  · exact .bindSame (apart_txq.xact _ _) fun _ => .bindSame (fun _ => rfl) fun _ =>
      .bindSame (happend _) fun _ => .bindSame (apart_txq.regWrite _ _) fun _ _ => rfl

/-- Step 5 leaves the TX queue. -/
theorem pollStep5_txq : Keeps (SameBy Block.txq) pollStep5 := by
  refine .bindSame (fun _ => rfl) fun s => ?_
  split
  · exact fun _ => rfl
  · exact .bindSame (fun _ => rfl) fun _ => apart_txq.invokeCallback _ _

/-- The TX queue is as before, or has lost its head. -/
abbrev TxqDrained (s t : State) : Prop := t.blk.txq = s.blk.txq ∨ t.blk.txq = s.blk.txq.tail

/-- Step 6 drops the head once it has been sent, or leaves the queue (43_event_loop.md R237). -/
theorem pollStep6_txq : Keeps TxqDrained pollStep6 := by
  intro s
  rw [pollStep6, get_bind]
  cases hq : s.blk.txq with
  | nil => exact .inl rfl
  | cons dg rest =>
    simp only
    split
    · rw [op_bind]
      have hx := apart_txq.xact s.cfg.codes.opcWTxPayload dg.bytes s
      cases h : xact s.cfg.codes.opcWTxPayload dg.bytes s with
      | ok r t => exact .inr (by rw [hq]; rfl)
      | error e t =>
        rw [h] at hx
        exact .inl hx
    · exact .inl rfl

/-- The six steps of POLL drop at most the head of the TX queue. -/
theorem poll_txq : Keeps TxqDrained (do
    pollStep1; pollStep2; pollStep3; pollStep4; pollStep5; pollStep6
    return Result.ok) := by
  have first {m : Op Unit} {g : Unit → Op Result} (hm : Keeps (SameBy Block.txq) m) (hg : ∀ a, Keeps TxqDrained (g a)) :
      Keeps TxqDrained (m >>= g) :=
    hm.comp hg .inl fun h1 h2 => by rwa [TxqDrained, h1] at h2
  refine first (apart_txq.pollStep1 fun _ _ => rfl) fun _ => first pollStep2_txq fun _ =>
    first apart_txq.pollStep3 fun _ => first apart_txq.pollStep4 fun _ => first pollStep5_txq fun _ => ?_
  exact pollStep6_txq.comp (S := SameBy Block.txq) (fun _ _ => rfl) id fun h1 h2 => by rwa [TxqDrained, h2]

/-- What a body does to the TX queue, its operation does. -/
theorem runHost_txq {P : List Datagram → List Datagram → Prop} (hrefl : ∀ q, P q q) {i : Instr} {body : Op Result}
    (hbody : Keeps (fun s t => P s.blk.txq t.blk.txq) body) {s t : State} (h : runHost i body s = .next t) :
    P s.blk.txq t.blk.txq := by
  have hs := hbody (s.accept i)
  obtain ⟨-, ⟨-, rfl⟩ | ⟨-, r, u, hu, rfl⟩ | ⟨-, e, he⟩⟩ := runHost_cases h
  · exact hrefl _
  · rwa [hu] at hs
  · rwa [he] at hs

/-- ENQUEUE_DATA appends its operand, or leaves the queue (43_event_loop.md R239). -/
theorem enqueueData_txq {dg : Datagram} {s t : State} (h : exec (.enqueueData dg) s = .next t) :
    t.blk.txq = s.blk.txq ∨ t.blk.txq = s.blk.txq ++ [dg] := by
  refine runHost_txq (P := fun q q' => q' = q ∨ q' = q ++ [dg]) (fun _ => .inl rfl) (fun u => ?_) h
  rw [get_bind]
  split
  · exact .inl rfl
  · exact .inr rfl

/-- Only POLL and ENQUEUE_DATA have a micro-step that writes the TX queue. -/
theorem Micro.txq_eq {i : Instr} {s t : State} (h : Micro i s t) (hpoll : i ≠ .poll)
    (henq : ∀ dg, i ≠ .enqueueData dg) : t.blk.txq = s.blk.txq := by
  cases h with
  | call hcall => rw [takeCall_blk hcall]
  | xfer => exact apart_txq.afterXfer _ s
  | sent hi => exact absurd hi hpoll
  | enqueue dg hi => exact absurd hi (henq dg)
  | _ => rfl

/-! ### The received queue, the latches of POLL and the registrations -/

/-- The received queue and the latches of POLL are the same in both blocks. -/
abbrev SameReceived (b b' : Block) : Prop :=
  b'.rxq = b.rxq ∧ b'.pollStatus = b.pollStatus ∧ b'.wLat = b.wLat ∧ b'.pLat = b.pLat

/-- Only POLL has micro-steps that write the received queue or the latches of POLL. -/
theorem Micro.sameReceived {i : Instr} {s t : State} (h : Micro i s t) (hpoll : i ≠ .poll) :
    SameReceived s.blk t.blk := by
  cases h with
  | call hcall => rw [SameReceived, takeCall_blk hcall]; exact ⟨rfl, rfl, rfl, rfl⟩
  | xfer => simp [SameReceived, State.afterXfer]
  | takeIn _ hi | handOut hi | pollStatus _ hi | pLat _ hi | wLat _ hi => exact absurd hi hpoll
  | _ => exact ⟨rfl, rfl, rfl, rfl⟩

/-- The RX registration is written by its own SET alone. -/
theorem Micro.rxCb_eq {i : Instr} {s t : State} (h : Micro i s t) :
    t.blk.rxCb = s.blk.rxCb ∨ i = .setRxCallback t.blk.rxCb := by
  cases h with
  | call hcall => rw [takeCall_blk hcall]; exact .inl rfl
  | xfer => simp [State.afterXfer]
  | rxCb cb hi => exact .inr hi
  | _ => exact .inl rfl

/-- The TX registration is written by its own SET alone. -/
theorem Micro.txCb_eq {i : Instr} {s t : State} (h : Micro i s t) :
    t.blk.txCb = s.blk.txCb ∨ i = .setTxCallback t.blk.txCb := by
  cases h with
  | call hcall => rw [takeCall_blk hcall]; exact .inl rfl
  | xfer => simp [State.afterXfer]
  | txCb cb hi => exact .inr hi
  | _ => exact .inl rfl

/-- What every micro-step of an instruction does to the block outside the sequencer, the instruction does. -/
theorem exec_blk_rel {i : Instr} {R : Block → Block → Prop} (hmicro : ∀ {u v}, Micro i u v → R u.blk v.blk)
    (hseq : ∀ b q, R b { b with seq := q }) (htrans : ∀ {a b c}, R a b → R b c → R a c) {s t : State}
    (h : exec i s = .next t) : R s.blk t.blk := by
  have hrun {u} (hu : Reach i (s.accept i) u) : R s.blk u.blk := by
    induction hu with
    | refl => exact hseq _ _
    | tail _ hstep ih => exact htrans ih (hmicro hstep)
  obtain ⟨-, hend⟩ := exec_ended h
  cases hend with
  | completed r hu => exact htrans (hrun hu) (hseq _ _)
  | wired hu => exact htrans (hrun hu) (hseq _ _)
  | cut hu => exact hrun hu

/-- Only POLL writes the received queue and its latches (10_state.md R27, R32). -/
theorem exec_sameReceived {i : Instr} {s t : State} (h : exec i s = .next t) (hpoll : i ≠ .poll) :
    SameReceived s.blk t.blk :=
  exec_blk_rel (fun hstep => hstep.sameReceived hpoll) (fun _ _ => ⟨rfl, rfl, rfl, rfl⟩)
    (fun ⟨h1, h2, h3, h4⟩ ⟨g1, g2, g3, g4⟩ => ⟨g1.trans h1, g2.trans h2, g3.trans h3, g4.trans h4⟩) h

/-- Each registration is as before or the operand of its own SET (10_state.md R29, R30). -/
theorem exec_rxCb {i : Instr} {s t : State} (h : exec i s = .next t) :
    t.blk.rxCb = s.blk.rxCb ∨ i = .setRxCallback t.blk.rxCb :=
  exec_blk_rel (R := fun b b' => b'.rxCb = b.rxCb ∨ i = .setRxCallback b'.rxCb) Micro.rxCb_eq (fun _ _ => .inl rfl)
    (fun hab hbc => hbc.elim (fun heq => by rwa [heq]) .inr) h

theorem exec_txCb {i : Instr} {s t : State} (h : exec i s = .next t) :
    t.blk.txCb = s.blk.txCb ∨ i = .setTxCallback t.blk.txCb :=
  exec_blk_rel (R := fun b b' => b'.txCb = b.txCb ∨ i = .setTxCallback b'.txCb) Micro.txCb_eq (fun _ _ => .inl rfl)
    (fun hab hbc => hbc.elim (fun heq => by rwa [heq]) .inr) h

/-- The TX queue loses its head by POLL, gains the operand by ENQUEUE_DATA, and changes by nothing else. -/
theorem exec_txq {i : Instr} {s t : State} (h : exec i s = .next t) :
    t.blk.txq = s.blk.txq ∨ (i = .poll ∧ t.blk.txq = s.blk.txq.tail)
      ∨ ∃ dg, i = .enqueueData dg ∧ t.blk.txq = s.blk.txq ++ [dg] := by
  by_cases hpoll : i = .poll
  · subst hpoll
    exact (runHost_txq (P := fun q q' => q' = q ∨ q' = q.tail) (fun _ => .inl rfl) poll_txq h).imp_right
      fun htail => .inl ⟨rfl, htail⟩
  · by_cases henq : ∃ dg, i = .enqueueData dg
    · obtain ⟨dg, rfl⟩ := henq
      exact (enqueueData_txq h).imp_right fun hadd => .inr ⟨dg, rfl, hadd⟩
    · exact .inl (exec_blk_rel (R := fun b b' => b'.txq = b.txq)
        (fun hstep => hstep.txq_eq hpoll fun dg hdg => henq ⟨dg, hdg⟩) (fun _ _ => rfl)
        (fun hab hbc => hbc.trans hab) h)

/-- Settles O55: each writer is a micro-step of its own instruction; how often the TX queue is written is read off the
bodies of POLL and ENQUEUE_DATA. -/
theorem queuesAndRegistrationsHaveTheirWriters : Obligations.QueuesAndRegistrationsHaveTheirWriters :=
  fun _ _ _ h => ⟨exec_txq h, exec_sameReceived h, exec_rxCb h, exec_txCb h⟩

end Sys2Proof.Machine
end

section
/-! The invariant: the state after reset has it, the peer keeps its shape under every answer and move, each micro-step
keeps the bounds, and a POLL that returns has emptied the received queue. -/

set_option Elab.async false

namespace Sys2Proof.Machine

open Sys2Proof

/-! ### The state after reset -/

/-- Settles O2: each value is read off `State.reset`, the registers one by one. -/
theorem resetStateHoldsTheListedValues : Obligations.ResetStateHoldsTheListedValues := by
  refine ⟨rfl, rfl, rfl, rfl, rfl, rfl, rfl, rfl, rfl, rfl, rfl, fun x hx => ?_, fun x hx => ?_, by decide,
    rfl, rfl, rfl⟩
  · fin_cases hx <;> rfl
  · fin_cases hx <;> rfl

/-- The reset values are within every bound (10_state.md R56). -/
theorem Block.reset_wf (c : Config) : Block.Wf c Block.reset := by
  simp [Block.Wf, Block.reset, callbackOperandOk]

theorem Peer.powerOn_wf (c : Config) : Peer.Wf c Peer.powerOn := by
  simp [Peer.Wf, Peer.powerOn, Memory.wf_nil]

/-- Settles O3: block and peer each have their shape. -/
theorem resetMeetsTheInvariant : Obligations.ResetMeetsTheInvariant :=
  ⟨Block.reset_wf _, Peer.powerOn_wf _⟩

/-! ### The peer keeps its shape (20_memory.md R81) -/

theorem freeRxEntry_wf (k j : Nat) : RxEntry.Wf (freeRxEntry k j) := by
  have hpipe : freeNat k (10 + j) % nPipes < nPipes := Nat.mod_lt _ (by decide)
  refine ⟨?_, by simp [freeRxEntry, freePayload]⟩
  rw [freeRxEntry, BitVec.toNat_ofNat]
  exact (Nat.mod_le _ _).trans_lt hpipe

theorem freeTxKind_wf (n : Nat) : (freeTxKind n).wf = true := by
  have hlt : n % 8 < 8 := Nat.mod_lt _ (by decide)
  unfold freeTxKind
  split
  · rfl
  · rfl
  · next h6 h7 =>
    have : n % 8 ≠ 6 := h6
    have : n % 8 ≠ 7 := h7
    simp only [TxKind.wf, nPipes, BitVec.toNat_ofNat, decide_eq_true_eq]
    omega

theorem freeTxEntry_wf (k j : Nat) : TxEntry.Wf (freeTxEntry k j) := by
  have hlen : freeNat k (3000 + j) % (maxPayload + 1) < maxPayload + 1 := Nat.mod_lt _ (by decide)
  refine ⟨freeTxKind_wf _, ?_⟩
  simp only [freeTxEntry, freePayload, List.length_map, List.length_range]
  omega

section
variable {lv : PeerLevel} {c : Config} {k : Nat} {p : Peer}

/-- A peer of which nothing is known has the shape (log 9). -/
theorem freePeer_wf (c : Config) (k : Nat) : Peer.Wf c (freePeer c k) := by
  have hle (n : Nat) : n % (c.fifoDepth + 1) ≤ c.fifoDepth := Nat.lt_succ_iff.1 (Nat.mod_lt _ (Nat.succ_pos _))
  refine ⟨Memory.wf_foldl_write _ _ (Memory.wf_nil _), by simp [freePeer, hle], ?_, by simp [freePeer, hle], ?_⟩
  · simp only [freePeer, List.forall_mem_map]
    exact fun j _ => freeRxEntry_wf k j
  · simp only [freePeer, List.forall_mem_map]
    exact fun j _ => freeTxEntry_wf k j

theorem unconstrained_wf (h : Peer.Wf c p) : Peer.Wf c (unconstrained lv c k p) := by
  cases lv with
  | reference => exact h
  | contract | any => exact freePeer_wf c k

theorem storeRegister_wf (h : Peer.Wf c p) (a : Reg) (d : List Byte) : Peer.Wf c (storeRegister c.codes p a d) := by
  unfold storeRegister
  split
  · exact h
  · split
    · exact h
    · exact ⟨Memory.wf_writeReg h.1 a d, h.2⟩

theorem writeRegister_wf (h : Peer.Wf c p) (a : Reg) (d : List Byte) : Peer.Wf c (writeRegister lv c k p a d) := by
  unfold writeRegister
  split
  · exact h
  · split
    · exact storeRegister_wf h a d
    · exact unconstrained_wf (storeRegister_wf h a d)

/-- An entry is appended only where there is room. -/
theorem pushTx_wf (h : Peer.Wf c p) {e : TxEntry} (he : TxEntry.Wf e) : Peer.Wf c (pushTx lv c k p e) := by
  obtain ⟨hmem, hrx, hrxs, htx, htxs⟩ := h
  unfold pushTx
  split
  · next hroom =>
    refine ⟨hmem, hrx, hrxs, by simpa using hroom, ?_⟩
    exact List.forall_mem_append.2 ⟨htxs, List.forall_mem_singleton.2 he⟩
  · exact unconstrained_wf ⟨hmem, hrx, hrxs, htx, htxs⟩

theorem pushTxEndingReuse_wf (h : Peer.Wf c p) {e : TxEntry} (he : TxEntry.Wf e) :
    Peer.Wf c (pushTxEndingReuse lv c k p e) := by
  unfold pushTxEndingReuse
  split
  · exact pushTx_wf (lv := lv) (k := k) h he
  · exact pushTx_wf h he

/-- Every command keeps the shape of the peer, given at most 32 data bytes. -/
theorem applyCmd_wf (h : Peer.Wf c p) (st : Byte) (cmd : WireCmd) {d : List Byte} (hd : d.length ≤ maxPayload) :
    Peer.Wf c (applyCmd lv c k p st cmd d).1 := by
  obtain ⟨hmem, hrx, hrxs, htx, htxs⟩ := id h
  cases cmd with
  | rRegister | rRxPlWid | nop => exact h
  | reuseTxPl => exact h
  | wRegister a => exact writeRegister_wf h a d
  | rRxPayload =>
    have hlen : p.rxf.tail.length ≤ c.fifoDepth := by
      rw [List.length_tail]
      omega
    exact ⟨hmem, hlen, fun e he => hrxs e (List.mem_of_mem_tail he), htx, htxs⟩
  | wTxPayload | wTxPayloadNoack => exact pushTxEndingReuse_wf h ⟨rfl, hd⟩
  | wAckPayload q =>
    simp only [applyCmd]
    split
    · next hq => exact pushTx_wf h ⟨by simpa [TxKind.wf] using hq, hd⟩
    · exact unconstrained_wf h
  | flushTx => exact ⟨hmem, hrx, hrxs, by simp [applyCmd]⟩
  | flushRx => exact ⟨hmem, by simp [applyCmd], by simp [applyCmd], htx, htxs⟩

/-- A transaction of at most 33 bytes keeps the shape of the peer. -/
theorem peerXfer_wf (h : Peer.Wf c p) {tx : List Byte} (htx : tx.length ≤ maxPayload + 1) :
    Peer.Wf c (peerXfer lv c k p tx).1 := by
  cases tx with
  | nil => exact h
  | cons op d =>
    simp only [peerXfer]
    split
    · exact unconstrained_wf h
    · exact applyCmd_wf h _ _ (by simpa using htx)

/-- Every move of the radio side keeps the shape of the peer (20_memory.md R96). -/
theorem applyMove_wf (h : Peer.Wf c p) (m : Move) : Peer.Wf c (applyMove lv c k p m) := by
  obtain ⟨hmem, hrx, hrxs, htx, htxs⟩ := id h
  cases m with
  | rxArrive q w bytes =>
    simp only [applyMove]
    split
    · next henabled =>
      obtain ⟨hroom, hq, hlen⟩ := henabled
      refine ⟨hmem, by simpa using hroom, ?_, htx, htxs⟩
      exact List.forall_mem_append.2 ⟨hrxs, List.forall_mem_singleton.2 ⟨hq, hlen⟩⟩
    · exact h
  | txDone =>
    simp only [applyMove]
    split
    · exact h
    · refine ⟨hmem, hrx, hrxs, ?_, ?_⟩ <;> simp only <;> split
      · exact htx
      · rw [List.length_tail]; omega
      · exact htxs
      · exact fun e he => htxs e (List.mem_of_mem_tail he)
  | maxRt =>
    simp only [applyMove]
    split <;> exact h
  | observe v => exact ⟨Memory.wf_write hmem _ v, hrx, hrxs, htx, htxs⟩
  | powerLoss =>
    cases lv with
    | reference => exact Peer.powerOn_wf c
    | contract | any => exact freePeer_wf c k

theorem applyMoves_wf (h : Peer.Wf c p) (ms : List Move) : Peer.Wf c (applyMoves lv c k p ms) := by
  induction ms generalizing p with
  | nil => exact h
  | cons m ms ih => exact ih (applyMove_wf h m)

end

/-- An exchange of at most 33 bytes keeps the shape of the peer, at every level. -/
theorem answer_peer_wf {s : State} (h : Peer.Wf s.cfg s.peer) {tx : List Byte} (htx : tx.length ≤ maxPayload + 1) :
    Peer.Wf s.cfg (answer tx s).2.peer := by
  by_cases hl : s.env.level = .any
  · rw [answer_any_peer hl]
    exact h
  · rw [answer_contract hl]
    exact peerXfer_wf (applyMoves_wf h _) htx

/-! ### The micro-steps keep the bounds -/

/-- The bounds of the block within an operation: `Block.Wf` but for what it says of the idle block. -/
structure Block.Bounded (c : Config) (b : Block) : Prop where
  rxq_length : b.rxq.length ≤ c.rxqCap
  rxq_wf : ∀ d ∈ b.rxq, d.wf = true
  txq_length : b.txq.length ≤ c.txqCap
  txq_wf : ∀ d ∈ b.txq, d.wf = true
  rxCb_ok : callbackOperandOk c b.rxCb = true
  txCb_ok : callbackOperandOk c b.txCb = true
  vTmp_length : b.vTmp.length ≤ 5

theorem Block.wf_iff_bounded {c : Config} {b : Block} :
    Block.Wf c b ↔ Block.Bounded c b ∧ (b.seq = .idle → b.rxq = []) :=
  ⟨fun ⟨h1, h2, h3, h4, h5, h6, h7, h8⟩ => ⟨⟨h1, h2, h3, h4, h5, h6, h7⟩, h8⟩,
    fun ⟨⟨h1, h2, h3, h4, h5, h6, h7⟩, h8⟩ => ⟨h1, h2, h3, h4, h5, h6, h7, h8⟩⟩

/-- What holds of a state within an operation. -/
abbrev State.Bounded (s : State) : Prop := Block.Bounded s.cfg s.blk ∧ Peer.Wf s.cfg s.peer

theorem takeCall_peer {s t : State} (h : s.takeCall = some t) : t.peer = s.peer := by
  unfold State.takeCall at h
  split at h <;> simp at h <;> subst h <;> rfl

/-- An operand of ENQUEUE_DATA or of a registration fits. -/
abbrev OperandsFit (c : Config) (i : Instr) : Prop :=
  (∀ dg, i = .enqueueData dg → dg.wf = true)
    ∧ ∀ cb, i = .setRxCallback cb ∨ i = .setTxCallback cb → callbackOperandOk c cb = true

theorem operandsFit_of_wf {c : Config} {i : Instr} (h : i.wf c = true) : OperandsFit c i :=
  ⟨by rintro dg rfl; exact h, by rintro cb (rfl | rfl) <;> exact h⟩

/-- A wire command has no such operand. -/
theorem operandsFit_of_wire {c : Config} {i : Instr} (h : IsWire c i) : OperandsFit c i :=
  ⟨by rintro dg rfl; exact (nomatch h), by rintro cb (rfl | rfl) <;> exact nomatch h⟩

/-- Every micro-step keeps the bounds. -/
theorem Micro.bounded {i : Instr} {s t : State} (h : Micro i s t) (hi : OperandsFit s.cfg i) (hs : s.Bounded) :
    t.Bounded := by
  obtain ⟨hb, hp⟩ := id hs
  cases h with
  | frame | ce | dly | cbTx | cbRx | pollStatus | pLat | wLat | mode => exact ⟨{ hb with }, hp⟩
  | call hcall =>
    rw [State.Bounded, takeCall_cfg hcall, takeCall_blk hcall, takeCall_peer hcall]
    exact hs
  | xfer cmd data hdata =>
    have hlen : data.length ≤ maxPayload := by
      obtain hle | ⟨-, dg, hdg, rfl⟩ := hdata
      · exact hle
      · exact of_decide_eq_true (hb.txq_wf dg hdg)
    have hpeer := answer_peer_wf (tx := s.cfg.codes.opcodeOf cmd :: data) hp (by simpa using hlen)
    simp only [State.Bounded, State.afterXfer, State.emit_cfg, State.onBlk_cfg, State.fillXbuf_cfg, answer_cfg,
      State.emit_peer, State.onBlk_peer, State.fillXbuf_peer]
    refine ⟨?_, hpeer⟩
    constructor <;> simp only [State.emit, State.onBlk, State.fillXbuf, answer_blk]
    exacts [hb.rxq_length, hb.rxq_wf, hb.txq_length, hb.txq_wf, hb.rxCb_ok, hb.txCb_ok, hb.vTmp_length]
  | vTmp bs hbs => exact ⟨{ hb with vTmp_length := hbs }, hp⟩
  | takeIn dg _ hw hroom =>
    exact ⟨{ hb with rxq_length := by simpa using hroom
                     rxq_wf := List.forall_mem_append.2 ⟨hb.rxq_wf, List.forall_mem_singleton.2 hw⟩ }, hp⟩
  | handOut =>
    have hle := hb.rxq_length
    exact ⟨{ hb with rxq_length := by simp only [State.onBlk_blk, List.length_tail, State.onBlk_cfg]; omega
                     rxq_wf := fun d hd => hb.rxq_wf d (List.mem_of_mem_tail hd) }, hp⟩
  | sent =>
    have hle := hb.txq_length
    exact ⟨{ hb with txq_length := by simp only [State.onBlk_blk, List.length_tail, State.onBlk_cfg]; omega
                     txq_wf := fun d hd => hb.txq_wf d (List.mem_of_mem_tail hd) }, hp⟩
  | enqueue dg hdg hroom =>
    have hle := hb.txq_length
    exact ⟨{ hb with txq_length := by simp only [State.onBlk_blk, List.length_append, List.length_singleton,
                       State.onBlk_cfg]; omega
                     txq_wf := List.forall_mem_append.2 ⟨hb.txq_wf, List.forall_mem_singleton.2 (hi.1 dg hdg)⟩ }, hp⟩
  | rxCb cb hcb => exact ⟨{ hb with rxCb_ok := hi.2 cb (.inl hcb) }, hp⟩
  | txCb cb hcb => exact ⟨{ hb with txCb_ok := hi.2 cb (.inr hcb) }, hp⟩

theorem Reach.bounded {i : Instr} {s t : State} (h : Reach i s t) (hi : OperandsFit s.cfg i) (hs : s.Bounded) :
    t.Bounded := by
  induction h with
  | refl => exact hs
  | tail hrun hstep ih => exact hstep.bounded (by rwa [Reach.cfg hrun]) ih

/-! ### A POLL that returns leaves no received datagram -/

/-- At most one received datagram has been added. -/
abbrev RxqGrows (s t : State) : Prop := t.blk.rxq.length ≤ s.blk.rxq.length + 1

/-- Step 2 takes in at most one datagram (43_event_loop.md R233). -/
theorem pollStep2_rxq : Keeps RxqGrows pollStep2 := by
  have first {α : Type} {m : Op α} {g : α → Op Unit} (hm : Keeps (SameBy Block.rxq) m)
      (hg : ∀ a, Keeps RxqGrows (g a)) : Keeps RxqGrows (m >>= g) :=
    hm.comp hg (fun h => by rw [RxqGrows, h]; omega) fun h1 h2 => by rwa [RxqGrows, h1] at h2
  have same {m : Op Unit} (hm : Keeps (SameBy Block.rxq) m) : Keeps RxqGrows m := fun s =>
    (congrArg List.length (hm s)).le.trans (Nat.le_succ _)
  have happend (dg : Datagram) : Keeps RxqGrows (appendRx dg) := by
    intro s
    unfold appendRx
    split <;> simp [finalState]
  refine first (fun _ => rfl) fun s => .ite ?_ (same fun _ => rfl)
  refine first (fun _ => rfl) fun _ => first (apart_rxq.xact _ _) fun w => first (fun _ => rfl) fun _ => .ite ?_ ?_
  · exact first (apart_rxq.command _) fun _ => same (.bindSame (apart_rxq.regWrite _ _) fun _ _ => rfl)
  · refine first (apart_rxq.xact _ _) fun _ => first (fun _ => rfl) fun _ => ?_
    exact (happend _).comp (fun _ => Keeps.bindSame (f := Block.rxq) (apart_rxq.regWrite _ _) fun _ _ => rfl) id
      fun h1 h2 => by rwa [RxqGrows, h2]

/-- Step 5 hands out the head (43_event_loop.md R236). -/
theorem pollStep5_rxq : Keeps (fun s t => t.blk.rxq = s.blk.rxq.tail) pollStep5 := by
  intro s
  rw [pollStep5, get_bind]
  cases hq : s.blk.rxq with
  | nil => exact hq
  | cons dg rest =>
    simp only [op_bind, modifyBlk_eq]
    exact apart_rxq.invokeCallback s.blk.rxCb _ _

/-- Step 6 leaves the received queue. -/
theorem pollStep6_rxq : Keeps (SameBy Block.rxq) pollStep6 := by
  refine Keeps.bindSame (fun _ => rfl) fun s => ?_
  split
  · exact fun _ => rfl
  · exact .ite (Keeps.bindSame (apart_rxq.xact _ _) fun _ _ => rfl) fun _ => rfl

/-- The datagram a POLL takes in it also hands out, where it runs to its end. -/
theorem poll_rxq_empty {s t : State} {r : Result} (hs : s.blk.rxq = [])
    (h : (do
      pollStep1; pollStep2; pollStep3; pollStep4; pollStep5; pollStep6
      return Result.ok : Op Result) s = .ok r t) :
    t.blk.rxq = [] := by
  obtain ⟨_, s1, h1, h⟩ := bind_ok h
  obtain ⟨_, s2, h2, h⟩ := bind_ok h
  obtain ⟨_, s3, h3, h⟩ := bind_ok h
  obtain ⟨_, s4, h4, h⟩ := bind_ok h
  obtain ⟨_, s5, h5, h⟩ := bind_ok h
  obtain ⟨_, s6, h6, h⟩ := bind_ok h
  have q1 : s1.blk.rxq = [] := ((apart_rxq.pollStep1 fun _ _ => rfl).of_ok h1).trans hs
  have q2 : s2.blk.rxq.length ≤ 1 := by simpa [q1] using pollStep2_rxq.of_ok h2
  have q4 : s4.blk.rxq = s2.blk.rxq := (apart_rxq.pollStep4.of_ok h4).trans (apart_rxq.pollStep3.of_ok h3)
  have q5 : s5.blk.rxq = [] := by
    rw [pollStep5_rxq.of_ok h5, q4, ← List.length_eq_zero_iff, List.length_tail]
    omega
  cases h
  exact (pollStep6_rxq.of_ok h6).trans q5

/-! ### Every step -/

theorem advance_ne_idle {q : Seq} (h : q ≠ .idle) : q.advance ≠ .idle := by
  cases q with
  | idle => exact absurd rfl h
  | busy => exact Seq.noConfusion

/-- Within an operation the sequencer stays busy (10_state.md R31). -/
theorem Micro.seq_ne_idle {i : Instr} {s t : State} (h : Micro i s t) (hs : s.blk.seq ≠ .idle) : t.blk.seq ≠ .idle := by
  cases h with
  | call hcall => rwa [takeCall_blk hcall]
  | xfer => simpa [State.afterXfer] using advance_ne_idle hs
  | ce | dly | cbTx | cbRx => exact advance_ne_idle hs
  | _ => exact hs

theorem Reach.seq_ne_idle {i : Instr} {s t : State} (h : Reach i s t) (hs : s.blk.seq ≠ .idle) : t.blk.seq ≠ .idle := by
  induction h with
  | refl => exact hs
  | tail _ hstep ih => exact hstep.seq_ne_idle ih

/-- An instruction begun without a received datagram ends without one, unless it is cut short. -/
theorem exec_rxq_empty {i : Instr} {s t : State} (hs : s.blk.rxq = []) (h : exec i s = .next t)
    (ht : t.blk.seq = .idle) : t.blk.rxq = [] := by
  by_cases hpoll : i = .poll
  · subst hpoll
    obtain ⟨-, ⟨-, rfl⟩ | ⟨-, r, u, hu, rfl⟩ | ⟨-, e, he⟩⟩ := runHost_cases h
    · exact hs
    · exact poll_rxq_empty (s := s.accept .poll) (t := u) hs hu
    · have hrun := runs_poll (s.accept .poll)
      rw [Runs, he] at hrun
      exact absurd ht (hrun.seq_ne_idle Seq.noConfusion)
  · exact (exec_sameReceived h hpoll).1.trans hs

/-- Every instruction keeps the bounds: its operands fit, or it makes no micro-step that stores them. -/
theorem exec_bounded {i : Instr} {s t : State} (hs : s.Bounded) (h : exec i s = .next t) : t.Bounded := by
  have haccept : (s.accept i).Bounded := ⟨{ hs.1 with }, hs.2⟩
  have hfinish {u : State} (hu : u.Bounded) : u.finish.Bounded := ⟨{ hu.1 with }, hu.2⟩
  have hcomplete {u : State} (r : Result) (hu : u.Bounded) : (u.complete r).Bounded := ⟨{ hu.1 with }, hu.2⟩
  obtain ⟨-, hend⟩ := exec_ended h
  cases hend with
  | completed r hu hw =>
    obtain hw | rfl := hw
    · exact hcomplete r (hu.bounded (operandsFit_of_wf hw) haccept)
    · exact hcomplete r haccept
  | wired hu hw => exact hfinish (hu.bounded (operandsFit_of_wire hw) haccept)
  | cut hu hw => exact hu.bounded (operandsFit_of_wf hw) haccept

/-- Every instruction keeps the invariant. -/
theorem exec_inv {i : Instr} {s t : State} (hs : s.Inv) (h : exec i s = .next t) : t.Inv := by
  obtain ⟨hblk, hpeer⟩ := hs
  obtain ⟨hbounded, hrxq⟩ := Block.wf_iff_bounded.1 hblk
  obtain ⟨hb, hp⟩ := exec_bounded ⟨hbounded, hpeer⟩ h
  exact ⟨Block.wf_iff_bounded.2 ⟨hb, exec_rxq_empty (hrxq (exec_ended h).1) h⟩, hp⟩

/-- What is no instruction changes nothing of block and peer (30_encoding.md R113, R119). -/
theorem rejectRequest_inv {e : DecodeError} {s t : State} (hs : s.Inv) (h : rejectRequest e s = .next t) : t.Inv := by
  have hrefuse (h : refuseRequest s = .next t) : t.Inv := by
    unfold refuseRequest at h
    split at h
    · cases h
    · next hidle =>
      cases h
      obtain ⟨hblk, hpeer⟩ := hs
      obtain ⟨hb, hrxq⟩ := Block.wf_iff_bounded.1 hblk
      exact ⟨Block.wf_iff_bounded.2 ⟨{ hb with }, fun _ => hrxq (by simpa [State.idle] using hidle)⟩, hpeer⟩
  cases e with
  | noOperation | badOperand => exact hrefuse h
  | truncated | noCommand | badLength => cases h

/-- Settles O4: a step waits, resets, refuses a request or runs an instruction, and each keeps the invariant. -/
theorem stepKeepsTheInvariant : Obligations.StepKeepsTheInvariant := by
  intro s t hs h
  unfold step at h
  split at h
  · cases h
  split at h
  · unfold waitForHost at h
    split at h
    · cases h
      exact hs
    · cases h
  · cases h
    exact ⟨Block.reset_wf _, hs.2⟩
  · split at h
    · exact exec_inv (s := s.take _ _) hs h
    · exact rejectRequest_inv (s := s.take _ _) hs h

end Sys2Proof.Machine
end

section
/-! The hidden state is never read: what each operation is made of, and that every such part does the same in two states
that agree on the rest. -/

set_option Elab.async false

namespace Sys2Proof.Machine

open Sys2Proof

/-! ### What an operation is made of -/

/-- The blocks agree on all that an operation reads: the part of `AgreeButHidden` that speaks of the block. -/
abbrev Block.Agree (b d : Block) : Prop :=
  b.rxq = d.rxq ∧ b.txq = d.txq ∧ b.rxCb = d.rxCb ∧ b.txCb = d.txCb ∧ b.seq = d.seq

/-- With the configuration `c` the part is put together from interface events, updates of the block that read nothing
hidden, and looks at the state outside the hidden part; it writes no registers but `regs`. -/
inductive Made (c : Config) (regs : List Reg) : {α : Type} → Op α → Prop
  | pure {α : Type} (a : α) : Made c regs (pure a)
  | bind {α β : Type} {m : Op α} {f : α → Op β} (hm : Made c regs m) (hf : ∀ a, Made c regs (f a)) :
      Made c regs (m >>= f)
  /-- The codes are those of `c`. -/
  | codes {β : Type} {f : Codes → Op β} (hf : Made c regs (f c.codes)) : Made c regs (getCodes >>= f)
  | look {β : Type} {f : State → Op β} (hblind : ∀ s u, AgreeButHidden s u → f s = f u) (hf : ∀ s, Made c regs (f s)) :
      Made c regs (get >>= f)
  | send (cmd : WireCmd) (data : List Byte) (hreg : ∀ a, cmd = .wRegister a → a ∈ regs) :
      Made c regs (xact (c.codes.opcodeOf cmd) data)
  | level (b : Bool) : Made c regs (driveCe b)
  | call (e : Event) : Made c regs (callAndWait e)
  | update {f : Block → Block} (hf : ∀ b d, Block.Agree b d → Block.Agree (f b) (f d)) (hseq : ∀ b, (f b).seq = b.seq) :
      Made c regs (modifyBlk f)

/-- The registers an instruction may write (40_register_protocol.md to 43_event_loop.md). -/
def writtenRegs (c : Codes) : Instr → List Reg
  | .wRegister a _ | .rpWriteRegister a _ => [a]
  | .enterShutdown | .enterStandby | .enterRx | .enterTx | .setCrc _ => [c.regConfig]
  | .startListening _ | .stopListening _ => [c.regDynpd, c.regEnAa, c.regEnRxaddr]
  | .setChannel _ => [c.regRfCh]
  | .setDataRate _ | .setOutputPower _ => [c.regRfSetup]
  | .setRetryCount _ | .setRetryDelay _ => [c.regSetupRetr]
  | .setRxBaseAddress p _ => [baseReg c p]
  | .setRxAddress p _ => [c.regRxAddr p.toNat]
  | .setTxAddress _ => [c.regTxAddr]
  | .setDynPayload _ _ => [c.regDynpd]
  | .setAutoAck _ _ => [c.regEnAa]
  | .setPipeEnable _ _ => [c.regEnRxaddr]
  | .init => [c.regFeature, c.regStatus]
  | .poll => [c.regStatus]
  | .rRegister _ _ | .rRxPlWid | .rRxPayload _ | .wTxPayload _ | .wAckPayload _ _ | .wTxPayloadNoack _ | .flushTx
  | .flushRx | .reuseTxPl | .nop | .rpReadRegister _ _ | .rpReadPayload _ | .rpWritePayload _ | .rpFlushRx | .rpFlushTx
  | .rpReuseTxPl | .rpReadPayloadWidth | .rpWriteAckPayload _ _ | .rpWriteNoackPayload _ | .rpNop | .getCrc
  | .getChannel | .getDataRate | .getOutputPower | .getRetryCount | .getRetryDelay | .getRxBaseAddress _
  | .getRxAddress _ | .getTxAddress | .getDynPayload _ | .getAutoAck _ | .getPipeEnable _ | .enqueueData _
  | .setRxCallback _ | .setTxCallback _ => []

namespace Made

variable {c : Config} {regs : List Reg}

/-- A part, and then a value made from what it gives. -/
theorem thenPure {α β : Type} {m : Op α} {g : α → β} (hm : Made c regs m) :
    Made c regs (m >>= fun a => (Pure.pure (g a) : Op β)) := hm.bind fun _ => .pure _

theorem ite {α : Type} {p : Prop} [Decidable p] {m n : Op α} (hm : Made c regs m) (hn : Made c regs n) :
    Made c regs (if p then m else n) := by
  split
  · exact hm
  · exact hn

theorem regRead (a : Reg) (n : Nat) : Made c regs (regRead a n) := .codes (.send (.rRegister a) _ fun _ h => nomatch h)

theorem regReadByte (a : Reg) : Made c regs (regReadByte a) := .thenPure (.regRead a 1)

theorem regWrite {a : Reg} (ha : a ∈ regs) (bs : List Byte) : Made c regs (regWrite a bs) :=
  .codes (.thenPure (.send (.wRegister a) _ (by rintro b ⟨⟩; exact ha)))

/-- The value read is latched and nothing reads the latch. -/
theorem vTmp (bs : List Byte) : Made c regs (modifyBlk fun b => { b with vTmp := bs }) :=
  .update (fun _ _ h => h) fun _ => rfl

theorem rmw {a : Reg} (ha : a ∈ regs) (clr ones : Byte) : Made c regs (rmw a clr ones) :=
  .bind (.regReadByte a) fun _ => .bind (.vTmp _) fun _ => .thenPure (.regWrite ha _)

theorem command (cmd : WireCmd) {op : Codes → Byte} (hop : c.codes.opcodeOf cmd = op c.codes)
    (hcmd : ∀ a, cmd ≠ .wRegister a) : Made c regs (command op) := by
  refine .codes (.thenPure ?_)
  rw [← hop]
  exact .send cmd [] fun a h => absurd h (hcmd a)

theorem setMode (m : Mode) : Made c regs (setMode m) := .update (fun _ _ h => h) fun _ => rfl

theorem getPipeBit (reg : Codes → Reg) (bits : Codes → Vector Byte 6) (p : Pipe) :
    Made c regs (getPipeBit reg bits p) :=
  .ite (.pure _) (.codes (.thenPure (.regReadByte _)))

theorem setPipeBit {reg : Codes → Reg} (hreg : reg c.codes ∈ regs) (bits : Codes → Vector Byte 6) (p : Pipe)
    (e : Bool) : Made c regs (setPipeBit reg bits p e) :=
  .ite (.pure _) (.codes (.ite (.thenPure (.rmw hreg _ _)) (.thenPure (.rmw hreg _ _))))

end Made

/-- ENQUEUE_DATA looks at the TX queue, which is not hidden. -/
theorem made_enqueueData {c : Config} {regs : List Reg} (dg : Datagram) : Made c regs (do
    let t ← get
    if detTxqFull t then return Result.fail
    modifyBlk (fun b => { b with txq := b.txq ++ [dg] })
    return .ok) := by
  refine .look (fun s u h => ?_) fun s => .ite (.pure _) (.thenPure (.update (fun b d h => ?_) fun _ => rfl))
  · obtain ⟨hcfg, -, -, -, -, -, -, htxq, -⟩ := h
    rw [show detTxqFull s = detTxqFull u by rw [detTxqFull, detTxqFull, hcfg, htxq]]
  · obtain ⟨hrxq, htxq, hrest⟩ := h
    exact ⟨hrxq, by simp only [htxq], hrest⟩

/-- WHAT AN INSTRUCTION IS MADE OF, POLL apart: a host operation runs a body that depends on the configuration alone; a
wire command is one transaction. -/
theorem exec_made (c : Config) {i : Instr} (hi : i ≠ .poll) :
    (∃ body, (∀ s, s.cfg = c → exec i s = runHost i body s) ∧ Made c (writtenRegs c.codes i) body)
      ∨ ∃ cmd data, (∀ s, s.cfg = c → exec i s = runWire i (xact (c.codes.opcodeOf cmd) data) s)
        ∧ ∀ a, cmd = .wRegister a → a ∈ writtenRegs c.codes i := by
  cases i with
  | poll => exact absurd rfl hi
  | rRegister a => exact .inr ⟨.rRegister a, _, fun s hs => by subst hs; rfl, fun _ h => nomatch h⟩
  | wRegister a => exact .inr ⟨.wRegister a, _, fun s hs => by subst hs; rfl, by rintro b ⟨⟩; exact List.mem_cons_self⟩
  | rRxPlWid => exact .inr ⟨.rRxPlWid, _, fun s hs => by subst hs; rfl, fun _ h => nomatch h⟩
  | rRxPayload => exact .inr ⟨.rRxPayload, _, fun s hs => by subst hs; rfl, fun _ h => nomatch h⟩
  | wTxPayload => exact .inr ⟨.wTxPayload, _, fun s hs => by subst hs; rfl, fun _ h => nomatch h⟩
  | wAckPayload p => exact .inr ⟨.wAckPayload p, _, fun s hs => by subst hs; rfl, fun _ h => nomatch h⟩
  | wTxPayloadNoack => exact .inr ⟨.wTxPayloadNoack, _, fun s hs => by subst hs; rfl, fun _ h => nomatch h⟩
  | flushTx => exact .inr ⟨.flushTx, _, fun s hs => by subst hs; rfl, fun _ h => nomatch h⟩
  | flushRx => exact .inr ⟨.flushRx, _, fun s hs => by subst hs; rfl, fun _ h => nomatch h⟩
  | reuseTxPl => exact .inr ⟨.reuseTxPl, _, fun s hs => by subst hs; rfl, fun _ h => nomatch h⟩
  | nop => exact .inr ⟨.nop, _, fun s hs => by subst hs; rfl, fun _ h => nomatch h⟩
  | rpReadRegister => exact .inl ⟨_, fun _ _ => rfl, .thenPure (.regRead _ _)⟩
  | rpWriteRegister => exact .inl ⟨_, fun _ _ => rfl, .thenPure (.regWrite List.mem_cons_self _)⟩
  | rpReadPayload => exact .inl ⟨_, fun _ _ => rfl, .codes (.thenPure (.send .rRxPayload _ fun _ h => nomatch h))⟩
  | rpWritePayload => exact .inl ⟨_, fun _ _ => rfl, .codes (.thenPure (.send .wTxPayload _ fun _ h => nomatch h))⟩
  | rpReadPayloadWidth => exact .inl ⟨_, fun _ _ => rfl, .codes (.thenPure (.send .rRxPlWid _ fun _ h => nomatch h))⟩
  | rpWriteAckPayload p =>
    exact .inl ⟨_, fun _ _ => rfl, .codes (.thenPure (.send (.wAckPayload p) _ fun _ h => nomatch h))⟩
  | rpWriteNoackPayload =>
    exact .inl ⟨_, fun _ _ => rfl, .codes (.thenPure (.send .wTxPayloadNoack _ fun _ h => nomatch h))⟩
  | rpFlushRx => exact .inl ⟨_, fun _ _ => rfl, .thenPure (.command .flushRx rfl fun _ h => nomatch h)⟩
  | rpFlushTx => exact .inl ⟨_, fun _ _ => rfl, .thenPure (.command .flushTx rfl fun _ h => nomatch h)⟩
  | rpReuseTxPl => exact .inl ⟨_, fun _ _ => rfl, .thenPure (.command .reuseTxPl rfl fun _ h => nomatch h)⟩
  | rpNop => exact .inl ⟨_, fun _ _ => rfl, .thenPure (.command .nop rfl fun _ h => nomatch h)⟩
  | enterShutdown | enterStandby =>
    exact .inl ⟨_, fun _ _ => rfl, .codes (.bind (.level _) fun _ => .bind (.rmw List.mem_cons_self _ _) fun _ =>
      .thenPure (.setMode _))⟩
  | enterRx =>
    refine .inl ⟨do
      let k ← getCodes
      let _ ← rmw k.regConfig 0 (k.mPwrUp ||| k.mPrimRx)
      driveCe true
      delay c.tRxSettle
      setMode .rx
      return .ok, fun s hs => by subst hs; rfl, ?_⟩
    exact .codes (.bind (.rmw List.mem_cons_self _ _) fun _ => .bind (.level _) fun _ => .bind (.call _) fun _ =>
      .thenPure (.setMode _))
  | enterTx =>
    refine .inl ⟨do
      let k ← getCodes
      let _ ← rmw k.regConfig k.mPrimRx k.mPwrUp
      driveCe true
      delay c.tTxSettle
      setMode .tx
      return .ok, fun s hs => by subst hs; rfl, ?_⟩
    exact .codes (.bind (.rmw List.mem_cons_self _ _) fun _ => .bind (.level _) fun _ => .bind (.call _) fun _ =>
      .thenPure (.setMode _))
  | startListening | stopListening =>
    exact .inl ⟨_, fun _ _ => rfl, .ite (.pure _) (.codes (.bind (.rmw List.mem_cons_self _ _) fun _ =>
      .bind (.rmw (List.mem_cons_of_mem _ List.mem_cons_self) _ _) fun _ =>
      .thenPure (.rmw (List.mem_cons_of_mem _ (List.mem_cons_of_mem _ List.mem_cons_self)) _ _)))⟩
  | getCrc | getChannel | getOutputPower | getRetryCount | getRetryDelay =>
    exact .inl ⟨_, fun _ _ => rfl, .codes (.thenPure (.regReadByte _))⟩
  | setCrc | setDataRate | setOutputPower | setRetryCount | setRetryDelay =>
    exact .inl ⟨_, fun _ _ => rfl, .codes (.thenPure (.rmw List.mem_cons_self _ _))⟩
  | setChannel =>
    exact .inl ⟨_, fun _ _ => rfl, .ite (.pure _) (.codes (.thenPure (.regWrite List.mem_cons_self _)))⟩
  | getDataRate =>
    refine .inl ⟨_, fun _ _ => rfl, .codes (.bind (.regReadByte _) fun v => ?_)⟩
    split
    · exact .pure _
    · exact .pure _
  | getRxBaseAddress => exact .inl ⟨_, fun _ _ => rfl, .ite (.pure _) (.codes (.thenPure (.regRead _ _)))⟩
  | setRxBaseAddress =>
    exact .inl ⟨_, fun _ _ => rfl, .ite (.pure _) (.codes (.bind (.regRead _ _) fun _ => .bind (.vTmp _) fun _ =>
      .thenPure (.regWrite List.mem_cons_self _)))⟩
  | getRxAddress =>
    exact .inl ⟨_, fun _ _ => rfl, .ite (.pure _) (.codes (.ite (.thenPure (.regRead _ _))
      (.bind (.regRead _ _) fun _ => .thenPure (.regReadByte _))))⟩
  | setRxAddress =>
    exact .inl ⟨_, fun _ _ => rfl, .ite (.pure _) (.codes (.ite (.thenPure (.regWrite List.mem_cons_self _))
      (.thenPure (.regWrite List.mem_cons_self _))))⟩
  | getTxAddress => exact .inl ⟨_, fun _ _ => rfl, .codes (.thenPure (.regRead _ _))⟩
  | setTxAddress => exact .inl ⟨_, fun _ _ => rfl, .codes (.thenPure (.regWrite List.mem_cons_self _))⟩
  | getDynPayload | getAutoAck | getPipeEnable => exact .inl ⟨_, fun _ _ => rfl, .getPipeBit _ _ _⟩
  | setDynPayload | setAutoAck | setPipeEnable =>
    exact .inl ⟨_, fun _ _ => rfl, .setPipeBit List.mem_cons_self _ _ _⟩
  | init =>
    exact .inl ⟨_, fun _ _ => rfl, .codes (.bind (.rmw List.mem_cons_self _ _) fun _ =>
      .bind (.regWrite (List.mem_cons_of_mem _ List.mem_cons_self) _) fun _ =>
      .bind (.command .flushRx rfl fun _ h => nomatch h) fun _ =>
      .thenPure (.command .flushTx rfl fun _ h => nomatch h))⟩
  | enqueueData dg => exact .inl ⟨_, fun _ _ => rfl, made_enqueueData dg⟩
  | setRxCallback cb =>
    exact .inl ⟨_, fun s _ => (rfl : execSetRxCallback cb s = _), .thenPure (.update
      (fun _ _ ⟨hrxq, htxq, _, hrest⟩ => ⟨hrxq, htxq, rfl, hrest⟩) fun _ => rfl)⟩
  | setTxCallback cb =>
    exact .inl ⟨_, fun s _ => (rfl : execSetTxCallback cb s = _), .thenPure (.update
      (fun _ _ ⟨hrxq, htxq, hrx, _, hseq⟩ => ⟨hrxq, htxq, hrx, rfl, hseq⟩) fun _ => rfl)⟩

/-! ### Two runs side by side -/

section
variable {s u : State}

theorem AgreeButHidden.cfg (h : AgreeButHidden s u) : s.cfg = u.cfg := by
  obtain ⟨hcfg, -⟩ := h
  exact hcfg

theorem AgreeButHidden.blk (h : AgreeButHidden s u) : Block.Agree s.blk u.blk := by
  obtain ⟨-, -, -, -, -, -, hblk⟩ := h
  exact hblk

/-- An update of the block that keeps the agreement of the blocks keeps that of the states. -/
theorem AgreeButHidden.onBlk (h : AgreeButHidden s u) {f g : Block → Block} (hfg : Block.Agree (f s.blk) (g u.blk)) :
    AgreeButHidden (s.onBlk f) (u.onBlk g) := by
  obtain ⟨hcfg, hpeer, henv, htrace, hres, hin, -⟩ := h
  exact ⟨hcfg, hpeer, henv, htrace, hres, hin, hfg⟩

theorem AgreeButHidden.fillXbuf (h : AgreeButHidden s u) (bs : List Byte) :
    AgreeButHidden (s.fillXbuf bs) (u.fillXbuf bs) := h.onBlk h.blk

theorem AgreeButHidden.emit (h : AgreeButHidden s u) (e : Event) : AgreeButHidden (s.emit e) (u.emit e) := by
  obtain ⟨hcfg, hpeer, henv, htrace, hres, hin, hrxq, htxq, hrx, htx, hseq⟩ := h
  exact ⟨hcfg, hpeer, henv, congrArg (· ++ [e]) htrace, hres, hin, hrxq, htxq, hrx, htx, congrArg Seq.advance hseq⟩

/-- The peer's answer reads nothing hidden. -/
theorem AgreeButHidden.answer (h : AgreeButHidden s u) (tx : List Byte) :
    (answer tx s).1 = (answer tx u).1 ∧ AgreeButHidden (answer tx s).2 (answer tx u).2 := by
  obtain ⟨hcfg, hpeer, henv, htrace, hres, hin, hblk⟩ := h
  obtain ⟨hrx, hpeer', henv'⟩ := answer_congr hcfg hpeer henv tx
  exact ⟨hrx, by simpa using hcfg, hpeer', henv', by simpa using htrace, by simpa using hres, by simpa using hin,
    by simpa using hblk⟩

theorem AgreeButHidden.afterXfer (h : AgreeButHidden s u) (tx : List Byte) :
    AgreeButHidden (s.afterXfer tx) (u.afterXfer tx) := by
  obtain ⟨hrx, hans⟩ := h.answer tx
  simp only [State.afterXfer, hrx]
  have hfill := hans.fillXbuf (Machine.answer tx u).1
  exact (hfill.onBlk hfill.blk).emit _

/-- A call returns in both states or in neither. -/
theorem AgreeButHidden.takeCall (h : AgreeButHidden s u) : (s.takeCall = none ∧ u.takeCall = none)
    ∨ ∃ t v, s.takeCall = some t ∧ u.takeCall = some v ∧ AgreeButHidden t v := by
  obtain ⟨hcfg, hpeer, henv, hrest⟩ := h
  simp only [State.takeCall, henv]
  cases u.env.allow with
  | none => exact .inr ⟨s, u, rfl, rfl, hcfg, hpeer, henv, hrest⟩
  | some n =>
    cases n with
    | zero => exact .inl ⟨rfl, rfl⟩
    | succ n => exact .inr ⟨_, _, rfl, rfl, hcfg, hpeer, rfl, hrest⟩

end

/-- The states agree on all but the hidden part, and on what `see` reads of it; their configuration is `c`. -/
structure AgreeBy {α : Type} (c : Config) (see : Block → α) (s u : State) : Prop where
  cfg : s.cfg = c
  agree : AgreeButHidden s u
  seen : see s.blk = see u.blk

/-- Two parts end alike: both return the same value in related states, or both halt in states that agree. -/
inductive SameEnd {α : Type} (Q : State → State → Prop) :
    EStateM.Result Halt State α → EStateM.Result Halt State α → Prop
  | ok (a : α) {t v : State} (h : Q t v) : SameEnd Q (.ok a t) (.ok a v)
  | halt (e : Halt) {t v : State} (h : AgreeButHidden t v) : SameEnd Q (.error e t) (.error e v)

/-- From states related by `R` the part runs alike, to states related by `Q` where it returns. -/
def Alike {α : Type} (R Q : State → State → Prop) (m : Op α) : Prop := ∀ s u, R s u → SameEnd Q (m s) (m u)

namespace Alike

variable {R Q T : State → State → Prop}

theorem pure {α : Type} (a : α) : Alike R R (pure a : Op α) := fun _ _ h => .ok a h

theorem bind {α β : Type} {m : Op α} {f : α → Op β} (hm : Alike R Q m) (hf : ∀ a, Alike Q T (f a)) :
    Alike R T (m >>= f) := by
  intro s u h
  have hend := hm s u h
  rw [op_bind, op_bind]
  generalize m s = x, m u = y at hend
  cases hend with
  | ok a h => exact hf a _ _ h
  | halt e h => exact .halt e h

theorem ite {α : Type} {p : Prop} [Decidable p] {m n : Op α} (hm : Alike R Q m) (hn : Alike R Q n) :
    Alike R Q (if p then m else n) := by
  split
  · exact hm
  · exact hn

/-- Less may be asked for where the part returns. -/
theorem weaken {α : Type} {m : Op α} (hm : Alike R Q m) (hQT : ∀ s u, Q s u → T s u) : Alike R T m := by
  intro s u h
  have hend := hm s u h
  generalize m s = x, m u = y at hend
  cases hend with
  | ok a h => exact .ok a (hQT _ _ h)
  | halt e h => exact .halt e h

/-- A look at the state, where what follows is the same part from both states. -/
theorem look {β : Type} {f : State → Op β} (hsame : ∀ s u, R s u → f s = f u) (hf : ∀ s, Alike R Q (f s)) :
    Alike R Q (get >>= f) := by
  intro s u h
  rw [get_bind, get_bind, ← hsame s u h]
  exact hf s s u h

section
variable {α : Type} {c : Config} {see : Block → α}

theorem codes {β : Type} {f : Codes → Op β} (hf : Alike (AgreeBy c see) Q (f c.codes)) :
    Alike (AgreeBy c see) Q (getCodes >>= f) := by
  intro s u h
  rw [getCodes_bind, getCodes_bind, ← h.agree.cfg, h.cfg]
  exact hf s u h

theorem modifyBlk {β : Type} {f : Block → Block} {see' : Block → β}
    (hf : ∀ b d, Block.Agree b d → Block.Agree (f b) (f d)) (hsee : ∀ b d, see b = see d → see' (f b) = see' (f d)) :
    Alike (AgreeBy c see) (AgreeBy c see') (modifyBlk f) :=
  fun _ _ h => .ok () ⟨h.cfg, h.agree.onBlk (hf _ _ h.agree.blk), hsee _ _ h.seen⟩

theorem xact (hsee : Apart see) (op : Byte) (data : List Byte) :
    Alike (AgreeBy c see) (AgreeBy c see) (xact op data) := by
  intro s u h
  have hfill := h.agree.fillXbuf (op :: data)
  unfold Machine.xact
  simp only
  obtain ⟨hs, hu⟩ | ⟨t, v, hs, hu, htv⟩ := hfill.takeCall
  · simp only [hs, hu]
    exact .halt _ hfill
  · simp only [hs, hu, (htv.answer (op :: data)).1]
    refine .ok _ ⟨?_, htv.afterXfer _, ?_⟩
    · simp [State.afterXfer, takeCall_cfg hs, h.cfg]
    · rw [hsee.afterXfer, hsee.afterXfer, takeCall_blk hs, takeCall_blk hu, hsee.fillXbuf, hsee.fillXbuf, h.seen]

theorem callAndWait (hsee : Apart see) (e : Event) : Alike (AgreeBy c see) (AgreeBy c see) (callAndWait e) := by
  intro s u h
  have hemit := h.agree.emit e
  unfold Machine.callAndWait
  simp only
  obtain ⟨hs, hu⟩ | ⟨t, v, hs, hu, htv⟩ := hemit.takeCall
  · simp only [hs, hu]
    exact .halt _ hemit
  · simp only [hs, hu]
    refine .ok _ ⟨(takeCall_cfg hs).trans h.cfg, htv, ?_⟩
    rw [takeCall_blk hs, takeCall_blk hu, hsee.emit, hsee.emit, h.seen]

theorem invokeCallback (hsee : Apart see) (cb : Option Callback) (e : Callback → Event) :
    Alike (AgreeBy c see) (AgreeBy c see) (invokeCallback cb e) := by
  cases cb with
  | none => exact .pure ()
  | some f => exact .callAndWait hsee (e f)

theorem regWrite (hsee : Apart see) (a : Reg) (bs : List Byte) :
    Alike (AgreeBy c see) (AgreeBy c see) (regWrite a bs) :=
  .codes (.bind (.xact hsee _ _) fun _ => .pure _)

theorem command (hsee : Apart see) (op : Codes → Byte) : Alike (AgreeBy c see) (AgreeBy c see) (command op) :=
  .codes (.bind (.xact hsee _ _) fun _ => .pure _)

theorem appendRx (hsee : ∀ b x, see { b with rxq := x } = see b) (dg : Datagram) :
    Alike (AgreeBy c see) (AgreeBy c see) (appendRx dg) := by
  intro s u h
  obtain ⟨hrxq, hrest⟩ := h.agree.blk
  have hfull : detRxqFull s = detRxqFull u := by rw [detRxqFull, detRxqFull, hrxq, h.agree.cfg]
  unfold Machine.appendRx
  rw [hfull]
  split
  · exact .ok () h
  · refine .ok () ⟨h.cfg, h.agree.onBlk ⟨congrArg (· ++ [dg]) hrxq, hrest⟩, ?_⟩
    exact (hsee _ _).trans (h.seen.trans (hsee _ _).symm)

end

end Alike

theorem apart_none : Apart fun _ : Block => () := ⟨fun _ _ => rfl, fun _ _ => rfl, fun _ _ => rfl⟩

/-- Whatever an operation is made of, it runs alike in states that agree on all but the hidden part. -/
theorem Made.alike {c : Config} {regs : List Reg} {α : Type} {m : Op α} (hm : Made c regs m) :
    Alike (AgreeBy c fun _ => ()) (AgreeBy c fun _ => ()) m := by
  induction hm with
  | pure a => exact .pure a
  | bind _ _ ihm ihf => exact ihm.bind ihf
  | codes _ ih => exact .codes ih
  | look hblind _ ih => exact .look (fun s u h => hblind s u h.agree) ih
  | send cmd data => exact .xact apart_none _ _
  | level b =>
    intro s u h
    have hce : AgreeButHidden (s.onBlk fun x => { x with ce := b }) (u.onBlk fun x => { x with ce := b }) :=
      h.agree.onBlk h.agree.blk
    exact .ok () ⟨h.cfg, hce.emit _, rfl⟩
  | call e => exact .callAndWait apart_none e
  | update hf => exact .modifyBlk hf fun _ _ _ => rfl

/-! ### POLL: what it reads of the hidden part it has written itself -/

theorem apart_pollStatus : Apart Block.pollStatus := ⟨fun _ _ => rfl, fun _ _ => rfl, fun _ _ => rfl⟩

/-- The two latches that step 2 reads. -/
abbrev Block.pollLatches (b : Block) : Option Byte × Pipe := (b.pollStatus, b.pLat)

theorem apart_pollLatches : Apart Block.pollLatches := ⟨fun _ _ => rfl, fun _ _ => rfl, fun _ _ => rfl⟩

/-- States with the same status latched have the same latched byte. -/
theorem AgreeBy.latched {c : Config} {s u : State} (h : AgreeBy c Block.pollStatus s u) : s.latched = u.latched :=
  congrArg (·.getD 0) h.seen

namespace Alike

variable {c : Config}

/-- Step 1 latches the status it has read (43_event_loop.md R232). -/
theorem pollStep1 : Alike (AgreeBy c fun _ => ()) (AgreeBy c Block.pollStatus) pollStep1 :=
  .bind (.command apart_none _) fun _ => .modifyBlk (fun _ _ h => h) fun _ _ _ => rfl

/-- Step 2 latches the pipe before it reads it. -/
theorem pollStep2 : Alike (AgreeBy c Block.pollStatus) (AgreeBy c Block.pollStatus) pollStep2 := by
  refine .look (fun s u h => by rw [h.latched, h.agree.cfg]) fun s => .ite ?_ (.pure _)
  refine .weaken (Q := AgreeBy c Block.pollLatches) ?_ fun _ _ h => ⟨h.cfg, h.agree, congrArg Prod.fst h.seen⟩
  refine .bind (.modifyBlk (see' := Block.pollLatches) (fun _ _ h => h) fun _ _ h => Prod.ext h rfl) fun _ => ?_
  refine .bind (.xact apart_pollLatches _ _) fun w =>
    .bind (.modifyBlk (see' := Block.pollLatches) (fun _ _ h => h) fun _ _ h => h) fun _ => .ite ?_ ?_
  · exact .bind (.command apart_pollLatches _) fun _ => .bind (.regWrite apart_pollLatches _ _) fun _ => .pure _
  · refine .bind (.xact apart_pollLatches _ _) fun r => .look (fun t v h => ?_) fun _ =>
      .bind (.appendRx (fun _ _ => rfl) _) fun _ => .bind (.regWrite apart_pollLatches _ _) fun _ => .pure _
    rw [show t.blk.pLat = v.blk.pLat from congrArg Prod.snd h.seen]

theorem pollStep3 : Alike (AgreeBy c Block.pollStatus) (AgreeBy c Block.pollStatus) pollStep3 := by
  refine .look (fun s u h => ?_) fun s => .ite (.bind (.invokeCallback apart_pollStatus _ _) fun _ =>
    .bind (.regWrite apart_pollStatus _ _) fun _ => .pure _) (.pure _)
  obtain ⟨-, -, -, htx, -⟩ := h.agree.blk
  rw [h.latched, h.agree.cfg, htx]

theorem pollStep4 : Alike (AgreeBy c Block.pollStatus) (AgreeBy c Block.pollStatus) pollStep4 :=
  .look (fun s u h => by rw [h.latched, h.agree.cfg]) fun s => .ite (.bind (.command apart_pollStatus _) fun _ =>
    .bind (.regWrite apart_pollStatus _ _) fun _ => .pure _) (.pure _)

theorem pollStep5 : Alike (AgreeBy c Block.pollStatus) (AgreeBy c Block.pollStatus) pollStep5 := by
  refine .look (fun s u h => ?_) fun s => ?_
  · obtain ⟨hrxq, -, hrx, -⟩ := h.agree.blk
    rw [hrxq, hrx]
  · split
    · exact .pure _
    · exact .bind (.modifyBlk (fun _ _ ⟨_, hrest⟩ => ⟨rfl, hrest⟩) fun _ _ h => h) fun _ =>
        .invokeCallback apart_pollStatus _ _

theorem pollStep6 : Alike (AgreeBy c Block.pollStatus) (AgreeBy c Block.pollStatus) pollStep6 := by
  refine .look (fun s u h => ?_) fun s => ?_
  · obtain ⟨-, htxq, -⟩ := h.agree.blk
    rw [htxq, detTxFifoFull, detTxFifoFull, h.latched, h.agree.cfg]
  · split
    · exact .pure _
    · exact .ite (.bind (.xact apart_pollStatus _ _) fun _ =>
        .modifyBlk (fun _ _ ⟨hrxq, _, hrest⟩ => ⟨hrxq, rfl, hrest⟩) fun _ _ h => h) (.pure _)

end Alike

/-! ### Every instruction -/

/-- Two outcomes are of one kind, with the same reason or with states that agree. -/
inductive SameOutcome : Host.Outcome State Fault Refusal → Host.Outcome State Fault Refusal → Prop
  | next {t v : State} (h : AgreeButHidden t v) : SameOutcome (.next t) (.next v)
  | fault (f : Fault) : SameOutcome (.fault f) (.fault f)
  | refused (r : Refusal) : SameOutcome (.refused r) (.refused r)

section
variable {s u : State} {i : Instr}

theorem AgreeButHidden.accept (h : AgreeButHidden s u) (i : Instr) : AgreeButHidden (s.accept i) (u.accept i) := by
  obtain ⟨hrxq, htxq, hrx, htx, -⟩ := h.blk
  exact h.onBlk ⟨hrxq, htxq, hrx, htx, rfl⟩

theorem AgreeButHidden.finish (h : AgreeButHidden s u) : AgreeButHidden s.finish u.finish := by
  obtain ⟨hrxq, htxq, hrx, htx, -⟩ := h.blk
  exact h.onBlk ⟨hrxq, htxq, hrx, htx, rfl⟩

theorem AgreeButHidden.complete (h : AgreeButHidden s u) (r : Result) :
    AgreeButHidden (s.complete r) (u.complete r) := by
  obtain ⟨hcfg, hpeer, henv, htrace, hres, hrest⟩ := h.finish
  exact ⟨hcfg, hpeer, henv, htrace, congrArg (· ++ [r]) hres, hrest⟩

theorem AgreeButHidden.idle_eq (h : AgreeButHidden s u) : s.idle = u.idle := by
  obtain ⟨-, -, -, -, hseq⟩ := h.blk
  rw [State.idle, State.idle, hseq]

theorem AgreeButHidden.runHost {α : Type} {see : Block → α} {body : Op Result} (h : AgreeButHidden s u)
    (hbody : Alike (AgreeBy s.cfg fun _ => ()) (AgreeBy s.cfg see) body) :
    SameOutcome (runHost i body s) (runHost i body u) := by
  have hend := hbody (s.accept i) (u.accept i) ⟨rfl, h.accept i, rfl⟩
  unfold Machine.runHost
  rw [h.idle_eq, h.cfg]
  split
  · exact .fault _
  split
  · exact .next ((h.accept i).complete _)
  generalize body (s.accept i) = x, body (u.accept i) = y at hend
  cases hend with
  | ok r hQ => exact .next (hQ.agree.complete r)
  | halt e hagree => exact .next hagree

theorem AgreeButHidden.runWire {α : Type} {see : Block → α} {body : Op (Byte × List Byte)} (h : AgreeButHidden s u)
    (hbody : Alike (AgreeBy s.cfg fun _ => ()) (AgreeBy s.cfg see) body) :
    SameOutcome (runWire i body s) (runWire i body u) := by
  have hend := hbody (s.accept i) (u.accept i) ⟨rfl, h.accept i, rfl⟩
  unfold Machine.runWire
  rw [h.idle_eq, h.cfg]
  split
  · exact .fault _
  split
  · exact .refused _
  generalize body (s.accept i) = x, body (u.accept i) = y at hend
  cases hend with
  | ok r hQ => exact .next hQ.agree.finish
  | halt e hagree => exact .next hagree

/-- Every instruction runs alike in states that agree on all but the hidden part. -/
theorem AgreeButHidden.exec (h : AgreeButHidden s u) (i : Instr) : SameOutcome (exec i s) (exec i u) := by
  by_cases hpoll : i = .poll
  · subst hpoll
    exact h.runHost (.bind .pollStep1 fun _ => .bind .pollStep2 fun _ => .bind .pollStep3 fun _ =>
      .bind .pollStep4 fun _ => .bind .pollStep5 fun _ => .bind .pollStep6 fun _ => .pure _)
  · obtain ⟨body, hexec, hmade⟩ | ⟨cmd, data, hexec, -⟩ := exec_made s.cfg hpoll
    · rw [hexec s rfl, hexec u h.cfg.symm]
      exact h.runHost hmade.alike
    · rw [hexec s rfl, hexec u h.cfg.symm]
      exact h.runWire (.xact apart_none _ _)

end

/-- Settles O58: an operation is made of parts that read nothing hidden, but for the latches of POLL, which POLL writes
first. -/
theorem hiddenStateIsNeverRead : Obligations.HiddenStateIsNeverRead := by
  intro i s u h
  have hsame := h.exec i
  generalize exec i s = x, exec i u = y at hsame
  cases hsame with
  | next hagree => exact hagree
  | fault => rfl
  | refused => rfl

end Sys2Proof.Machine
end

section
/-! The mode mirror: in the reference peer the CONFIG byte changes by a write to CONFIG alone, which only SET_CRC and
the ENTER operations make; each of these makes one RMW of it. -/

set_option Elab.async false

namespace Sys2Proof.Machine

open Sys2Proof

/-! ### A part that returned under an allowance of calls -/

/-- The state with another allowance of calls. -/
def State.withAllow (n : Option Nat) (s : State) : State := { s with env := { s.env with allow := n } }

/-- A call that returns changes the allowance alone. -/
theorem takeCall_eq_withAllow {s t : State} (h : s.takeCall = some t) : ∃ n, t = s.withAllow n := by
  unfold State.takeCall at h
  split at h
  · cases h
    exact ⟨s.env.allow, rfl⟩
  · cases h
  · cases h
    exact ⟨_, rfl⟩

/-- The peer does not see the allowance. -/
theorem answer_withAllow (tx : List Byte) (n : Option Nat) (s : State) :
    answer tx (s.withAllow n) = ((answer tx s).1, (answer tx s).2.withAllow n) := by
  rcases h : s.env.level <;> simp [answer, State.withAllow, h]

theorem afterXfer_withAllow (tx : List Byte) (n : Option Nat) (s : State) :
    (s.withAllow n).afterXfer tx = (s.afterXfer tx).withAllow n := by
  simp only [State.afterXfer, answer_withAllow]
  rfl

theorem xacted_withAllow (op : Byte) (data : List Byte) (n : Option Nat) (s : State) :
    (s.withAllow n).xacted op data = (s.xacted op data).withAllow n :=
  afterXfer_withAllow _ n (s.fillXbuf _)

/-- A transaction that returned did what it does where all calls return. -/
theorem xact_ok {op : Byte} {data : List Byte} {s t : State} {r : Byte × List Byte} (h : xact op data s = .ok r t) :
    r = (byteAt (s.reply op data) 0, (s.reply op data).tail) ∧ ∃ n, t = (s.xacted op data).withAllow n := by
  unfold xact at h
  simp only at h
  split at h
  · cases h
  · next u hu =>
    obtain ⟨n, rfl⟩ := takeCall_eq_withAllow hu
    simp only [answer_withAllow, answer_fillXbuf, afterXfer_withAllow, EStateM.Result.ok.injEq] at h
    exact ⟨h.1.symm, n, h.2.symm⟩

theorem regReadByte_ok {a : Reg} {s t : State} {v : Byte} (h : regReadByte a s = .ok v t) :
    v = s.rmwRead a ∧ ∃ n, t = (s.xacted (opWithReg s.cfg.codes.opcRRegister a) [fill]).withAllow n := by
  obtain ⟨r, t', hread, hpure⟩ := bind_ok h
  obtain ⟨c, s', hcodes, hx⟩ := bind_ok hread
  cases hcodes
  obtain ⟨rfl, n, rfl⟩ := xact_ok hx
  cases hpure
  exact ⟨rfl, n, rfl⟩

theorem regWrite_ok {a : Reg} {bs : List Byte} {s t : State} {st : Byte} (h : regWrite a bs s = .ok st t) :
    ∃ n, t = (s.xacted (opWithReg s.cfg.codes.opcWRegister a) bs).withAllow n := by
  obtain ⟨c, s', hcodes, hx⟩ := bind_ok h
  cases hcodes
  obtain ⟨r, t', hx, hpure⟩ := bind_ok hx
  obtain ⟨-, n, rfl⟩ := xact_ok hx
  cases hpure
  exact ⟨n, rfl⟩

/-- An RMW that returned did what it does where all calls return (40_register_protocol.md R144). -/
theorem rmw_ok {a : Reg} {clr ones v : Byte} {s t : State} (h : rmw a clr ones s = .ok v t) :
    ∃ n, t = (s.rmwed a clr ones).withAllow n := by
  obtain ⟨b, s1, hread, h⟩ := bind_ok h
  obtain ⟨rfl, n1, rfl⟩ := regReadByte_ok hread
  obtain ⟨_, s2, hlatch, h⟩ := bind_ok h
  cases hlatch
  obtain ⟨_, s3, hwrite, hpure⟩ := bind_ok h
  cases hpure
  obtain ⟨n, ht⟩ := regWrite_ok hwrite
  have hallow := xacted_withAllow (opWithReg (s.midRmw a).cfg.codes.opcWRegister a)
    [updateBits (s.rmwRead a) clr ones] n1 (s.midRmw a)
  refine ⟨n, (ht.trans (congrArg (State.withAllow n) hallow)).trans ?_⟩
  rw [rmwed_eq]
  rfl

/-! ### CONFIG in the reference peer -/

theorem standard_lookup_opcodeOf (cmd : WireCmd) :
    Codes.standard.wireLookup (Codes.standard.opcodeOf cmd) = some cmd :=
  wireLookup_opcodeOf (c := Config.standard) (by decide) cmd

/-- A write to a register leaves the bytes of every other register (20_memory.md R85). -/
theorem Memory.read_writeReg_other (c : Codes) (m : Memory) {a b : Reg} (hab : b ≠ a) (d : List Byte) {j : Nat}
    (hj : j < 8) : Memory.read c (Memory.writeReg c m a d) (cellOf b j) = Memory.read c m (cellOf b j) := by
  have hw := Codes.regWidth_le c a
  have hne : b.toNat ≠ a.toNat := fun h => hab (BitVec.eq_of_toNat_eq h)
  refine Memory.read_writeFrom_outside ?_
  simp only [cellOf, List.length_take]
  omega

section
variable {c : Config} {k : Nat} {p : Peer}

/-- At the reference peer a command that does not write register `b` leaves its bytes, and memory keeps its form. -/
theorem applyCmd_reference (st : Byte) (cmd : WireCmd) (d : List Byte) {b : Reg} (hb : cmd ≠ .wRegister b)
    {j : Nat} (hj : j < 8) (hp : Memory.wf c.codes p.mem = true) :
    Memory.wf c.codes (applyCmd .reference c k p st cmd d).1.mem = true
      ∧ Memory.read c.codes (applyCmd .reference c k p st cmd d).1.mem (cellOf b j)
        = Memory.read c.codes p.mem (cellOf b j) := by
  cases cmd with
  | wRegister a =>
    have hab : b ≠ a := fun h => hb (congrArg _ h.symm)
    have hstore : Memory.wf c.codes (storeRegister c.codes p a d).mem = true
        ∧ Memory.read c.codes (storeRegister c.codes p a d).mem (cellOf b j)
          = Memory.read c.codes p.mem (cellOf b j) := by
      unfold storeRegister
      split
      · exact ⟨hp, rfl⟩
      split
      · exact ⟨hp, rfl⟩
      · exact ⟨Memory.wf_writeReg hp a d, Memory.read_writeReg_other _ _ hab d hj⟩
    simp only [applyCmd, writeRegister]
    split
    · exact ⟨hp, rfl⟩
    split
    · exact hstore
    · exact hstore
  | wTxPayload | wTxPayloadNoack =>
    simp only [applyCmd, pushTxEndingReuse, pushTx]
    split
    · exact ⟨hp, rfl⟩
    · exact ⟨hp, rfl⟩
  | wAckPayload q =>
    simp only [applyCmd, pushTx]
    split
    · split
      · exact ⟨hp, rfl⟩
      · exact ⟨hp, rfl⟩
    · exact ⟨hp, rfl⟩
  | rRegister | rRxPlWid | rRxPayload | flushTx | flushRx | reuseTxPl | nop => exact ⟨hp, rfl⟩

end

/-- An RMW latches the value read and nothing else that a transaction leaves. -/
theorem Apart.rmw {α : Type} {f : Block → α} (hf : Apart f) (hvTmp : ∀ b x, f { b with vTmp := x } = f b) (a : Reg)
    (clr ones : Byte) : Keeps (SameBy f) (rmw a clr ones) :=
  .bindSame (.bindSame (.bindSame (fun _ => rfl) fun _ => hf.xact _ _) fun _ _ => rfl) fun _ =>
    .bindSame (fun _ => hvTmp _ _) fun _ => .bindSame (hf.regWrite _ _) fun _ _ => rfl

/-! ### The CONFIG byte along an operation -/

/-- Within an operation, under the premises of 70_reset_and_hazards.md R311: the configuration is `c`, the CONFIG byte
is `v`, and `see` reads `x` of the block. -/
structure Tracked {α : Type} (c : Config) (v : Byte) (see : Block → α) (x : α) (s : State) : Prop where
  cfg : s.cfg = c
  level : s.env.level = .reference
  wf : Memory.wf s.cfg.codes s.peer.mem = true
  power : s.KeepsPower
  busy : s.blk.seq ≠ .idle
  config : configByte s = v
  seen : see s.blk = x

/-- A part ends in a state of `Q` where it returns, and halts with the sequencer busy. -/
inductive EndIn {α : Type} (Q : State → Prop) : EStateM.Result Halt State α → Prop
  | ok (a : α) {t : State} (h : Q t) : EndIn Q (.ok a t)
  | halt (e : Halt) {t : State} (h : t.blk.seq ≠ .idle) : EndIn Q (.error e t)

/-- From every state of `P` the part ends in `Q`. -/
def Ends {α : Type} (P Q : State → Prop) (m : Op α) : Prop := ∀ s, P s → EndIn Q (m s)

theorem configByte_eq {c : Config} {s : State} (h : s.cfg = c) : configByte s = s.regByte c.codes.regConfig := by
  subst h
  rfl

section
variable {α : Type} {c : Config} {v : Byte} {see : Block → α} {x : α} {s : State}

theorem Tracked.faithful (hc : c.codes = Codes.standard) (h : Tracked c v see x s) : s.FaithfulPeer :=
  ⟨by rw [h.cfg, hc], by rw [State.PeerKeepsContract, h.level]; decide, h.wf⟩

theorem Tracked.withAllow (h : Tracked c v see x s) (n : Option Nat) : Tracked c v see x (s.withAllow n) :=
  ⟨h.cfg, h.level, h.wf, h.power, h.busy, h.config, h.seen⟩

theorem Tracked.onBlk {β : Type} {see' : Block → β} {y : β} (h : Tracked c v see x s) {f : Block → Block}
    (hseq : (f s.blk).seq = s.blk.seq) (hsee : see' (f s.blk) = y) : Tracked c v see' y (s.onBlk f) :=
  ⟨h.cfg, h.level, h.wf, h.power, by rw [State.onBlk_blk, hseq]; exact h.busy, h.config, hsee⟩

theorem Tracked.emit (hsee : Apart see) (h : Tracked c v see x s) (e : Event) : Tracked c v see x (s.emit e) :=
  ⟨h.cfg, h.level, h.wf, h.power, advance_ne_idle h.busy, h.config, (hsee.emit e s).trans h.seen⟩

theorem plainReg_config : PlainReg Codes.standard.regConfig := by decide

theorem regWidth_config : Codes.standard.regWidth Codes.standard.regConfig = 1 := by decide

/-- A transaction that is no write to CONFIG leaves the CONFIG byte. -/
theorem Tracked.afterXfer (hc : c.codes = Codes.standard) (hsee : Apart see) (h : Tracked c v see x s) {cmd : WireCmd}
    (hcmd : cmd ≠ .wRegister c.codes.regConfig) (data : List Byte) :
    Tracked c v see x (s.afterXfer (c.codes.opcodeOf cmd :: data)) := by
  have hcodes : s.cfg.codes = Codes.standard := by rw [h.cfg, hc]
  obtain ⟨-, hcontract, -⟩ := h.faithful hc
  have hpeer : (s.afterXfer (c.codes.opcodeOf cmd :: data)).peer
      = (applyCmd .reference s.cfg (2 * s.env.ctr + 1) s.peerNow (statusByte s.cfg s.peerNow) cmd data).1 := by
    simp only [State.afterXfer, State.emit_peer, State.onBlk_peer, State.fillXbuf_peer]
    rw [answer_contract hcontract]
    simp only [peerXfer, hc, hcodes, standard_lookup_opcodeOf, h.level]
  obtain ⟨hwf, hread⟩ := applyCmd_reference (k := 2 * s.env.ctr + 1) (statusByte s.cfg s.peerNow) cmd data
    (b := s.cfg.codes.regConfig) (j := 0) (by rwa [h.cfg]) (by decide) (h.power.peerNow_wf h.wf)
  have hne : cellOf s.cfg.codes.regConfig 0 ≠ s.observeCell :=
    plainReg_ne_observe hcodes (by rw [hcodes]; exact plainReg_config) (by decide)
  have hcfg : (s.afterXfer (c.codes.opcodeOf cmd :: data)).cfg = s.cfg := by simp [State.afterXfer]
  refine ⟨hcfg.trans h.cfg, by simpa [State.afterXfer] using h.level, ?_, ?_, ?_, ?_, (hsee.afterXfer _ s).trans h.seen⟩
  · rw [hcfg, hpeer]
    exact hwf
  · intro ms hms
    obtain hr | hr := answer_radio (s := s) (c.codes.opcodeOf cmd :: data)
    · exact h.power ms (List.mem_of_mem_tail (hr ▸ hms))
    · exact h.power ms (hr ▸ hms)
  · simpa [State.afterXfer] using advance_ne_idle h.busy
  · rw [configByte, hcfg, hpeer, hread, h.power.peerNow_cells hne]
    exact h.config

namespace Ends

variable {P Q R : State → Prop}

theorem pure {β : Type} (a : β) : Ends P P (pure a : Op β) := fun _ h => .ok a h

theorem bind {β γ : Type} {m : Op β} {f : β → Op γ} (hm : Ends P Q m) (hf : ∀ a, Ends Q R (f a)) :
    Ends P R (m >>= f) := by
  intro s h
  have hend := hm s h
  rw [op_bind]
  generalize m s = y at hend
  cases hend with
  | ok a h => exact hf a _ h
  | halt e h => exact .halt e h

theorem ite {β : Type} {p : Prop} [Decidable p] {m n : Op β} (hm : Ends P Q m) (hn : Ends P Q n) :
    Ends P Q (if p then m else n) := by
  split
  · exact hm
  · exact hn

/-- The codes are those of `c`. -/
theorem codes {β : Type} {f : Codes → Op β} (hf : Ends (Tracked c v see x) Q (f c.codes)) :
    Ends (Tracked c v see x) Q (getCodes >>= f) := by
  intro s h
  rw [getCodes_bind, h.cfg]
  exact hf s h

/-- A look at a state whose configuration is `c`. -/
theorem look {β : Type} {f : State → Op β} (hf : ∀ s, s.cfg = c → Ends (Tracked c v see x) Q (f s)) :
    Ends (Tracked c v see x) Q (get >>= f) := by
  intro s h
  rw [get_bind]
  exact hf s h.cfg s h

theorem xact (hc : c.codes = Codes.standard) (hsee : Apart see) {cmd : WireCmd}
    (hcmd : cmd ≠ .wRegister c.codes.regConfig) (data : List Byte) :
    Ends (Tracked c v see x) (Tracked c v see x) (xact (c.codes.opcodeOf cmd) data) := by
  intro s h
  have hfill := h.onBlk (f := fun b => { b with xbuf := loadXbuf (c.codes.opcodeOf cmd :: data) b.xbuf }) rfl
    ((hsee.xbuf _ _).trans h.seen)
  unfold Machine.xact
  simp only
  split
  · exact .halt _ hfill.busy
  · next u hu =>
    obtain ⟨n, rfl⟩ := takeCall_eq_withAllow hu
    exact .ok _ ((hfill.withAllow n).afterXfer hc hsee hcmd data)

theorem callAndWait (hsee : Apart see) (e : Event) :
    Ends (Tracked c v see x) (Tracked c v see x) (callAndWait e) := by
  intro s h
  unfold Machine.callAndWait
  simp only
  split
  · exact .halt _ (h.emit hsee e).busy
  · next u hu =>
    obtain ⟨n, rfl⟩ := takeCall_eq_withAllow hu
    exact .ok _ ((h.emit hsee e).withAllow n)

theorem modifyBlk {β : Type} {see' : Block → β} {y : β} {f : Block → Block} (hseq : ∀ b, (f b).seq = b.seq)
    (hsee : ∀ b, see b = x → see' (f b) = y) : Ends (Tracked c v see x) (Tracked c v see' y) (modifyBlk f) :=
  fun _ h => .ok () (h.onBlk (hseq _) (hsee _ h.seen))

theorem driveCe (b : Bool) : Ends (Tracked c v see x) (Tracked c v Block.ce b) (driveCe b) := by
  intro s h
  have hce : Tracked c v Block.ce b (s.onBlk fun d => { d with ce := b }) := h.onBlk rfl rfl
  exact .ok () (hce.emit ⟨fun _ _ => rfl, fun _ _ => rfl, fun _ _ => rfl⟩ _)

/-- An RMW of CONFIG gives the byte its new bits (40_register_protocol.md R144). -/
theorem rmw_config (hc : c.codes = Codes.standard) (hsee : Apart see) (hvTmp : ∀ b y, see { b with vTmp := y } = see b)
    (clr ones : Byte) :
    Ends (Tracked c v see x) (Tracked c ((v &&& ~~~clr) ||| ones) see x) (rmw c.codes.regConfig clr ones) := by
  intro s h
  have hbusy := (Runs.rmw (i := .nop) c.codes.regConfig clr ones s).seq_ne_idle h.busy
  have hseen : SameBy see s (finalState (rmw c.codes.regConfig clr ones s)) := hsee.rmw hvTmp _ _ _ s
  cases hrun : rmw c.codes.regConfig clr ones s with
  | error e t =>
    rw [hrun] at hbusy
    exact .halt e hbusy
  | ok w t =>
    rw [hrun] at hbusy hseen
    obtain ⟨n, rfl⟩ := rmw_ok hrun
    have hf := h.faithful hc
    have hreg : c.codes.regConfig = Codes.standard.regConfig := by rw [hc]
    obtain ⟨-, -, hwf⟩ := rmwed_faithful (clr := clr) (ones := ones) hf h.power plainReg_config regWidth_config
    have hcfg : (s.rmwed c.codes.regConfig clr ones).cfg = c := (rmwed_cfg _ _ _ _).trans h.cfg
    refine .ok w ⟨hcfg, ?_, ?_, ?_, hbusy, ?_, hseen.trans h.seen⟩
    · exact (rmwed_level _ _ _ _).trans h.level
    · rw [hreg]
      exact hwf
    · exact rmwed_keepsPower h.power
    · have hin := rmwed_inside (clr := clr) (ones := ones) hf h.power plainReg_config regWidth_config
      rw [← hreg, ← configByte_eq hcfg, ← configByte_eq h.cfg, h.config] at hin
      exact hin

end Ends

/-- The CONFIG byte is `v`, whatever the block holds. -/
abbrev HoldsConfig (c : Config) (v : Byte) : State → Prop := Tracked c v (fun _ => ()) ()

/-- A part that writes no CONFIG leaves the CONFIG byte. -/
theorem Made.ends {regs : List Reg} {β : Type} {m : Op β} (hm : Made c regs m) (hc : c.codes = Codes.standard)
    (hregs : c.codes.regConfig ∉ regs) : Ends (HoldsConfig c v) (HoldsConfig c v) m := by
  induction hm with
  | pure a => exact .pure a
  | bind _ _ ihm ihf => exact ihm.bind ihf
  | codes _ ih => exact .codes ih
  | look _ _ ih => exact .look fun s _ => ih s
  | send cmd data hreg => exact .xact hc apart_none (fun h => hregs (hreg _ h)) data
  | level b => exact fun s h => .ok () ((h.onBlk (f := fun d => { d with ce := b }) rfl rfl).emit apart_none _)
  | call e => exact .callAndWait apart_none e
  | update _ hseq => exact .modifyBlk hseq fun _ _ => rfl

end

/-! ### POLL writes STATUS alone -/

theorem Made.invokeCallback {c : Config} {regs : List Reg} (cb : Option Callback) (e : Callback → Event) :
    Made c regs (invokeCallback cb e) := by
  cases cb with
  | none => exact .pure ()
  | some f => exact .call (e f)

namespace Ends

section
variable {c : Config} {v : Byte} (hc : c.codes = Codes.standard)

/-- Any update of the block leaves the CONFIG byte. -/
theorem update {f : Block → Block} (hseq : ∀ b, (f b).seq = b.seq) :
    Ends (HoldsConfig c v) (HoldsConfig c v) (Machine.modifyBlk f) := .modifyBlk hseq fun _ _ => rfl

theorem appendRx (dg : Datagram) : Ends (HoldsConfig c v) (HoldsConfig c v) (appendRx dg) := by
  intro s h
  unfold Machine.appendRx
  split
  · exact .ok () h
  · exact .ok () (h.onBlk rfl rfl)

include hc

/-- A part that writes STATUS alone. -/
theorem of_status {β : Type} {m : Op β} (hm : Made c [c.codes.regStatus] m) :
    Ends (HoldsConfig c v) (HoldsConfig c v) m := by
  refine hm.ends hc ?_
  rw [hc]
  decide

theorem pollStep1 : Ends (HoldsConfig c v) (HoldsConfig c v) pollStep1 :=
  .bind (.of_status hc (.command .nop rfl fun _ h => nomatch h)) fun _ => .update fun _ => rfl

theorem pollStep2 : Ends (HoldsConfig c v) (HoldsConfig c v) pollStep2 := by
  refine .look fun s hs => ?_
  subst hs
  refine .ite ?_ (.pure _)
  refine .bind (.update fun _ => rfl) fun _ => .bind (.of_status hc (.send .rRxPlWid _ fun _ h => nomatch h)) fun w =>
    .bind (.update fun _ => rfl) fun _ => .ite ?_ ?_
  · exact .of_status hc (.bind (.command .flushRx rfl fun _ h => nomatch h) fun _ =>
      .thenPure (.regWrite List.mem_cons_self _))
  · exact .bind (.of_status hc (.send .rRxPayload _ fun _ h => nomatch h)) fun _ => .look fun t _ =>
      .bind (.appendRx _) fun _ => .of_status hc (.thenPure (.regWrite List.mem_cons_self _))

theorem pollStep3 : Ends (HoldsConfig c v) (HoldsConfig c v) pollStep3 := by
  refine .look fun s hs => ?_
  subst hs
  exact .of_status hc (.ite (.bind (.invokeCallback _ _) fun _ => .thenPure (.regWrite List.mem_cons_self _)) (.pure _))

theorem pollStep4 : Ends (HoldsConfig c v) (HoldsConfig c v) pollStep4 := by
  refine .look fun s hs => ?_
  subst hs
  exact .of_status hc (.ite (.bind (.command .flushTx rfl fun _ h => nomatch h) fun _ =>
    .thenPure (.regWrite List.mem_cons_self _)) (.pure _))

theorem pollStep5 : Ends (HoldsConfig c v) (HoldsConfig c v) pollStep5 := by
  refine .look fun s _ => ?_
  split
  · exact .pure _
  · exact .bind (.update fun _ => rfl) fun _ => .of_status hc (.invokeCallback _ _)

theorem pollStep6 : Ends (HoldsConfig c v) (HoldsConfig c v) pollStep6 := by
  refine .look fun s hs => ?_
  subst hs
  split
  · exact .pure _
  · exact .ite (.bind (.of_status hc (.send .wTxPayload _ fun _ h => nomatch h)) fun _ => .update fun _ => rfl)
      (.pure _)

end

end Ends

/-! ### Every instruction -/

/-- The premises of 70_reset_and_hazards.md R311, as `MirrorIsKept` gives them. -/
structure State.MirrorPremises (s : State) : Prop where
  codes : s.cfg.codes = Codes.standard
  level : s.env.level = .reference
  wf : Memory.wf s.cfg.codes s.peer.mem = true
  power : s.KeepsPower

section
variable {s t : State} {i : Instr}

theorem State.MirrorPremises.accept (h : s.MirrorPremises) (i : Instr) :
    HoldsConfig s.cfg (configByte s) (s.accept i) :=
  ⟨rfl, h.level, h.wf, h.power, Seq.noConfusion, rfl, rfl⟩

/-- A host operation that completes has refused its operands, or its body has returned. -/
theorem Ends.runHost {Q : State → Prop} {body : Op Result} (hbody : Ends (HoldsConfig s.cfg (configByte s)) Q body)
    (hs : s.MirrorPremises) (h : Machine.runHost i body s = .next t) (ht : t.blk.seq = .idle) :
    (i.wf s.cfg = false ∧ t = (s.accept i).complete .fail) ∨ ∃ u r, Q u ∧ t = u.complete r := by
  have hend := hbody _ (hs.accept i)
  obtain ⟨-, hrefused | ⟨-, r, u, hu, rfl⟩ | ⟨-, e, he⟩⟩ := runHost_cases h
  · exact .inl hrefused
  · rw [hu] at hend
    cases hend with
    | ok _ hQ => exact .inr ⟨u, r, hQ, rfl⟩
  · rw [he] at hend
    cases hend with
    | halt _ hbusy => exact absurd ht hbusy

theorem Ends.runHost_config {body : Op Result}
    (hbody : Ends (HoldsConfig s.cfg (configByte s)) (HoldsConfig s.cfg (configByte s)) body) (hs : s.MirrorPremises)
    (h : Machine.runHost i body s = .next t) (ht : t.blk.seq = .idle) :
    t.cfg = s.cfg ∧ configByte t = configByte s := by
  obtain ⟨-, rfl⟩ | ⟨u, r, hu, rfl⟩ := hbody.runHost hs h ht
  · exact ⟨rfl, rfl⟩
  · exact ⟨hu.cfg, hu.config⟩

/-- An instruction that does not write CONFIG leaves the CONFIG byte. -/
theorem exec_config (hs : s.MirrorPremises) (hregs : s.cfg.codes.regConfig ∉ writtenRegs s.cfg.codes i)
    (h : exec i s = .next t) (ht : t.blk.seq = .idle) : t.cfg = s.cfg ∧ configByte t = configByte s := by
  by_cases hpoll : i = .poll
  · subst hpoll
    exact Ends.runHost_config (.bind (.pollStep1 hs.codes) fun _ => .bind (.pollStep2 hs.codes) fun _ =>
      .bind (.pollStep3 hs.codes) fun _ => .bind (.pollStep4 hs.codes) fun _ => .bind (.pollStep5 hs.codes) fun _ =>
      .bind (.pollStep6 hs.codes) fun _ => .pure _) hs h ht
  · obtain ⟨body, hexec, hmade⟩ | ⟨cmd, data, hexec, hcmd⟩ := exec_made s.cfg hpoll
    · rw [hexec s rfl] at h
      exact (hmade.ends hs.codes hregs).runHost_config hs h ht
    · rw [hexec s rfl] at h
      have hend := Ends.xact (v := configByte s) hs.codes apart_none (fun hw => hregs (hcmd _ hw)) data _ (hs.accept i)
      obtain ⟨-, -, ⟨r, u, hu, rfl⟩ | ⟨e, he⟩⟩ := runWire_cases h
      · rw [hu] at hend
        cases hend with
        | ok _ hQ => exact ⟨hQ.cfg, hQ.config⟩
      · rw [he] at hend
        cases hend with
        | halt _ hbusy => exact absurd ht hbusy

/-- With the default codes only SET_CRC, the ENTER operations and the raw writes reach CONFIG. -/
theorem standard_config_not_written (hraw : writesConfig Codes.standard i = false) (henter : enterMode i = none)
    (hcrc : ∀ m, i ≠ .setCrc m) : Codes.standard.regConfig ∉ writtenRegs Codes.standard i := by
  cases i with
  | enterShutdown | enterStandby | enterRx | enterTx => exact nomatch henter
  | setCrc m => exact absurd rfl (hcrc m)
  | wRegister a | rpWriteRegister a =>
    have hne : a ≠ Codes.standard.regConfig := by simpa [writesConfig] using hraw
    exact fun hmem => hne (List.mem_singleton.1 hmem).symm
  | setRxBaseAddress p | setRxAddress p =>
    clear hraw henter hcrc
    simp only [writtenRegs]
    revert p
    decide
  | _ => simp only [writtenRegs]; decide

/-- Only an ENTER operation writes the mode and drives the chip-enable output (41_mode_control.md R160). -/
theorem exec_keepsMode (henter : enterMode i = none) (h : exec i s = .next t) : KeepsMode s t := by
  refine exec_blk_rel (R := fun b b' => b'.mode = b.mode ∧ b'.ce = b.ce) (fun hstep => ?_) (fun _ _ => ⟨rfl, rfl⟩)
    (fun hab hbc => ⟨hbc.1.trans hab.1, hbc.2.trans hab.2⟩) h
  cases hstep with
  | call hcall => rw [takeCall_blk hcall]; exact ⟨rfl, rfl⟩
  | xfer => simp [State.afterXfer]
  | ce _ hi => exact absurd henter hi
  | mode _ hi => exact absurd (henter.symm.trans hi) nofun
  | _ => exact ⟨rfl, rfl⟩

end

/-! ### The mirror -/

/-- The table of 10_state.md R51, of a mode, a chip-enable level and a CONFIG byte. -/
def MirrorOf (c : Codes) (m : Mode) (ce : Bool) (v : Byte) : Prop :=
  match m with
  | .shutDown => ce = false ∧ flagSet c.mPwrUp v = false
  | .standby => ce = false ∧ flagSet c.mPwrUp v = true
  | .rx => ce = true ∧ flagSet c.mPwrUp v = true ∧ flagSet c.mPrimRx v = true
  | .tx => ce = true ∧ flagSet c.mPwrUp v = true ∧ flagSet c.mPrimRx v = false

theorem mirror_iff {s : State} : s.Mirror ↔ MirrorOf s.cfg.codes s.blk.mode s.blk.ce (configByte s) := by
  unfold State.Mirror MirrorOf
  cases s.blk.mode <;> rfl

/-- The table reads PWR_UP and PRIM_RX alone. -/
theorem MirrorOf.congr {c : Codes} {m : Mode} {ce : Bool} {v w : Byte} (h : MirrorOf c m ce v)
    (hpwr : flagSet c.mPwrUp w = flagSet c.mPwrUp v) (hprim : flagSet c.mPrimRx w = flagSet c.mPrimRx v) :
    MirrorOf c m ce w := by
  unfold MirrorOf at *
  rwa [hpwr, hprim]

/-- The RMW of ENTER_SHUTDOWN gives a byte of its row of the table, whatever was before (41_mode_control.md R161). -/
theorem mirrorOf_shutDown : ∀ v : Byte,
    MirrorOf Codes.standard .shutDown false ((v &&& ~~~Codes.standard.mPwrUp) ||| 0) := by
  unfold MirrorOf
  decide

theorem mirrorOf_standby : ∀ v : Byte,
    MirrorOf Codes.standard .standby false ((v &&& ~~~0) ||| Codes.standard.mPwrUp) := by
  unfold MirrorOf
  decide

theorem mirrorOf_rx : ∀ v : Byte,
    MirrorOf Codes.standard .rx true ((v &&& ~~~0) ||| (Codes.standard.mPwrUp ||| Codes.standard.mPrimRx)) := by
  unfold MirrorOf
  decide

theorem mirrorOf_tx : ∀ v : Byte,
    MirrorOf Codes.standard .tx true ((v &&& ~~~Codes.standard.mPrimRx) ||| Codes.standard.mPwrUp) := by
  unfold MirrorOf
  decide

/-- What an ENTER operation sets of the block. -/
abbrev Block.modeCe (b : Block) : Mode × Bool := (b.mode, b.ce)

section
variable {s t : State}

theorem apart_ce : Apart Block.ce := ⟨fun _ _ => rfl, fun _ _ => rfl, fun _ _ => rfl⟩

theorem Ends.setMode {c : Config} {v : Byte} {b : Bool} (m : Mode) :
    Ends (Tracked c v Block.ce b) (Tracked c v Block.modeCe (m, b)) (setMode m) :=
  .modifyBlk (fun _ => rfl) fun _ h => Prod.ext rfl h

/-- An operation that completes with a mode, a level and a CONFIG byte of the table makes the mirror true. -/
theorem Ends.runHost_mirror {i : Instr} {body : Op Result} {m : Mode} {b : Bool} {w : Byte}
    (hbody : Ends (HoldsConfig s.cfg (configByte s)) (Tracked s.cfg w Block.modeCe (m, b)) body)
    (hmirror : MirrorOf Codes.standard m b w) (hs : s.MirrorPremises) (hw : i.wf s.cfg = true)
    (h : Machine.runHost i body s = .next t) (ht : t.blk.seq = .idle) : t.Mirror := by
  obtain ⟨hno, -⟩ | ⟨u, r, hu, rfl⟩ := hbody.runHost hs h ht
  · rw [hw] at hno
    cases hno
  · have hmode : u.blk.mode = m := congrArg Prod.fst hu.seen
    have hce : u.blk.ce = b := congrArg Prod.snd hu.seen
    have hconfig : configByte (u.complete r) = w := hu.config
    rw [mirror_iff, State.complete_blk_mode, State.complete_blk_ce, hmode, hce, State.complete_cfg, hu.cfg, hs.codes,
      hconfig]
    exact hmirror

/-- An ENTER operation that completes makes the mirror true (41_mode_control.md R161 to R164, R169). -/
theorem enter_mirror {i : Instr} (henter : enterMode i ≠ none) (hs : s.MirrorPremises) (h : exec i s = .next t)
    (ht : t.blk.seq = .idle) : t.Mirror := by
  have hc := hs.codes
  cases i with
  | enterShutdown =>
    refine Ends.runHost_mirror (m := .shutDown) (b := false) (.codes (.bind (.driveCe false) fun _ =>
      .bind (.rmw_config hc apart_ce (fun _ _ => rfl) _ _) fun _ => .bind (.setMode .shutDown) fun _ => .pure _))
      ?_ hs rfl h ht
    rw [hc]
    exact mirrorOf_shutDown _
  | enterStandby =>
    refine Ends.runHost_mirror (m := .standby) (b := false) (.codes (.bind (.driveCe false) fun _ =>
      .bind (.rmw_config hc apart_ce (fun _ _ => rfl) _ _) fun _ => .bind (.setMode .standby) fun _ => .pure _))
      ?_ hs rfl h ht
    rw [hc]
    exact mirrorOf_standby _
  | enterRx =>
    refine Ends.runHost_mirror (m := .rx) (b := true) (.codes (
      .bind (.rmw_config hc apart_none (fun _ _ => rfl) _ _) fun _ => .bind (.driveCe true) fun _ =>
      .bind (.callAndWait apart_ce _) fun _ => .bind (.setMode .rx) fun _ => .pure _))
      ?_ hs rfl h ht
    rw [hc]
    exact mirrorOf_rx _
  | enterTx =>
    refine Ends.runHost_mirror (m := .tx) (b := true) (.codes (
      .bind (.rmw_config hc apart_none (fun _ _ => rfl) _ _) fun _ => .bind (.driveCe true) fun _ =>
      .bind (.callAndWait apart_ce _) fun _ => .bind (.setMode .tx) fun _ => .pure _))
      ?_ hs rfl h ht
    rw [hc]
    exact mirrorOf_tx _
  | _ => exact absurd rfl henter

/-- An update of other bits leaves a flag. -/
theorem flagSet_update_of_apart {m clr ones : Byte} (hclr : m &&& clr = 0) (hones : m &&& ones = 0) (v : Byte) :
    flagSet m ((v &&& ~~~clr) ||| ones) = flagSet m v := by
  have hbits : ((v &&& ~~~clr) ||| ones) &&& m = v &&& m := by
    apply BitVec.eq_of_getLsbD_eq
    intro j hj
    have h1 := congrArg (fun x => x.getLsbD j) hclr
    have h2 := congrArg (fun x => x.getLsbD j) hones
    simp only [BitVec.getLsbD_and, BitVec.getLsbD_or, BitVec.getLsbD_not, hj, decide_true, Bool.true_and,
      BitVec.ofNat_eq_ofNat, BitVec.getLsbD_zero] at h1 h2 ⊢
    revert h1 h2
    cases m.getLsbD j <;> cases v.getLsbD j <;> cases clr.getLsbD j <;> simp
  rw [flagSet, flagSet, hbits]

/-- SET_CRC writes CONFIG, but neither PWR_UP nor PRIM_RX (42_config_access.md R182). -/
theorem setCrc_config {m : CrcMode} (hs : s.MirrorPremises) (h : exec (.setCrc m) s = .next t)
    (ht : t.blk.seq = .idle) :
    t.cfg = s.cfg ∧ flagSet Codes.standard.mPwrUp (configByte t) = flagSet Codes.standard.mPwrUp (configByte s)
      ∧ flagSet Codes.standard.mPrimRx (configByte t) = flagSet Codes.standard.mPrimRx (configByte s) := by
  have hones : Codes.standard.mPwrUp &&& crcCode Codes.standard m = 0
      ∧ Codes.standard.mPrimRx &&& crcCode Codes.standard m = 0 := by
    cases m <;> decide
  obtain ⟨hno, -⟩ | ⟨u, r, hu, rfl⟩ := Ends.runHost (i := .setCrc m) (.codes (.bind
    (.rmw_config hs.codes apart_none (fun _ _ => rfl) _ _) fun _ => .pure _)) hs h ht
  · cases hno
  · refine ⟨hu.cfg, ?_⟩
    have hconfig : configByte (u.complete r) = _ := hu.config
    rw [hconfig, hs.codes]
    exact ⟨flagSet_update_of_apart (by decide) hones.1 _, flagSet_update_of_apart (by decide) hones.2 _⟩

end

/-- Settles O32: an ENTER operation makes the mirror true; every other instruction keeps mode and chip-enable, and keeps
the CONFIG byte, or its PWR_UP and PRIM_RX where it is SET_CRC. -/
theorem mirrorIsKept : Obligations.MirrorIsKept := by
  intro i s t hcodes hlevel hwf hpower hraw hmirror h ht
  have hs : s.MirrorPremises := ⟨hcodes, hlevel, hwf, hpower⟩
  by_cases henter : enterMode i = none
  · have hm := mirror_iff.1 (hmirror.resolve_right (absurd henter))
    obtain ⟨hmode, hce⟩ := exec_keepsMode henter h
    by_cases hcrc : ∃ m, i = .setCrc m
    · obtain ⟨m, rfl⟩ := hcrc
      obtain ⟨hcfg, hpwr, hprim⟩ := setCrc_config hs h ht
      rw [mirror_iff, hmode, hce, hcfg]
      rw [hcodes] at hm ⊢
      exact hm.congr hpwr hprim
    · rw [hcodes] at hraw
      have hregs := standard_config_not_written hraw henter fun m hm => hcrc ⟨m, hm⟩
      obtain ⟨hcfg, hconfig⟩ := exec_config hs (by rwa [hcodes]) h ht
      rw [mirror_iff, hmode, hce, hcfg, hconfig]
      exact hm
  · exact enter_mirror henter hs h ht

end Sys2Proof.Machine
end

section
/-! Claims about the peer's answer under the default codes: the status byte, the rule of each command of the reference
peer (20_memory.md R84 to R95), and the moves of its radio side (R96). -/

set_option Elab.async false

namespace Sys2Proof.Machine

open Sys2Proof

/-! ### Bytes the peer drives -/

theorem fitBytes_reference_getElem? (k : Nat) (bs : List Byte) {n j : Nat} (hj : j < n) :
    (fitBytes .reference k n bs)[j]? = some (bs.getD j 0) := by
  simp [fitBytes, openByte, hj]

theorem fitBytes_reference_nil (k n : Nat) : fitBytes .reference k n [] = List.replicate n 0 := by
  simp [fitBytes, openByte, List.map_const']

/-- A flag's default mask is one bit. -/
theorem flagSet_statusFlags (m : Byte) :
    flagSet 0x40 m = m.getLsbD 6 ∧ flagSet 0x20 m = m.getLsbD 5 ∧ flagSet 0x10 m = m.getLsbD 4 := by
  revert m; decide

/-- Address registers of the default codes have five bytes, all others one (10_state.md R35). -/
theorem regWidth_of_standard {c : Codes} (hc : c = Codes.standard) (a : Reg) :
    c.regWidth a = if a = 0x0A ∨ a = 0x0B ∨ a = 0x10 then 5 else 1 := by
  subst hc
  revert a; decide

section
variable {lv : PeerLevel} {c : Config} {k : Nat} {p : Peer}

/-- The bits of the status byte at their default places (10_state.md R36; 20_memory.md R82). -/
theorem statusByte_bits (hc : c.codes = Codes.standard) (p : Peer) :
    (statusByte c p).getLsbD 7 = false ∧ (statusByte c p).getLsbD 6 = p.rxDr ∧ (statusByte c p).getLsbD 5 = p.txDs
      ∧ (statusByte c p).getLsbD 4 = p.maxRt ∧ (statusByte c p).extractLsb' 1 3 = headPipe p.rxf
      ∧ (statusByte c p).getLsbD 0 = decide (p.txf.length = c.fifoDepth) := by
  rw [statusByte, hc]
  generalize p.rxDr = rxDr, p.txDs = txDs, p.maxRt = maxRt, headPipe p.rxf = pipe,
    decide (p.txf.length = c.fifoDepth) = full
  revert rxDr txDs maxRt pipe full
  decide

/-- The answer to a frame is the status from before the command, then a byte for each data position. -/
theorem peerXfer_answer (lv : PeerLevel) (c : Config) (k : Nat) (p : Peer) (op : Byte) (d : List Byte) :
    ∃ out, (peerXfer lv c k p (op :: d)).2 = statusByte c p :: out ∧ out.length = d.length := by
  simp only [peerXfer]
  split
  · exact ⟨_, rfl, fitBytes_length _ _ _ _⟩
  · exact ⟨_, rfl, fitBytes_length _ _ _ _⟩

/-- A frame of a command, at any level: the command's rule and the bytes it drives. -/
theorem peerXfer_command (hc : c.codes = Codes.standard) (cmd : WireCmd) (d : List Byte) :
    peerXfer lv c k p (Codes.standard.opcodeOf cmd :: d)
      = ((applyCmd lv c k p (statusByte c p) cmd d).1,
          statusByte c p :: fitBytes lv k d.length (applyCmd lv c k p (statusByte c p) cmd d).2) := by
  simp only [peerXfer, hc, standard_lookup_opcodeOf]

/-- A frame of a command that drives no data, at the reference peer: zeros follow the status. -/
theorem peerXfer_dataless (hc : c.codes = Codes.standard) {cmd : WireCmd} {d : List Byte}
    (hnone : (applyCmd .reference c k p (statusByte c p) cmd d).2 = []) :
    peerXfer .reference c k p (Codes.standard.opcodeOf cmd :: d)
      = ((applyCmd .reference c k p (statusByte c p) cmd d).1, statusByte c p :: List.replicate d.length 0) := by
  rw [peerXfer_command hc, hnone, fitBytes_reference_nil]

/-- An opcode byte that no row matches changes nothing in the reference peer (20_memory.md R95). -/
theorem peerXfer_unmatched {op : Byte} (hop : c.codes.wireLookup op = none) (d : List Byte) :
    peerXfer .reference c k p (op :: d) = (p, statusByte c p :: List.replicate d.length 0) := by
  simp only [peerXfer, hop, fitBytes_reference_nil, unconstrained]

/-! ### The registers of the reference peer -/

/-- The byte R_REGISTER drives in a data position (20_memory.md R84). -/
theorem readRegister_reference_getD (hc : c.codes = Codes.standard) (st : Byte) (a : Reg) (j : Nat) :
    (readRegister .reference c.codes p st a).getD j 0
      = if a = 0x07 then (if j = 0 then st else 0)
        else if j < (if a = 0x0A ∨ a = 0x0B ∨ a = 0x10 then 5 else 1) then Memory.read c.codes p.mem (cellOf a j)
        else 0 := by
  have hstatus : c.codes.regStatus = 0x07 := by rw [hc]; rfl
  rw [← regWidth_of_standard hc]
  by_cases ha : a = 0x07
  · rw [readRegister, hstatus, if_pos ha, if_pos ha]
    cases j <;> rfl
  · simp only [readRegister, hstatus, ha, true_or, if_true, if_false, Memory.regBytes]
    by_cases hj : j < c.codes.regWidth a <;> simp [hj]

/-- W_REGISTER at the reference peer: without data nothing changes (20_memory.md R85). -/
theorem writeRegister_reference (c : Config) (k : Nat) (p : Peer) (a : Reg) (d : List Byte) :
    writeRegister .reference c k p a d = if d = [] then p else storeRegister c.codes p a d := by
  unfold writeRegister unconstrained
  split
  · rfl
  · split
    · rfl
    · rfl

/-- A byte of a register after a write to it: the data where it reaches and fits, as before elsewhere. -/
theorem Memory.read_writeReg_same (hc : c.codes = Codes.standard) {m : Memory} (hm : Memory.wf c.codes m = true)
    {a : Reg} (ha : a ≠ Codes.standard.regStatus) (d : List Byte) (j : Nat) :
    Memory.read c.codes (Memory.writeReg c.codes m a d) (cellOf a j)
      = if j < min d.length (c.codes.regWidth a) then d.getD j 0 else Memory.read c.codes m (cellOf a j) := by
  have hlen : (d.take (c.codes.regWidth a)).length = min d.length (c.codes.regWidth a) := by
    rw [List.length_take, min_comm]
  have hcell (i : Nat) : cellOf a i = cellOf a 0 + i := rfl
  rw [Memory.writeReg, hcell j]
  split
  · next hj =>
    have hexist : ∀ i < (d.take (c.codes.regWidth a)).length, isCell c.codes (cellOf a 0 + i) = true := by
      intro i hi
      have hfits : i < c.codes.regWidth a := by omega
      rw [hc] at hfits ⊢
      exact standard_isCell ha hfits
    have hjd : j < d.length := by omega
    rw [Memory.read_writeFrom_inside hm hexist (hlen ▸ hj)]
    simp [hjd]
  · next hj => exact Memory.read_writeFrom_outside (by omega)

section
variable (hc : c.codes = Codes.standard)
include hc

/-- A write to STATUS clears exactly the flags whose bit is 1 (20_memory.md R66). -/
theorem storeRegister_status (p : Peer) (m : Byte) (ms : List Byte) :
    storeRegister c.codes p 0x07 (m :: ms)
      = { p with rxDr := p.rxDr && !m.getLsbD 6, txDs := p.txDs && !m.getLsbD 5, maxRt := p.maxRt && !m.getLsbD 4 } := by
  obtain ⟨h6, h5, h4⟩ := flagSet_statusFlags m
  have hstatus : (0x07 : Reg) = c.codes.regStatus := by rw [hc]; rfl
  rw [storeRegister, if_pos hstatus, hc, ← h6, ← h5, ← h4]
  rfl

/-- OBSERVE_TX is read only (20_memory.md R85). -/
theorem storeRegister_observeTx (p : Peer) (d : List Byte) : storeRegister c.codes p 0x08 d = p := by
  rw [hc]
  rfl

/-- Any other register takes what fits. -/
theorem storeRegister_other (p : Peer) {a : Reg} (hs : a ≠ 0x07) (ho : a ≠ 0x08) (d : List Byte) :
    storeRegister c.codes p a d = { p with mem := Memory.writeReg c.codes p.mem a d } := by
  have hs' : a ≠ c.codes.regStatus := by rw [hc]; exact hs
  have ho' : a ≠ c.codes.regObserveTx := by rw [hc]; exact ho
  rw [storeRegister, if_neg hs', if_neg ho']

/-- Only a write to STATUS touches the flags, and none touches the FIFOs. -/
theorem storeRegister_keepsFifos (p : Peer) {a : Reg} (hs : a ≠ 0x07) (d : List Byte) :
    KeepsFifos p (storeRegister c.codes p a d) := by
  by_cases ho : a = 0x08
  · rw [ho, storeRegister_observeTx hc]
    exact ⟨rfl, rfl, rfl, rfl, rfl, rfl⟩
  · rw [storeRegister_other hc p hs ho]
    exact ⟨rfl, rfl, rfl, rfl, rfl, rfl⟩

/-- Every byte of every register after a write with data. -/
theorem read_storeRegister (hm : Memory.wf c.codes p.mem = true) (a : Reg) {d : List Byte} (hd : d ≠ []) (b : Reg)
    {j : Nat} (hj : j < 8) :
    Memory.read c.codes (storeRegister c.codes p a d).mem (cellOf b j)
      = if b = a ∧ a ≠ 0x07 ∧ a ≠ 0x08 ∧ j < min d.length (if a = 0x0A ∨ a = 0x0B ∨ a = 0x10 then 5 else 1)
        then d.getD j 0 else Memory.read c.codes p.mem (cellOf b j) := by
  rw [← regWidth_of_standard hc]
  by_cases hs : a = 0x07
  · obtain ⟨m, ms, rfl⟩ := List.exists_cons_of_ne_nil hd
    subst hs
    rw [storeRegister_status hc, if_neg (by simp)]
  by_cases ho : a = 0x08
  · subst ho
    rw [storeRegister_observeTx hc, if_neg (by simp)]
  rw [storeRegister_other hc p hs ho]
  by_cases hb : b = a
  · subst hb
    rw [Memory.read_writeReg_same hc hm hs]
    simp only [hs, ho, ne_eq, not_false_eq_true, true_and]
  · rw [Memory.read_writeReg_other _ _ hb d hj, if_neg (fun h => hb h.1)]

end

/-! ### The payloads of the reference peer -/

theorem pushTx_reference (c : Config) (k : Nat) (p : Peer) (e : TxEntry) :
    pushTx .reference c k p e = if p.txf.length < c.fifoDepth then { p with txf := p.txf ++ [e] } else p := rfl

theorem pushTxEndingReuse_reference (c : Config) (k : Nat) (p : Peer) (e : TxEntry) :
    pushTxEndingReuse .reference c k p e
      = if p.txf.length < c.fifoDepth then { p with txf := p.txf ++ [e], txReuse := false } else p := by
  unfold pushTxEndingReuse
  rw [pushTx_reference]
  split
  · rfl
  · rfl

/-- W_ACK_PAYLOAD appends for pipes 0 to 5, where there is room (20_memory.md R89). -/
theorem applyCmd_wAckPayload_reference (c : Config) (k : Nat) (p : Peer) (st : Byte) (q : Pipe) (d : List Byte) :
    applyCmd .reference c k p st (.wAckPayload q) d
      = ((if p.txf.length < c.fifoDepth ∧ q.toNat ≤ 5 then { p with txf := p.txf ++ [⟨.ack q, d⟩] } else p), []) := by
  have hpipe : q.toNat < nPipes ↔ q.toNat ≤ 5 := Nat.lt_succ_iff
  simp only [applyCmd, hpipe, pushTx_reference, unconstrained]
  by_cases hq : q.toNat ≤ 5 <;> simp [hq]

end

/-- Settles O16: the first byte answered is the status byte, whose bits stand at their default places. -/
theorem statusComesFirst : Obligations.StatusComesFirst := by
  intro lv c k p op d hc
  obtain ⟨out, hanswer, hlen⟩ := peerXfer_answer lv c k p op d
  obtain ⟨h7, h6, h5, h4, hpipe, h0⟩ := statusByte_bits hc p
  refine ⟨_, out, hanswer, hlen, h7, h6, h5, h4, ?_, h0⟩
  rw [hpipe]
  cases p.rxf <;> rfl

/-- Settles O17: the rule of R_REGISTER, read position by position. -/
theorem referencePeerReadsRegisters : Obligations.ReferencePeerReadsRegisters := by
  intro c k p a d hc
  have hop : a.setWidth 8 = Codes.standard.opcodeOf (.rRegister a) := (BitVec.zero_or ..).symm
  refine ⟨_, by rw [hop, peerXfer_command hc]; rfl, fitBytes_length _ _ _ _, fun j hj => ?_⟩
  rw [fitBytes_reference_getElem? _ _ hj]
  exact congrArg some (readRegister_reference_getD hc _ a j)

/-- Settles O18: without data nothing changes; with data the register is stored as its address says. -/
theorem referencePeerWritesRegisters : Obligations.ReferencePeerWritesRegisters := by
  intro c k p a d hc hm
  refine ⟨writeRegister .reference c k p a d, peerXfer_dataless (cmd := .wRegister a) hc rfl, ?_⟩
  rw [writeRegister_reference]
  by_cases hd : d = []
  · subst hd
    refine ⟨fun _ => rfl, fun m ms h => absurd h (by simp), fun _ => ⟨rfl, rfl, rfl, rfl, rfl, rfl⟩, fun b j _ => ?_⟩
    simp
  rw [if_neg hd]
  refine ⟨fun h => ?_, fun m ms hcons ha => ?_, fun ha => storeRegister_keepsFifos hc p ha d,
    fun b j hj => read_storeRegister hc hm a hd b hj⟩
  · rw [h.resolve_left hd, storeRegister_observeTx hc]
  · rw [hcons, ha, storeRegister_status hc]

/-- Settles O19: the rule of each command, with the reference peer's way of appending. -/
theorem referencePeerMovesPayloads : Obligations.ReferencePeerMovesPayloads := by
  intro c k p d hc
  refine ⟨⟨_, peerXfer_command (cmd := .rRxPlWid) hc d, fitBytes_length _ _ _ _, fun j hj => ?_⟩,
    ⟨_, peerXfer_command (cmd := .rRxPayload) hc d, fitBytes_length _ _ _ _, fun j hj => ?_⟩, ?_, fun q => ?_, ?_⟩
  · rw [fitBytes_reference_getElem? _ _ hj, applyCmd]
    cases p.rxf <;> cases j <;> rfl
  · rw [fitBytes_reference_getElem? _ _ hj, applyCmd]
    cases p.rxf <;> rfl
  · rw [← pushTxEndingReuse_reference c k]
    exact peerXfer_dataless (cmd := .wTxPayload) hc rfl
  · have hack := applyCmd_wAckPayload_reference c k p (statusByte c p) q d
    have hxfer := peerXfer_dataless (cmd := .wAckPayload q) hc (congrArg Prod.snd hack)
    rwa [hack] at hxfer
  · rw [← pushTxEndingReuse_reference c k]
    exact peerXfer_dataless (cmd := .wTxPayloadNoack) hc rfl

/-- The opcode bytes that no row of the default table matches (30_encoding.md R110). -/
theorem standard_lookup_unmatched {op : Byte} (h : 0x40 ≤ op ∧ op ≤ 0x5F ∨ 0x62 ≤ op ∧ op ≤ 0x9F
    ∨ 0xA1 ≤ op ∧ op ≤ 0xA7 ∨ 0xB1 ≤ op ∧ op ≤ 0xE0 ∨ 0xE4 ≤ op ∧ op ≤ 0xFE) :
    Codes.standard.wireLookup op = none := by
  revert h; revert op; decide

/-- Settles O20: the rule of each command, and an opcode byte that is none. -/
theorem referencePeerRunsCommands : Obligations.ReferencePeerRunsCommands := by
  intro c k p d hc
  refine ⟨peerXfer_dataless (cmd := .flushTx) hc rfl, peerXfer_dataless (cmd := .flushRx) hc rfl,
    peerXfer_dataless (cmd := .reuseTxPl) hc rfl, peerXfer_dataless (cmd := .nop) hc rfl, fun op hop => ?_⟩
  exact peerXfer_unmatched (by rw [hc]; exact standard_lookup_unmatched hop) d

/-! ### The moves of the radio side -/

/-- Settles O21: each move where its condition holds; OBSERVE_TX is a cell of its own. -/
theorem radioMovesDoWhatTheyMay : Obligations.RadioMovesDoWhatTheyMay := by
  intro c k p hc hm
  refine ⟨fun q w bs hq hlen hroom => ?_, fun h => if_neg h, fun h => if_neg h,
    fun v => ⟨_, rfl, ⟨rfl, rfl, rfl, rfl, rfl, rfl⟩, ?_, fun j hj => ?_⟩⟩
  · exact if_pos ⟨hroom, Nat.lt_succ_of_le hq, hlen⟩
  · have hcell : isCell c.codes (cellOf 0x08 0) = true := by rw [hc]; decide
    rw [applyMove, hc]
    rw [hc] at hm hcell
    exact Memory.read_write_same hm hcell v
  · have hobserve : c.codes.regObserveTx = 0x08 := by rw [hc]; rfl
    exact applyMove_cells (lv := .reference) (k := k) (m := .observe v) (by simp) (by rwa [hobserve])

end Sys2Proof.Machine
end

section
/-! Claims about instructions of the block facing a peer that keeps the contract under the default codes: a wire command
does to the peer what the peer's rule says (20_memory.md R66, R70, R74), and a plain register reads back what was written
(R67). -/

set_option Elab.async false

namespace Sys2Proof.Machine

open Sys2Proof

section
variable {s : State}

/-- A wire command that completes does to the peer, as the transaction finds it, what the peer's rule says. -/
theorem runWire_peer (h : s.Ready) (hl : s.PeerKeepsContract) (hc : s.cfg.codes = Codes.standard) {i : Instr}
    (hw : i.wf s.cfg = true) (cmd : WireCmd) (data : List Byte) :
    ∃ t, runWire i (xact (s.cfg.codes.opcodeOf cmd) data) s = .next t
      ∧ t.peer = (applyCmd s.env.level s.cfg (2 * s.env.ctr + 1) s.peerNow (statusByte s.cfg s.peerNow) cmd data).1 := by
  refine ⟨_, runWire_returns h.1 h.2 hw, ?_⟩
  have hcmd := peerXfer_command (lv := s.env.level) (k := 2 * s.env.ctr + 1) (p := s.peerNow) hc cmd data
  rw [← hc] at hcmd
  have hpeer := congrArg Prod.fst hcmd
  exact (xacted_peer_contract (s := s.accept i) _ data hl).trans hpeer

/-- A register write that completes is one transaction, its status byte returned (40_register_protocol.md R132). -/
theorem exec_rpWriteRegister (h : s.Ready) (a : Reg) {bs : List Byte} (hlen : bs.length ≤ 32) :
    ∃ st, exec (.rpWriteRegister a bs) s
      = .next (((s.accept (.rpWriteRegister a bs)).xacted (opWithReg s.cfg.codes.opcWRegister a) bs).complete
          (.status st)) := by
  have hallow : (s.accept (.rpWriteRegister a bs)).env.allow = none := h.2
  refine ⟨byteAt ((s.accept (.rpWriteRegister a bs)).reply (opWithReg s.cfg.codes.opcWRegister a) bs) 0,
    runHost_returns h.1 (decide_eq_true hlen) ?_⟩
  simp only [op_bind, regWrite_returns hallow, op_pure, State.accept_cfg]

theorem standard_regWidth_le_32 {a : Reg} {n : Nat} (hn : Codes.standard.regWidth a = n) : n ≤ 32 :=
  hn ▸ (Codes.regWidth_le _ a).trans (by decide)

/-- A whole plain register written holds the bytes, and the next transaction finds a faithful peer again. -/
theorem rpWriteRegister_plain (h : s.Ready) (hf : s.FaithfulPeer) (hp : s.KeepsPower) {a : Reg} (ha : PlainReg a)
    {bs : List Byte} (hb : Codes.standard.regWidth a = bs.length) :
    ∃ t st, exec (.rpWriteRegister a bs) s = .next t ∧ t.results = s.results ++ [.status st]
      ∧ t.Ready ∧ t.FaithfulPeer ∧ t.KeepsPower ∧ ∀ i < bs.length, some (t.cell (cellOf a i)) = bs[i]? := by
  obtain ⟨hn, hs, ho⟩ := ha
  have hfacc : (s.accept (.rpWriteRegister a bs)).FaithfulPeer := hf
  have hpacc : (s.accept (.rpWriteRegister a bs)).KeepsPower := hp
  obtain ⟨st, hexec⟩ := exec_rpWriteRegister h a (standard_regWidth_le_32 hb)
  refine ⟨_, st, hexec, by simp, ⟨rfl, by simpa using h.2⟩, hfacc.after_write hpacc hn hs ho hb.symm,
    xacted_keepsPower _ _ hpacc, fun i hi => ?_⟩
  rw [List.getElem?_eq_getElem hi]
  exact congrArg some (hfacc.write_inside hpacc hn hs ho hb.symm hi)

/-- A read of a whole plain register returns its bytes. -/
theorem rpReadRegister_plain (h : s.Ready) (hf : s.FaithfulPeer) (hp : s.KeepsPower) {a : Reg} (ha : PlainReg a) {n : Nat}
    (hn : Codes.standard.regWidth a = n) :
    ∃ t st bs, exec (.rpReadRegister a n) s = .next t ∧ t.results = s.results ++ [.statusBytes st bs] ∧ bs.length = n
      ∧ ∀ i < n, bs[i]? = some (s.cell (cellOf a i)) := by
  have hlen : lenOk n = true := decide_eq_true (standard_regWidth_le_32 hn)
  have hacc : (s.accept (.rpReadRegister a n)).env.allow = none := h.2
  obtain ⟨t, evs, hexec, ⟨-, -, hres, -⟩, -, ⟨st, hbs, -⟩, hread, -⟩ := runHost_reads (i := .rpReadRegister a n)
    (body := do
      let (st, bs) ← regRead a n
      return .statusBytes st bs) h hlen (fun _ => ⟨ha, hn⟩) (by simp only [op_bind, regRead_returns hacc, op_pure]; rfl)
  exact ⟨t, _, _, hexec, hres, hbs, (hread hf hp).1⟩

end

/-- The plain-value registers of the default codes and their widths (20_memory.md R67). -/
theorem plainReg_of_listed {a : Reg} {n : Nat}
    (h : n = 1 ∧ a ∈ ([0x00, 0x01, 0x02, 0x04, 0x05, 0x06, 0x0C, 0x0D, 0x0E, 0x0F, 0x1C, 0x1D] : List Reg)
      ∨ n = 5 ∧ a ∈ ([0x0A, 0x0B, 0x10] : List Reg)) : PlainReg a ∧ Codes.standard.regWidth a = n := by
  obtain ⟨rfl, ha⟩ | ⟨rfl, ha⟩ := h
  · revert ha; revert a; decide
  · revert ha; revert a; decide

/-- Settles O22: at STATUS the peer's rule of W_REGISTER clears flags. -/
theorem statusFlagsAreWriteOneToClear : Obligations.StatusFlagsAreWriteOneToClear := by
  intro s m h hl hc
  obtain ⟨t, hexec, hpeer⟩ := runWire_peer h hl hc (i := .wRegister 0x07 [m]) rfl (.wRegister 0x07) [m]
  refine ⟨t, hexec, ?_⟩
  have hfits : ([m] : List Byte).length ≤ s.cfg.codes.regWidth 0x07 ∧ s.cfg.codes.namedReg 0x07 = true := by
    rw [hc, List.length_singleton]
    decide
  rw [hpeer, applyCmd, writeRegister, if_neg (by simp), if_pos hfits, storeRegister_status hc]

/-- Settles O23: the write leaves a faithful peer whose register holds the bytes, and the read returns them. -/
theorem plainRegistersReadBack : Obligations.PlainRegistersReadBack := by
  intro s a bs h hf hp hlisted
  obtain ⟨ha, hw⟩ := plainReg_of_listed hlisted
  obtain ⟨t, st1, hwrite, hres1, ht, hft, hpt, hcells⟩ := rpWriteRegister_plain h hf hp ha hw
  obtain ⟨u, st2, got, hread, hres2, hlen, hgot⟩ := rpReadRegister_plain ht hft hpt ha hw
  have hsame : got = bs := List.ext_getElem hlen fun i hi hi' => by
    simpa [hi, hi'] using (hgot i hi').trans (hcells i hi')
  refine ⟨t, u, st1, st2, hwrite, hread, ?_⟩
  rw [hres2, hres1, hsame, List.append_assoc]
  rfl

/-- Settles O24: the peer's rule of each command, on the peer the transaction finds. -/
theorem readsAndFlushesActOnThePeer : Obligations.ReadsAndFlushesActOnThePeer := by
  intro s h hl hc
  refine ⟨fun a n hn => ?_, ?_, ?_, fun n hn => ?_, ?_, ?_⟩
  · exact runWire_peer h hl hc (i := .rRegister a n) (decide_eq_true hn) (.rRegister a) _
  · exact runWire_peer h hl hc (i := .rRxPlWid) rfl .rRxPlWid _
  · exact runWire_peer h hl hc (i := .nop) rfl .nop _
  · exact runWire_peer h hl hc (i := .rRxPayload n) (decide_eq_true hn) .rRxPayload _
  · obtain ⟨t, hexec, hpeer⟩ := runWire_peer h hl hc (i := .flushRx) rfl .flushRx []
    exact ⟨t, hexec, congrArg Peer.rxf hpeer⟩
  · obtain ⟨t, hexec, hpeer⟩ := runWire_peer h hl hc (i := .flushTx) rfl .flushTx []
    exact ⟨t, hexec, congrArg Peer.txf hpeer⟩

end Sys2Proof.Machine
end

section
/-! The claim that no peer decides whether an instruction completes (20_memory.md R80): in a block whose calls return, the
sequencer, the port of the instruction and its operands give the outcome. -/

set_option Elab.async false

namespace Sys2Proof.Machine

open Sys2Proof

/-- A wire command of more than 32 data bytes is refused (30_encoding.md R100). -/
theorem exec_frameTooLong {i : Instr} {s : State} (hidle : s.blk.seq = .idle)
    (hi : ¬ (IsHost s.cfg i ∨ i.wf s.cfg = true)) : exec i s = .refused .frameTooLong := by
  obtain ⟨hhost, -⟩ | ⟨-, op, data, hexec⟩ := exec_form s.cfg i s
  · exact absurd (.inl hhost) hi
  · have hw : i.wf s.cfg = false := Bool.eq_false_iff.2 fun hw => hi (.inr hw)
    simp [hexec, runWire, State.idle, hidle, hw]

/-- In a ready block every other instruction completes. -/
theorem exec_completes {i : Instr} {s : State} (h : s.Ready) (hi : IsHost s.cfg i ∨ i.wf s.cfg = true) :
    ∃ t, exec i s = .next t ∧ t.blk.seq = .idle := by
  obtain ⟨hhost, -⟩ | ⟨hwire, op, data, hexec⟩ := exec_form s.cfg i s
  · obtain ⟨t, evs, r, hexec, hseq, -⟩ := exec_host_done hhost h
    exact ⟨t, hexec, hseq⟩
  · have hw : i.wf s.cfg = true := hi.resolve_left fun hhost => absurd (hhost.symm.trans hwire) (by decide)
    exact ⟨_, hexec.trans (runWire_returns h.1 h.2 hw), rfl⟩

/-- Settles O59: a busy block faults, an idle one refuses a frame that is too long and completes everything else. -/
theorem stepsDoNotDependOnThePeer : Obligations.StepsDoNotDependOnThePeer := by
  intro i s u hblk hcfg hs hu
  by_cases hidle : s.blk.seq = .idle
  · have hidle' : u.blk.seq = .idle := hblk ▸ hidle
    by_cases hi : IsHost s.cfg i ∨ i.wf s.cfg = true
    · obtain ⟨t, hexec, ht⟩ := exec_completes ⟨hidle, hs⟩ hi
      obtain ⟨v, hexec', hv⟩ := exec_completes ⟨hidle', hu⟩ (hcfg ▸ hi)
      rw [hexec, hexec']
      exact ⟨ht, hv⟩
    · rw [exec_frameTooLong hidle hi, exec_frameTooLong hidle' (hcfg ▸ hi)]
  · rw [exec_busy hidle, exec_busy (hblk ▸ hidle)]

end Sys2Proof.Machine
end

section
/-! Host operations read back whole (30_encoding.md R112, R113, with the operand layout of log 2): each reader of an operand
gives back what the encoder wrote for it and leaves what follows, and a row's readers in sequence give back the operation. -/

set_option Elab.async false

namespace Sys2Proof

open Machine

/-! ### Reading from the front of a request -/

/-- The reader takes exactly `bs` off the front of a request, whatever follows it, and gives `a`. -/
def Reads {α : Type} (m : Rd α) (bs : List Byte) (a : α) : Prop := ∀ rest, m (bs ++ rest) = .ok a rest

namespace Reads

theorem pure {α : Type} (a : α) : Reads (pure a : Rd α) [] a := fun _ => rfl

theorem bind {α β : Type} {m : Rd α} {f : α → Rd β} {bs cs : List Byte} {a : α} {b : β} (hm : Reads m bs a)
    (hf : Reads (f a) cs b) : Reads (m >>= f) (bs ++ cs) b := by
  intro rest
  show EStateM.bind m f _ = _
  rw [EStateM.bind, List.append_assoc, hm]
  exact hf rest

/-- A reader, and then a value made from what it gives. -/
theorem thenPure {α β : Type} {m : Rd α} {g : α → β} {bs : List Byte} {a : α} {b : β} (hm : Reads m bs a)
    (hg : g a = b := by rfl) : Reads (m >>= fun x => (Pure.pure (g x) : Rd β)) bs b := by
  subst hg
  simpa using hm.bind (f := fun x => Pure.pure (g x)) (Reads.pure (g a))

theorem ite_pos {α : Type} {p : Prop} [Decidable p] {m n : Rd α} {bs : List Byte} {a : α} (hp : p) (hm : Reads m bs a) :
    Reads (if p then m else n) bs a := by
  rwa [if_pos hp]

/-! ### Bytes and numbers -/

theorem byte (b : Byte) : Reads readByte [b] b := fun _ => rfl

theorem bytes {n : Nat} {bs : List Byte} (h : bs.length = n) : Reads (readBytes n) bs bs := by
  subst h
  induction bs with
  | nil => exact .pure []
  | cons b bs ih => exact (byte b).bind ih.thenPure

theorem len {n : Nat} (h : lenOk n = true) : Reads readLen [BitVec.ofNat 8 n] n := by
  have hle : n ≤ 32 := of_decide_eq_true h
  have hn : (BitVec.ofNat 8 n).toNat = n := by
    rw [BitVec.toNat_ofNat]
    omega
  refine (byte _).bind (cs := []) ?_
  rw [hn]
  exact .ite_pos h (.pure n)

theorem counted {bs : List Byte} (h : lenOk bs.length = true) : Reads readCounted (counted bs) bs :=
  (len h).bind (bytes rfl)

end Reads

/-- Reading a number's first `n` bytes gives its value in `n` bytes. -/
theorem ofLeBytes_leBytes (n v : Nat) : ofLeBytes (leBytes n v) = v % 256 ^ n := by
  induction n generalizing v with
  | zero => rw [pow_zero, Nat.mod_one]; rfl
  | succ n ih =>
    rw [leBytes, ofLeBytes, ih, BitVec.toNat_ofNat, pow_succ' 256 n, Nat.mod_mul]

/-- The bytes of a token hold `CB_W` bits. -/
theorem two_pow_cbW_le (c : Config) : 2 ^ c.cbW ≤ 256 ^ tokenBytes c := by
  rw [show 256 = 2 ^ 8 from rfl, ← pow_mul]
  refine Nat.pow_le_pow_right (by decide) ?_
  rw [tokenBytes]
  omega

namespace Reads

theorem num {n v : Nat} (h : v < 256 ^ n) : Reads (readNum n) (leBytes n v) v :=
  (bytes (Laws.leBytes_length n v)).thenPure ((ofLeBytes_leBytes n v).trans (Nat.mod_eq_of_lt h))

/-- An address or a base of `8 * n` bits, in `n` bytes. -/
theorem bits {w n : Nat} (h : w = 8 * n) (v : BitVec w) :
    Reads (readNum n) (leBytes n v.toNat) v.toNat := by
  refine num ?_
  rw [show 256 = 2 ^ 8 from rfl, ← pow_mul, ← h]
  exact v.isLt

theorem token {c : Config} {v : Nat} (h : v < 2 ^ c.cbW) : Reads (readToken c) (leBytes (tokenBytes c) v) v :=
  (num (h.trans_le (two_pow_cbW_le c))).thenPure (Nat.mod_eq_of_lt h)

/-! ### The operand types of 30_encoding.md R113 -/

theorem reg (a : Reg) : Reads readReg [a.setWidth 8] a := (byte _).thenPure (by simp)

theorem pipe3 (p : Pipe) : Reads readPipe3 [p.setWidth 8] p := (byte _).thenPure (by simp)

theorem pipe (p : Pipe) : Reads readPipe [p.setWidth 8] p := by
  have hlt : (p.setWidth 8).toNat < 8 := by
    rw [BitVec.toNat_setWidth_of_le (by decide)]
    exact p.isLt
  refine (byte _).bind (cs := []) (.ite_pos hlt ?_)
  simpa using Reads.pure p

theorem bool (e : Bool) : Reads readBool [boolByte e] e := by
  cases e <;> exact fun _ => rfl

theorem crcMode (m : CrcMode) : Reads readCrcMode [m.number] m := by
  cases m <;> exact fun _ => rfl

theorem dataRate (r : DataRate) : Reads readDataRate [r.number] r := by
  cases r <;> exact fun _ => rfl

theorem power (w : Power) : Reads readPower [w.number] w := by
  cases w <;> exact fun _ => rfl

theorem callback {c : Config} {cb : Option Callback} (h : callbackOperandOk c cb = true) :
    Reads (readCallback c) (callbackBytes c cb) cb := by
  cases cb with
  | none => exact fun _ => rfl
  | some f =>
    obtain ⟨hfn, hctx⟩ : f.fn < 2 ^ c.cbW ∧ f.ctx < 2 ^ c.cbW := by
      simpa [callbackOperandOk, Callback.wf] using h
    exact (bool true).bind ((token hfn).bind (token hctx).thenPure)

theorem datagram {d : Datagram} (h : d.wf = true) : Reads readDatagram (datagramBytes d) d :=
  (pipe d.pipe).bind (counted h).thenPure

end Reads

/-! ### Every host operation -/

/-- The number of an operation, the first byte of its request (30_encoding.md R113). -/
def hopOf (c : Config) (i : Instr) : Byte := (encode c i).2.headD 0

theorem encode_eq_hopOf_cons (c : Config) (i : Instr) : (encode c i).2 = hopOf c i :: (encode c i).2.tail := by
  cases i <;> rfl

/-- An operation is read back where the readers of its row take the bytes of its operands and give it. -/
theorem reads_host {c : Config} {i : Instr} {row : HostRow} {ops : List Byte} (hrow : hostLookup c (hopOf c i) = some row)
    (hread : Reads row.operands ops i) (hops : (encode c i).2.tail = ops) : Reads (readHost c) (encode c i).2 i := by
  rw [encode_eq_hopOf_cons, hops]
  refine (Reads.byte (hopOf c i)).bind ?_
  rwa [hrow]

/-- The 46 rows of 30_encoding.md R113, by the operands they read. -/
theorem reads_host_operation {c : Config} {i : Instr} (hw : i.wf c = true) (hi : IsHost c i) :
    Reads (readHost c) (encode c i).2 i := by
  cases i with
  | rRegister | wRegister | rRxPlWid | rRxPayload | wTxPayload | wAckPayload | wTxPayloadNoack | flushTx | flushRx
  | reuseTxPl | nop => exact nomatch hi
  | rpReadRegister a n => exact reads_host rfl (.bind (.reg a) (.thenPure (.len hw))) rfl
  | rpWriteRegister a bs => exact reads_host rfl (.bind (.reg a) (.thenPure (.counted hw))) rfl
  | rpReadPayload n => exact reads_host rfl (.thenPure (.len hw)) rfl
  | rpWritePayload bs | rpWriteNoackPayload bs => exact reads_host rfl (.thenPure (.counted hw)) rfl
  | rpWriteAckPayload p bs => exact reads_host rfl (.bind (.pipe3 p) (.thenPure (.counted hw))) rfl
  | rpFlushRx | rpFlushTx | rpReuseTxPl | rpReadPayloadWidth | rpNop | enterShutdown | enterStandby | enterRx | enterTx
  | getCrc | getChannel | getDataRate | getOutputPower | getRetryCount | getRetryDelay | getTxAddress | init | poll =>
    exact reads_host rfl (.pure _) rfl
  | setChannel b | setRetryCount b | setRetryDelay b => exact reads_host rfl (.thenPure (.byte b)) rfl
  | setCrc m => exact reads_host rfl (.thenPure (.crcMode m)) rfl
  | setDataRate r => exact reads_host rfl (.thenPure (.dataRate r)) rfl
  | setOutputPower w => exact reads_host rfl (.thenPure (.power w)) rfl
  | startListening p | stopListening p | getRxBaseAddress p | getRxAddress p | getDynPayload p | getAutoAck p
  | getPipeEnable p => exact reads_host rfl (.thenPure (.pipe p)) rfl
  | setDynPayload p e | setAutoAck p e | setPipeEnable p e =>
    exact reads_host rfl (.bind (.pipe p) (.thenPure (.bool e))) rfl
  | setRxBaseAddress p base => exact reads_host rfl (.bind (.pipe p) (.thenPure (.bits rfl base) (by simp))) rfl
  | setRxAddress p addr => exact reads_host rfl (.bind (.pipe p) (.thenPure (.bits rfl addr) (by simp))) rfl
  | setTxAddress addr => exact reads_host rfl (.thenPure (.bits rfl addr) (by simp)) rfl
  | enqueueData dg => exact reads_host rfl (.thenPure (.datagram hw)) rfl
  | setRxCallback cb | setTxCallback cb => exact reads_host rfl (.thenPure (.callback hw)) rfl

/-- Settles O12: the readers of each row take the operands' bytes, whatever follows them. -/
theorem hostOperationsReadBack : Obligations.HostOperationsReadBack := by
  intro c i rest hw hi
  rw [decode, reads_host_operation hw hi rest]

end Sys2Proof
end

section
/-! Frames and wire commands (30_encoding.md R100 to R106): the instruction of a command with its data, in both directions.
The frame of a wire command is read back, and a frame that is read has the command's own form. -/

set_option Elab.async false

namespace Sys2Proof

open Machine

/-! ### From a wire command to its frame and back -/

theorem decodeFrame_of_lookup {c : Codes} {op : Byte} {cmd : WireCmd} (h : c.wireLookup op = some cmd) (d : List Byte) :
    decodeFrame c (op :: d) = frameInstr cmd d := by
  rw [decodeFrame, h]

/-- A frame that is read as an instruction has an opcode byte and the data of one of the commands. -/
theorem decodeFrame_ok {c : Codes} {bs : List Byte} {i : Instr} (h : decodeFrame c bs = .ok i) :
    ∃ op d cmd, bs = op :: d ∧ c.wireLookup op = some cmd ∧ frameInstr cmd d = .ok i := by
  cases bs with
  | nil => cases h
  | cons op d =>
    cases hcmd : c.wireLookup op with
    | none => rw [decodeFrame, hcmd] at h; cases h
    | some cmd => exact ⟨op, d, cmd, rfl, hcmd, by rwa [decodeFrame_of_lookup hcmd] at h⟩

/-- The frame of a well-formed wire command is the opcode byte of its command with data that give it back. -/
theorem frame_of_wire {c : Config} {i : Instr} (hw : i.wf c = true) (hi : IsWire c i) :
    ∃ cmd d, (encode c i).2 = c.codes.opcodeOf cmd :: d ∧ frameInstr cmd d = .ok i := by
  have fits {n : Nat} (hn : lenOk n = true) : ¬ (!lenOk n) = true := by simp [hn]
  cases i with
  | rRegister a n => exact ⟨.rRegister a, _, rfl, by simp [frameInstr, fits hw]⟩
  | rRxPayload n => exact ⟨.rRxPayload, _, rfl, by simp [frameInstr, fits hw]⟩
  | wRegister a bs => exact ⟨.wRegister a, bs, rfl, if_neg (fits hw)⟩
  | wTxPayload bs => exact ⟨.wTxPayload, bs, rfl, if_neg (fits hw)⟩
  | wAckPayload p bs => exact ⟨.wAckPayload p, bs, rfl, if_neg (fits hw)⟩
  | wTxPayloadNoack bs => exact ⟨.wTxPayloadNoack, bs, rfl, if_neg (fits hw)⟩
  | rRxPlWid => exact ⟨.rRxPlWid, _, rfl, rfl⟩
  | flushTx => exact ⟨.flushTx, _, rfl, rfl⟩
  | flushRx => exact ⟨.flushRx, _, rfl, rfl⟩
  | reuseTxPl => exact ⟨.reuseTxPl, _, rfl, rfl⟩
  | nop => exact ⟨.nop, _, rfl, rfl⟩
  | _ => exact nomatch hi

/-- Settles O13: the opcode byte of a command is looked up as that command under any admissible codes, and the command with
the frame's data is the instruction. -/
theorem wireCommandsReadBack : Obligations.WireCommandsReadBack := by
  intro c i hok hw hi
  obtain ⟨cmd, d, hframe, hinstr⟩ := frame_of_wire hw hi
  rw [decode, hframe, decodeFrame_of_lookup (wireLookup_opcodeOf hok cmd), hinstr]
  rfl

/-! ### From a frame to the command it is read as -/

/-- The data `own` of an instruction's own frame, beside the data `d` it was read from: as many bytes, and the same ones where
`d` is filler or the instruction carries data (30_encoding.md R107). -/
structure OwnData (i : Instr) (own d : List Byte) : Prop where
  length : own.length = d.length
  same : (∀ b ∈ d, b = fill) ∨ CarriesData i → own = d

theorem OwnData.refl (i : Instr) (d : List Byte) : OwnData i d d := ⟨rfl, fun _ => rfl⟩

/-- A command that carries no data sends fillers. -/
theorem OwnData.fillers {i : Instr} (hi : ¬ CarriesData i) {n : Nat} {d : List Byte} (hn : d.length = n) :
    OwnData i (List.replicate n fill) d where
  length := by rw [List.length_replicate, hn]
  same h := (List.eq_replicate_iff.2 ⟨hn, h.resolve_right hi⟩).symm

/-- An instruction read from a command with data is well-formed, and its own frame is that command's. -/
theorem frameInstr_ok {cmd : WireCmd} {d : List Byte} {i : Instr} (h : frameInstr cmd d = .ok i) (c : Config) :
    i.wf c = true ∧ ∃ own, encode c i = (.wire, c.codes.opcodeOf cmd :: own) ∧ OwnData i own d := by
  unfold frameInstr at h
  split at h
  · cases h
  next hlong =>
  have hlen : lenOk d.length = true := by simpa using hlong
  have fixed {n : Nat} {j : Instr} {e : DecodeError} (h : (if d.length = n then .ok j else .error e) = Except.ok i) :
      d.length = n ∧ j = i := by
    split at h
    · next hn => exact ⟨hn, Except.ok.inj h⟩
    · cases h
  cases cmd with
  | rRegister a => cases h; exact ⟨hlen, _, rfl, .fillers (by simp) rfl⟩
  | rRxPayload => cases h; exact ⟨hlen, _, rfl, .fillers (by simp) rfl⟩
  | wRegister | wTxPayload | wAckPayload | wTxPayloadNoack => cases h; exact ⟨hlen, d, rfl, .refl _ d⟩
  | rRxPlWid =>
    obtain ⟨hn, rfl⟩ := fixed h
    exact ⟨rfl, _, rfl, .fillers (n := 1) (by simp) hn⟩
  | flushTx | flushRx | reuseTxPl | nop =>
    obtain ⟨hn, rfl⟩ := fixed h
    exact ⟨rfl, _, rfl, .fillers (n := 0) (by simp) hn⟩

/-- Settles O14: the lookup gives the command's row, and the instruction read from the data has the command's own frame. -/
theorem framesReadAreTheCommandsOwn : Obligations.FramesReadAreTheCommandsOwn := by
  intro c bs i more hok h
  cases hframe : decodeFrame c.codes bs with
  | error e => rw [decode, hframe] at h; cases h
  | ok j =>
  rw [decode, hframe] at h
  cases h
  obtain ⟨op, d, cmd, rfl, hlookup, hinstr⟩ := decodeFrame_ok hframe
  obtain ⟨hw, own, henc, hown⟩ := frameInstr_ok hinstr c
  obtain ⟨r, hr, hhit, hhit', hop⟩ := row_of_lookup hok hlookup
  rw [henc]
  refine ⟨rfl, hw, rfl, by simp [hown.length], ⟨r, hr, hhit, hhit'⟩, hown.same, fun hmasks => ?_⟩
  have hop := hop (hmasks r hr)
  exact ⟨congrArg some hop, fun hdata => congrArg₂ List.cons hop (hown.same hdata)⟩

/-! ### Words of the tables -/

/-- Settles O11: the decoder runs on each word. -/
theorem tableWordsDecode : Obligations.TableWordsDecode :=
  ⟨rfl, rfl, rfl, rfl, rfl, rfl, rfl, rfl, rfl, rfl⟩

end Sys2Proof
end

section
/-! Requests that are refused (30_encoding.md R113, R119): an operation number outside the table and an operand outside its
set give FAIL, and nothing else changes. -/

set_option Elab.async false

namespace Sys2Proof.Machine

open Sys2Proof

section
variable {s : State}

/-- An idle block that gives a result is as before but for that result. -/
theorem complete_of_idle (h : s.blk.seq = .idle) (r : Result) :
    s.complete r = { s with results := s.results ++ [r] } := by
  have hblk : s.finish.blk = s.blk := by
    rw [State.finish, State.onBlk_blk, ← h]
  rw [State.complete, hblk]
  rfl

/-- Accepting an operation and completing it at once is giving its result. -/
theorem accept_complete (i : Instr) (r : Result) : (s.accept i).complete r = s.complete r := rfl

/-! ### Operation numbers -/

/-- The operation numbers do not depend on the configuration. -/
theorem hostTable_hops (c : Config) : (hostTable c).map (·.hop) = (hostTable Config.standard).map (·.hop) := rfl

/-- Every row of the table has its number in one of the five ranges of 30_encoding.md R113. -/
theorem hop_in_range {c : Config} {row : HostRow} (h : row ∈ hostTable c) :
    row.hop ≤ 0x0A ∨ (0x10 ≤ row.hop ∧ row.hop ≤ 0x15) ∨ (0x20 ≤ row.hop ∧ row.hop ≤ 0x37)
      ∨ (0x40 ≤ row.hop ∧ row.hop ≤ 0x44) := by
  have hranges : ∀ hop ∈ (hostTable Config.standard).map (·.hop),
      hop ≤ 0x0A ∨ (0x10 ≤ hop ∧ hop ≤ 0x15) ∨ (0x20 ≤ hop ∧ hop ≤ 0x37) ∨ (0x40 ≤ hop ∧ hop ≤ 0x44) := by
    decide
  exact hranges _ (hostTable_hops c ▸ List.mem_map_of_mem h)

/-- A number that no row has is no operation, whatever follows it. -/
theorem decode_unknown_operation {c : Config} {hop : Byte} (h : hostLookup c hop = none) (ops : List Byte) :
    decode c .host (hop :: ops) = .error (.noOperation hop) := by
  have hread : readHost c (hop :: ops) = .error (.noOperation hop) ops := by
    simp only [readHost, bind, EStateM.bind, readByte, h]
    rfl
  rw [decode, hread]

theorem step_of_undecoded {r : Request} {rest : List Input} {e : DecodeError} (hok : s.cfg.ok = true)
    (hin : s.inbox = .op r :: rest) (hdec : s.decodeRequest r = .error e) : step s = rejectRequest e (s.take r rest) := by
  simp [step, hok, hin, hdec]

/-- An idle block answers what is no operation with FAIL. -/
theorem refuseRequest_idle (h : s.blk.seq = .idle) :
    refuseRequest s = .next { s with results := s.results ++ [.fail] } := by
  rw [← complete_of_idle h]
  simp [refuseRequest, State.idle, h]

end

/-- Settles O8: no row has the number, so the request is no operation, which an idle block answers with FAIL. -/
theorem unknownOperationGivesFail : Obligations.UnknownOperationGivesFail := by
  intro s r rest hop ops hok hidle hin hport hbytes hrange
  have hlookup : hostLookup s.cfg hop = none :=
    List.find?_eq_none.2 fun row hrow heq => hrange (beq_iff_eq.1 heq ▸ hop_in_range hrow)
  have hdec : s.decodeRequest r = .error (.noOperation hop) := by
    rw [State.decodeRequest, hport, hbytes, decode_unknown_operation hlookup]
  exact (step_of_undecoded hok hin hdec).trans (refuseRequest_idle (s := s.take r rest) hidle)

/-! ### Operands -/

section
variable {s : State}

/-- The check of a pipe operand comes first and gives FAIL (30_encoding.md R119 a). -/
theorem pipe_check_fails {p : Pipe} (hp : 6 ≤ p.toNat) (m : Op Result) (s : State) :
    (if !pipeOk p then pure .fail else m) s = .ok .fail s := by
  have hbad : pipeOk p = false := by simpa [pipeOk] using hp
  rw [hbad]
  rfl

/-- An operand outside its set gives FAIL and changes nothing else (30_encoding.md R119). -/
theorem exec_refuses_operand {i : Instr} (hidle : s.blk.seq = .idle) (hi : IsHost s.cfg i) (hw : i.wf s.cfg = false) :
    exec i s = .next { s with results := s.results ++ [.fail] } := by
  obtain ⟨-, body, hexec, -⟩ | ⟨hwire, -⟩ := exec_form s.cfg i s
  · rw [hexec, runHost_refuses hidle hw, accept_complete, complete_of_idle hidle]
  · exact absurd (hi.symm.trans hwire) (by decide)

/-- A checked pipe of 6 or 7 gives FAIL and changes nothing else (30_encoding.md R119 a). -/
theorem exec_refuses_pipe {i : Instr} {p : Pipe} (hidle : s.blk.seq = .idle) (hi : checkedPipe i = some p)
    (hp : 6 ≤ p.toNat) : exec i s = .next { s with results := s.results ++ [.fail] } := by
  cases i with
  | startListening | stopListening | getRxBaseAddress | setRxBaseAddress | getRxAddress | setRxAddress | getDynPayload
  | setDynPayload | getAutoAck | setAutoAck | getPipeEnable | setPipeEnable =>
    cases hi
    exact runHost_only_answers hidle rfl (pipe_check_fails hp _ _)
  | _ => cases hi

end

/-- Settles O9: the operands are looked at before the body, and the body looks at a pipe before anything else. -/
theorem refusedOperandsChangeNothing : Obligations.RefusedOperandsChangeNothing := by
  intro i s hidle
  refine ⟨?_, fun ⟨hwire, hw⟩ => exec_frameTooLong hidle ?_⟩
  · rintro ⟨hhost, hw | ⟨p, hi, hp⟩⟩
    · exact exec_refuses_operand hidle hhost hw
    · exact exec_refuses_pipe hidle hi hp
  · rintro (hhost | hok)
    · exact absurd (hhost.symm.trans hwire) (by decide)
    · exact absurd (hok.symm.trans hw) (by decide)

end Sys2Proof.Machine
end

section
/-! Every frame the block sends is one of the eleven commands (30_encoding.md R100, R108, R110): each micro-step adds such
frames only. -/

set_option Elab.async false

namespace Sys2Proof.Machine

open Sys2Proof

/-- The exchange of a command with at most 32 data bytes is sound, whatever is answered. -/
theorem soundEvent_xfer {c : Config} (hok : c.ok = true) (cmd : WireCmd) {data rx : List Byte} (hdata : data.length ≤ 32)
    (hrx : rx.length = data.length + 1) : soundEvent c.codes (.xfer (c.codes.opcodeOf cmd :: data) rx) = true := by
  simp [soundEvent, wireLookup_opcodeOf hok, hrx, Nat.lt_succ_iff.2 hdata]

/-- The events added from `s` to `t` are sound. -/
abbrev AddsSound (s t : State) : Prop :=
  ∃ evs, t.trace = s.trace ++ evs ∧ ∀ e ∈ evs, soundEvent s.cfg.codes e = true

theorem AddsSound.none {s t : State} (h : t.trace = s.trace) : AddsSound s t := ⟨[], by simp [h], by simp⟩

theorem AddsSound.one {s t : State} {e : Event} (h : t.trace = s.trace ++ [e]) (he : soundEvent s.cfg.codes e = true) :
    AddsSound s t := ⟨[e], h, by simpa using he⟩

theorem AddsSound.trans {s t u : State} (h : AddsSound s t) (g : AddsSound t u) (hcfg : t.cfg = s.cfg) :
    AddsSound s u := by
  obtain ⟨e1, h1, s1⟩ := h
  obtain ⟨e2, h2, s2⟩ := g
  exact ⟨e1 ++ e2, by rw [h2, h1, List.append_assoc], List.forall_mem_append.2 ⟨s1, hcfg ▸ s2⟩⟩

theorem takeCall_trace {s t : State} (h : s.takeCall = some t) : t.trace = s.trace := by
  obtain ⟨n, rfl⟩ := takeCall_eq_withAllow h
  rfl

/-- A micro-step within the bounds sends one command at most; only the datagrams POLL sends need the bounds. -/
theorem Micro.addsSound {i : Instr} {s t : State} (h : Micro i s t) (hok : s.cfg.ok = true) (hs : s.Bounded) :
    AddsSound s t := by
  cases h with
  | call hcall => exact .none (takeCall_trace hcall)
  | xfer cmd data hdata =>
    have hlen : data.length ≤ 32 := by
      obtain hle | ⟨-, dg, hdg, rfl⟩ := hdata
      · exact hle
      · exact of_decide_eq_true (hs.1.txq_wf dg hdg)
    exact .one (Observed.afterXfer s _).trace (soundEvent_xfer hok cmd hlen (answer_length _ _))
  | ce | dly | cbTx | cbRx => exact .one rfl rfl
  | frame | vTmp | pollStatus | pLat | wLat | takeIn | handOut | sent | enqueue | rxCb | txCb | mode => exact .none rfl

theorem Reach.addsSound {i : Instr} {s t : State} (h : Reach i s t) (hok : s.cfg.ok = true) (hi : OperandsFit s.cfg i)
    (hs : s.Bounded) : AddsSound s t := by
  induction h with
  | refl => exact .none rfl
  | tail hrun hstep ih =>
    have hcfg := Reach.cfg hrun
    exact ih.trans (hstep.addsSound (by rwa [hcfg]) (Reach.bounded hrun hi hs)) hcfg

/-- Settles O57: an instruction ends after a run of micro-steps within the bounds, or has made none. -/
theorem everyFrameIsACommand : Obligations.EveryFrameIsACommand := by
  intro i s t hok ⟨hblk, hpeer⟩ h
  have haccept : (s.accept i).Bounded := ⟨{ (Block.wf_iff_bounded.1 hblk).1 with }, hpeer⟩
  obtain ⟨-, hend⟩ := exec_ended h
  cases hend with
  | completed r hu hw =>
    obtain hw | rfl := hw
    · exact hu.addsSound hok (operandsFit_of_wf hw) haccept
    · exact AddsSound.none rfl
  | wired hu hw => exact hu.addsSound hok (operandsFit_of_wire hw) haccept
  | cut hu hw => exact hu.addsSound hok (operandsFit_of_wf hw) haccept

end Sys2Proof.Machine
end

section
/-! START_LISTENING and STOP_LISTENING are three per-pipe SET operations (30_encoding.md R115): the sequencer and the results,
in which the states between the operations differ, are not read by a transaction. -/

set_option Elab.async false

namespace Sys2Proof.Machine

open Sys2Proof

/-! ### The state outside the sequencer and the results -/

/-- The state with the sequencer idle and no results: two states with the same one may differ in these fields alone. -/
def State.bare (s : State) : State := { s.finish with results := [] }

@[simp] theorem bare_accept (i : Instr) (s : State) : (s.accept i).bare = s.bare := rfl

@[simp] theorem bare_complete (r : Result) (s : State) : (s.complete r).bare = s.bare := rfl

/-- A transaction does not read the sequencer or the results. -/
theorem answer_bare (tx : List Byte) (s : State) : answer tx s.bare = ((answer tx s).1, (answer tx s).2.bare) := by
  rcases h : s.env.level <;> simp [answer, State.bare, State.finish, State.onBlk, h]

theorem reply_bare (op : Byte) (data : List Byte) (s : State) : s.bare.reply op data = s.reply op data :=
  (congrArg Prod.fst (answer_bare (op :: data) s) :)

theorem xacted_bare (op : Byte) (data : List Byte) (s : State) :
    (s.bare.xacted op data).bare = (s.xacted op data).bare := by
  simp only [State.xacted, State.afterXfer, answer_fillXbuf, answer_bare]
  rfl

section
variable {s u : State}

theorem cfg_eq_of_bare (h : s.bare = u.bare) : s.cfg = u.cfg := (congrArg State.cfg h :)

/-- Operations that complete in states the same outside the sequencer and the results leave the same behind. -/
theorem complete_same_of_bare (h : s.bare = u.bare) (r q : Result) :
    (s.complete r).trace = (u.complete q).trace ∧ (s.complete r).blk = (u.complete q).blk
      ∧ (s.complete r).peer = (u.complete q).peer ∧ (s.complete r).env = (u.complete q).env :=
  ⟨(congrArg State.trace h :), (congrArg State.blk h :), (congrArg State.peer h :), (congrArg State.env h :)⟩

theorem xacted_bare_congr (h : s.bare = u.bare) (op : Byte) (data : List Byte) :
    (s.xacted op data).bare = (u.xacted op data).bare := by
  rw [← xacted_bare, h, xacted_bare]

/-- An RMW does the same in two states that are the same outside the sequencer and the results. -/
theorem rmwed_bare_congr (h : s.bare = u.bare) (a : Reg) (clr ones : Byte) :
    (s.rmwed a clr ones).bare = (u.rmwed a clr ones).bare := by
  have hcfg := cfg_eq_of_bare h
  have hread : s.rmwRead a = u.rmwRead a := by
    rw [State.rmwRead, State.rmwRead, hcfg, ← reply_bare, h, reply_bare]
  have hmid : (s.midRmw a).bare = (u.midRmw a).bare := by
    have hx := xacted_bare_congr h (opWithReg u.cfg.codes.opcRRegister a) [fill]
    rw [State.midRmw, State.midRmw, hcfg, hread]
    exact congrArg (State.onBlk fun b => { b with vTmp := [u.rmwRead a] }) hx
  rw [rmwed_eq, rmwed_eq, hread]
  simp only [State.onBlk_cfg, xacted_cfg, hcfg]
  exact xacted_bare_congr hmid _ _

end

/-! ### The bit of a pipe -/

/-- The state after the bit of a pipe has been set (`e` true) or cleared in a per-pipe register. -/
def State.pipeBitSet (reg : Codes → Reg) (bits : Codes → Vector Byte 6) (p : Pipe) (e : Bool) (s : State) : State :=
  s.rmwed (reg s.cfg.codes) (if e then 0 else pipeBit (bits s.cfg.codes) p) (if e then pipeBit (bits s.cfg.codes) p else 0)

section
variable {s u : State} (reg : Codes → Reg) (bits : Codes → Vector Byte 6) (p : Pipe) (e : Bool)

@[simp] theorem pipeBitSet_allow : (s.pipeBitSet reg bits p e).env.allow = s.env.allow := rmwed_allow _ _ _ _

theorem pipeBitSet_bare_congr (h : s.bare = u.bare) :
    (s.pipeBitSet reg bits p e).bare = (u.pipeBitSet reg bits p e).bare := by
  have hcfg := cfg_eq_of_bare h
  rw [State.pipeBitSet, State.pipeBitSet, hcfg]
  exact rmwed_bare_congr h _ _ _

variable {p}

theorem setPipeBit_returns (h : s.env.allow = none) (hp : p.toNat ≤ 5) :
    setPipeBit reg bits p e s = .ok .ok (s.pipeBitSet reg bits p e) := by
  have hok : pipeOk p = true := decide_eq_true (Nat.lt_succ_of_le hp)
  cases e <;> simp [setPipeBit, hok, rmw_returns h, State.pipeBitSet]

end

/-! ### The operations -/

section
variable {s : State} {p : Pipe}

/-- A per-pipe SET in a ready block. -/
theorem exec_pipeBitSet {i : Instr} {reg : Codes → Reg} {bits : Codes → Vector Byte 6} {e : Bool}
    (hexec : exec i s = runHost i (setPipeBit reg bits p e) s) (hw : i.wf s.cfg = true) (h : s.Ready) (hp : p.toNat ≤ 5) :
    exec i s = .next (((s.accept i).pipeBitSet reg bits p e).complete .ok) :=
  hexec.trans (runHost_returns h.1 hw (setPipeBit_returns reg bits e h.2 hp))

/-- The three per-pipe registers, one after the other (41_mode_control.md R165, R166). -/
def State.listenSet (p : Pipe) (e : Bool) (s : State) : State :=
  ((s.pipeBitSet (·.regDynpd) (·.mDynpdP) p e).pipeBitSet (·.regEnAa) (·.mEnAaP) p e).pipeBitSet
    (·.regEnRxaddr) (·.mEnRxaddrP) p e

/-- START_LISTENING and STOP_LISTENING in a ready block. -/
theorem exec_listening {x : Instr × Bool} (hx : x ∈ [(Instr.startListening p, true), (.stopListening p, false)])
    (h : s.Ready) (hp : p.toNat ≤ 5) : exec x.1 s = .next (((s.accept x.1).listenSet p x.2).complete .ok) := by
  have hok : pipeOk p = true := decide_eq_true (Nat.lt_succ_of_le hp)
  have hacc : (s.accept x.1).env.allow = none := h.2
  have hthen {u : State} (hu : u.env.allow = none) {a : Reg} {clr ones : Byte} :
      (u.rmwed a clr ones).env.allow = none := (rmwed_allow u a clr ones).trans hu
  simp only [List.mem_cons, List.not_mem_nil, or_false] at hx
  obtain rfl | rfl := hx
  all_goals
    refine runHost_returns h.1 rfl ?_
    simp [hok, rmw_returns hacc, rmw_returns (hthen hacc), rmw_returns (hthen (hthen hacc)), State.listenSet,
      State.pipeBitSet]

end

/-- Settles O33: each operation ends after the same RMWs, between which only the sequencer and the results differ. -/
theorem listeningIsThreeSets : Obligations.ListeningIsThreeSets := by
  intro s p h hp x hx
  have hready {i : Instr} {reg : Codes → Reg} {bits : Codes → Vector Byte 6} {e : Bool} {s : State} (h : s.Ready) :
      (((s.accept i).pipeBitSet reg bits p e).complete .ok).Ready := ⟨rfl, by simpa using h.2⟩
  refine ⟨_, _, _, _, exec_listening hx h hp, exec_pipeBitSet rfl rfl h hp, exec_pipeBitSet rfl rfl (hready h) hp,
    exec_pipeBitSet rfl rfl (hready (hready h)) hp, ?_⟩
  refine complete_same_of_bare (pipeBitSet_bare_congr _ _ _ _ ?_) _ _
  rw [bare_accept, bare_complete]
  refine pipeBitSet_bare_congr _ _ _ _ ?_
  rw [bare_accept, bare_complete]
  exact pipeBitSet_bare_congr _ _ _ _ rfl

end Sys2Proof.Machine
end

section
/-! Operations that are one transaction (40_register_protocol.md R130 to R141): a wire command run by itself, and the eleven
RegisterProtocol operations, which return what the transaction received. -/

set_option Elab.async false

namespace Sys2Proof.Machine

open Sys2Proof

/-- The operation has made one transaction, with frame `tx`, answer `rx` and results `rs`: the block keeps the rest, and the
peer has answered (40_register_protocol.md R130). -/
abbrev Transacted (s t : State) (tx rx : List Byte) (rs : List Result) : Prop :=
  Done s t [.xfer tx rx] rs ∧ KeepsRest s t ∧ OneExchange s t tx rx

/-! ### Wire commands -/

/-- A wire command runs the transaction of its frame. -/
theorem exec_of_wire {i : Instr} {s : State} (hi : IsWire s.cfg i) :
    ∃ op data, (encode s.cfg i).2 = op :: data ∧ exec i s = runWire i (xact op data) s := by
  cases i with
  | rRegister | wRegister | rRxPlWid | rRxPayload | wTxPayload | wAckPayload | wTxPayloadNoack | flushTx | flushRx
  | reuseTxPl | nop => exact ⟨_, _, rfl, rfl⟩
  | _ => exact nomatch hi

/-- Settles O15: the command runs the transaction of its frame, and that returns. -/
theorem wireCommandIsOneTransaction : Obligations.WireCommandIsOneTransaction := by
  intro i s hi hw h
  obtain ⟨op, data, hframe, hexec⟩ := exec_of_wire hi
  rw [hframe, hexec, runWire_returns h.1 h.2 hw]
  refine ⟨_, (s.accept i).reply op data, rfl, (ran_xacted _ op data).done_wire, ?_,
    xacted_oneExchange (s := s.accept i) op data⟩
  simp [KeepsRest, KeepsMode, KeepsQueues]

/-! ### RegisterProtocol operations -/

section
variable {s : State} {i : Instr}

/-- An operation that is one transaction gives its result `f` of the status byte and the bytes received. -/
theorem exec_transacts {body : Op Result} {op : Byte} {data : List Byte} (f : Byte → List Byte → Result)
    (hexec : exec i s = runHost i body s) (h : s.Ready) (hw : i.wf s.cfg = true)
    (hbody : body (s.accept i) = .ok (f (byteAt ((s.accept i).reply op data) 0) ((s.accept i).reply op data).tail)
      ((s.accept i).xacted op data)) :
    ∃ t st rx, exec i s = .next t ∧ Transacted s t (op :: data) (st :: rx) [f st rx] := by
  obtain ⟨t, hrun, hdone⟩ := runHost_one_transaction h hw hbody
  rw [reply_eq_cons op data (s.accept i)] at hdone
  exact ⟨t, _, _, hexec.trans hrun, hdone⟩

/-- An operation whose body is `Xact` under the codes of the configuration. -/
theorem exec_xact (op : Codes → Byte) (data : List Byte) (f : Byte → List Byte → Result)
    (hexec : exec i s = runHost i (do
      let c ← getCodes
      let (st, bs) ← xact (op c) data
      return f st bs) s) (h : s.Ready) (hw : i.wf s.cfg = true) :
    ∃ t st rx, exec i s = .next t ∧ Transacted s t (op s.cfg.codes :: data) (st :: rx) [f st rx] := by
  have hallow : (s.accept i).env.allow = none := h.2
  refine exec_transacts f hexec h hw ?_
  simp only [op_bind, getCodes_eq, xact_returns hallow, op_pure, State.accept_cfg]

/-- An operation whose body is a command without data gets its status byte alone. -/
theorem exec_command (op : Codes → Byte)
    (hexec : exec i s = runHost i (do
      let st ← command op
      return .status st) s) (h : s.Ready) (hw : i.wf s.cfg = true) :
    ∃ t st, exec i s = .next t ∧ Transacted s t [op s.cfg.codes] [st] [.status st] := by
  have hallow : (s.accept i).env.allow = none := h.2
  obtain ⟨t, st, rx, hnext, hdone, hkeep, hlen, hpeer⟩ := exec_transacts (op := op s.cfg.codes) (data := [])
    (fun st _ => .status st) hexec h hw (by simp only [op_bind, command_returns hallow, op_pure, State.accept_cfg])
  obtain rfl : rx = [] := List.length_eq_zero_iff.1 (Nat.succ.inj hlen)
  exact ⟨t, st, hnext, hdone, hkeep, hlen, hpeer⟩

/-- RP_READ_REGISTER returns the status byte and the bytes received (40_register_protocol.md R131). -/
theorem exec_rpReadRegister_transacts (h : s.Ready) (a : Reg) {n : Nat} (hn : n ≤ 32) :
    ∃ t st rx, exec (.rpReadRegister a n) s = .next t
      ∧ Transacted s t (opWithReg s.cfg.codes.opcRRegister a :: List.replicate n fill) (st :: rx) [.statusBytes st rx] := by
  have hallow : (s.accept (.rpReadRegister a n)).env.allow = none := h.2
  refine exec_transacts .statusBytes rfl h (decide_eq_true hn) ?_
  simp only [op_bind, regRead_returns hallow, op_pure, State.accept_cfg]

/-- RP_WRITE_REGISTER sends the bytes and returns the status byte (40_register_protocol.md R132). -/
theorem exec_rpWriteRegister_transacts (h : s.Ready) (a : Reg) {bs : List Byte} (hbs : bs.length ≤ 32) :
    ∃ t st rx, exec (.rpWriteRegister a bs) s = .next t
      ∧ Transacted s t (opWithReg s.cfg.codes.opcWRegister a :: bs) (st :: rx) [.status st] := by
  have hallow : (s.accept (.rpWriteRegister a bs)).env.allow = none := h.2
  refine exec_transacts (fun st _ => .status st) rfl h (decide_eq_true hbs) ?_
  simp only [op_bind, regWrite_returns hallow, op_pure, State.accept_cfg]

/-- RP_READ_PAYLOAD_WIDTH returns the status byte and the one byte received (40_register_protocol.md R138). -/
theorem exec_rpReadPayloadWidth_transacts (h : s.Ready) :
    ∃ t st w, exec .rpReadPayloadWidth s = .next t
      ∧ Transacted s t [s.cfg.codes.opcRRxPlWid, fill] [st, w] [.statusWidth st w] := by
  obtain ⟨t, st, rx, hexec, hdone, hkeep, hlen, hpeer⟩ := exec_xact (i := .rpReadPayloadWidth) (·.opcRRxPlWid) [fill]
    (fun st bs => .statusWidth st (byteAt bs 0)) rfl h rfl
  obtain ⟨w, rfl⟩ := List.length_eq_one_iff.1 (Nat.succ.inj hlen)
  exact ⟨t, st, w, hexec, hdone, hkeep, hlen, hpeer⟩

end

/-- Settles O25: one transaction each, its bytes returned. -/
theorem rpReadsReturnWhatWasReceived : Obligations.RpReadsReturnWhatWasReceived := by
  intro s h
  refine ⟨fun a n hn => ?_, fun n hn => ?_, ?_⟩
  · exact exec_rpReadRegister_transacts h a hn
  · exact exec_xact (·.opcRRxPayload) (List.replicate n fill) .statusBytes rfl h (decide_eq_true hn)
  · exact exec_rpReadPayloadWidth_transacts h

/-- Settles O26: one transaction each with the caller's bytes; of the answer the status byte alone is returned. -/
theorem rpWritesSendTheBytes : Obligations.RpWritesSendTheBytes := by
  intro s bs a p h hbs x hx
  have hw : lenOk bs.length = true := decide_eq_true hbs
  simp only [List.mem_cons, List.not_mem_nil, or_false] at hx
  obtain rfl | rfl | rfl | rfl := hx
  · exact exec_rpWriteRegister_transacts h a hbs
  · exact exec_xact (·.opcWTxPayload) bs (fun st _ => .status st) rfl h hw
  · exact exec_xact (fun c => opWithPipe c.opcWAckPayload p) bs (fun st _ => .status st) rfl h hw
  · exact exec_xact (·.opcWTxPayloadNoack) bs (fun st _ => .status st) rfl h hw

/-- Settles O27: each is a command without data. -/
theorem rpCommandsReturnTheStatus : Obligations.RpCommandsReturnTheStatus := by
  intro s h x hx
  simp only [List.mem_cons, List.not_mem_nil, or_false] at hx
  obtain rfl | rfl | rfl | rfl := hx
  · exact exec_command (·.opcFlushRx) rfl h rfl
  · exact exec_command (·.opcFlushTx) rfl h rfl
  · exact exec_command (·.opcReuseTxPl) rfl h rfl
  · exact exec_command (·.opcNop) rfl h rfl

end Sys2Proof.Machine
end

section
/-! Mode control (41_mode_control.md R160 to R168): the two forms of an ENTER operation, with chip-enable driven before or
after the RMW of CONFIG; the listening operations, as one RMW after the other. -/

set_option Elab.async false

namespace Sys2Proof.Machine

open Sys2Proof

/-! ### Chip-enable and mode -/

/-- The state after the chip-enable output has been driven (00_scope.md R10). -/
def State.ceDriven (b : Bool) (s : State) : State := (s.onBlk (fun x => { x with ce := b })).emit (.ce b)

/-- The state after the mode has been written (41_mode_control.md R168). -/
def State.inMode (m : Mode) (s : State) : State := s.onBlk (fun b => { b with mode := m })

theorem driveCe_returns (b : Bool) (s : State) : driveCe b s = .ok () (s.ceDriven b) := rfl

theorem setMode_returns (m : Mode) (s : State) : setMode m s = .ok () (s.inMode m) := rfl

theorem ran_ceDriven (b : Bool) (s : State) : Ran s (s.ceDriven b) [.ce b] := (ran_onBlk s rfl rfl).trans (ran_emit _ rfl)

theorem ran_inMode (m : Mode) (s : State) : Ran s (s.inMode m) [] := ran_onBlk s rfl rfl

/-! ### The ENTER operations -/

/-- An RMW of CONFIG within an operation, after which the peer is left alone. -/
theorem updates_config {s t : State} {clr ones : Byte} (hpeer : t.peer = (s.rmwed s.cfg.codes.regConfig clr ones).peer)
    (hcfg : t.cfg = s.cfg) (hv : t.blk.vTmp = [s.rmwRead s.cfg.codes.regConfig]) :
    UpdatesReg s t s.cfg.codes.regConfig clr ones (s.rmwEvents s.cfg.codes.regConfig clr ones) :=
  rmwed_updates (fun hc => by rw [hc]; exact ⟨plainReg_config, rfl⟩) hpeer hcfg hv

section
variable {s : State} {i : Instr} {m : Mode} (clr ones : Codes → Byte)

/-- An ENTER operation that drives chip-enable low and then updates CONFIG (41_mode_control.md R161, R162). -/
theorem exec_enter_ceFirst (hexec : exec i s = runHost i (do
      let c ← getCodes
      driveCe false
      let _ ← rmw c.regConfig (clr c) (ones c)
      setMode m
      return .ok) s) (hw : i.wf s.cfg = true) (h : s.Ready) :
    ∃ t evs, exec i s = .next t ∧ Done s t (.ce false :: evs) [.ok] ∧ t.blk.mode = m ∧ t.blk.ce = false ∧ KeepsQueues s t
      ∧ UpdatesReg s t s.cfg.codes.regConfig (clr s.cfg.codes) (ones s.cfg.codes) evs := by
  have hallow : ((s.accept i).ceDriven false).env.allow = none := h.2
  have hran := ((ran_ceDriven false (s.accept i)).trans (ran_rmwed _ s.cfg.codes.regConfig (clr s.cfg.codes)
    (ones s.cfg.codes))).trans (ran_inMode m _)
  rw [List.append_nil] at hran
  refine ⟨_, _, hexec.trans (runHost_returns h.1 hw ?_), hran.done, rfl, ?_, ?_,
    updates_config (s := (s.accept i).ceDriven false) rfl ?_ ?_⟩
  · simp only [op_bind, getCodes_eq, driveCe_returns, rmw_returns hallow, setMode_returns, op_pure, State.accept_cfg]
  all_goals simp [State.inMode, State.ceDriven, KeepsQueues]

/-- An ENTER operation that updates CONFIG, drives chip-enable high and waits (41_mode_control.md R163, R164, R167). -/
theorem exec_enter_ceLast {us : Nat} (hexec : exec i s = runHost i (do
      let c ← getCodes
      let _ ← rmw c.regConfig (clr c) (ones c)
      driveCe true
      delay us
      setMode m
      return .ok) s) (hw : i.wf s.cfg = true) (h : s.Ready) :
    ∃ t evs, exec i s = .next t ∧ Done s t (evs ++ [.ce true, .dly us]) [.ok] ∧ t.blk.mode = m ∧ t.blk.ce = true
      ∧ KeepsQueues s t ∧ UpdatesReg s t s.cfg.codes.regConfig (clr s.cfg.codes) (ones s.cfg.codes) evs := by
  have hallow : (s.accept i).env.allow = none := h.2
  have hran := (ran_rmwed (s.accept i) s.cfg.codes.regConfig (clr s.cfg.codes) (ones s.cfg.codes)).trans
    (((ran_ceDriven true _).trans (ran_emit _ (e := .dly us) rfl)).trans (ran_inMode m _))
  refine ⟨_, _, hexec.trans (runHost_returns h.1 hw ?_), hran.done, rfl, rfl, ?_,
    updates_config (s := s.accept i) rfl ?_ ?_⟩
  · have hdelay := callAndWait_returns (e := .dly us) (((ran_rmwed (s.accept i) s.cfg.codes.regConfig (clr s.cfg.codes)
      (ones s.cfg.codes)).trans (ran_ceDriven true _)).allow.trans hallow)
    simp only [op_bind, getCodes_eq, driveCe_returns, rmw_returns hallow, delay, hdelay, setMode_returns, op_pure,
      State.accept_cfg]
  all_goals simp [State.inMode, State.ceDriven, KeepsQueues]

end

/-- Settles O28: both drive chip-enable first. -/
theorem enterShutdownAndStandby : Obligations.EnterShutdownAndStandby :=
  fun _ h => ⟨exec_enter_ceFirst (·.mPwrUp) (fun _ => 0) rfl rfl h,
    exec_enter_ceFirst (fun _ => 0) (·.mPwrUp) rfl rfl h⟩

/-- Settles O29: both drive chip-enable and wait after the RMW. -/
theorem enterRxAndTx : Obligations.EnterRxAndTx :=
  fun _ h => ⟨exec_enter_ceLast (fun _ => 0) (fun c => c.mPwrUp ||| c.mPrimRx) rfl rfl h,
    exec_enter_ceLast (·.mPrimRx) (·.mPwrUp) rfl rfl h⟩

/-! ### Who changes the mode -/

/-- An ENTER operation in a ready block completes with its mode, whatever the mode was (41_mode_control.md R160). -/
theorem exec_enter_mode {i : Instr} {s : State} {m : Mode} (hi : enterMode i = some m) (h : s.Ready) :
    ∃ t, exec i s = .next t ∧ t.blk.mode = m := by
  cases i with
  | enterShutdown =>
    obtain ⟨⟨t, evs, hexec, -, hmode, -⟩, -⟩ := enterShutdownAndStandby s h
    exact ⟨t, hexec, hmode.trans (Option.some.inj hi)⟩
  | enterStandby =>
    obtain ⟨-, t, evs, hexec, -, hmode, -⟩ := enterShutdownAndStandby s h
    exact ⟨t, hexec, hmode.trans (Option.some.inj hi)⟩
  | enterRx =>
    obtain ⟨⟨t, evs, hexec, -, hmode, -⟩, -⟩ := enterRxAndTx s h
    exact ⟨t, hexec, hmode.trans (Option.some.inj hi)⟩
  | enterTx =>
    obtain ⟨-, t, evs, hexec, -, hmode, -⟩ := enterRxAndTx s h
    exact ⟨t, hexec, hmode.trans (Option.some.inj hi)⟩
  | _ => exact nomatch hi

/-- Settles O31: no other instruction has a micro-step that writes the mode or drives chip-enable, and nothing of an ENTER
operation can halt after the mode is written. -/
theorem onlyEnterChangesTheMode : Obligations.OnlyEnterChangesTheMode := by
  refine fun i s => ⟨fun m => exec_enter_mode, fun henter t => exec_keepsMode henter, fun t hexec hbusy => ?_⟩
  by_cases henter : enterMode i = none
  · exact (exec_keepsMode henter hexec).1
  · exact enter_cut_short henter hexec hbusy

/-! ### The same RMW of one register after the other -/

/-- The state after the same bits have been cleared and set in each of the registers, in order. -/
def State.rmwedEach (as : List Reg) (clr ones : Byte) (s : State) : State :=
  as.foldl (fun u a => u.rmwed a clr ones) s

/-- One-byte registers, each once, that hold what is written and that the radio does not touch. -/
abbrev PlainBytes (as : List Reg) : Prop := (∀ a ∈ as, PlainReg a ∧ Codes.standard.regWidth a = 1) ∧ as.Nodup

theorem QuietKeeps.trans {s t u : State} (h : QuietKeeps s t) (g : QuietKeeps t u) (hcfg : t.cfg = s.cfg) :
    QuietKeeps s u := by
  obtain ⟨hobs, h1, h2, h3, h4, h5, h6⟩ := h
  obtain ⟨hobs', g1, g2, g3, g4, g5, g6⟩ := g
  rw [State.observeCell, hcfg] at hobs'
  exact ⟨hobs'.trans hobs, g1.trans h1, g2.trans h2, g3.trans h3, g4.trans h4, g5.trans h5, g6.trans h6⟩

section
variable {s : State} {as : List Reg} {clr ones : Byte}

theorem regCell_inj {a b : Reg} (h : regCell a = regCell b) : a = b := (cellOf_inj (by omega) (by omega) h).1

/-- The state right after an RMW, in the terms of Safety. -/
theorem rmwed_updates_self {a : Reg} (ha : PlainReg a ∧ Codes.standard.regWidth a = 1) :
    UpdatesReg s (s.rmwed a clr ones) a clr ones (s.rmwEvents a clr ones) :=
  rmwed_updates (fun _ => ha) rfl (rmwed_cfg _ _ _ _) (rmwed_vTmp _ _ _ _)

/-- Each register takes its new byte, and every other cell reads as before, OBSERVE_TX apart (20_memory.md R67). -/
theorem rmwedEach_cells (has : PlainBytes as) (hf : s.FaithfulPeer) (hp : s.KeepsPower) :
    (∀ a ∈ as, (s.rmwedEach as clr ones).regByte a = (s.regByte a &&& ~~~clr) ||| ones)
      ∧ KeepsCellsBut s (s.rmwedEach as clr ones) (fun k => ∃ a ∈ as, k = regCell a) := by
  induction as generalizing s with
  | nil => exact ⟨nofun, fun k _ _ => rfl⟩
  | cons a as ih =>
    obtain ⟨hplain, hnodup⟩ := has
    obtain ⟨ha, hplain⟩ := List.forall_mem_cons.1 hplain
    obtain ⟨hnotin, hnodup⟩ := List.nodup_cons.1 hnodup
    have hobs : (s.rmwed a clr ones).observeCell = s.observeCell := by rw [State.observeCell, rmwed_cfg]
    obtain ⟨-, hfirst, -⟩ := rmwed_updates_self (clr := clr) (ones := ones) ha
    obtain ⟨hbyte, hother⟩ := hfirst hf hp
    obtain ⟨hbytes, hothers⟩ := ih ⟨hplain, hnodup⟩ (rmwed_faithful hf hp ha.1 ha.2) (rmwed_keepsPower hp)
    refine ⟨List.forall_mem_cons.2 ⟨?_, fun b hb => ?_⟩, fun k hk hko => ?_⟩
    · refine (hothers _ ?_ (hobs ▸ plainReg_ne_observe hf.1 ha.1 (by omega))).trans hbyte
      rintro ⟨b, hb, heq⟩
      exact hnotin (regCell_inj heq ▸ hb)
    · refine (hbytes b hb).trans ?_
      have hne : regCell b ≠ regCell a := fun heq => hnotin (regCell_inj heq ▸ hb)
      rw [State.regByte, hother _ hne (plainReg_ne_observe hf.1 (hplain b hb).1 (by omega))]
    · refine (hothers k (fun ⟨b, hb, heq⟩ => hk ⟨b, List.mem_cons_of_mem a hb, heq⟩) (hobs ▸ hko)).trans ?_
      exact hother k (fun heq => hk ⟨a, List.mem_cons_self, heq⟩) hko

/-- With a quiet radio the rest of the peer is as before. -/
theorem rmwedEach_quiet (has : PlainBytes as) (hf : s.FaithfulPeer) (hq : s.RadioQuiet) :
    QuietKeeps s (s.rmwedEach as clr ones) := by
  induction as generalizing s with
  | nil => exact ⟨rfl, rfl, rfl, rfl, rfl, rfl, rfl⟩
  | cons a as ih =>
    obtain ⟨hplain, hnodup⟩ := has
    obtain ⟨ha, hplain⟩ := List.forall_mem_cons.1 hplain
    obtain ⟨-, -, hfirst, -⟩ := rmwed_updates_self (clr := clr) (ones := ones) ha
    exact (hfirst hf hq).trans (ih ⟨hplain, hnodup.of_cons⟩ (rmwed_faithful hf hq.keepsPower ha.1 ha.2)
      (rmwed_radioQuiet hq)) (rmwed_cfg _ _ _ _)

/-- An L0 peer has no state that changes. -/
theorem rmwedEach_any (h : s.env.level = .any) : (s.rmwedEach as clr ones).peer = s.peer := by
  induction as generalizing s with
  | nil => rfl
  | cons a as ih => exact (ih (by simpa using h)).trans (rmwed_any_peer h)

end

/-- Three RMWs are six exchanges, the registers in order (40_register_protocol.md R144). -/
theorem rmwedEach_three (s : State) (a b c : Reg) (clr ones : Byte) : ∃ v1 v2 v3 e1 e2 e3,
    Ran s (s.rmwedEach [a, b, c] clr ones) (e1 ++ e2 ++ e3) ∧ RmwEvents s.cfg.codes a v1 clr ones e1
      ∧ RmwEvents s.cfg.codes b v2 clr ones e2 ∧ RmwEvents s.cfg.codes c v3 clr ones e3
      ∧ (s.rmwedEach [a, b, c] clr ones).blk.vTmp = [v3] := by
  have hfirst := rmwEvents_spec s a clr ones
  have hsecond := rmwEvents_spec (s.rmwed a clr ones) b clr ones
  have hthird := rmwEvents_spec ((s.rmwed a clr ones).rmwed b clr ones) c clr ones
  rw [rmwed_cfg] at hsecond
  rw [rmwed_cfg, rmwed_cfg] at hthird
  exact ⟨_, _, _, _, _, _, ((ran_rmwed _ _ _ _).trans (ran_rmwed _ _ _ _)).trans (ran_rmwed _ _ _ _), hfirst, hsecond,
    hthird, rmwed_vTmp _ _ _ _⟩

/-! ### The listening operations -/

/-- The per-pipe registers, in the order in which listening writes them (41_mode_control.md R165, R166). -/
def listenRegs (c : Codes) : List Reg := [c.regDynpd, c.regEnAa, c.regEnRxaddr]

theorem plainBytes_listenRegs : PlainBytes (listenRegs Codes.standard) :=
  ⟨by decide, by decide⟩

section
variable {s : State} {p : Pipe}

/-- Setting or clearing the bit of a pipe in the per-pipe registers, where the bit position is the pipe number. -/
theorem listenSet_eq_rmwedEach (hp : p.toNat ≤ 5) (hb : BitPerPipe s.cfg.codes) (e : Bool) :
    s.listenSet p e = s.rmwedEach (listenRegs s.cfg.codes) (if e then 0 else (1 : Byte) <<< p.toNat)
      (if e then (1 : Byte) <<< p.toNat else 0) := by
  have hbit : ∀ bits ∈ [s.cfg.codes.mDynpdP, s.cfg.codes.mEnAaP, s.cfg.codes.mEnRxaddrP],
      pipeBit bits p = (1 : Byte) <<< p.toNat := fun bits hbits => pipeBit_eq_shift (hb bits hbits) hp
  simp only [List.forall_mem_cons] at hbit
  obtain ⟨h1, h2, h3, -⟩ := hbit
  simp only [State.listenSet, State.pipeBitSet, rmwed_cfg, h1, h2, h3]
  rfl

/-- A listening operation in a ready block updates the three registers. -/
theorem exec_listening_rmwedEach {x : Instr × Byte × Byte}
    (hx : x ∈ [(Instr.startListening p, (0 : Byte), (1 : Byte) <<< p.toNat), (.stopListening p, (1 : Byte) <<< p.toNat, 0)])
    (h : s.Ready) (hp : p.toNat ≤ 5) (hb : BitPerPipe s.cfg.codes) :
    exec x.1 s = .next (((s.accept x.1).rmwedEach (listenRegs s.cfg.codes) x.2.1 x.2.2).complete .ok) := by
  have hset (i : Instr) (e : Bool) := listenSet_eq_rmwedEach (s := s.accept i) hp hb e
  simp only [List.mem_cons, List.not_mem_nil, or_false] at hx
  obtain rfl | rfl := hx
  · exact (exec_listening (x := (.startListening p, true)) (by simp) h hp).trans (by rw [hset]; rfl)
  · exact (exec_listening (x := (.stopListening p, false)) (by simp) h hp).trans (by rw [hset]; rfl)

end

/-- Settles O30: a pipe above 5 is refused; else the operation is the RMW of one register after the other. -/
theorem listeningTogglesThreeBits : Obligations.ListeningTogglesThreeBits := by
  intro s p h x hx
  refine ⟨fun hp => exec_refuses_pipe h.1 ?_ hp, fun hp hb => ?_⟩
  · simp only [List.mem_cons, List.not_mem_nil, or_false] at hx
    obtain rfl | rfl := hx <;> rfl
  obtain ⟨v1, v2, v3, e1, e2, e3, hran, hrmw1, hrmw2, hrmw3, hv⟩ := rmwedEach_three (s.accept x.1)
    s.cfg.codes.regDynpd s.cfg.codes.regEnAa s.cfg.codes.regEnRxaddr x.2.1 x.2.2
  have hplain (hc : s.cfg.codes = Codes.standard) : PlainBytes (listenRegs s.cfg.codes) := hc ▸ plainBytes_listenRegs
  refine ⟨_, v1, v2, v3, e1, e2, e3, exec_listening_rmwedEach hx h hp hb, hran.done, ?_, ?_, hrmw1, hrmw2, hrmw3, hv,
    fun hf hk => ?_, fun hf hq => rmwedEach_quiet (s := s.accept x.1) (hplain hf.1) hf hq,
    rmwedEach_any (s := s.accept x.1)⟩
  · simp [KeepsMode, listenRegs, State.rmwedEach]
  · simp [KeepsQueues, listenRegs, State.rmwedEach]
  · obtain ⟨hbytes, hothers⟩ := rmwedEach_cells (s := s.accept x.1) (clr := x.2.1) (ones := x.2.2) (hplain hf.1) hf hk
    have hregs : listenRegs s.cfg.codes = [0x1C, 0x01, 0x02] := hf.1 ▸ rfl
    refine ⟨fun a ha => hbytes a (hregs ▸ ha), fun k hk => hothers k ?_⟩
    simpa [hregs] using hk

end Sys2Proof.Machine
end

section
/-! Configuration access (42_config_access.md R180 to R204): the two forms of a GET, one byte or five bytes of a register
read, and of a SET, one RMW or one whole write; then each operation's own form in the terms of the model's fields. -/

set_option Elab.async false

namespace Sys2Proof.Machine

open Sys2Proof

/-! ### The forms of a GET and of a SET -/

/-- The instruction reads a one-byte register and answers `f` of the byte. -/
abbrev GetsByte (s : State) (i : Instr) (a : Reg) (f : Byte → Result) : Prop :=
  ∃ t evs v, exec i s = .next t ∧ Done s t evs [f v] ∧ KeepsRest s t ∧ ReadsBytes s t a 1 [v] evs

/-- The instruction reads a five-byte register and answers `f` of the bytes. -/
abbrev GetsFive (s : State) (i : Instr) (a : Reg) (f : List Byte → Result) : Prop :=
  ∃ t evs b0 b1 b2 b3 b4, exec i s = .next t ∧ Done s t evs [f [b0, b1, b2, b3, b4]] ∧ KeepsRest s t
    ∧ ReadsBytes s t a 5 [b0, b1, b2, b3, b4] evs

/-- The instruction is one RMW of a register. -/
abbrev SetsBits (s : State) (i : Instr) (a : Reg) (clr ones : Byte) : Prop :=
  ∃ t evs, exec i s = .next t ∧ Done s t evs [.ok] ∧ KeepsMode s t ∧ KeepsQueues s t ∧ UpdatesReg s t a clr ones evs

/-- The instruction is one write of all bytes of a register. -/
abbrev SetsBytes (s : State) (i : Instr) (a : Reg) (bs : List Byte) : Prop :=
  ∃ t evs, exec i s = .next t ∧ Done s t evs [.ok] ∧ KeepsRest s t ∧ StoresBytes s t a bs evs

/-- Under the default codes the register of `reg` is plain and has `n` bytes. -/
abbrev StandardPlain (reg : Codes → Reg) (n : Nat) : Prop :=
  PlainReg (reg Codes.standard) ∧ Codes.standard.regWidth (reg Codes.standard) = n

theorem StandardPlain.at {reg : Codes → Reg} {n : Nat} (h : StandardPlain reg n) {c : Codes} (hc : c = Codes.standard) :
    PlainReg (reg c) ∧ Codes.standard.regWidth (reg c) = n := by
  subst hc
  exact h

section
variable {s : State} {i : Instr}

/-- A GET whose body reads one byte of a register and answers `f` of it. -/
theorem exec_getsByte (reg : Codes → Reg) (f : Codes → Byte → Result) (hexec : exec i s = runHost i (do
      let c ← getCodes
      let v ← regReadByte (reg c)
      return f c v) s) (hw : i.wf s.cfg = true) (hreg : StandardPlain reg 1) (h : s.Ready) :
    GetsByte s i (reg s.cfg.codes) (f s.cfg.codes) := by
  have hallow : (s.accept i).env.allow = none := h.2
  obtain ⟨t, evs, hrun, hdone, hkeep, hread⟩ := runHost_reads (i := i) (body := do
      let c ← getCodes
      let v ← regReadByte (reg c)
      return f c v) (n := 1) h hw hreg.at (by
    simp only [op_bind, getCodes_eq, regReadByte_returns hallow, op_pure, State.accept_cfg]
    rfl)
  exact ⟨t, evs, _, hexec.trans hrun, hdone, hkeep, tail_reply_one (s.accept i) _ fill ▸ hread⟩

/-- The answer said in other words. -/
theorem GetsByte.of_eq {a : Reg} {f g : Byte → Result} (h : GetsByte s i a f) (hfg : ∀ v, f v = g v) :
    GetsByte s i a g := funext hfg ▸ h

/-- Five bytes received, by name. -/
theorem eq_five_of_length {bs : List Byte} (h : bs.length = 5) : ∃ b0 b1 b2 b3 b4, bs = [b0, b1, b2, b3, b4] :=
  match bs, h with
  | [b0, b1, b2, b3, b4], _ => ⟨b0, b1, b2, b3, b4, rfl⟩

/-- A GET whose body reads the five bytes of a register and answers `f` of them. -/
theorem exec_getsFive (reg : Codes → Reg) (f : List Byte → Result) (hexec : exec i s = runHost i (do
      let c ← getCodes
      let r ← regRead (reg c) 5
      return f r.2) s) (hw : i.wf s.cfg = true) (hreg : StandardPlain reg 5) (h : s.Ready) :
    GetsFive s i (reg s.cfg.codes) f := by
  have hallow : (s.accept i).env.allow = none := h.2
  obtain ⟨t, evs, hrun, hdone, hkeep, hread⟩ := runHost_reads (i := i) (body := do
      let c ← getCodes
      let r ← regRead (reg c) 5
      return f r.2) (n := 5) h hw hreg.at (by
    simp only [op_bind, getCodes_eq, regRead_returns hallow, op_pure, State.accept_cfg]
    rfl)
  obtain ⟨b0, b1, b2, b3, b4, hbs⟩ := eq_five_of_length (reply_tail_length
    (opWithReg s.cfg.codes.opcRRegister (reg s.cfg.codes)) (List.replicate 5 fill) (s.accept i))
  rw [hbs] at hdone hread
  exact ⟨t, evs, b0, b1, b2, b3, b4, hexec.trans hrun, hdone, hkeep, hread⟩

/-- A SET whose body is an RMW. -/
theorem exec_setsBits (reg : Codes → Reg) (clr ones : Codes → Byte) (hexec : exec i s = runHost i (do
      let c ← getCodes
      let _ ← rmw (reg c) (clr c) (ones c)
      return .ok) s) (hw : i.wf s.cfg = true) (hreg : StandardPlain reg 1) (h : s.Ready) :
    SetsBits s i (reg s.cfg.codes) (clr s.cfg.codes) (ones s.cfg.codes) := by
  have hallow : (s.accept i).env.allow = none := h.2
  rw [SetsBits, hexec]
  refine runHost_updates h hw hreg.at ?_
  simp only [op_bind, getCodes_eq, rmw_returns hallow, op_pure, State.accept_cfg]

/-- A SET whose body writes a whole register. -/
theorem exec_setsBytes (reg : Codes → Reg) (bs : Codes → List Byte) (hexec : exec i s = runHost i (do
      let c ← getCodes
      let _ ← regWrite (reg c) (bs c)
      return .ok) s) (hw : i.wf s.cfg = true) (hreg : StandardPlain reg (bs s.cfg.codes).length) (h : s.Ready) :
    SetsBytes s i (reg s.cfg.codes) (bs s.cfg.codes) := by
  have hallow : (s.accept i).env.allow = none := h.2
  rw [SetsBytes, hexec]
  refine runHost_stores h hw hreg.at ?_
  simp only [op_bind, getCodes_eq, regWrite_returns hallow, op_pure, State.accept_cfg]

/-! ### Fields of one-byte registers -/

theorem getCrc_getsByte (h : s.Ready) :
    GetsByte s .getCrc s.cfg.codes.regConfig (fun v => .crc (crcOf s.cfg.codes v)) :=
  exec_getsByte (·.regConfig) (fun c v => .crc (crcOf c v)) rfl rfl (by decide) h

theorem setCrc_setsBits (h : s.Ready) (m : CrcMode) :
    SetsBits s (.setCrc m) s.cfg.codes.regConfig (s.cfg.codes.mEnCrc ||| s.cfg.codes.mCrco) (crcCode s.cfg.codes m) :=
  exec_setsBits (·.regConfig) (fun c => c.mEnCrc ||| c.mCrco) (crcCode · m) rfl rfl (by decide) h

theorem getChannel_getsByte (h : s.Ready) :
    GetsByte s .getChannel s.cfg.codes.regRfCh (fun v => .channel ((fieldGet s.cfg.codes.mRfCh v).setWidth 7)) :=
  exec_getsByte (·.regRfCh) (fun c v => .channel ((fieldGet c.mRfCh v).setWidth 7)) rfl rfl (by decide) h

theorem setChannel_setsBytes (h : s.Ready) {ch : Byte} (hch : ch.toNat ≤ 127) :
    SetsBytes s (.setChannel ch) s.cfg.codes.regRfCh [fieldPut s.cfg.codes.mRfCh ch] := by
  refine exec_setsBytes (·.regRfCh) (fun c => [fieldPut c.mRfCh ch]) ?_ rfl (show StandardPlain (·.regRfCh) 1 by decide) h
  show execSetChannel ch s = _
  simp only [execSetChannel, if_neg (not_lt.2 hch)]

/-- A channel above 127 is ignored (42_config_access.md R184). -/
theorem setChannel_ignores (h : s.blk.seq = .idle) {ch : Byte} (hch : 127 < ch.toNat) :
    exec (.setChannel ch) s = .next { s with results := s.results ++ [.ok] } :=
  runHost_only_answers h rfl (by simp only [if_pos hch, op_pure])

/-- The answer of GET_DATA_RATE to an RF_SETUP byte: FAIL for the reserved code (42_config_access.md R185). -/
def rateResult (c : Codes) (v : Byte) : Result :=
  match rateOf c v with
  | some r => .rate r
  | none => .fail

theorem getDataRate_getsByte (h : s.Ready) :
    GetsByte s .getDataRate s.cfg.codes.regRfSetup (rateResult s.cfg.codes) := by
  refine exec_getsByte (·.regRfSetup) rateResult ?_ rfl (by decide) h
  show execGetDataRate s = _
  unfold execGetDataRate
  congr
  funext c
  congr
  funext v
  unfold rateResult
  cases rateOf c v <;> rfl

theorem setDataRate_setsBits (h : s.Ready) (r : DataRate) :
    SetsBits s (.setDataRate r) s.cfg.codes.regRfSetup (s.cfg.codes.mRfDrLow ||| s.cfg.codes.mRfDrHigh)
      (rateCode s.cfg.codes r) :=
  exec_setsBits (·.regRfSetup) (fun c => c.mRfDrLow ||| c.mRfDrHigh) (rateCode · r) rfl rfl (by decide) h

theorem getOutputPower_getsByte (h : s.Ready) :
    GetsByte s .getOutputPower s.cfg.codes.regRfSetup (fun v => .power (powerOf s.cfg.codes v)) :=
  exec_getsByte (·.regRfSetup) (fun c v => .power (powerOf c v)) rfl rfl (by decide) h

theorem setOutputPower_setsBits (h : s.Ready) (w : Power) :
    SetsBits s (.setOutputPower w) s.cfg.codes.regRfSetup s.cfg.codes.mRfPwr
      (fieldPut s.cfg.codes.mRfPwr (powerCode w)) :=
  exec_setsBits (·.regRfSetup) (·.mRfPwr) (fun c => fieldPut c.mRfPwr (powerCode w)) rfl rfl (by decide) h

theorem getRetryCount_getsByte (h : s.Ready) :
    GetsByte s .getRetryCount s.cfg.codes.regSetupRetr (fun v => .retry ((fieldGet s.cfg.codes.mArc v).setWidth 4)) :=
  exec_getsByte (·.regSetupRetr) (fun c v => .retry ((fieldGet c.mArc v).setWidth 4)) rfl rfl (by decide) h

theorem setRetryCount_setsBits (h : s.Ready) (n : Byte) :
    SetsBits s (.setRetryCount n) s.cfg.codes.regSetupRetr s.cfg.codes.mArc (fieldPut s.cfg.codes.mArc (clip15 n)) :=
  exec_setsBits (·.regSetupRetr) (·.mArc) (fun c => fieldPut c.mArc (clip15 n)) rfl rfl (by decide) h

theorem getRetryDelay_getsByte (h : s.Ready) :
    GetsByte s .getRetryDelay s.cfg.codes.regSetupRetr (fun v => .retry ((fieldGet s.cfg.codes.mArd v).setWidth 4)) :=
  exec_getsByte (·.regSetupRetr) (fun c v => .retry ((fieldGet c.mArd v).setWidth 4)) rfl rfl (by decide) h

theorem setRetryDelay_setsBits (h : s.Ready) (n : Byte) :
    SetsBits s (.setRetryDelay n) s.cfg.codes.regSetupRetr s.cfg.codes.mArd (fieldPut s.cfg.codes.mArd (clip15 n)) :=
  exec_setsBits (·.regSetupRetr) (·.mArd) (fun c => fieldPut c.mArd (clip15 n)) rfl rfl (by decide) h

end

theorem flagSet_eq_false_iff {m v : Byte} : flagSet m v = false ↔ v &&& m = 0 := by
  rw [flagSet, bne_eq_false_iff_eq]

/-- Settles O34: the byte read has both bits, and one RMW writes both. -/
theorem crcIsReadAndSet : Obligations.CrcIsReadAndSet := by
  intro s h
  refine ⟨(getCrc_getsByte h).of_eq fun v => congrArg Result.crc ?_, fun m => ?_⟩
  · simp only [crcOf, ← flagSet_eq_false_iff]
    cases flagSet s.cfg.codes.mEnCrc v <;> cases flagSet s.cfg.codes.mCrco v <;> rfl
  · cases m with
    | disabled => exact setCrc_setsBits h .disabled
    | crc1 => exact setCrc_setsBits h .crc1
    | crc2 => exact setCrc_setsBits h .crc2

/-- Settles O35: a channel in its field's place is itself, and a larger one is answered before any event. -/
theorem channelIsReadAndSet : Obligations.ChannelIsReadAndSet := by
  intro s h
  refine ⟨fun hm => (getChannel_getsByte h).of_eq fun v => congrArg Result.channel ?_, fun hm ch hch => ?_,
    fun ch => setChannel_ignores h.1⟩
  · rw [hm]
    exact fieldGet_channel v
  · have hput : fieldPut s.cfg.codes.mRfCh ch = ch := hm ▸ fieldPut_channel hch
    have hset := setChannel_setsBytes h hch
    rwa [hput] at hset

/-- Settles O36: two bits of the byte read give the rate or the reserved code, and one RMW writes both. -/
theorem dataRateIsReadAndSet : Obligations.DataRateIsReadAndSet := by
  intro s h
  refine ⟨(getDataRate_getsByte h).of_eq fun v => ?_, fun r => ?_⟩
  · simp only [rateResult, rateOf, ← flagSet_eq_false_iff]
    cases flagSet s.cfg.codes.mRfDrLow v <;> cases flagSet s.cfg.codes.mRfDrHigh v <;> rfl
  · cases r with
    | r1M => exact setDataRate_setsBits h .r1M
    | r2M => exact setDataRate_setsBits h .r2M
    | r250K => exact setDataRate_setsBits h .r250K

/-- RF_PWR is bits 2:1. -/
theorem fieldGet_power (v : Byte) : (fieldGet 6#8 v).setWidth 2 = v.extractLsb' 1 2 := by
  revert v; decide

/-- Settles O37: the field of the byte read is looked up among the four codes, and one RMW writes it. -/
theorem outputPowerIsReadAndSet : Obligations.OutputPowerIsReadAndSet := by
  intro s h hm
  refine ⟨(getOutputPower_getsByte h).of_eq fun v => congrArg Result.power ?_, fun w => ?_⟩
  · have hfield : (fieldGet s.cfg.codes.mRfPwr v).setWidth 2 = v.extractLsb' 1 2 := hm ▸ fieldGet_power v
    rw [powerOf, hfield]
    generalize v.extractLsb' 1 2 = code
    revert code
    decide
  · have hset := setOutputPower_setsBits h w
    rw [hm] at hset
    cases w with
    | p0 | pm6 | pm12 | pm18 => exact hset

/-- Settles O38: each count has its field, and one RMW stores the clipped value in it. -/
theorem retriesAreReadAndClipped : Obligations.RetriesAreReadAndClipped := by
  intro s h hc hd
  refine ⟨(getRetryCount_getsByte h).of_eq fun v => congrArg Result.retry ?_,
    (getRetryDelay_getsByte h).of_eq fun v => congrArg Result.retry ?_, fun n => ?_, fun n => ?_⟩
  · rw [hc]
    exact fieldGet_arc v
  · rw [hd]
    exact fieldGet_ard v
  · have hset := setRetryCount_setsBits h n
    rw [hc] at hset
    exact fieldPut_arc n ▸ hset
  · have hset := setRetryDelay_setsBits h n
    rw [hd] at hset
    exact fieldPut_ard n ▸ hset

/-! ### The bit of a pipe -/

section
variable {s : State} {p : Pipe}

theorem pipeOk_of_le (hp : p.toNat ≤ 5) : pipeOk p = true := decide_eq_true (Nat.lt_succ_of_le hp)

/-- A per-pipe GET, for a pipe up to 5. -/
theorem exec_getsPipeBit {i : Instr} (reg : Codes → Reg) (bits : Codes → Vector Byte 6)
    (hexec : exec i s = runHost i (getPipeBit reg bits p) s) (hw : i.wf s.cfg = true) (hreg : StandardPlain reg 1)
    (h : s.Ready) (hp : p.toNat ≤ 5) :
    GetsByte s i (reg s.cfg.codes) (fun v => .flag (flagSet (pipeBit (bits s.cfg.codes) p) v)) := by
  refine exec_getsByte reg (fun c v => .flag (flagSet (pipeBit (bits c) p) v)) (hexec.trans ?_) hw hreg h
  simp only [getPipeBit, pipeOk_of_le hp, Bool.not_true, Bool.false_eq_true, if_false]

/-- A per-pipe SET, for a pipe up to 5. -/
theorem exec_setsPipeBit {i : Instr} {e : Bool} (reg : Codes → Reg) (bits : Codes → Vector Byte 6)
    (hexec : exec i s = runHost i (setPipeBit reg bits p e) s) (hw : i.wf s.cfg = true) (hreg : StandardPlain reg 1)
    (h : s.Ready) (hp : p.toNat ≤ 5) :
    SetsBits s i (reg s.cfg.codes) (if e then 0 else pipeBit (bits s.cfg.codes) p)
      (if e then pipeBit (bits s.cfg.codes) p else 0) := by
  rw [SetsBits, hexec]
  exact runHost_updates h hw hreg.at (setPipeBit_returns (s := s.accept i) reg bits e h.2 hp)

end

/-- Settles O42: each reads its register and tests the bit of the pipe, which is bit `p`. -/
theorem pipeBitsAreRead : Obligations.PipeBitsAreRead := by
  intro s p h x hx
  refine ⟨fun hp => exec_refuses_pipe h.1 ?_ hp, fun hp hb => ?_⟩
  · simp only [List.mem_cons, List.not_mem_nil, or_false] at hx
    obtain rfl | rfl | rfl := hx <;> rfl
  have hflag : ∀ bits ∈ [s.cfg.codes.mDynpdP, s.cfg.codes.mEnAaP, s.cfg.codes.mEnRxaddrP],
      ∀ v, Result.flag (flagSet (pipeBit bits p) v) = .flag (v.getLsbD p.toNat) := fun bits hbits v => by
    rw [pipeBit_eq_shift (hb bits hbits) hp, flagSet_shift hp]
  simp only [List.forall_mem_cons] at hflag
  obtain ⟨hdyn, haa, hrx, -⟩ := hflag
  simp only [List.mem_cons, List.not_mem_nil, or_false] at hx
  obtain rfl | rfl | rfl := hx
  · exact (exec_getsPipeBit (·.regDynpd) (·.mDynpdP) rfl rfl (by decide) h hp).of_eq hdyn
  · exact (exec_getsPipeBit (·.regEnAa) (·.mEnAaP) rfl rfl (by decide) h hp).of_eq haa
  · exact (exec_getsPipeBit (·.regEnRxaddr) (·.mEnRxaddrP) rfl rfl (by decide) h hp).of_eq hrx

/-- Settles O43: each is one RMW of the bit of the pipe, which is bit `p`. -/
theorem pipeBitsAreSet : Obligations.PipeBitsAreSet := by
  intro s p e h x hx
  refine ⟨fun hp => exec_refuses_pipe h.1 ?_ hp, fun hp hb => ?_⟩
  · simp only [List.mem_cons, List.not_mem_nil, or_false] at hx
    obtain rfl | rfl | rfl := hx <;> rfl
  have hbit : ∀ bits ∈ [s.cfg.codes.mDynpdP, s.cfg.codes.mEnAaP, s.cfg.codes.mEnRxaddrP],
      pipeBit bits p = (1 : Byte) <<< p.toNat := fun bits hbits => pipeBit_eq_shift (hb bits hbits) hp
  simp only [List.forall_mem_cons] at hbit
  obtain ⟨hdyn, haa, hrx, -⟩ := hbit
  simp only [List.mem_cons, List.not_mem_nil, or_false] at hx
  obtain rfl | rfl | rfl := hx
  · exact hdyn ▸ exec_setsPipeBit (·.regDynpd) (·.mDynpdP) rfl rfl (by decide) h hp
  · exact haa ▸ exec_setsPipeBit (·.regEnAa) (·.mEnAaP) rfl rfl (by decide) h hp
  · exact hrx ▸ exec_setsPipeBit (·.regEnRxaddr) (·.mEnRxaddrP) rfl rfl (by decide) h hp

end Sys2Proof.Machine
end

section
/-! The addresses (42_config_access.md R193 to R198): whole registers read and written, a base written after a read that
keeps the unique byte, and a shared base read before a suffix. -/

set_option Elab.async false

namespace Sys2Proof.Machine

open Sys2Proof

/-! ### One register access after a read -/

section
variable {s m t : State} {a : Reg}

/-- The bytes a faithful peer gives are those of the register (20_memory.md R64). -/
theorem ReadsBytes.bytes {n : Nat} {bs : List Byte} {evs : List Event} (h : ReadsBytes s t a n bs evs)
    (hf : s.FaithfulPeer) (hp : s.KeepsPower) : bs = (List.range n).map (fun j => s.cell (cellOf a j)) := by
  obtain ⟨⟨_, hlen, -⟩, hcells, -⟩ := h
  refine List.ext_getElem (by simpa using hlen) fun j hj _ => ?_
  have hcell := (hcells hf hp).1 j (hlen ▸ hj)
  rw [List.getElem?_eq_getElem hj] at hcell
  simpa using hcell

theorem KeepsCellsBut.trans {P Q : Nat → Prop} (h : KeepsCellsBut s m P) (g : KeepsCellsBut m t Q) (hcfg : m.cfg = s.cfg) :
    KeepsCellsBut s t (fun k => P k ∨ Q k) := by
  intro k hk hobs
  have hobs' : k ≠ m.observeCell := by rwa [State.observeCell, hcfg]
  exact (g k (fun hq => hk (.inr hq)) hobs').trans (h k (fun hp => hk (.inl hp)) hobs)

/-- The same peer is kept. -/
theorem quietKeeps_of_same_peer (hpeer : t.peer = s.peer) (hcfg : t.cfg = s.cfg) : QuietKeeps s t := by
  rw [QuietKeeps, State.cell, hpeer, hcfg]
  exact ⟨rfl, rfl, rfl, rfl, rfl, rfl, rfl⟩

/-- A write that puts back the first byte read changes the other bytes alone. -/
theorem reads_then_stores_rest {b : Byte} {bs ds : List Byte} {e1 e2 : List Event} (hcfg : m.cfg = s.cfg)
    (hr : ReadsBytes s m a 5 (b :: bs) e1) (hw : StoresBytes m t a (b :: ds) e2) (hds : ds.length = 4)
    (hf : s.FaithfulPeer) (hp : s.KeepsPower) (hfm : m.FaithfulPeer) (hpm : m.KeepsPower) :
    t.cell (cellOf a 0) = s.cell (cellOf a 0)
      ∧ (∀ j < 4, some (t.cell (cellOf a (j + 1))) = ds[j]?)
      ∧ KeepsCellsBut s t (fun k => cellOf a 1 ≤ k ∧ k < cellOf a 5) := by
  have hlen : (b :: ds).length = 5 := by rw [List.length_cons, hds]
  obtain ⟨-, hread, -⟩ := hr
  obtain ⟨-, hstore, -⟩ := hw
  obtain ⟨hbytes, hkept⟩ := hread hf hp
  obtain ⟨hstored, hkept'⟩ := hstore hfm hpm
  rw [hlen] at hstored hkept'
  have hfirst : t.cell (cellOf a 0) = s.cell (cellOf a 0) :=
    Option.some.inj ((hstored 0 (by decide)).trans (hbytes 0 (by decide)))
  refine ⟨hfirst, fun j hj => hstored (j + 1) (by omega), fun k hk hobs => ?_⟩
  by_cases hk0 : k = cellOf a 0
  · exact hk0 ▸ hfirst
  · refine hkept.trans hkept' hcfg k ?_ hobs
    simp only [cellOf, false_or] at hk hk0 ⊢
    omega

end

/-! ### A read of five bytes within an operation -/

/-- The five bytes the peer gives for a register. -/
abbrev State.fiveReply (a : Reg) (s : State) : List Byte :=
  (s.reply (opWithReg s.cfg.codes.opcRRegister a) (List.replicate 5 fill)).tail

/-- The state after the five bytes of a register have been read. -/
def State.fiveRead (a : Reg) (s : State) : State :=
  s.xacted (opWithReg s.cfg.codes.opcRRegister a) (List.replicate 5 fill)

section
variable {s : State} {a : Reg}

@[simp] theorem fiveRead_cfg (s : State) (a : Reg) : (s.fiveRead a).cfg = s.cfg := xacted_cfg _ _ s

@[simp] theorem fiveRead_level (s : State) (a : Reg) : (s.fiveRead a).env.level = s.env.level := xacted_level _ _ s

@[simp] theorem fiveRead_allow (s : State) (a : Reg) : (s.fiveRead a).env.allow = s.env.allow := xacted_allow _ _ s

theorem fiveRead_faithful (hf : s.FaithfulPeer) (hp : s.KeepsPower) (a : Reg) : (s.fiveRead a).FaithfulPeer :=
  hf.after_read hp a _

theorem fiveRead_keepsPower (hp : s.KeepsPower) (a : Reg) : (s.fiveRead a).KeepsPower := xacted_keepsPower _ _ hp

theorem fiveRead_radioQuiet (hq : s.RadioQuiet) (a : Reg) : (s.fiveRead a).RadioQuiet := xacted_radioQuiet _ _ hq

theorem regRead_five (h : s.env.allow = none) (a : Reg) : ∃ st, regRead a 5 s = .ok (st, s.fiveReply a) (s.fiveRead a) :=
  ⟨_, regRead_returns h a 5⟩

/-- Five bytes of a register read, in the terms of Safety. -/
theorem fiveRead_reads (s : State) (ha : s.cfg.codes = Codes.standard → PlainReg a ∧ Codes.standard.regWidth a = 5) :
    ∃ b0 b1 b2 b3 b4 evs, s.fiveReply a = [b0, b1, b2, b3, b4] ∧ Ran s (s.fiveRead a) evs
      ∧ ReadsBytes s (s.fiveRead a) a 5 [b0, b1, b2, b3, b4] evs := by
  obtain ⟨b0, b1, b2, b3, b4, hbs⟩ := eq_five_of_length (reply_tail_length
    (opWithReg s.cfg.codes.opcRRegister a) (List.replicate 5 fill) s)
  have hread := xacted_reads (t := s.fiveRead a) ha rfl (fiveRead_cfg s a)
  rw [hbs] at hread
  exact ⟨b0, b1, b2, b3, b4, _, hbs, ran_xacted s _ _, hread⟩

end

/-! ### GET_TX_ADDRESS and SET_TX_ADDRESS -/

section
variable {s : State}

theorem getTxAddress_getsFive (h : s.Ready) :
    GetsFive s .getTxAddress s.cfg.codes.regTxAddr (fun bs => .addr (addrOf bs)) :=
  exec_getsFive (·.regTxAddr) (fun bs => .addr (addrOf bs)) rfl rfl (by decide) h

theorem setTxAddress_setsBytes (h : s.Ready) (addr : BitVec 40) :
    SetsBytes s (.setTxAddress addr) s.cfg.codes.regTxAddr (addrBytes addr) :=
  exec_setsBytes (·.regTxAddr) (fun _ => addrBytes addr) rfl rfl (show StandardPlain (·.regTxAddr) 5 by decide) h

end

/-- Settles O41: five bytes read and five written, of TX_ADDR. -/
theorem txAddressIsReadAndSet : Obligations.TxAddressIsReadAndSet :=
  fun _ h => ⟨getTxAddress_getsFive h, setTxAddress_setsBytes h⟩

/-! ### The base of a pipe -/

/-- A pipe up to 5 passes the check of the pipe operand (30_encoding.md R119 a). -/
theorem pipe_check_passes {p : Pipe} (hp : p.toNat ≤ 5) (m : Op Result) :
    (if !pipeOk p then pure .fail else m) = m := by
  rw [pipeOk_of_le hp]
  rfl

theorem baseReg_eq (c : Codes) (p : Pipe) : baseReg c p = c.regRxAddr (if p = 0 then 0 else 1) :=
  (apply_ite c.regRxAddr _ _ _).symm

theorem standardPlain_baseReg (p : Pipe) : StandardPlain (baseReg · p) 5 := by
  revert p; decide

theorem baseBytes_getElem? (base : BitVec 32) {j : Nat} (hj : j < 4) :
    (baseBytes base)[j]? = some (base.extractLsb' (8 * j) 8) := by
  match j, hj with
  | 0, _ | 1, _ | 2, _ | 3, _ => rfl

/-- The state after the five bytes of a register have been read and latched. -/
def State.latchedFive (a : Reg) (s : State) : State :=
  (s.fiveRead a).onBlk fun b => { b with vTmp := s.fiveReply a }

/-- Latching changes nothing of configuration and peer. -/
theorem latchedFive_reads {s : State} {a : Reg} {bs : List Byte} {evs : List Event} (hran : Ran s (s.fiveRead a) evs)
    (hread : ReadsBytes s (s.fiveRead a) a 5 bs evs) :
    Ran s (s.latchedFive a) evs ∧ ReadsBytes s (s.latchedFive a) a 5 bs evs :=
  ⟨List.append_nil evs ▸ hran.trans (ran_onBlk (s.fiveRead a) rfl rfl), hread⟩

section
variable {s : State} {p : Pipe}

theorem getRxBaseAddress_getsFive (h : s.Ready) (hp : p.toNat ≤ 5) :
    GetsFive s (.getRxBaseAddress p) (baseReg s.cfg.codes p) (fun bs => .base (baseOf bs)) :=
  exec_getsFive (baseReg · p) (fun bs => .base (baseOf bs))
    (congrArg (fun m => runHost (.getRxBaseAddress p) m s) (pipe_check_passes hp _)) rfl (standardPlain_baseReg p) h

/-- The state after a base has been written with the unique byte latched (42_config_access.md R194). -/
def State.baseStored (a : Reg) (base : BitVec 32) (s : State) : State :=
  s.xacted (opWithReg s.cfg.codes.opcWRegister a) (byteAt s.blk.vTmp 0 :: baseBytes base)

/-- The write of the base, in the terms of Safety. -/
theorem baseStored_stores {a : Reg} {b : Byte} {bs : List Byte}
    (ha : s.cfg.codes = Codes.standard → PlainReg a ∧ Codes.standard.regWidth a = 5) (hv : s.blk.vTmp = b :: bs)
    (base : BitVec 32) :
    ∃ evs, Ran s (s.baseStored a base) evs ∧ StoresBytes s (s.baseStored a base) a (b :: baseBytes base) evs := by
  have hstored : s.baseStored a base = s.xacted (opWithReg s.cfg.codes.opcWRegister a) (b :: baseBytes base) := by
    rw [State.baseStored, hv]
    rfl
  rw [hstored]
  exact ⟨_, ran_xacted s _ _, xacted_stores ha rfl (xacted_cfg _ _ s)⟩

/-- SET_RX_BASE_ADDRESS reads, latches and writes (42_config_access.md R194). -/
theorem exec_setRxBaseAddress (h : s.Ready) (hp : p.toNat ≤ 5) (base : BitVec 32) :
    exec (.setRxBaseAddress p base) s
      = .next ((((s.accept (.setRxBaseAddress p base)).latchedFive (baseReg s.cfg.codes p)).baseStored
          (baseReg s.cfg.codes p) base).complete .ok) := by
  have hallow : (s.accept (.setRxBaseAddress p base)).env.allow = none := h.2
  obtain ⟨st, hread⟩ := regRead_five hallow (baseReg s.cfg.codes p)
  refine runHost_returns h.1 rfl ?_
  rw [pipe_check_passes hp]
  simp only [op_bind, getCodes_eq, State.accept_cfg, hread, modifyBlk_eq]
  rw [regWrite_returns (by rw [State.onBlk_env, fiveRead_allow, hallow])]
  rfl

end

/-- Settles O39: a pipe above 5 is refused; else the base is read from the register of the pipe, and written there in one
frame after a read that latches the unique byte. -/
theorem baseAddressIsReadAndSet : Obligations.BaseAddressIsReadAndSet := by
  intro s p h
  refine ⟨fun hp => ⟨exec_refuses_pipe h.1 rfl hp, fun _ => exec_refuses_pipe h.1 rfl hp⟩, fun hp => ?_,
    fun hp base => ?_⟩
  · rw [← baseReg_eq]
    exact getRxBaseAddress_getsFive h hp
  rw [← baseReg_eq]
  have hplain := (standardPlain_baseReg p).at (c := s.cfg.codes)
  let s' := s.accept (.setRxBaseAddress p base)
  let m := s'.latchedFive (baseReg s.cfg.codes p)
  have hcfg : m.cfg = s.cfg := fiveRead_cfg s' _
  obtain ⟨b0, b1, b2, b3, b4, e1, hv, hran, hread⟩ := fiveRead_reads s' hplain
  obtain ⟨hran, hread⟩ := latchedFive_reads hran hread
  obtain ⟨e2, hran', hstore⟩ := baseStored_stores (s := m) (by rwa [hcfg]) hv base
  have hrest := reads_then_stores_rest hcfg hread hstore rfl
  obtain ⟨hevents, -, hquiet, hpeer⟩ := hread
  obtain ⟨hevents', -, hquiet', hpeer'⟩ := hstore
  rw [hcfg] at hevents'
  refine ⟨_, e1, e2, b0, b1, b2, b3, b4, exec_setRxBaseAddress h hp base, (hran.trans hran').done, ?_, ?_, ?_, hevents,
    hevents', fun hf hk a ha => ?_, fun hf hq => ?_, fun hany => ?_⟩
  · simp [KeepsMode, State.latchedFive, State.fiveRead, State.baseStored]
  · simp [KeepsQueues, State.latchedFive, State.fiveRead, State.baseStored]
  · exact (xacted_vTmp _ _ m).trans hv
  · have hreg : baseReg s.cfg.codes p = a := by
      rw [ha, hf.1, baseReg]
      split <;> rfl
    obtain ⟨hunique, hbase, hkept⟩ := hrest hf hk
      (fiveRead_faithful (s := s') hf hk _) (fiveRead_keepsPower (s := s') hk _)
    subst hreg
    exact ⟨hunique, fun j hj => Option.some.inj ((hbase j hj).trans (baseBytes_getElem? base hj)), hkept⟩
  · exact (quietKeeps_of_same_peer (hquiet hf hq) hcfg).trans
      (hquiet' (fiveRead_faithful (s := s') hf hq.keepsPower _) (fiveRead_radioQuiet (s := s') hq _)) hcfg
  · exact (hpeer' ((fiveRead_level s' _).trans hany)).trans (hpeer hany)

/-! ### The address of a pipe -/

theorem standardPlain_wholeAddress {p : Pipe} (hp : p.toNat ≤ 1) : StandardPlain (·.regRxAddr p.toNat) 5 := by
  revert hp; revert p; decide

theorem standardPlain_suffix {p : Pipe} (hp : 2 ≤ p.toNat) (hp' : p.toNat ≤ 5) :
    StandardPlain (·.regRxAddr p.toNat) 1 := by
  revert hp hp'; revert p; decide

section
variable {s : State} {p : Pipe}

/-- GET_RX_ADDRESS of a pipe with a register of its own (42_config_access.md R195). -/
theorem getRxAddress_getsFive (h : s.Ready) (hp : p.toNat ≤ 1) :
    GetsFive s (.getRxAddress p) (s.cfg.codes.regRxAddr p.toNat) (fun bs => .addr (addrOf bs)) := by
  refine exec_getsFive (·.regRxAddr p.toNat) (fun bs => .addr (addrOf bs)) ?_ rfl (standardPlain_wholeAddress hp) h
  show execGetRxAddress p s = _
  simp only [execGetRxAddress, pipeOk_of_le (hp.trans (by decide)), if_pos hp]
  rfl

/-- SET_RX_ADDRESS of a pipe with a register of its own (42_config_access.md R196). -/
theorem setRxAddress_setsFive (h : s.Ready) (hp : p.toNat ≤ 1) (addr : BitVec 40) :
    SetsBytes s (.setRxAddress p addr) (s.cfg.codes.regRxAddr p.toNat) (addrBytes addr) := by
  refine exec_setsBytes (·.regRxAddr p.toNat) (fun _ => addrBytes addr) ?_ rfl (standardPlain_wholeAddress hp) h
  show execSetRxAddress p addr s = _
  simp only [execSetRxAddress, pipeOk_of_le (hp.trans (by decide)), if_pos hp]
  rfl

/-- SET_RX_ADDRESS of a pipe that shares the base (42_config_access.md R196). -/
theorem setRxAddress_setsSuffix (h : s.Ready) (hp : 2 ≤ p.toNat) (hp' : p.toNat ≤ 5) (addr : BitVec 40) :
    SetsBytes s (.setRxAddress p addr) (s.cfg.codes.regRxAddr p.toNat) [addr.extractLsb' 0 8] := by
  refine exec_setsBytes (·.regRxAddr p.toNat) (fun _ => [addr.extractLsb' 0 8]) ?_ rfl (standardPlain_suffix hp hp') h
  show execSetRxAddress p addr s = _
  simp only [execSetRxAddress, pipeOk_of_le hp', if_neg (show ¬ p.toNat ≤ 1 by omega)]
  rfl

/-- The state after a one-byte register has been read. -/
def State.byteRead (a : Reg) (s : State) : State := s.xacted (opWithReg s.cfg.codes.opcRRegister a) [fill]

theorem byteRead_reads {a : Reg} (ha : s.cfg.codes = Codes.standard → PlainReg a ∧ Codes.standard.regWidth a = 1) :
    ∃ evs, Ran s (s.byteRead a) evs ∧ ReadsBytes s (s.byteRead a) a 1 [s.rmwRead a] evs := by
  have hreads := xacted_reads (t := s.byteRead a) ha rfl (xacted_cfg _ _ s)
  exact ⟨_, ran_xacted s _ _, tail_reply_one s _ fill ▸ hreads⟩

/-- GET_RX_ADDRESS of a pipe that shares the base reads the base and then the suffix (42_config_access.md R195). -/
theorem exec_getRxAddress_shared {s' m : State} (h : s.Ready) (hp : 2 ≤ p.toNat) (hp' : p.toNat ≤ 5)
    (hs' : s' = s.accept (.getRxAddress p)) (hm : m = s'.fiveRead (s.cfg.codes.regRxAddr 1)) :
    exec (.getRxAddress p) s = .next ((m.byteRead (s.cfg.codes.regRxAddr p.toNat)).complete
      (.addr (joinAddr (baseOf (s'.fiveReply (s.cfg.codes.regRxAddr 1)))
        (m.rmwRead (s.cfg.codes.regRxAddr p.toNat))))) := by
  subst hs' hm
  have hallow : (s.accept (.getRxAddress p)).env.allow = none := h.2
  obtain ⟨st, hread⟩ := regRead_five hallow (s.cfg.codes.regRxAddr 1)
  refine runHost_returns h.1 rfl ?_
  rw [pipe_check_passes hp']
  simp only [op_bind, getCodes_eq, State.accept_cfg, if_neg (show ¬ p.toNat ≤ 1 by omega), hread]
  rw [regReadByte_returns (by rw [fiveRead_allow, hallow])]
  rfl

end

/-- Settles O40: a pipe above 5 is refused; a pipe 0 or 1 has a register of its own; a pipe above shares the base of pipe 1,
which is read first. -/
theorem rxAddressIsReadAndSet : Obligations.RxAddressIsReadAndSet := by
  intro s p h
  refine ⟨fun hp => ⟨exec_refuses_pipe h.1 rfl hp, fun _ => exec_refuses_pipe h.1 rfl hp⟩, getRxAddress_getsFive h,
    fun hp hp' => ?_, fun hp addr => ?_⟩
  · let s' := s.accept (.getRxAddress p)
    let m := s'.fiveRead (s.cfg.codes.regRxAddr 1)
    have hcfg : m.cfg = s.cfg := fiveRead_cfg s' _
    have hplain := (standardPlain_suffix hp hp').at (c := s.cfg.codes)
    obtain ⟨b0, b1, b2, b3, b4, e1, hbs, hran, hread⟩ := fiveRead_reads s' (a := s.cfg.codes.regRxAddr 1)
      (standardPlain_wholeAddress (p := 1) (by decide)).at
    obtain ⟨e2, hran', hread'⟩ := byteRead_reads (s := m) (by rwa [hcfg])
    have hbytes := hread.bytes
    obtain ⟨hevents, hcells, hquiet, hpeer⟩ := hread
    obtain ⟨hevents', hcells', hquiet', hpeer'⟩ := hread'
    rw [hcfg] at hevents'
    have hexec := exec_getRxAddress_shared (s' := s') (m := m) h hp hp' rfl rfl
    rw [hbs] at hexec
    refine ⟨_, e1, e2, b0, b1, b2, b3, b4, _, hexec, (hran.trans hran').done, ?_, hevents, hevents', fun hf hk => ?_,
      fun hf hq => ?_, fun hany => ?_⟩
    · simp [KeepsRest, KeepsMode, KeepsQueues, m, s', State.fiveRead, State.byteRead]
    · have hfm : m.FaithfulPeer := fiveRead_faithful (s := s') hf hk _
      have hkm : m.KeepsPower := fiveRead_keepsPower (s := s') hk _
      have hbase : s.cfg.codes.regRxAddr 1 = 0x0B := hf.1 ▸ rfl
      obtain ⟨hplain, hwidth⟩ := hplain hf.1
      obtain ⟨-, hkept⟩ := hcells hf hk
      obtain ⟨-, hkept'⟩ := hcells' hfm hkm
      refine ⟨hbase ▸ hbytes hf hk, (rmwRead_faithful hfm hkm hplain hwidth).trans ?_, fun k _ => ?_⟩
      · exact hkept _ id (plainReg_ne_observe hf.1 hplain (by decide))
      · exact hkept.trans hkept' hcfg k (or_self_iff.not.2 id)
    · exact (hquiet' (fiveRead_faithful (s := s') hf hq.keepsPower _) (fiveRead_radioQuiet (s := s') hq _)).trans
        (hquiet hf hq)
    · exact (hpeer' ((fiveRead_level s' _).trans hany)).trans (hpeer hany)
  · by_cases hp1 : p.toNat ≤ 1
    · rw [if_pos hp1]
      exact setRxAddress_setsFive h hp1 addr
    · rw [if_neg hp1]
      exact setRxAddress_setsSuffix h (by omega) hp addr

end Sys2Proof.Machine
end

section
/-! What was set is what is then got (42_config_access.md R205). In a settled state, one in which the block is ready and the peer
keeps the contract and its power under the default codes, every completed instruction leaves a settled state; there a GET
answers a function of the register's bytes, which a SET has made known. -/

set_option Elab.async false

namespace Sys2Proof.Machine

open Sys2Proof

/-! ### Memory keeps its form, and the peer its power -/

section
variable {lv : PeerLevel} {c : Config} {k : Nat} {p : Peer}

theorem unconstrained_memory_wf (h : Memory.wf c.codes p.mem = true) :
    Memory.wf c.codes (unconstrained lv c k p).mem = true := by
  cases lv with
  | reference => exact h
  | contract | any => exact (freePeer_wf c k).1

theorem storeRegister_memory_wf (h : Memory.wf c.codes p.mem = true) (a : Reg) (d : List Byte) :
    Memory.wf c.codes (storeRegister c.codes p a d).mem = true := by
  unfold storeRegister
  split
  · exact h
  split
  · exact h
  · exact Memory.wf_writeReg h a d

theorem pushTx_memory_wf (h : Memory.wf c.codes p.mem = true) (e : TxEntry) :
    Memory.wf c.codes (pushTx lv c k p e).mem = true := by
  unfold pushTx
  split
  · exact h
  · exact unconstrained_memory_wf h

/-- Every command keeps the canonical form of memory, whatever the FIFOs hold. -/
theorem applyCmd_memory_wf (h : Memory.wf c.codes p.mem = true) (st : Byte) (cmd : WireCmd) (d : List Byte) :
    Memory.wf c.codes (applyCmd lv c k p st cmd d).1.mem = true := by
  cases cmd with
  | rRegister | rRxPlWid | rRxPayload | flushTx | flushRx | reuseTxPl | nop => exact h
  | wRegister a =>
    simp only [applyCmd, writeRegister]
    split
    · exact h
    split
    · exact storeRegister_memory_wf h a d
    · exact unconstrained_memory_wf (storeRegister_memory_wf h a d)
  | wTxPayload | wTxPayloadNoack =>
    simp only [applyCmd, pushTxEndingReuse]
    split
    · exact pushTx_memory_wf (k := k) h _
    · exact pushTx_memory_wf h _
  | wAckPayload q =>
    simp only [applyCmd]
    split
    · exact pushTx_memory_wf h _
    · exact unconstrained_memory_wf h

theorem peerXfer_memory_wf (h : Memory.wf c.codes p.mem = true) (tx : List Byte) :
    Memory.wf c.codes (peerXfer lv c k p tx).1.mem = true := by
  cases tx with
  | nil => exact h
  | cons op d =>
    simp only [peerXfer]
    split
    · exact unconstrained_memory_wf h
    · exact applyCmd_memory_wf h _ _ d

end

/-- The peer keeps the contract and its power, under the default codes. -/
abbrev State.Steady (s : State) : Prop := s.FaithfulPeer ∧ s.KeepsPower

/-- An exchange leaves a steady peer steady. -/
theorem State.Steady.afterXfer {s : State} (h : s.Steady) (tx : List Byte) : (s.afterXfer tx).Steady := by
  obtain ⟨⟨hcodes, hlevel, hwf⟩, hpower⟩ := h
  refine ⟨⟨?_, ?_, ?_⟩, fun ms hms => ?_⟩
  · simpa [State.afterXfer] using hcodes
  · simpa [State.PeerKeepsContract, State.afterXfer] using hlevel
  · simp only [State.afterXfer, State.emit_cfg, State.onBlk_cfg, State.fillXbuf_cfg, State.emit_peer,
      State.onBlk_peer, State.fillXbuf_peer, answer_contract hlevel]
    exact peerXfer_memory_wf (hpower.peerNow_wf hwf) tx
  · obtain hr | hr := answer_radio (s := s) tx
    · exact hpower ms (List.mem_of_mem_tail (hr ▸ hms))
    · exact hpower ms (hr ▸ hms)

theorem Micro.steady {i : Instr} {s t : State} (h : Micro i s t) (hs : s.Steady) : t.Steady := by
  cases h with
  | call hcall =>
    obtain ⟨n, rfl⟩ := takeCall_eq_withAllow hcall
    exact hs
  | xfer => exact hs.afterXfer _
  | _ => exact hs

theorem Reach.steady {i : Instr} {s t : State} (h : Reach i s t) (hs : s.Steady) : t.Steady := by
  induction h with
  | refl => exact hs
  | tail _ hstep ih => exact hstep.steady ih

/-- Every instruction leaves a steady peer steady, completed or cut short. -/
theorem exec_steady {i : Instr} {s t : State} (h : exec i s = .next t) (hs : s.Steady) : t.Steady := by
  obtain ⟨-, hend⟩ := exec_ended h
  cases hend with
  | completed r hrun => exact hrun.steady (s := s.accept i) hs
  | wired hrun => exact hrun.steady (s := s.accept i) hs
  | cut hrun => exact hrun.steady (s := s.accept i) hs

/-! ### Settled states -/

/-- The block is ready, the codes are the default ones, and the peer keeps the contract and its power. -/
structure State.Settled (s : State) : Prop where
  ready : s.Ready
  faithful : s.FaithfulPeer
  power : s.KeepsPower

/-- The instruction completes with this result. -/
abbrev Answers (s : State) (i : Instr) (r : Result) : Prop := ∃ u, exec i s = .next u ∧ u.results = s.results ++ [r]

section
variable {s t : State} {i j : Instr}

theorem State.Settled.codes (h : s.Settled) : s.cfg.codes = Codes.standard := h.faithful.1

/-- A completed instruction leaves a settled state. -/
theorem State.Settled.next {evs : List Event} {rs : List Result} (h : s.Settled) (hexec : exec i s = .next t)
    (hdone : Done s t evs rs) : t.Settled := by
  obtain ⟨hidle, -, -, -, -, -, -, -, hallow⟩ := hdone
  obtain ⟨hfaithful, hpower⟩ := exec_steady hexec ⟨h.faithful, h.power⟩
  exact ⟨⟨hidle, hallow.trans h.ready.2⟩, hfaithful, hpower⟩

/-- A GET of one byte answers from the byte the register holds. -/
theorem GetsByte.answers {a : Reg} {f : Byte → Result} (h : s.Settled) (hget : GetsByte s i a f) :
    Answers s i (f (s.regByte a)) := by
  obtain ⟨t, evs, v, hexec, ⟨-, -, hres, -⟩, -, hread⟩ := hget
  obtain rfl : v = s.regByte a := by simpa using hread.bytes h.faithful h.power
  exact ⟨t, hexec, hres⟩

/-- A GET of five bytes answers from the bytes the register holds. -/
theorem GetsFive.answers {a : Reg} {f : List Byte → Result} (h : s.Settled) (hget : GetsFive s i a f) :
    Answers s i (f ((List.range 5).map fun k => s.cell (cellOf a k))) := by
  obtain ⟨t, evs, b0, b1, b2, b3, b4, hexec, ⟨-, -, hres, -⟩, -, hread⟩ := hget
  rw [← hread.bytes h.faithful h.power]
  exact ⟨t, hexec, hres⟩

/-- What is answered after an instruction that completed with OK. -/
theorem Answers.after {r : Result} {evs : List Event} (hexec : exec i s = .next t) (hdone : Done s t evs [.ok])
    (hans : Answers t j r) : ∃ t u, exec i s = .next t ∧ exec j t = .next u ∧ u.results = s.results ++ [.ok, r] := by
  obtain ⟨u, hexec', hres'⟩ := hans
  obtain ⟨-, -, hres, -⟩ := hdone
  refine ⟨t, u, hexec, hexec', ?_⟩
  rw [hres', hres, List.append_assoc]
  rfl

end

/-! ### Masks -/

theorem updateBits_and_of_covered {m clr ones : Byte} (h : m &&& (clr ||| ones) = m) (v : Byte) :
    updateBits v clr ones &&& m = ones &&& m := by
  ext k hk
  have hbit : (m &&& (clr ||| ones))[k] = m[k] := by rw [h]
  simp only [updateBits, BitVec.getElem_and, BitVec.getElem_or, BitVec.getElem_not] at hbit ⊢
  revert hbit
  cases m[k] <;> cases clr[k] <;> cases ones[k] <;> simp

theorem updateBits_and_of_disjoint {m clr ones : Byte} (h : m &&& (clr ||| ones) = 0) (v : Byte) :
    updateBits v clr ones &&& m = v &&& m := by
  ext k hk
  have hbit : (m &&& (clr ||| ones))[k] = false := by rw [h]; exact BitVec.getElem_zero hk
  simp only [updateBits, BitVec.getElem_and, BitVec.getElem_or, BitVec.getElem_not] at hbit ⊢
  revert hbit
  cases m[k] <;> cases clr[k] <;> cases ones[k] <;> simp

/-- The value reads nothing of a byte but its bits under the mask. -/
abbrev ReadsUnder {α : Type} (m : Byte) (f : Byte → α) : Prop := ∀ v w, v &&& m = w &&& m → f v = f w

theorem flagSet_readsUnder {m n : Byte} (h : m &&& n = n) : ReadsUnder m (flagSet n) := by
  intro v w hvw
  rw [flagSet, flagSet, ← h, ← BitVec.and_assoc, hvw, BitVec.and_assoc]

theorem fieldGet_readsUnder (m : Byte) : ReadsUnder m (fieldGet m) := by
  intro v w hvw
  rw [fieldGet, fieldGet, hvw]

/-! ### Fields of one-byte registers -/

/-- `i` gets the field under mask `m` of register `a`: in a settled state it answers `f` of the register's byte, which reads
that field alone. -/
structure GetsField (i : Instr) (a : Reg) (m : Byte) (f : Byte → Result) : Prop where
  answers : ∀ s : State, s.Settled → Answers s i (f (s.regByte a))
  reads : ReadsUnder m f

/-- `i` clears and sets bits of register `a`: in a settled state it completes with OK, and the register has its new byte. -/
def SetsField (i : Instr) (a : Reg) (clr ones : Byte) : Prop :=
  ∀ s : State, s.Settled → ∃ t evs, exec i s = .next t ∧ Done s t evs [.ok]
    ∧ t.regByte a = updateBits (s.regByte a) clr ones

section
variable {s : State} {i j : Instr} {a : Reg} {m clr ones : Byte} {f : Byte → Result}

/-- R205: where the SET determines every bit of the field, the GET answers what was set. -/
theorem GetsField.after_set {r : Result} (hget : GetsField j a m f) (hset : SetsField i a clr ones)
    (hm : m &&& (clr ||| ones) = m) (hr : f ones = r) (h : s.Settled) :
    ∃ t u, exec i s = .next t ∧ exec j t = .next u ∧ u.results = s.results ++ [.ok, r] := by
  obtain ⟨t, evs, hexec, hdone, hbyte⟩ := hset s h
  have hans := hget.answers t (h.next hexec hdone)
  rw [hbyte, hget.reads _ _ (updateBits_and_of_covered hm _), hr] at hans
  exact hans.after hexec hdone

/-- R205, last sentence: where the SET touches no bit of the field, the GET answers what it answered before. -/
theorem GetsField.unmoved_by_set (hget : GetsField j a m f) (hset : SetsField i a clr ones)
    (hm : m &&& (clr ||| ones) = 0) (h : s.Settled) :
    ∃ t u v g, exec i s = .next t ∧ exec j t = .next u ∧ exec j s = .next v ∧ u.results = s.results ++ [.ok, g]
      ∧ v.results = s.results ++ [g] := by
  obtain ⟨t, evs, hexec, hdone, hbyte⟩ := hset s h
  have hans := hget.answers t (h.next hexec hdone)
  rw [hbyte, hget.reads _ _ (updateBits_and_of_disjoint hm _)] at hans
  obtain ⟨t, u, hexec, hexec', hres⟩ := hans.after hexec hdone
  obtain ⟨v, hbefore, hres'⟩ := hget.answers s h
  exact ⟨t, u, v, _, hexec, hexec', hbefore, hres, hres'⟩

/-- A GET is a GET of a field where its answer reads that field alone. -/
theorem GetsField.of_getsByte (reg : Codes → Reg) (g : Codes → Byte → Result)
    (hget : ∀ s : State, s.Ready → GetsByte s j (reg s.cfg.codes) (g s.cfg.codes)) (hg : ReadsUnder m (g Codes.standard)) :
    GetsField j (reg Codes.standard) m (g Codes.standard) :=
  ⟨fun s h => h.codes ▸ (hget s h.ready).answers h, hg⟩

/-- An RMW sets the bits of its register. -/
theorem SetsField.of_setsBits (reg : Codes → Reg) (c o : Codes → Byte)
    (hset : ∀ s : State, s.Ready → SetsBits s i (reg s.cfg.codes) (c s.cfg.codes) (o s.cfg.codes)) :
    SetsField i (reg Codes.standard) (c Codes.standard) (o Codes.standard) := by
  intro s h
  obtain ⟨t, evs, hexec, hdone, -, -, -, hcells, -⟩ := hset s h.ready
  obtain ⟨hbyte, -⟩ := hcells h.faithful h.power
  rw [h.codes] at hbyte
  exact ⟨t, evs, hexec, hdone, hbyte⟩

end

theorem crcOf_readsUnder : ReadsUnder 0x0C (crcOf Codes.standard) := by
  intro v w hvw
  rw [crcOf, crcOf, flagSet_readsUnder (n := Codes.standard.mEnCrc) (by decide) v w hvw,
    flagSet_readsUnder (n := Codes.standard.mCrco) (by decide) v w hvw]

theorem rateResult_readsUnder : ReadsUnder 0x28 (rateResult Codes.standard) := by
  intro v w hvw
  rw [rateResult, rateResult, rateOf, rateOf, flagSet_readsUnder (n := Codes.standard.mRfDrLow) (by decide) v w hvw,
    flagSet_readsUnder (n := Codes.standard.mRfDrHigh) (by decide) v w hvw]

theorem powerOf_readsUnder : ReadsUnder Codes.standard.mRfPwr (powerOf Codes.standard) := by
  intro v w hvw
  rw [powerOf, powerOf, fieldGet_readsUnder _ v w hvw]

theorem getsField_crc : GetsField .getCrc 0x00 0x0C (fun v => .crc (crcOf Codes.standard v)) :=
  .of_getsByte (·.regConfig) (fun c v => .crc (crcOf c v)) (fun _ => getCrc_getsByte)
    fun v w hvw => congrArg Result.crc (crcOf_readsUnder v w hvw)

theorem getsField_dataRate : GetsField .getDataRate 0x06 0x28 (rateResult Codes.standard) :=
  .of_getsByte (·.regRfSetup) rateResult (fun _ => getDataRate_getsByte) rateResult_readsUnder

theorem getsField_outputPower : GetsField .getOutputPower 0x06 0x06 (fun v => .power (powerOf Codes.standard v)) :=
  .of_getsByte (·.regRfSetup) (fun c v => .power (powerOf c v)) (fun _ => getOutputPower_getsByte)
    fun v w hvw => congrArg Result.power (powerOf_readsUnder v w hvw)

theorem getsField_channel : GetsField .getChannel 0x05 0x7F (fun v => .channel ((fieldGet 0x7F v).setWidth 7)) :=
  .of_getsByte (·.regRfCh) (fun c v => .channel ((fieldGet c.mRfCh v).setWidth 7)) (fun _ => getChannel_getsByte)
    fun v w hvw => congrArg (fun x => Result.channel (x.setWidth 7)) (fieldGet_readsUnder 0x7F v w hvw)

theorem getsField_retryCount : GetsField .getRetryCount 0x04 0x0F (fun v => .retry ((fieldGet 0x0F v).setWidth 4)) :=
  .of_getsByte (·.regSetupRetr) (fun c v => .retry ((fieldGet c.mArc v).setWidth 4)) (fun _ => getRetryCount_getsByte)
    fun v w hvw => congrArg (fun x => Result.retry (x.setWidth 4)) (fieldGet_readsUnder 0x0F v w hvw)

theorem getsField_retryDelay : GetsField .getRetryDelay 0x04 0xF0 (fun v => .retry ((fieldGet 0xF0 v).setWidth 4)) :=
  .of_getsByte (·.regSetupRetr) (fun c v => .retry ((fieldGet c.mArd v).setWidth 4)) (fun _ => getRetryDelay_getsByte)
    fun v w hvw => congrArg (fun x => Result.retry (x.setWidth 4)) (fieldGet_readsUnder 0xF0 v w hvw)

theorem setsField_crc (m : CrcMode) : SetsField (.setCrc m) 0x00 0x0C (crcCode Codes.standard m) :=
  .of_setsBits (·.regConfig) (fun c => c.mEnCrc ||| c.mCrco) (crcCode · m) fun _ h => setCrc_setsBits h m

theorem setsField_dataRate (r : DataRate) : SetsField (.setDataRate r) 0x06 0x28 (rateCode Codes.standard r) :=
  .of_setsBits (·.regRfSetup) (fun c => c.mRfDrLow ||| c.mRfDrHigh) (rateCode · r) fun _ h => setDataRate_setsBits h r

theorem setsField_outputPower (w : Power) : SetsField (.setOutputPower w) 0x06 0x06 (fieldPut 0x06 (powerCode w)) :=
  .of_setsBits (·.regRfSetup) (·.mRfPwr) (fun c => fieldPut c.mRfPwr (powerCode w)) fun _ h => setOutputPower_setsBits h w

theorem setsField_retryCount (n : Byte) : SetsField (.setRetryCount n) 0x04 0x0F (fieldPut 0x0F (clip15 n)) :=
  .of_setsBits (·.regSetupRetr) (·.mArc) (fun c => fieldPut c.mArc (clip15 n)) fun _ h => setRetryCount_setsBits h n

theorem setsField_retryDelay (n : Byte) : SetsField (.setRetryDelay n) 0x04 0xF0 (fieldPut 0xF0 (clip15 n)) :=
  .of_setsBits (·.regSetupRetr) (·.mArd) (fun c => fieldPut c.mArd (clip15 n)) fun _ h => setRetryDelay_setsBits h n

/-- SET_CHANNEL writes the whole byte, which is the channel. -/
theorem setsField_channel {ch : Byte} (hch : ch.toNat ≤ 127) : SetsField (.setChannel ch) 0x05 0xFF ch := by
  intro s h
  obtain ⟨t, evs, hexec, hdone, -, -, hcells, -⟩ := setChannel_setsBytes h.ready hch
  have hbyte := (hcells h.faithful h.power).1 0 Nat.one_pos
  rw [h.codes] at hbyte
  refine ⟨t, evs, hexec, hdone, (Option.some.inj hbyte).trans ((fieldPut_channel hch).trans ?_)⟩
  have hcleared : s.regByte 0x05 &&& ~~~0xFF#8 = 0#8 := BitVec.and_zero
  exact ((congrArg (· ||| ch) hcleared).trans BitVec.zero_or).symm

/-- A channel above 127 is ignored, and the earlier one is got (42_config_access.md R184). -/
theorem setChannel_ignored_then_get {s : State} (h : s.Settled) {ch : Byte} (hch : 127 < ch.toNat) :
    ∃ t u, exec (.setChannel ch) s = .next t ∧ exec .getChannel t = .next u
      ∧ u.results = s.results ++ [.ok, .channel ((fieldGet 0x7F (s.regByte 0x05)).setWidth 7)] := by
  have hset := setChannel_ignores h.ready.1 hch
  have hdone : Done s { s with results := s.results ++ [.ok] } [] [.ok] :=
    ⟨h.ready.1, (List.append_nil _).symm, rfl, rfl, rfl, rfl, rfl, rfl, rfl⟩
  exact (getsField_channel.answers _ (h.next hset hdone)).after hset hdone

theorem setsField_enterRx : SetsField .enterRx 0x00 0 0x03 := by
  intro s h
  obtain ⟨⟨t, evs, hexec, hdone, -, -, -, -, hcells, -⟩, -⟩ := enterRxAndTx s h.ready
  obtain ⟨hbyte, -⟩ := hcells h.faithful h.power
  rw [h.codes] at hbyte
  exact ⟨t, _, hexec, hdone, hbyte⟩

theorem setsField_enterTx : SetsField .enterTx 0x00 0x01 0x02 := by
  intro s h
  obtain ⟨-, t, evs, hexec, hdone, -, -, -, -, hcells, -⟩ := enterRxAndTx s h.ready
  obtain ⟨hbyte, -⟩ := hcells h.faithful h.power
  rw [h.codes] at hbyte
  exact ⟨t, _, hexec, hdone, hbyte⟩

/-! ### The bit of a pipe -/

/-- A per-pipe operation's register: its place among the codes, and the bits of the pipes in it, bit `p` for pipe `p` under the
default codes. -/
abbrev PipeReg (reg : Codes → Reg) (bits : Codes → Vector Byte 6) : Prop :=
  StandardPlain reg 1 ∧ bits Codes.standard = #v[0x01, 0x02, 0x04, 0x08, 0x10, 0x20]

section
variable {i : Instr} {p : Pipe} {reg : Codes → Reg} {bits : Codes → Vector Byte 6}

theorem getsField_pipeBit (hexec : ∀ s, exec i s = runHost i (getPipeBit reg bits p) s) (hw : ∀ c, i.wf c = true)
    (hreg : PipeReg reg bits) (hp : p.toNat ≤ 5) :
    GetsField i (reg Codes.standard) ((1 : Byte) <<< p.toNat) (fun v => .flag (flagSet ((1 : Byte) <<< p.toNat) v)) := by
  rw [← pipeBit_eq_shift hreg.2 hp]
  exact .of_getsByte reg (fun c v => .flag (flagSet (pipeBit (bits c) p) v))
    (fun s h => exec_getsPipeBit reg bits (hexec s) (hw _) hreg.1 h hp)
    fun v w hvw => congrArg Result.flag (flagSet_readsUnder (BitVec.and_self) v w hvw)

theorem setsField_pipeBit {e : Bool} (hexec : ∀ s, exec i s = runHost i (setPipeBit reg bits p e) s)
    (hw : ∀ c, i.wf c = true) (hreg : PipeReg reg bits) (hp : p.toNat ≤ 5) :
    SetsField i (reg Codes.standard) (if e then 0 else (1 : Byte) <<< p.toNat)
      (if e then (1 : Byte) <<< p.toNat else 0) := by
  rw [← pipeBit_eq_shift hreg.2 hp]
  exact .of_setsBits reg (fun c => if e then 0 else pipeBit (bits c) p) (fun c => if e then pipeBit (bits c) p else 0)
    fun s h => exec_setsPipeBit reg bits (hexec s) (hw _) hreg.1 h hp

end

theorem pipeReg_dynpd : PipeReg (·.regDynpd) (·.mDynpdP) := ⟨by decide, rfl⟩

theorem pipeReg_enAa : PipeReg (·.regEnAa) (·.mEnAaP) := ⟨by decide, rfl⟩

theorem pipeReg_enRxaddr : PipeReg (·.regEnRxaddr) (·.mEnRxaddrP) := ⟨by decide, rfl⟩

theorem clr_or_ones {e : Bool} (b : Byte) : (if e then 0 else b) ||| (if e then b else 0) = b := by
  cases e <;> simp

theorem flagSet_of_pipe_bit {p : Pipe} (hp : p.toNat ≤ 5) (e : Bool) :
    flagSet ((1 : Byte) <<< p.toNat) (if e then (1 : Byte) <<< p.toNat else 0) = e := by
  revert hp; revert p e; decide

/-- The bits of two pipes are two bits. -/
theorem pipe_bits_disjoint {p q : Pipe} (hpq : p ≠ q) : (1 : Byte) <<< q.toNat &&& (1 : Byte) <<< p.toNat = 0 := by
  revert hpq; revert p q; decide

/-! ### Five-byte registers -/

/-- Four bytes in a row of a word are 32 bits of it. -/
theorem extractLsb'_four_bytes {n : Nat} (x : BitVec n) (i : Nat) :
    (x.extractLsb' (i + 8 + 8 + 8) 8 ++ x.extractLsb' (i + 8 + 8) 8 ++ x.extractLsb' (i + 8) 8 ++ x.extractLsb' i 8 : BitVec 32)
      = x.extractLsb' i 32 := by
  simp only [BitVec.extractLsb'_append_extractLsb'_eq_extractLsb']

/-- A base is read back from its bytes, whatever the unique byte. -/
theorem baseOf_baseBytes (b : Byte) (base : BitVec 32) : baseOf (b :: baseBytes base) = base :=
  (extractLsb'_four_bytes base 0).trans BitVec.extractLsb'_eq_self

/-- An address is read back from its bytes. -/
theorem addrOf_addrBytes (addr : BitVec 40) : addrOf (addrBytes addr) = addr := by
  have hbase : baseOf (addrBytes addr) = addr.extractLsb' 8 32 := extractLsb'_four_bytes addr 8
  have hall := BitVec.extractLsb'_append_extractLsb'_eq_extractLsb' (x := addr) (show 8 = 0 + 8 from rfl) (len₂ := 32)
  rw [addrOf, hbase]
  exact hall.trans BitVec.extractLsb'_eq_self

section
variable {s t : State} {a : Reg} {bs : List Byte} {evs : List Event}

/-- The register a whole write has stored holds the bytes written. -/
theorem StoresBytes.bytes (h : s.Settled) (hstore : StoresBytes s t a bs evs) :
    (List.range bs.length).map (fun k => t.cell (cellOf a k)) = bs := by
  obtain ⟨-, hcells, -⟩ := hstore
  obtain ⟨hstored, -⟩ := hcells h.faithful h.power
  refine List.ext_getElem (by simp) fun k hk hk' => ?_
  simpa [hk'] using hstored k hk'

/-- R205 for a five-byte register: the GET answers from the bytes written. -/
theorem GetsFive.after_set {i j : Instr} {f : List Byte → Result} {r : Result} (reg : Codes → Reg)
    (hget : ∀ t : State, t.Ready → GetsFive t j (reg t.cfg.codes) f) (hset : SetsBytes s i (reg s.cfg.codes) bs)
    (hlen : bs.length = 5) (hr : f bs = r) (h : s.Settled) :
    ∃ t u, exec i s = .next t ∧ exec j t = .next u ∧ u.results = s.results ++ [.ok, r] := by
  obtain ⟨t, evs, hexec, hdone, -, hstore⟩ := hset
  have hsettled := h.next hexec hdone
  have hbytes := hstore.bytes h
  have hans := (hget t hsettled.ready).answers hsettled
  rw [hlen, h.codes] at hbytes
  rw [hsettled.codes, hbytes, hr] at hans
  exact hans.after hexec hdone

end

/-! ### Addresses of pipes -/

section
variable {s : State} {p : Pipe}

/-- The address of a pipe that shares the base is got from two registers (42_config_access.md R195). -/
theorem getRxAddress_answers_shared (h : s.Settled) (hp : 2 ≤ p.toNat) (hp' : p.toNat ≤ 5) :
    Answers s (.getRxAddress p) (.addr (joinAddr (baseOf ((List.range 5).map fun k => s.cell (cellOf 0x0B k)))
      (s.regByte (Codes.standard.regRxAddr p.toNat)))) := by
  obtain ⟨-, -, hshared, -⟩ := rxAddressIsReadAndSet s p h.ready
  obtain ⟨u, e1, e2, b0, b1, b2, b3, b4, sfx, hexec, ⟨-, -, hres, -⟩, -, -, -, hcells, -⟩ := hshared hp hp'
  obtain ⟨hbase, hsuffix, -⟩ := hcells h.faithful h.power
  rw [h.codes] at hsuffix
  rw [← hbase, ← hsuffix]
  exact ⟨u, hexec, hres⟩

/-- The register of a pipe that shares the base lies behind RX_ADDR_P1. -/
theorem shared_regRxAddr_above (hp : 2 ≤ p.toNat) (hp' : p.toNat ≤ 5) :
    0x0C ≤ (Codes.standard.regRxAddr p.toNat).toNat := by
  revert hp hp'; revert p; decide

/-- Writing the suffix of a pipe leaves the base of pipe 1 (42_config_access.md R196). -/
theorem setRxAddress_suffix_cells (h : s.Settled) (hp : 2 ≤ p.toNat) (hp' : p.toNat ≤ 5) (addr : BitVec 40) :
    ∃ t evs, exec (.setRxAddress p addr) s = .next t ∧ Done s t evs [.ok]
      ∧ t.regByte (Codes.standard.regRxAddr p.toNat) = addr.extractLsb' 0 8
      ∧ ∀ k < 5, t.cell (cellOf 0x0B k) = s.cell (cellOf 0x0B k) := by
  obtain ⟨t, evs, hexec, hdone, -, -, hcells, -⟩ := setRxAddress_setsSuffix h.ready hp hp' addr
  obtain ⟨hstored, hkept⟩ := hcells h.faithful h.power
  rw [h.codes] at hstored hkept
  refine ⟨t, evs, hexec, hdone, Option.some.inj (hstored 0 Nat.one_pos), fun k hk => hkept _ ?_ ?_⟩
  · have habove := shared_regRxAddr_above hp hp'
    have hbase : (0x0B : Reg).toNat = 0x0B := rfl
    simp only [cellOf, hbase]
    omega
  · exact plainReg_ne_observe h.codes (by decide) (hk.trans (by decide))

/-- R205 for the address of a pipe that shares the base: its suffix is the one set. -/
theorem rxAddress_after_suffix_set (h : s.Settled) (hp : 2 ≤ p.toNat) (hp' : p.toNat ≤ 5) (addr : BitVec 40) :
    ∃ t u, exec (.setRxAddress p addr) s = .next t ∧ exec (.getRxAddress p) t = .next u
      ∧ u.results = s.results ++ [.ok, .addr (joinAddr (baseOf ((List.range 5).map fun k => s.cell (cellOf 0x0B k)))
          (addr.extractLsb' 0 8))] := by
  obtain ⟨t, evs, hexec, hdone, hsuffix, hbase⟩ := setRxAddress_suffix_cells h hp hp' addr
  have hans := getRxAddress_answers_shared (h.next hexec hdone) hp hp'
  rw [hsuffix, List.map_congr_left fun k hk => hbase k (List.mem_range.1 hk)] at hans
  exact hans.after hexec hdone

/-- R205 for the base of a pipe. -/
theorem rxBaseAddress_after_set (h : s.Settled) (hp : p.toNat ≤ 5) (base : BitVec 32) :
    ∃ t u, exec (.setRxBaseAddress p base) s = .next t ∧ exec (.getRxBaseAddress p) t = .next u
      ∧ u.results = s.results ++ [.ok, .base base] := by
  obtain ⟨-, -, hset⟩ := baseAddressIsReadAndSet s p h.ready
  obtain ⟨t, e1, e2, b0, b1, b2, b3, b4, hexec, hdone, -, -, -, -, -, hcells, -⟩ := hset hp base
  have hsettled := h.next hexec hdone
  have hreg : baseReg t.cfg.codes p = if p = 0 then 0x0A else 0x0B := by
    rw [hsettled.codes, baseReg]
    split <;> rfl
  obtain ⟨-, hbase, -⟩ := hcells h.faithful h.power _ hreg
  have hbytes : (List.range 5).map (fun k => t.cell (cellOf (baseReg t.cfg.codes p) k))
      = t.cell (cellOf (baseReg t.cfg.codes p) 0) :: baseBytes base := by
    refine List.ext_getElem rfl fun k hk _ => ?_
    rw [List.getElem_map, List.getElem_range]
    cases k with
    | zero => rfl
    | succ j =>
      have hj : j < 4 := Nat.lt_of_succ_lt_succ hk
      rw [List.getElem_cons_succ, hbase j hj]
      exact (Option.some.inj ((List.getElem?_eq_getElem _).symm.trans (baseBytes_getElem? base hj))).symm
  have hans := (getRxBaseAddress_getsFive hsettled.ready hp).answers hsettled
  rw [hbytes, baseOf_baseBytes] at hans
  exact hans.after hexec hdone

end

/-! ### The claims -/

/-- Settles O44: each SET determines every bit of its own field, or writes every byte of its register; a channel above 127 is
ignored. -/
theorem settingsRoundTrip : Obligations.SettingsRoundTrip := by
  intro s m ch n d r w ta hready hfaithful hpower x hx
  have h : s.Settled := ⟨hready, hfaithful, hpower⟩
  simp only [List.mem_cons, List.not_mem_nil, or_false] at hx
  obtain rfl | rfl | rfl | rfl | rfl | rfl | rfl := hx
  · exact getsField_crc.after_set (setsField_crc m) (by cases m <;> decide) (by cases m <;> decide) h
  · exact getsField_dataRate.after_set (setsField_dataRate r) (by cases r <;> decide) (by cases r <;> decide) h
  · exact getsField_outputPower.after_set (setsField_outputPower w) (by cases w <;> decide) (by cases w <;> decide) h
  · by_cases hch : ch.toNat ≤ 127
    · rw [if_pos hch]
      exact getsField_channel.after_set (setsField_channel hch) (by revert ch; decide)
        (congrArg Result.channel (fieldGet_channel ch)) h
    · rw [if_neg hch, ← fieldGet_channel]
      exact setChannel_ignored_then_get h (not_le.1 hch)
  · exact getsField_retryCount.after_set (setsField_retryCount n) (by revert n; decide) (by revert n; decide) h
  · exact getsField_retryDelay.after_set (setsField_retryDelay d) (by revert d; decide) (by revert d; decide) h
  · exact GetsFive.after_set (·.regTxAddr) (fun _ => getTxAddress_getsFive) (setTxAddress_setsBytes hready ta) rfl
      (congrArg Result.addr (addrOf_addrBytes ta)) h

/-- Settles O45: each SET determines the bit of its pipe, or writes every byte that the GET reads but those of the base of
pipe 1, which a pipe above 1 keeps. -/
theorem pipeSettingsRoundTrip : Obligations.PipeSettingsRoundTrip := by
  intro s p e addr hready hfaithful hpower hp x hx
  have h : s.Settled := ⟨hready, hfaithful, hpower⟩
  have hcovers : (1 : Byte) <<< p.toNat &&& ((if e then 0 else (1 : Byte) <<< p.toNat)
      ||| (if e then (1 : Byte) <<< p.toNat else 0)) = (1 : Byte) <<< p.toNat := by
    rw [clr_or_ones, BitVec.and_self]
  have hflag := congrArg Result.flag (flagSet_of_pipe_bit hp e)
  simp only [List.mem_cons, List.not_mem_nil, or_false] at hx
  obtain rfl | rfl | rfl | rfl | rfl := hx
  · exact (getsField_pipeBit (fun _ => rfl) (fun _ => rfl) pipeReg_dynpd hp).after_set
      (setsField_pipeBit (fun _ => rfl) (fun _ => rfl) pipeReg_dynpd hp) hcovers hflag h
  · exact (getsField_pipeBit (fun _ => rfl) (fun _ => rfl) pipeReg_enAa hp).after_set
      (setsField_pipeBit (fun _ => rfl) (fun _ => rfl) pipeReg_enAa hp) hcovers hflag h
  · exact (getsField_pipeBit (fun _ => rfl) (fun _ => rfl) pipeReg_enRxaddr hp).after_set
      (setsField_pipeBit (fun _ => rfl) (fun _ => rfl) pipeReg_enRxaddr hp) hcovers hflag h
  · by_cases hp1 : p.toNat ≤ 1
    · rw [if_pos hp1]
      exact GetsFive.after_set (·.regRxAddr p.toNat) (fun _ ht => getRxAddress_getsFive ht hp1)
        (setRxAddress_setsFive hready hp1 addr) rfl (congrArg Result.addr (addrOf_addrBytes addr)) h
    · rw [if_neg hp1]
      exact rxAddress_after_suffix_set h (not_le.1 hp1) hp addr
  · exact rxBaseAddress_after_set h hp _

/-- Settles O46: no SET touches a bit of the other field, and no ENTER operation a bit of the CRC mode. -/
theorem fieldsAreIndependent : Obligations.FieldsAreIndependent := by
  intro s n r w p q e hready hfaithful hpower hp hq hpq x hx
  have h : s.Settled := ⟨hready, hfaithful, hpower⟩
  have hapart : (1 : Byte) <<< q.toNat &&& ((if e then 0 else (1 : Byte) <<< p.toNat)
      ||| (if e then (1 : Byte) <<< p.toNat else 0)) = 0 := by
    rw [clr_or_ones, pipe_bits_disjoint hpq]
  simp only [List.mem_cons, List.not_mem_nil, or_false] at hx
  obtain rfl | rfl | rfl | rfl | rfl | rfl | rfl | rfl | rfl := hx
  · exact getsField_outputPower.unmoved_by_set (setsField_dataRate r) (by cases r <;> decide) h
  · exact getsField_dataRate.unmoved_by_set (setsField_outputPower w) (by cases w <;> decide) h
  · exact getsField_retryDelay.unmoved_by_set (setsField_retryCount n) (by revert n; decide) h
  · exact getsField_retryCount.unmoved_by_set (setsField_retryDelay n) (by revert n; decide) h
  · exact getsField_crc.unmoved_by_set setsField_enterRx (by decide) h
  · exact getsField_crc.unmoved_by_set setsField_enterTx (by decide) h
  · exact (getsField_pipeBit (fun _ => rfl) (fun _ => rfl) pipeReg_dynpd hq).unmoved_by_set
      (setsField_pipeBit (fun _ => rfl) (fun _ => rfl) pipeReg_dynpd hp) hapart h
  · exact (getsField_pipeBit (fun _ => rfl) (fun _ => rfl) pipeReg_enAa hq).unmoved_by_set
      (setsField_pipeBit (fun _ => rfl) (fun _ => rfl) pipeReg_enAa hp) hapart h
  · exact (getsField_pipeBit (fun _ => rfl) (fun _ => rfl) pipeReg_enRxaddr hq).unmoved_by_set
      (setsField_pipeBit (fun _ => rfl) (fun _ => rfl) pipeReg_enRxaddr hp) hapart h

end Sys2Proof.Machine
end

section
/-! ENQUEUE_DATA and the callback registrations (43_event_loop.md R239 to R241): operations that update the block and make no
interface call. -/

set_option Elab.async false

namespace Sys2Proof.Machine

open Sys2Proof

/-- An operation whose body is one update of the block, which leaves the sequencer: the update may as well come before the
acceptance. -/
theorem runHost_update {i : Instr} {body : Op Result} {s : State} {r : Result} {f : Block → Block} (hi : s.blk.seq = .idle)
    (hw : i.wf s.cfg = true) (hf : (f s.blk).seq = s.blk.seq) (hbody : body (s.accept i) = .ok r ((s.onBlk f).accept i)) :
    runHost i body s = .next { s with blk := f s.blk, results := s.results ++ [r] } := by
  rw [runHost_returns hi hw hbody, accept_complete, complete_of_idle (hf.trans hi)]
  rfl

/-- Settles O53: the operand is accepted, and the length of the queue decides. -/
theorem enqueueAppendsOrFails : Obligations.EnqueueAppendsOrFails := by
  intro s dg hidle hlen
  have hw : (Instr.enqueueData dg).wf s.cfg = true := decide_eq_true hlen
  refine ⟨fun hfull => ?_, fun hroom => ?_⟩
  · exact runHost_only_answers hidle hw (by simp [detTxqFull, hfull])
  · exact runHost_update (f := fun b => { b with txq := b.txq ++ [dg] }) hidle hw rfl
      (by simp [detTxqFull, hroom]; rfl)

theorem callbackOperandOk_of_fits {c : Config} {cb : Option Callback}
    (h : ∀ f, cb = some f → f.fn < 2 ^ c.cbW ∧ f.ctx < 2 ^ c.cbW) : callbackOperandOk c cb = true := by
  cases cb with
  | none => rfl
  | some f => simpa [callbackOperandOk, Callback.wf] using h f rfl

/-- Settles O54: each operation is one update of its own registration. -/
theorem registrationsAreReplaced : Obligations.RegistrationsAreReplaced := by
  intro s cb hidle hfits
  have hok := callbackOperandOk_of_fits hfits
  change execSetRxCallback cb s = _ ∧ execSetTxCallback cb s = _
  unfold execSetRxCallback execSetTxCallback
  constructor
  · exact runHost_update (f := fun b => { b with rxCb := cb }) hidle hok rfl rfl
  · exact runHost_update (f := fun b => { b with txCb := cb }) hidle hok rfl rfl

end Sys2Proof.Machine
end

section
/-! What a POLL can do at most, completed or cut short (43_event_loop.md R231 to R237, R245): the kinds of events of each
step, in order; under which conditions the TX callback is called; and how the received queue may change. -/

set_option Elab.async false

namespace Sys2Proof.Machine

open Sys2Proof

/-! ### Operations that end -/

/-- The body of POLL. -/
abbrev pollBody : Op Result := do
  pollStep1
  pollStep2
  pollStep3
  pollStep4
  pollStep5
  pollStep6
  return .ok

/-- A next state of POLL is where its body ends, returned or halted, but for the result. -/
theorem exec_poll_end {R : State → State → Prop} {s t : State} (hbody : R (s.accept .poll) (finalState (pollBody (s.accept .poll))))
    (h : exec .poll s = .next t) : ∃ u, R (s.accept .poll) u ∧ (t = u ∨ ∃ r, t = u.complete r) := by
  obtain ⟨-, ⟨hw, -⟩ | ⟨-, r, u, hu, rfl⟩ | ⟨-, e, he⟩⟩ := runHost_cases (body := pollBody) h
  · cases hw
  · rw [hu] at hbody
    exact ⟨u, hbody, .inr ⟨r, rfl⟩⟩
  · rw [he] at hbody
    exact ⟨t, hbody, .inl rfl⟩

/-! ### The events a part may add -/

/-- The kind of an event: whether it is an exchange, a TX callback, an RX callback. -/
def kindOf (e : Event) : Bool × Bool × Bool := (isXfer e, isCbTx e, isCbRx e)

/-- The kind of an exchange. -/
abbrev xferKind : Bool × Bool × Bool := (true, false, false)

/-- The kind of a TX callback. -/
abbrev cbTxKind : Bool × Bool × Bool := (false, true, false)

/-- The kind of an RX callback. -/
abbrev cbRxKind : Bool × Bool × Bool := (false, false, true)

/-- A TX callback with the tokens `f` and `x` may be called: they are registered, and TX_DS is latched. -/
abbrev State.MayCallTx (s : State) (f x : Nat) : Prop :=
  s.blk.txCb = some ⟨f, x⟩ ∧ ∃ st, s.blk.pollStatus = some st ∧ flagSet s.cfg.codes.mTxDs st = true

/-- What a part of a POLL behind its first step adds: events of the kinds `ks`, in their order, some perhaps missing; a TX
callback only where it may be called; the status latched and the TX registration stay. -/
structure PollAdds (ks : List (Bool × Bool × Bool)) (s t : State) : Prop where
  events : ∃ evs, t.trace = s.trace ++ evs ∧ (evs.map kindOf).Sublist ks ∧ ∀ f x, .cbTx f x ∈ evs → s.MayCallTx f x
  cfg : t.cfg = s.cfg
  txCb : t.blk.txCb = s.blk.txCb
  pollStatus : t.blk.pollStatus = s.blk.pollStatus

namespace PollAdds

variable {k1 k2 ks : List (Bool × Bool × Bool)} {s t u : State}

theorem trans (h : PollAdds k1 s t) (g : PollAdds k2 t u) : PollAdds (k1 ++ k2) s u := by
  obtain ⟨e1, htrace1, hkinds1, hcall1⟩ := h.events
  obtain ⟨e2, htrace2, hkinds2, hcall2⟩ := g.events
  refine ⟨⟨e1 ++ e2, by rw [htrace2, htrace1, List.append_assoc], ?_, fun f x hmem => ?_⟩, g.cfg.trans h.cfg,
    g.txCb.trans h.txCb, g.pollStatus.trans h.pollStatus⟩
  · rw [List.map_append]
    exact hkinds1.append hkinds2
  · obtain hmem | hmem := List.mem_append.1 hmem
    · exact hcall1 f x hmem
    · have hcall := hcall2 f x hmem
      rwa [State.MayCallTx, h.txCb, h.pollStatus, h.cfg] at hcall

theorem mono (h : PollAdds k1 s t) (hk : k1.Sublist k2) : PollAdds k2 s t :=
  have ⟨evs, htrace, hkinds, hcall⟩ := h.events
  ⟨⟨evs, htrace, hkinds.trans hk, hcall⟩, h.cfg, h.txCb, h.pollStatus⟩

/-- No event, whatever was allowed. -/
theorem still (htrace : t.trace = s.trace) (hcfg : t.cfg = s.cfg) (htxCb : t.blk.txCb = s.blk.txCb)
    (hstatus : t.blk.pollStatus = s.blk.pollStatus) : PollAdds ks s t :=
  ⟨⟨[], by rw [htrace, List.append_nil], List.nil_sublist _, nofun⟩, hcfg, htxCb, hstatus⟩

theorem refl : PollAdds ks s s := still rfl rfl rfl rfl

theorem takeCall (h : s.takeCall = some t) : PollAdds ks s t :=
  still (takeCall_trace h) (takeCall_cfg h) (by rw [takeCall_blk h]) (by rw [takeCall_blk h])

theorem afterXfer (tx : List Byte) (s : State) : PollAdds [xferKind] s (s.afterXfer tx) :=
  ⟨⟨[.xfer tx (answer tx s).1], by simp [State.afterXfer], .refl _, by simp⟩, by simp [State.afterXfer],
    by simp [State.afterXfer], by simp [State.afterXfer]⟩

theorem emit {e : Event} (he : ∀ f x, e = .cbTx f x → s.MayCallTx f x) : PollAdds [kindOf e] s (s.emit e) :=
  ⟨⟨[e], rfl, .refl _, fun f x hmem => he f x (List.mem_singleton.1 hmem).symm⟩, rfl, rfl, rfl⟩

end PollAdds

/-- From `s`, the part `m` adds what `PollAdds` allows, to where it returns or halts. -/
abbrev Polls (ks : List (Bool × Bool × Bool)) {α : Type} (m : Op α) (s : State) : Prop := PollAdds ks s (finalState (m s))

namespace Polls

variable {α β : Type} {k1 k2 ks : List (Bool × Bool × Bool)} {s : State}

theorem pure (a : α) : Polls ks (pure a : Op α) s := .refl

theorem bind {m : Op α} {f : α → Op β} (hm : Polls k1 m s) (hf : ∀ a t, Polls k2 (f a) t) : Polls (k1 ++ k2) (m >>= f) s := by
  unfold Polls at *
  rw [op_bind]
  cases h : m s with
  | ok a t =>
    rw [h] at hm
    exact hm.trans (hf a t)
  | error e t =>
    rw [h] at hm
    exact hm.mono (List.sublist_append_left _ _)

/-- A part without events, and what follows. -/
theorem still {m : Op α} {f : α → Op β} (hm : Polls [] m s) (hf : ∀ a t, Polls ks (f a) t) : Polls ks (m >>= f) s :=
  bind hm hf

/-- What is left after the last event. -/
theorem thenPure {m : Op α} {g : α → β} (hm : Polls ks m s) : Polls ks (m >>= fun a => (Pure.pure (g a) : Op β)) s := by
  have h := bind hm fun a t => pure (ks := []) (s := t) (g a)
  rwa [List.append_nil] at h

/-- A look at the state, and what follows in it. -/
theorem get {f : State → Op β} (h : Polls ks (f s) s) : Polls ks (get >>= f) s := by
  rwa [Polls, get_bind]

theorem modifyBlk {f : Block → Block} (s : State) (htxCb : (f s.blk).txCb = s.blk.txCb := by rfl)
    (hstatus : (f s.blk).pollStatus = s.blk.pollStatus := by rfl) : Polls [] (modifyBlk f) s := PollAdds.still rfl rfl htxCb hstatus

theorem xact (op : Byte) (data : List Byte) (s : State) : Polls [xferKind] (xact op data) s := by
  have hfill : PollAdds [] s (s.fillXbuf (op :: data)) := .still rfl rfl rfl rfl
  unfold Polls Machine.xact
  simp only
  split
  · exact hfill.mono (List.nil_sublist _)
  · next t ht => exact hfill.trans ((PollAdds.takeCall (ks := []) ht).trans (.afterXfer _ t))

theorem callAndWait {e : Event} (he : ∀ f x, e = .cbTx f x → s.MayCallTx f x) : Polls [kindOf e] (callAndWait e) s := by
  unfold Polls Machine.callAndWait
  simp only
  split
  · exact .emit he
  · next t ht => exact (PollAdds.emit he).trans (.takeCall (ks := []) ht)

theorem regWrite (a : Reg) (bs : List Byte) (s : State) : Polls [xferKind] (regWrite a bs) s :=
  still (m := getCodes) .refl fun _ _ => thenPure (xact _ _ _)

theorem command (op : Codes → Byte) (s : State) : Polls [xferKind] (command op) s :=
  still (m := getCodes) .refl fun _ _ => thenPure (xact _ _ _)

/-! ### The steps of POLL -/

theorem appendRx (dg : Datagram) (s : State) : Polls [] (appendRx dg) s := by
  unfold Polls Machine.appendRx
  split
  · exact .refl
  · exact .still rfl rfl rfl rfl

theorem pollStep2 (s : State) : Polls ([xferKind] ++ ([xferKind] ++ [xferKind])) pollStep2 s := by
  refine .get ?_
  simp only
  split
  · refine still (modifyBlk _) fun _ _ => bind (xact _ _ _) fun r _ =>
      still (modifyBlk _) fun _ _ => ?_
    split
    · exact bind (command _ _) fun _ _ => thenPure (regWrite _ _ _)
    · exact bind (xact _ _ _) fun _ _ => get (still (appendRx _ _) fun _ _ => thenPure (regWrite _ _ _))
  · exact pure _

/-- The callback of step 3 is called with TX_DS latched: a status without it, or none at all, has no such flag. -/
theorem pollStep3 (s : State) : Polls ([cbTxKind] ++ [xferKind]) pollStep3 s := by
  refine .get ?_
  simp only
  split
  · next hflag =>
    refine bind ?_ fun _ _ => thenPure (regWrite _ _ _)
    cases hcb : s.blk.txCb with
    | none => exact pure _
    | some c =>
      refine callAndWait (e := .cbTx c.fn c.ctx) fun f x he => ?_
      cases he
      refine ⟨hcb, ?_⟩
      cases hst : s.blk.pollStatus with
      | none => simp [State.latched, hst, flagSet] at hflag
      | some st => exact ⟨st, rfl, by rwa [latched_of hst] at hflag⟩
  · exact pure _

theorem pollStep4 (s : State) : Polls ([xferKind] ++ [xferKind]) pollStep4 s := by
  refine .get ?_
  simp only
  split
  · exact bind (command _ _) fun _ _ => thenPure (regWrite _ _ _)
  · exact pure _

theorem pollStep5 (s : State) : Polls [cbRxKind] pollStep5 s := by
  refine .get ?_
  split
  · exact pure _
  · next dg rest hq =>
    refine still (modifyBlk _) fun _ t => ?_
    cases s.blk.rxCb with
    | none => exact pure _
    | some c => exact callAndWait (e := .cbRx c.fn c.ctx dg) nofun

theorem pollStep6 (s : State) : Polls [xferKind] pollStep6 s := by
  refine .get ?_
  split
  · exact pure _
  · split
    · exact bind (xact _ _ _) fun _ _ => modifyBlk _
    · exact pure _

/-- What the steps behind the first may add, 9 events in all. -/
abbrev laterKinds : List (Bool × Bool × Bool) :=
  ([xferKind] ++ ([xferKind] ++ [xferKind])) ++ (([cbTxKind] ++ [xferKind]) ++ (([xferKind] ++ [xferKind])
    ++ ([cbRxKind] ++ [xferKind])))

theorem laterSteps (s : State) : Polls laterKinds (do
    Machine.pollStep2; Machine.pollStep3; Machine.pollStep4; Machine.pollStep5; Machine.pollStep6
    return Result.ok) s :=
  bind (pollStep2 _) fun _ _ => bind (pollStep3 _) fun _ _ => bind (pollStep4 _) fun _ _ => bind (pollStep5 _) fun _ _ =>
    thenPure (pollStep6 _)

end Polls

/-- No event is a TX callback where that kind may not be added. -/
theorem cbTx_not_mem_of_kinds {evs : List Event} {ks : List (Bool × Bool × Bool)} (h : (evs.map kindOf).Sublist ks)
    (hk : cbTxKind ∉ ks) (f x : Nat) : .cbTx f x ∉ evs := fun hmem =>
  hk (h.subset (List.mem_map_of_mem (f := kindOf) hmem))

/-- What the first step adds: one exchange. The status latched is the one before or a new one. -/
structure PollBegins (s t : State) : Prop where
  events : ∃ evs, t.trace = s.trace ++ evs ∧ (evs.map kindOf).Sublist [xferKind]
  cfg : t.cfg = s.cfg
  txCb : t.blk.txCb = s.blk.txCb

theorem pollStep1_begins : Keeps PollBegins pollStep1 := by
  have begins {s t : State} (h : PollAdds [xferKind] s t) : PollBegins s t :=
    have ⟨evs, htrace, hkinds, _⟩ := h.events
    ⟨⟨evs, htrace, hkinds⟩, h.cfg, h.txCb⟩
  refine Keeps.comp (R := PollAdds [xferKind]) (S := fun s t => PollBegins s t ∧ t.trace = s.trace) (Polls.command _)
    (fun st s => ⟨⟨⟨[], (List.append_nil _).symm, List.nil_sublist _⟩, rfl, rfl⟩, rfl⟩) begins fun h g => ?_
  obtain ⟨⟨-, hcfg, htxCb⟩, htrace⟩ := g
  obtain ⟨hevents, hcfg', htxCb'⟩ := begins h
  exact ⟨by rwa [htrace], hcfg.trans hcfg', htxCb.trans htxCb'⟩

/-- What a POLL adds: an exchange and what the later steps may add; a TX callback only with TX_DS in the status latched in this
POLL. -/
abbrev PollAddsInAll (s t : State) : Prop :=
  ∃ evs, t.trace = s.trace ++ evs ∧ (evs.map kindOf).Sublist (xferKind :: Polls.laterKinds)
    ∧ ∀ f x, .cbTx f x ∈ evs → s.blk.txCb = some ⟨f, x⟩
        ∧ ∃ st, t.blk.pollStatus = some st ∧ flagSet s.cfg.codes.mTxDs st = true

theorem pollBody_adds : Keeps PollAddsInAll pollBody := by
  refine pollStep1_begins.comp (S := PollAdds Polls.laterKinds) (fun _ => Polls.laterSteps) (fun h => ?_) fun h g => ?_
  · obtain ⟨evs, htrace, hkinds⟩ := h.events
    exact ⟨evs, htrace, hkinds.trans (by decide), fun f x hmem => absurd hmem (cbTx_not_mem_of_kinds hkinds (by decide) f x)⟩
  · obtain ⟨e1, htrace1, hkinds1⟩ := h.events
    obtain ⟨e2, htrace2, hkinds2, hcall⟩ := g.events
    refine ⟨e1 ++ e2, by rw [htrace2, htrace1, List.append_assoc], ?_, fun f x hmem => ?_⟩
    · rw [List.map_append]
      exact hkinds1.append hkinds2
    · have hmem2 := (List.mem_append.1 hmem).resolve_left (cbTx_not_mem_of_kinds hkinds1 (by decide) f x)
      obtain ⟨htxCb, hlatched⟩ := hcall f x hmem2
      rw [← g.pollStatus, h.cfg] at hlatched
      exact ⟨h.txCb ▸ htxCb, hlatched⟩

/-- Settles O52: a TX callback is added by step 3 alone, which tests the status latched in step 1. -/
theorem txCallbackOnlyAfterASend : Obligations.TxCallbackOnlyAfterASend := by
  intro s t h
  obtain ⟨u, ⟨evs, htrace, -, hcall⟩, rfl | ⟨r, rfl⟩⟩ := exec_poll_end (pollBody_adds _) h
  · exact ⟨evs, htrace, hcall⟩
  · exact ⟨evs, htrace, hcall⟩

/-! ### The received queue -/

/-- The received queues before and after a part are related by `P`. -/
abbrev RelatesRxq (P : List Datagram → List Datagram → Prop) {α : Type} (m : Op α) : Prop :=
  Keeps (fun s t => P s.blk.rxq t.blk.rxq) m

/-- A part that leaves the received queue, and what follows. -/
theorem rxq_afterSame {P : List Datagram → List Datagram → Prop} (hrefl : ∀ q, P q q) {α β : Type} {m : Op α}
    {g : α → Op β} (hm : Keeps (SameBy Block.rxq) m) (hg : ∀ a, RelatesRxq P (g a)) : RelatesRxq P (m >>= g) :=
  hm.comp hg (fun h => by rw [h]; exact hrefl _) fun h1 h2 => by rwa [h1] at h2

/-- A part, and what follows and leaves the received queue. -/
theorem rxq_thenSame {P : List Datagram → List Datagram → Prop} {α β : Type} {m : Op α} {g : α → Op β}
    (hm : RelatesRxq P m) (hg : ∀ a, Keeps (SameBy Block.rxq) (g a)) : RelatesRxq P (m >>= g) :=
  hm.comp hg id fun h1 h2 => by rwa [h2]

/-- At most one datagram has been added, at the tail. -/
abbrev TakenIn (q q' : List Datagram) : Prop := q' = q ∨ ∃ d, q' = q ++ [d]

/-- At most one datagram has left, at the head. -/
abbrev HandedOut (q q' : List Datagram) : Prop := q' = q ∨ q' = q.tail

/-- At most one datagram has been added at the tail, and then at most one has left at the head. -/
abbrev TakenInHandedOut (q q' : List Datagram) : Prop :=
  q' = q ∨ q' = q.tail ∨ ∃ d, q' = q ++ [d] ∨ q' = (q ++ [d]).tail

/-- Step 2 takes in at most one datagram (43_event_loop.md R233). -/
theorem pollStep2_takesIn : RelatesRxq TakenIn pollStep2 := by
  have hrefl (q : List Datagram) : TakenIn q q := .inl rfl
  have happend (dg : Datagram) : RelatesRxq TakenIn (appendRx dg) := by
    intro s
    unfold appendRx
    split
    · exact .inl rfl
    · exact .inr ⟨dg, rfl⟩
  have hwrite {a : Reg} {bs : List Byte} : Keeps (SameBy Block.rxq) (do let _ ← regWrite a bs) :=
    .bindSame (apart_rxq.regWrite _ _) fun _ _ => rfl
  refine rxq_afterSame hrefl (fun _ => rfl) fun s => .ite ?_ fun _ => hrefl _
  refine rxq_afterSame hrefl (fun _ => rfl) fun _ => rxq_afterSame hrefl (apart_rxq.xact _ _) fun w =>
    rxq_afterSame hrefl (fun _ => rfl) fun _ => .ite ?_ ?_
  · exact rxq_afterSame hrefl (apart_rxq.command _) fun _ s => .inl (hwrite s)
  · exact rxq_afterSame hrefl (apart_rxq.xact _ _) fun _ => rxq_afterSame hrefl (fun _ => rfl) fun _ =>
      rxq_thenSame (happend _) fun _ => hwrite

/-- The steps behind step 2 hand out at most one datagram (43_event_loop.md R236). -/
theorem laterSteps_handOut : RelatesRxq HandedOut (do
    pollStep3; pollStep4; pollStep5; pollStep6
    return Result.ok) := by
  have hdeliver : RelatesRxq HandedOut pollStep5 := fun s => .inr (pollStep5_rxq s)
  refine rxq_afterSame (fun _ => .inl rfl) apart_rxq.pollStep3 fun _ =>
    rxq_afterSame (fun _ => .inl rfl) apart_rxq.pollStep4 fun _ => rxq_thenSame hdeliver fun _ => ?_
  exact .bindSame pollStep6_rxq fun _ _ => rfl

theorem pollBody_rxq : RelatesRxq TakenInHandedOut pollBody := by
  refine rxq_afterSame (fun _ => .inl rfl) (apart_rxq.pollStep1 fun _ _ => rfl) fun _ =>
    pollStep2_takesIn.comp (fun _ => laterSteps_handOut) (fun h => ?_) fun h1 h2 => ?_
  · exact h.imp_right fun ⟨d, hd⟩ => .inr ⟨d, .inl hd⟩
  · obtain h1 | ⟨d, h1⟩ := h1
    · rw [h1] at h2
      exact h2.imp_right .inl
    · rw [h1] at h2
      exact .inr (.inr ⟨d, h2⟩)

/-- Events are no more than the kinds allow, of any sort. -/
theorem filter_length_le_of_kinds {evs : List Event} {ks : List (Bool × Bool × Bool)} (h : (evs.map kindOf).Sublist ks)
    (p : Bool × Bool × Bool → Bool) : (evs.filter (p ∘ kindOf)).length ≤ (ks.filter p).length := by
  have hle := (h.filter p).length_le
  rwa [List.filter_map, List.length_map] at hle

/-- Settles O51: the bounds are those of the kinds a POLL may add; the queues change by one datagram each. -/
theorem pollIsBounded : Obligations.PollIsBounded := by
  intro s t h
  obtain ⟨u, ⟨⟨evs, htrace, hkinds, -⟩, hrxq⟩, hend⟩ :=
    exec_poll_end (R := fun s t => PollAddsInAll s t ∧ TakenInHandedOut s.blk.rxq t.blk.rxq) ⟨pollBody_adds _, pollBody_rxq _⟩ h
  have htxq : t.blk.txq = s.blk.txq ∨ t.blk.txq = s.blk.txq.tail := by
    obtain htxq | ⟨-, htxq⟩ | ⟨dg, hdg, -⟩ := exec_txq h
    · exact .inl htxq
    · exact .inr htxq
    · cases hdg
  have hxfer : (evs.filter isXfer).length ≤ 8 := filter_length_le_of_kinds hkinds (·.1)
  have hcbTx : (evs.filter isCbTx).length ≤ 1 := filter_length_le_of_kinds hkinds (·.2.1)
  have hcbRx : (evs.filter isCbRx).length ≤ 1 := filter_length_le_of_kinds hkinds (·.2.2)
  have hall : evs.length ≤ 10 := by simpa using hkinds.length_le
  obtain rfl | ⟨r, rfl⟩ := hend
  · exact ⟨evs, htrace, hxfer, hcbTx, hcbRx, hall, hrxq, htxq⟩
  · exact ⟨evs, htrace, hxfer, hcbTx, hcbRx, hall, hrxq, htxq⟩

end Sys2Proof.Machine
end

section
/-! INIT (43_event_loop.md R230): an RMW of FEATURE, then the flags cleared and both FIFOs flushed, in a peer that keeps the
contract. -/

set_option Elab.async false

namespace Sys2Proof.Machine

open Sys2Proof

/-! ### One command of a peer that keeps the contract -/

section
variable {s : State}

/-- The transaction of a command does to the peer, as it finds it, what the peer's rule says. -/
theorem xacted_command_peer (hl : s.PeerKeepsContract) (hc : s.cfg.codes = Codes.standard) (cmd : WireCmd) (data : List Byte) :
    (s.xacted (s.cfg.codes.opcodeOf cmd) data).peer
      = (applyCmd s.env.level s.cfg (2 * s.env.ctr + 1) s.peerNow (statusByte s.cfg s.peerNow) cmd data).1 := by
  rw [xacted_peer_contract _ _ hl, hc, peerXfer_command hc]

/-- The transaction of a command is answered with the status from before it and the bytes the peer's rule drives. -/
theorem reply_command (hl : s.PeerKeepsContract) (hc : s.cfg.codes = Codes.standard) (cmd : WireCmd) (data : List Byte) :
    s.reply (s.cfg.codes.opcodeOf cmd) data = statusByte s.cfg s.peerNow :: fitBytes s.env.level (2 * s.env.ctr + 1) data.length
      (applyCmd s.env.level s.cfg (2 * s.env.ctr + 1) s.peerNow (statusByte s.cfg s.peerNow) cmd data).2 := by
  rw [reply_contract _ _ hl, hc, peerXfer_command hc]

theorem State.Steady.xacted (h : s.Steady) (op : Byte) (data : List Byte) : (s.xacted op data).Steady :=
  State.Steady.afterXfer (s := s.fillXbuf (op :: data)) h _

/-- A transaction that leaves the register space as it finds it leaves every cell, OBSERVE_TX apart. -/
theorem xacted_cell_of_mem (hp : s.KeepsPower) {op : Byte} {data : List Byte} (hmem : (s.xacted op data).peer.mem = s.peerNow.mem)
    {k : Nat} (hk : k ≠ s.observeCell) : (s.xacted op data).cell k = s.cell k := by
  rw [State.cell, hmem, xacted_cfg]
  exact hp.peerNow_cells hk

end

/-! ### The flags cleared, the FIFOs flushed -/

/-- The state after a write to STATUS (20_memory.md R66). -/
def State.flagsCleared (m : Byte) (s : State) : State :=
  s.xacted (opWithReg s.cfg.codes.opcWRegister s.cfg.codes.regStatus) [m]

/-- The state after a command without data. -/
def State.commanded (op : Codes → Byte) (s : State) : State := s.xacted (op s.cfg.codes) []

/-- The state after a write to STATUS, FLUSH_RX and FLUSH_TX. -/
def State.flushed (m : Byte) (s : State) : State :=
  ((s.flagsCleared m).commanded (·.opcFlushRx)).commanded (·.opcFlushTx)

section
variable {s : State} (m : Byte)

theorem ran_flagsCleared (s : State) :
    ∃ evs, Ran s (s.flagsCleared m) evs ∧ WritesReg s.cfg.codes s.cfg.codes.regStatus [m] evs :=
  ⟨_, ran_xacted _ _ _, sends_xacted _ _ _⟩

theorem ran_commanded (op : Codes → Byte) (s : State) :
    ∃ evs, Ran s (s.commanded op) evs ∧ Commands (op s.cfg.codes) evs :=
  ⟨_, ran_xacted _ _ _, commands_xacted _ _⟩

/-- The three transactions, whatever is answered. -/
theorem ran_flushed (s : State) : ∃ e1 e2 e3, Ran s (s.flushed m) (e1 ++ e2 ++ e3)
    ∧ WritesReg s.cfg.codes s.cfg.codes.regStatus [m] e1 ∧ Commands s.cfg.codes.opcFlushRx e2
    ∧ Commands s.cfg.codes.opcFlushTx e3 := by
  obtain ⟨e1, h1, hwrite⟩ := ran_flagsCleared m s
  obtain ⟨e2, h2, hflushRx⟩ := ran_commanded (·.opcFlushRx) (s.flagsCleared m)
  obtain ⟨e3, h3, hflushTx⟩ := ran_commanded (·.opcFlushTx) ((s.flagsCleared m).commanded (·.opcFlushRx))
  rw [h1.cfg] at hflushRx
  rw [h2.cfg, h1.cfg] at hflushTx
  exact ⟨e1, e2, e3, (h1.trans h2).trans h3, hwrite, hflushRx, hflushTx⟩

theorem flagsCleared_peer (hl : s.PeerKeepsContract) (hc : s.cfg.codes = Codes.standard) :
    (s.flagsCleared m).peer = clearFlags s.cfg.codes m s.peerNow := State.FaithfulPeer.status_peer hc hl m

theorem flushRx_peer (hl : s.PeerKeepsContract) (hc : s.cfg.codes = Codes.standard) :
    (s.commanded (·.opcFlushRx)).peer = { s.peerNow with rxf := [] } := xacted_command_peer hl hc .flushRx []

theorem flushTx_peer (hl : s.PeerKeepsContract) (hc : s.cfg.codes = Codes.standard) :
    (s.commanded (·.opcFlushTx)).peer = { s.peerNow with txf := [], txReuse := false } := xacted_command_peer hl hc .flushTx []

/-- The three transactions leave every cell, OBSERVE_TX apart, and the TX FIFO empty. -/
theorem State.Steady.flushed (h : s.Steady) :
    (∀ k, k ≠ s.observeCell → (s.flushed m).cell k = s.cell k) ∧ (s.flushed m).peer.txf = [] := by
  have h1 : (s.flagsCleared m).Steady := h.xacted _ _
  have h2 : ((s.flagsCleared m).commanded (·.opcFlushRx)).Steady := h1.xacted _ _
  have p1 := flagsCleared_peer m h.1.2.1 h.1.1
  have p2 := flushRx_peer h1.1.2.1 h1.1.1
  have p3 := flushTx_peer h2.1.2.1 h2.1.1
  have hcfg1 : (s.flagsCleared m).cfg = s.cfg := xacted_cfg _ _ _
  have hcfg2 : ((s.flagsCleared m).commanded (·.opcFlushRx)).cfg = s.cfg := (xacted_cfg _ _ _).trans hcfg1
  refine ⟨fun k hk => ?_, congrArg Peer.txf p3⟩
  calc (s.flushed m).cell k
      = ((s.flagsCleared m).commanded (·.opcFlushRx)).cell k :=
        xacted_cell_of_mem h2.2 (congrArg Peer.mem p3 :) (by rwa [State.observeCell, hcfg2])
    _ = (s.flagsCleared m).cell k := xacted_cell_of_mem h1.2 (congrArg Peer.mem p2 :) (by rwa [State.observeCell, hcfg1])
    _ = s.cell k := xacted_cell_of_mem h.2 (congrArg Peer.mem p1 :) hk

/-- With a quiet radio the three transactions do nothing else. -/
theorem State.Steady.flushed_quiet (h : s.Steady) (hq : s.RadioQuiet) :
    (s.flushed m).peer = { clearFlags s.cfg.codes m s.peer with rxf := [], txf := [], txReuse := false } := by
  have h1 : (s.flagsCleared m).Steady := h.xacted _ _
  have h2 : ((s.flagsCleared m).commanded (·.opcFlushRx)).Steady := h1.xacted _ _
  have q1 : (s.flagsCleared m).RadioQuiet := xacted_radioQuiet _ _ hq
  have q2 : ((s.flagsCleared m).commanded (·.opcFlushRx)).RadioQuiet := xacted_radioQuiet _ _ q1
  rw [State.flushed, flushTx_peer h2.1.2.1 h2.1.1, q2.peerNow, flushRx_peer h1.1.2.1 h1.1.1, q1.peerNow,
    flagsCleared_peer m h.1.2.1 h.1.1, hq.peerNow]

theorem flushed_any (h : s.env.level = .any) : (s.flushed m).peer = s.peer := by
  simp only [State.flushed, State.commanded, State.flagsCleared, xacted_peer]
  rw [answer_any_peer, xacted_peer, answer_any_peer, xacted_peer, answer_any_peer h]
  all_goals simp only [xacted_level, h]

end

/-! ### INIT -/

/-- The state after the RMW of FEATURE. -/
def State.featureSet (s : State) : State :=
  s.rmwed s.cfg.codes.regFeature (s.cfg.codes.mEnDynAck ||| s.cfg.codes.mEnAckPay) s.cfg.codes.mEnDpl

/-- The state after the five transactions of INIT. -/
def State.inited (s : State) : State :=
  s.featureSet.flushed (s.cfg.codes.mRxDr ||| s.cfg.codes.mTxDs ||| s.cfg.codes.mMaxRt)

/-- INIT in a ready block. -/
theorem exec_init {s : State} (h : s.Ready) : exec .init s = .next ((s.accept .init).inited.complete .ok) := by
  have h0 : (s.accept .init).env.allow = none := h.2
  have h1 {a : Reg} {clr ones : Byte} : ((s.accept .init).rmwed a clr ones).env.allow = none := (rmwed_allow _ _ _ _).trans h0
  have hnext {u : State} (hu : u.env.allow = none) {op : Byte} {data : List Byte} : (u.xacted op data).env.allow = none :=
    (xacted_allow op data u).trans hu
  refine runHost_returns h.1 rfl ?_
  simp only [op_bind, getCodes_eq, rmw_returns h0, regWrite_returns h1, command_returns (hnext h1),
    command_returns (hnext (hnext h1)), op_pure]
  simp only [State.inited, State.featureSet, State.flushed, State.commanded, State.flagsCleared, xacted_cfg, rmwed_cfg]

section
variable {s : State}

theorem ran_inited (s : State) : ∃ e1 e2 e3 e4, Ran s s.inited (e1 ++ e2 ++ e3 ++ e4)
    ∧ RmwEvents s.cfg.codes s.cfg.codes.regFeature (s.rmwRead s.cfg.codes.regFeature)
        (s.cfg.codes.mEnDynAck ||| s.cfg.codes.mEnAckPay) s.cfg.codes.mEnDpl e1
    ∧ WritesReg s.cfg.codes s.cfg.codes.regStatus [s.cfg.codes.mRxDr ||| s.cfg.codes.mTxDs ||| s.cfg.codes.mMaxRt] e2
    ∧ Commands s.cfg.codes.opcFlushRx e3 ∧ Commands s.cfg.codes.opcFlushTx e4 := by
  have hran : Ran s s.featureSet _ := ran_rmwed s _ _ _
  obtain ⟨e2, e3, e4, hflush, hwrite, hflushRx, hflushTx⟩ := ran_flushed _ s.featureSet
  rw [hran.cfg] at hwrite hflushRx hflushTx
  refine ⟨_, e2, e3, e4, ?_, rmwEvents_spec _ _ _ _, hwrite, hflushRx, hflushTx⟩
  rw [List.append_assoc, List.append_assoc, ← List.append_assoc e2]
  exact hran.trans hflush

theorem inited_block (s : State) : KeepsMode s s.inited ∧ KeepsQueues s s.inited
    ∧ s.inited.blk.vTmp = [s.rmwRead s.cfg.codes.regFeature] := by
  simp [KeepsMode, KeepsQueues, State.inited, State.featureSet, State.flushed, State.commanded, State.flagsCleared]

/-- The RMW of FEATURE, in the terms of Safety. -/
theorem featureSet_updates (s : State) : UpdatesReg s s.featureSet s.cfg.codes.regFeature
    (s.cfg.codes.mEnDynAck ||| s.cfg.codes.mEnAckPay) s.cfg.codes.mEnDpl (s.rmwEvents s.cfg.codes.regFeature
      (s.cfg.codes.mEnDynAck ||| s.cfg.codes.mEnAckPay) s.cfg.codes.mEnDpl) :=
  rmwed_updates (fun hc => by rw [hc]; decide) rfl (rmwed_cfg _ _ _ _) (rmwed_vTmp _ _ _ _)

theorem State.Steady.featureSet (h : s.Steady) : s.featureSet.Steady :=
  ⟨rmwed_faithful h.1 h.2 (by rw [h.1.1]; decide) (by rw [h.1.1]; decide), rmwed_keepsPower h.2⟩

/-- FEATURE takes its bits, every other cell stays, and the TX FIFO is empty. -/
theorem State.Steady.inited (h : s.Steady) : s.inited.regByte 0x1D = (s.regByte 0x1D &&& 0xFC) ||| 0x04
    ∧ KeepsCellsBut s s.inited (· = regCell 0x1D) ∧ s.inited.peer.txf = [] := by
  obtain ⟨-, hcells, -⟩ := featureSet_updates s
  obtain ⟨hfeature, hothers⟩ := hcells h.1 h.2
  obtain ⟨hkept, htxf⟩ := h.featureSet.flushed (s.cfg.codes.mRxDr ||| s.cfg.codes.mTxDs ||| s.cfg.codes.mMaxRt)
  have hobserve : s.featureSet.observeCell = s.observeCell := by rw [State.observeCell, State.featureSet, rmwed_cfg]
  rw [hobserve] at hkept
  rw [h.1.1] at hfeature hothers
  refine ⟨(hkept _ ?_).trans hfeature, fun k hk1 hk2 => (hkept k hk2).trans (hothers k hk1 hk2), htxf⟩
  rw [State.observeCell, h.1.1]
  decide

/-- A write of all three flags clears them (20_memory.md R66). -/
theorem clearFlags_all {c : Codes} (hc : c = Codes.standard) (p : Peer) :
    clearFlags c (c.mRxDr ||| c.mTxDs ||| c.mMaxRt) p = { p with rxDr := false, txDs := false, maxRt := false } := by
  have hset : ∀ m ∈ [c.mRxDr, c.mTxDs, c.mMaxRt], flagSet m (c.mRxDr ||| c.mTxDs ||| c.mMaxRt) = true := by
    subst hc
    decide
  simp only [List.forall_mem_cons] at hset
  obtain ⟨hrxDr, htxDs, hmaxRt, -⟩ := hset
  simp only [clearFlags, hrxDr, htxDs, hmaxRt, Bool.not_true, Bool.and_false]

/-- With a quiet radio OBSERVE_TX stays, the flags are clear, both FIFOs empty and no reuse in force. -/
theorem State.Steady.inited_quiet (h : s.Steady) (hq : s.RadioQuiet) : s.inited.cell s.observeCell = s.cell s.observeCell
    ∧ s.inited.peer.rxDr = false ∧ s.inited.peer.txDs = false ∧ s.inited.peer.maxRt = false ∧ s.inited.peer.rxf = []
    ∧ s.inited.peer.txReuse = false := by
  obtain ⟨-, -, hquiet, -⟩ := featureSet_updates s
  obtain ⟨hobserve, -⟩ := hquiet h.1 hq
  have hcodes : s.featureSet.cfg.codes = s.cfg.codes := by rw [State.featureSet, rmwed_cfg]
  have hpeer := h.featureSet.flushed_quiet (s.cfg.codes.mRxDr ||| s.cfg.codes.mTxDs ||| s.cfg.codes.mMaxRt)
    (rmwed_radioQuiet hq)
  rw [← State.inited, hcodes, clearFlags_all h.1.1] at hpeer
  have hcfg : s.inited.cfg = s.featureSet.cfg := by
    simp only [State.inited, State.flushed, State.commanded, State.flagsCleared, xacted_cfg]
  rw [State.cell, hpeer, hcfg]
  exact ⟨hobserve, rfl, rfl, rfl, rfl, rfl⟩

theorem inited_any (h : s.env.level = .any) : s.inited.peer = s.peer := by
  rw [State.inited, flushed_any]
  · exact rmwed_any_peer h
  · exact (rmwed_level _ _ _ _).trans h

end

/-- Settles O47: FEATURE is updated by an RMW, and the three transactions behind it leave every cell. -/
theorem initPreparesThePeer : Obligations.InitPreparesThePeer := by
  intro s h
  obtain ⟨e1, e2, e3, e4, hran, he1, he2, he3, he4⟩ := ran_inited (s.accept .init)
  obtain ⟨hmode, hqueues, hvTmp⟩ := inited_block (s.accept .init)
  refine ⟨_, _, e1, e2, e3, e4, exec_init h, hran.done, hmode, hqueues, hvTmp, he1, he2, he3, he4, fun hf hp => ?_,
    fun hf hq => ?_, fun hany => ?_⟩
  · exact State.Steady.inited (s := s.accept .init) ⟨hf, hp⟩
  · exact State.Steady.inited_quiet (s := s.accept .init) ⟨hf, hq.keepsPower⟩ hq
  · exact inited_any (s := s.accept .init) hany

end Sys2Proof.Machine
end

section
/-! POLL where every interface call returns (43_event_loop.md R231 to R238): the state after each step, the events the step
adds, and what it writes of the block, for any peer. -/

set_option Elab.async false

namespace Sys2Proof.Machine

open Sys2Proof

/-! ### Progress along an operation -/

/-- The block outside what every interface event writes: the buffer, the status latch and the sequencer. -/
def Block.core (b : Block) : Block := { b with xbuf := Vector.replicate 33 0, lastStatus := none, seq := .idle }

/-- `t` is `s` after the events `evs`, with the update `f` of the block; an L0 peer stays as it is, and a quiet radio stays
quiet. -/
structure Progress (s t : State) (evs : List Event) (f : Block → Block) : Prop where
  ran : Ran s t evs
  core : t.blk.core = f s.blk.core
  any : s.env.level = .any → t.peer = s.peer
  quiet : s.RadioQuiet → t.RadioQuiet

namespace Progress

variable {s t u : State} {e1 e2 evs : List Event} {f g : Block → Block}

theorem refl (s : State) : Progress s s [] id := ⟨.refl s, rfl, fun _ => rfl, id⟩

theorem trans (h : Progress s t e1 f) (k : Progress t u e2 g) : Progress s u (e1 ++ e2) (g ∘ f) where
  ran := h.ran.trans k.ran
  core := by rw [k.core, h.core, Function.comp]
  any hany := (k.any (h.ran.level.trans hany)).trans (h.any hany)
  quiet hq := k.quiet (h.quiet hq)

theorem xacted (s : State) (op : Byte) (data : List Byte) :
    Progress s (s.xacted op data) [.xfer (op :: data) (s.reply op data)] id where
  ran := ran_xacted s op data
  core := by simp [Block.core]
  any hany := (xacted_peer op data s).trans (answer_any_peer hany _)
  quiet := xacted_radioQuiet op data

theorem emit (s : State) {e : Event} (he : isXfer e = false) : Progress s (s.emit e) [e] id :=
  ⟨ran_emit s he, rfl, fun _ => rfl, id⟩

/-- An update of the block that leaves what the events write. -/
theorem onBlk (s : State) (hcore : (f s.blk).core = f s.blk.core) (hlast : (f s.blk).lastStatus = s.blk.lastStatus)
    (hbuf : (f s.blk).xbuf = s.blk.xbuf) : Progress s (s.onBlk f) [] f :=
  ⟨ran_onBlk s hlast hbuf, hcore, fun _ => rfl, id⟩

/-- An event, and an update behind it that is no event. -/
theorem andUpdate (h : Progress s t evs id) (k : Progress t u [] f) : Progress s u evs f := by
  have hall := h.trans k
  rwa [List.append_nil] at hall

/-- Another update that does the same here. -/
theorem congr (h : Progress s t evs f) (hfg : f s.blk.core = g s.blk.core) : Progress s t evs g :=
  ⟨h.ran, h.core.trans hfg, h.any, h.quiet⟩

/-- What the update leaves of the block. -/
theorem field {α : Type} (h : Progress s t evs f) (see : Block → α) (hsee : ∀ b, see b.core = see b) :
    see t.blk = see (f s.blk.core) := by rw [← hsee, h.core]

theorem flagsCleared (m : Byte) (s : State) :
    ∃ evs, Progress s (s.flagsCleared m) evs id ∧ WritesReg s.cfg.codes s.cfg.codes.regStatus [m] evs :=
  ⟨_, xacted s _ _, sends_xacted _ _ _⟩

theorem commanded (op : Codes → Byte) (s : State) :
    ∃ evs, Progress s (s.commanded op) evs id ∧ Commands (op s.cfg.codes) evs :=
  ⟨_, xacted s _ _, commands_xacted _ _⟩

end Progress

/-- A part that returns, and what follows. -/
theorem bind_returns {α β : Type} {m : Op α} {f : α → Op β} {s t : State} {a : α} (h : m s = .ok a t) : (m >>= f) s = f a t := by
  rw [op_bind, h]

/-- The write-back of a flag, under the codes read before it. -/
theorem writeBack_returns {s : State} {c : Codes} (h : s.env.allow = none) (hc : s.cfg.codes = c) (m : Byte) :
    (do let _ ← regWrite c.regStatus [m] : Op Unit) s = .ok () (s.flagsCleared m) := by
  subst hc
  exact bind_returns (regWrite_returns h _ _)

/-! ### Step 1 (R232) -/

/-- The status byte read by NOP. -/
def State.statusRead (s : State) : Byte := byteAt (s.reply s.cfg.codes.opcNop []) 0

/-- The state after step 1. -/
def State.statusLatched (s : State) : State :=
  (s.xacted s.cfg.codes.opcNop []).onBlk fun b => { b with pollStatus := some s.statusRead }

section
variable {s : State}

theorem pollStep1_returns (h : s.env.allow = none) : pollStep1 s = .ok () s.statusLatched := by
  simp only [pollStep1, op_bind, command_returns h, modifyBlk_eq]
  rfl

theorem latched_statusLatched (s : State) : s.statusLatched.latched = s.statusRead := rfl

theorem statusLatched_progress (s : State) : Progress s s.statusLatched [.xfer [s.cfg.codes.opcNop] [s.statusRead]]
    fun b => { b with pollStatus := some s.statusRead } := by
  have hreply : s.reply s.cfg.codes.opcNop [] = [s.statusRead] := by
    obtain ⟨st, hst⟩ := List.length_eq_one_iff.1 (reply_length s.cfg.codes.opcNop [] s)
    rw [State.statusRead, hst]
    rfl
  have hxfer := Progress.xacted s s.cfg.codes.opcNop []
  rw [hreply] at hxfer
  exact hxfer.andUpdate (.onBlk _ rfl rfl rfl)

end

/-! ### Step 2 (R233) -/

/-- The state after the pipe has been latched. -/
def State.pipeLatched (s : State) : State := s.onBlk fun b => { b with pLat := rxPNo s.cfg.codes s.latched }

/-- The width read of the payload at the head of the RX FIFO. -/
def State.widthRead (s : State) : Byte := byteAt (s.pipeLatched.reply s.cfg.codes.opcRRxPlWid [fill]).tail 0

/-- The state after the width has been latched. -/
def State.widthLatched (s : State) : State :=
  (s.pipeLatched.xacted s.cfg.codes.opcRRxPlWid [fill]).onBlk fun b => { b with wLat := s.widthRead }

/-- The bytes a payload read of width `w` gives. -/
def State.payloadRead (w : Byte) (s : State) : List Byte :=
  (s.reply s.cfg.codes.opcRRxPayload (List.replicate w.toNat fill)).tail

/-- The state after a payload of width `w` has been read and appended to the received queue. -/
def State.payloadTaken (w : Byte) (s : State) : State :=
  (s.xacted s.cfg.codes.opcRRxPayload (List.replicate w.toNat fill)).onBlk fun b =>
    { b with rxq := queueAfterRx s.cfg.rxqCap b.rxq (some ⟨s.blk.pLat, s.payloadRead w⟩) }

/-- The state after a payload of width `w` has been taken in, or the RX FIFO flushed. -/
def State.payloadServed (w : Byte) (s : State) : State :=
  if detRxOversize w then s.commanded (·.opcFlushRx) else s.payloadTaken w

/-- The state after step 2. -/
def State.rxServed (s : State) : State :=
  if flagSet s.cfg.codes.mRxDr s.latched then
    (s.widthLatched.payloadServed s.widthRead).flagsCleared s.cfg.codes.mRxDr
  else s

/-- The datagram step 2 takes in, if any. -/
def State.received (s : State) : Option Datagram :=
  if flagSet s.cfg.codes.mRxDr s.latched ∧ ¬ 32 < s.widthRead.toNat then
    some ⟨rxPNo s.cfg.codes s.latched, s.widthLatched.payloadRead s.widthRead⟩
  else none

section
variable {s : State}

theorem appendRx_returns (dg : Datagram) (s : State) : appendRx dg s
    = .ok () (s.onBlk fun b => { b with rxq := queueAfterRx s.cfg.rxqCap b.rxq (some dg) }) := by
  simp only [appendRx, detRxqFull, queueAfterRx, State.onBlk]
  by_cases hroom : s.blk.rxq.length < s.cfg.rxqCap <;> simp [hroom]

theorem detRxOversize_iff (w : Byte) : detRxOversize w = true ↔ 32 < w.toNat := decide_eq_true_iff

theorem widthLatched_allow (s : State) : s.widthLatched.env.allow = s.env.allow := xacted_allow _ _ _

theorem widthLatched_cfg (s : State) : s.widthLatched.cfg = s.cfg := xacted_cfg _ _ _

theorem payloadTaken_returns {c : Codes} (h : s.env.allow = none) (hc : s.cfg.codes = c) (w : Byte) {f : Op Unit} : (do
      let (_, bs) ← xact c.opcRRxPayload (List.replicate w.toNat fill)
      let t ← get
      appendRx ⟨t.blk.pLat, bs⟩
      f) s = f (s.payloadTaken w) := by
  subst hc
  simp only [op_bind, xact_returns h, op_get, appendRx_returns, xacted_pLat, xacted_cfg]
  rfl

theorem payloadTaken_allow (w : Byte) (s : State) : (s.payloadTaken w).env.allow = s.env.allow := xacted_allow _ _ _

theorem payloadTaken_cfg (w : Byte) (s : State) : (s.payloadTaken w).cfg = s.cfg := xacted_cfg _ _ _

theorem pollStep2_returns (h : s.env.allow = none) : pollStep2 s = .ok () s.rxServed := by
  have hpipe : s.pipeLatched.env.allow = none := h
  have hwidth : s.widthLatched.env.allow = none := (widthLatched_allow s).trans h
  have hcfg := widthLatched_cfg s
  rw [pollStep2, get_bind, State.rxServed]
  by_cases hflag : flagSet s.cfg.codes.mRxDr s.latched = true
  · simp only [hflag, if_true]
    refine (bind_returns (t := s.pipeLatched) rfl).trans ((bind_returns (xact_returns hpipe _ _)).trans
      ((bind_returns (t := s.widthLatched) rfl).trans ?_))
    change (if detRxOversize s.widthRead = true then (_ : Op Unit) else _) s.widthLatched = _
    rw [State.payloadServed]
    by_cases hover : detRxOversize s.widthRead = true
    · simp only [hover, if_true]
      refine (bind_returns (command_returns hwidth _)).trans (writeBack_returns ((xacted_allow _ _ _).trans hwidth) ?_ _)
      rw [xacted_cfg, hcfg]
    · simp only [hover]
      have hcodes : s.widthLatched.cfg.codes = s.cfg.codes := congrArg Config.codes hcfg
      refine (payloadTaken_returns hwidth hcodes _).trans (writeBack_returns ?_ ?_ _)
      · rw [payloadTaken_allow, hwidth]
      · rw [payloadTaken_cfg, hcodes]
  · simp only [hflag]
    rfl

theorem payloadTaken_progress (w : Byte) (s : State) : ∃ st, Progress s (s.payloadTaken w)
    [.xfer (s.cfg.codes.opcRRxPayload :: List.replicate w.toNat fill) (st :: s.payloadRead w)]
    fun b => { b with rxq := queueAfterRx s.cfg.rxqCap b.rxq (some ⟨s.blk.pLat, s.payloadRead w⟩) } := by
  have hxfer := Progress.xacted s s.cfg.codes.opcRRxPayload (List.replicate w.toNat fill)
  rw [reply_eq_cons] at hxfer
  exact ⟨_, hxfer.andUpdate (.onBlk _ rfl rfl rfl)⟩

/-- The pipe and the width are latched, the width read in one exchange. -/
theorem widthLatched_progress (s : State) : ∃ st, Progress s s.widthLatched
    [.xfer [s.cfg.codes.opcRRxPlWid, fill] [st, s.widthRead]]
    fun b => { b with pLat := rxPNo s.cfg.codes s.latched, wLat := s.widthRead } := by
  have hpipe : Progress s s.pipeLatched [] fun b => { b with pLat := rxPNo s.cfg.codes s.latched } := .onBlk s rfl rfl rfl
  have hxfer := Progress.xacted s.pipeLatched s.cfg.codes.opcRRxPlWid [fill]
  rw [reply_one] at hxfer
  exact ⟨_, hpipe.trans (hxfer.andUpdate (.onBlk (f := fun b => { b with wLat := s.widthRead }) _ rfl rfl rfl))⟩

theorem widthLatched_pLat (s : State) : s.widthLatched.blk.pLat = rxPNo s.cfg.codes s.latched := xacted_pLat _ _ _

/-- What step 2 writes of the block, with the datagram taken in. -/
abbrev rxUpdate (s : State) (b : Block) : Block :=
  { b with
    pLat := if flagSet s.cfg.codes.mRxDr s.latched then rxPNo s.cfg.codes s.latched else b.pLat
    wLat := if flagSet s.cfg.codes.mRxDr s.latched then s.widthRead else b.wLat
    rxq := queueAfterRx s.cfg.rxqCap b.rxq s.received }

theorem received_of_flag (hflag : flagSet s.cfg.codes.mRxDr s.latched = true) : s.received
    = if 32 < s.widthRead.toNat then none else some ⟨rxPNo s.cfg.codes s.latched, s.widthLatched.payloadRead s.widthRead⟩ := by
  by_cases hover : 32 < s.widthRead.toNat <;> simp [State.received, hflag, hover]

theorem received_of_no_flag (hflag : ¬ flagSet s.cfg.codes.mRxDr s.latched = true) : s.received = none :=
  if_neg fun h => hflag h.1

/-- Step 2, for any peer. -/
theorem rxServed_progress (s : State) :
    ∃ evs, Progress s s.rxServed evs (rxUpdate s) ∧ PollRx s.cfg.codes s.latched s.widthRead evs s.received := by
  by_cases hflag : flagSet s.cfg.codes.mRxDr s.latched = true
  · obtain ⟨st, hwidth⟩ := widthLatched_progress s
    have hcfg := widthLatched_cfg s
    have hend := Progress.flagsCleared s.cfg.codes.mRxDr (s.widthLatched.payloadServed s.widthRead)
    simp only [State.rxServed, PollRx, hflag, if_true, received_of_flag hflag]
    by_cases hover : 32 < s.widthRead.toNat
    · obtain ⟨e2, hflush, hcommand⟩ := Progress.commanded (·.opcFlushRx) s.widthLatched
      rw [State.payloadServed, if_pos ((detRxOversize_iff _).2 hover)] at hend ⊢
      obtain ⟨e3, hback, hwrite⟩ := hend
      rw [hflush.ran.cfg, hcfg] at hwrite
      rw [hcfg] at hcommand
      have hall := hwidth.trans (hflush.trans hback)
      refine ⟨_, hall.congr ?_, st, e2, e3, rfl, hwrite, ?_⟩
      · simp only [rxUpdate, hflag, received_of_flag hflag, hover, if_true]
        rfl
      · simp only [gt_iff_lt, hover, if_true]
        exact ⟨hcommand, trivial⟩
    · obtain ⟨st2, htaken⟩ := payloadTaken_progress s.widthRead s.widthLatched
      rw [State.payloadServed, if_neg (mt (detRxOversize_iff _).1 hover)] at hend ⊢
      obtain ⟨e3, hback, hwrite⟩ := hend
      rw [htaken.ran.cfg, hcfg] at hwrite
      rw [hcfg, widthLatched_pLat] at htaken
      have hall := hwidth.trans (htaken.trans hback)
      refine ⟨_, hall.congr ?_, st, _, e3, rfl, hwrite, ?_⟩
      · simp only [rxUpdate, hflag, received_of_flag hflag, hover, if_true, if_false]
        rfl
      · simp only [gt_iff_lt, hover, if_false]
        refine ⟨st2, _, ?_, rfl, rfl⟩
        rw [State.payloadRead, reply_tail_length, List.length_replicate]
  · simp only [State.rxServed, PollRx, hflag, received_of_no_flag hflag]
    refine ⟨[], (Progress.refl s).congr ?_, rfl, trivial⟩
    simp only [rxUpdate, hflag, received_of_no_flag hflag]
    rfl

end

/-! ### Steps 3 and 4 (R234, R235) -/

/-- The state after a callback that returns. -/
def State.calledBack (cb : Option Callback) (e : Callback → Event) (s : State) : State :=
  match cb with
  | none => s
  | some f => s.emit (e f)

/-- The state after step 3. -/
def State.txServed (s : State) : State :=
  if flagSet s.cfg.codes.mTxDs s.latched then
    (s.calledBack s.blk.txCb fun f => .cbTx f.fn f.ctx).flagsCleared s.cfg.codes.mTxDs
  else s

/-- The state after step 4. -/
def State.maxRtServed (s : State) : State :=
  if flagSet s.cfg.codes.mMaxRt s.latched then (s.commanded (·.opcFlushTx)).flagsCleared s.cfg.codes.mMaxRt else s

section
variable {s : State}

theorem calledBack_allow (cb : Option Callback) (e : Callback → Event) (s : State) :
    (s.calledBack cb e).env.allow = s.env.allow := by cases cb <;> rfl

theorem calledBack_cfg (cb : Option Callback) (e : Callback → Event) (s : State) : (s.calledBack cb e).cfg = s.cfg := by
  cases cb <;> rfl

/-- A callback is its event where there is a registration, and nothing else (60_exceptions.md R276, R279). -/
theorem calledBack_progress (cb : Option Callback) {e : Callback → Event} (he : ∀ f, isXfer (e f) = false) (s : State) :
    Progress s (s.calledBack cb e) (match cb with | some f => [e f] | none => []) id := by
  cases cb with
  | none => exact .refl s
  | some f => exact .emit s (he f)

theorem pollStep3_returns (h : s.env.allow = none) : pollStep3 s = .ok () s.txServed := by
  rw [pollStep3, get_bind, State.txServed]
  by_cases hflag : flagSet s.cfg.codes.mTxDs s.latched = true
  · simp only [hflag, if_true]
    refine (bind_returns (invokeCallback_returns h _ _)).trans (writeBack_returns ?_ ?_ _)
    · exact (calledBack_allow s.blk.txCb _ s).trans h
    · exact congrArg Config.codes (calledBack_cfg s.blk.txCb _ s)
  · simp only [hflag]
    rfl

theorem pollStep4_returns (h : s.env.allow = none) : pollStep4 s = .ok () s.maxRtServed := by
  rw [pollStep4, get_bind, State.maxRtServed]
  by_cases hflag : flagSet s.cfg.codes.mMaxRt s.latched = true
  · simp only [hflag, if_true]
    refine (bind_returns (command_returns h _)).trans (writeBack_returns ((xacted_allow _ _ _).trans h) ?_ _)
    rw [xacted_cfg]
  · simp only [hflag]
    rfl

/-- Step 3, for any peer. -/
theorem txServed_progress (s : State) :
    ∃ evs, Progress s s.txServed evs id ∧ PollTxSent s.cfg.codes s.latched s.blk.txCb evs := by
  rw [State.txServed]
  by_cases hflag : flagSet s.cfg.codes.mTxDs s.latched = true
  · simp only [PollTxSent, hflag, if_true]
    have hcall := calledBack_progress s.blk.txCb (e := fun f => .cbTx f.fn f.ctx) (fun _ => rfl) s
    obtain ⟨e1, hback, hwrite⟩ := Progress.flagsCleared s.cfg.codes.mTxDs (s.calledBack s.blk.txCb fun f => .cbTx f.fn f.ctx)
    rw [calledBack_cfg] at hwrite
    exact ⟨_, hcall.trans hback, e1, hwrite, rfl⟩
  · simp only [PollTxSent, hflag]
    exact ⟨[], .refl s, rfl⟩

/-- Step 4, for any peer. -/
theorem maxRtServed_progress (s : State) :
    ∃ evs, Progress s s.maxRtServed evs id ∧ PollMaxRt s.cfg.codes s.latched evs := by
  rw [State.maxRtServed]
  by_cases hflag : flagSet s.cfg.codes.mMaxRt s.latched = true
  · simp only [PollMaxRt, hflag, if_true]
    obtain ⟨e1, hflush, hcommand⟩ := Progress.commanded (·.opcFlushTx) s
    obtain ⟨e2, hback, hwrite⟩ := Progress.flagsCleared s.cfg.codes.mMaxRt (s.commanded (·.opcFlushTx))
    rw [hflush.ran.cfg] at hwrite
    exact ⟨_, hflush.trans hback, e1, e2, hcommand, hwrite, rfl⟩
  · simp only [PollMaxRt, hflag]
    exact ⟨[], .refl s, rfl⟩

end

/-! ### Steps 5 and 6 (R236, R237) -/

/-- The state after step 5. -/
def State.delivered (s : State) : State :=
  match s.blk.rxq with
  | [] => s
  | dg :: rest => (s.onBlk fun b => { b with rxq := rest }).calledBack s.blk.rxCb fun f => .cbRx f.fn f.ctx dg

/-- The TX queue after step 6. -/
def State.txqLeft (s : State) : List Datagram := if detTxFifoFull s then s.blk.txq else s.blk.txq.tail

/-- The state after step 6. -/
def State.drained (s : State) : State :=
  match s.blk.txq with
  | [] => s
  | dg :: rest =>
    if detTxFifoFull s then s
    else (s.xacted s.cfg.codes.opcWTxPayload dg.bytes).onBlk fun b => { b with txq := rest }

section
variable {s : State}

theorem pollStep5_returns (h : s.env.allow = none) : pollStep5 s = .ok () s.delivered := by
  rw [pollStep5, get_bind, State.delivered]
  cases s.blk.rxq with
  | nil => rfl
  | cons dg rest =>
    exact (bind_returns (modifyBlk_eq _ _)).trans (invokeCallback_returns (s := s.onBlk _) h s.blk.rxCb _)

theorem pollStep6_returns (h : s.env.allow = none) : pollStep6 s = .ok () s.drained := by
  rw [pollStep6, get_bind, State.drained]
  cases s.blk.txq with
  | nil => rfl
  | cons dg rest =>
    by_cases hfull : detTxFifoFull s = true
    · simp only [hfull]
      rfl
    · simp only [hfull]
      exact bind_returns (xact_returns h _ _)

/-- Step 5, for any peer. -/
theorem delivered_progress (s : State) :
    Progress s s.delivered (deliverEvents s.blk.rxq s.blk.rxCb) fun b => { b with rxq := s.blk.rxq.tail } := by
  rw [State.delivered]
  cases hq : s.blk.rxq with
  | nil => exact (Progress.refl s).congr (congrArg (fun q => { s.blk.core with rxq := q }) hq)
  | cons dg rest =>
    have hpop : Progress s (s.onBlk fun b => { b with rxq := rest }) [] fun b => { b with rxq := rest } :=
      .onBlk s rfl rfl rfl
    have hcall := hpop.trans (calledBack_progress s.blk.rxCb (e := fun f => .cbRx f.fn f.ctx dg) (fun _ => rfl) _)
    cases hcb : s.blk.rxCb with
    | none =>
      rw [hcb] at hcall
      exact hcall
    | some f =>
      rw [hcb] at hcall
      exact hcall

/-- Step 6, for any peer. -/
theorem drained_progress (s : State) : ∃ evs, Progress s s.drained evs (fun b => { b with txq := s.txqLeft })
    ∧ PollDrain s.cfg.codes s.latched s.blk.txq evs s.txqLeft := by
  have stay (hleft : s.blk.txq = s.txqLeft) : Progress s s [] fun b => { b with txq := s.txqLeft } :=
    (Progress.refl s).congr (congrArg (fun q => { s.blk.core with txq := q }) hleft)
  rw [State.drained]
  cases hq : s.blk.txq with
  | nil =>
    have hleft : s.txqLeft = [] := by simp only [State.txqLeft, hq, List.tail_nil, ite_self]
    exact ⟨[], stay (hq.trans hleft.symm), rfl, hleft⟩
  | cons dg rest =>
    by_cases hfull : flagSet s.cfg.codes.mTxFull s.latched = true
    · have hleft : s.txqLeft = s.blk.txq := if_pos hfull
      simp only [detTxFifoFull, PollDrain, hfull, if_true]
      exact ⟨[], stay hleft.symm, rfl, hleft.trans hq⟩
    · have hleft : s.txqLeft = rest := (if_neg hfull).trans (congrArg List.tail hq)
      have hxfer := Progress.xacted s s.cfg.codes.opcWTxPayload dg.bytes
      simp only [detTxFifoFull, PollDrain, hfull, hleft, Bool.false_eq_true, if_false]
      exact ⟨_, hxfer.andUpdate (.onBlk (f := fun b => { b with txq := rest }) _ rfl rfl rfl), trivial, sends_xacted s _ _⟩

end

/-! ### The whole POLL -/

/-- The state after the six steps. -/
def State.polled (s : State) : State := s.statusLatched.rxServed.txServed.maxRtServed.delivered.drained

/-- POLL in a ready block. -/
theorem exec_poll {s : State} (h : s.Ready) : exec .poll s = .next ((s.accept .poll).polled.complete .ok) := by
  have h0 : (s.accept .poll).env.allow = none := h.2
  have h1 := (statusLatched_progress _).ran.allow.trans h0
  obtain ⟨_, p2, -⟩ := rxServed_progress (s.accept .poll).statusLatched
  have h2 := p2.ran.allow.trans h1
  obtain ⟨_, p3, -⟩ := txServed_progress (s.accept .poll).statusLatched.rxServed
  have h3 := p3.ran.allow.trans h2
  obtain ⟨_, p4, -⟩ := maxRtServed_progress (s.accept .poll).statusLatched.rxServed.txServed
  have h4 := p4.ran.allow.trans h3
  have h5 := (delivered_progress _).ran.allow.trans h4
  refine runHost_returns h.1 rfl ?_
  exact (bind_returns (pollStep1_returns h0)).trans <| (bind_returns (pollStep2_returns h1)).trans <|
    (bind_returns (pollStep3_returns h2)).trans <| (bind_returns (pollStep4_returns h3)).trans <|
    (bind_returns (pollStep5_returns h4)).trans <| bind_returns (pollStep6_returns h5)

/-- The status latched stays where an update leaves it. -/
theorem Progress.latched {s t : State} {evs : List Event} {f : Block → Block} (h : Progress s t evs f)
    (hf : (f s.blk.core).pollStatus = s.blk.pollStatus) : t.latched = s.latched := by
  rw [State.latched, h.field Block.pollStatus fun _ => rfl, hf, State.latched]

/-- What POLL writes of the block. -/
abbrev pollUpdate (s : State) (b : Block) : Block :=
  { rxUpdate s.statusLatched b with
    pollStatus := some s.statusRead
    rxq := (queueAfterRx s.cfg.rxqCap b.rxq s.statusLatched.received).tail
    txq := if flagSet s.cfg.codes.mTxFull s.statusRead then b.txq else b.txq.tail }

/-- The six steps, on the status latched in the first. -/
theorem polled_progress (s : State) : ∃ e2 e3 e4 e6,
    Progress s s.polled ([.xfer [s.cfg.codes.opcNop] [s.statusRead]] ++ e2 ++ e3 ++ e4
      ++ deliverEvents (queueAfterRx s.cfg.rxqCap s.blk.rxq s.statusLatched.received) s.blk.rxCb ++ e6) (pollUpdate s)
    ∧ PollRx s.cfg.codes s.statusRead s.statusLatched.widthRead e2 s.statusLatched.received
    ∧ PollTxSent s.cfg.codes s.statusRead s.blk.txCb e3 ∧ PollMaxRt s.cfg.codes s.statusRead e4
    ∧ PollDrain s.cfg.codes s.statusRead s.blk.txq e6 (pollUpdate s s.blk).txq := by
  have h1 := statusLatched_progress s
  have hcfg : s.statusLatched.cfg = s.cfg := h1.ran.cfg
  obtain ⟨e2, h2, hrx⟩ := rxServed_progress s.statusLatched
  obtain ⟨e3, h3, htx⟩ := txServed_progress s.statusLatched.rxServed
  obtain ⟨e4, h4, hmax⟩ := maxRtServed_progress s.statusLatched.rxServed.txServed
  have h5 := delivered_progress s.statusLatched.rxServed.txServed.maxRtServed
  obtain ⟨e6, h6, hdrain⟩ := drained_progress s.statusLatched.rxServed.txServed.maxRtServed.delivered
  have to2 := h1.trans h2
  have to4 := (to2.trans h3).trans h4
  have to5 := to4.trans h5
  have lat2 : s.statusLatched.rxServed.latched = s.statusRead := h2.latched rfl
  have lat3 : s.statusLatched.rxServed.txServed.latched = s.statusRead := (h3.latched rfl).trans lat2
  have lat4 := (h4.latched rfl).trans lat3
  have lat5 := (h5.latched rfl).trans lat4
  have txCb2 := to2.field Block.txCb fun _ => rfl
  have rxCb4 : s.statusLatched.rxServed.txServed.maxRtServed.blk.rxCb = s.blk.rxCb := to4.field Block.rxCb fun _ => rfl
  have rxq4 : s.statusLatched.rxServed.txServed.maxRtServed.blk.rxq
      = queueAfterRx s.cfg.rxqCap s.blk.rxq s.statusLatched.received := by
    rw [← hcfg]
    exact to4.field Block.rxq fun _ => rfl
  have txq5 := to5.field Block.txq fun _ => rfl
  rw [latched_statusLatched, hcfg] at hrx
  rw [lat2, to2.ran.cfg, txCb2] at htx
  rw [lat3, (to2.trans h3).ran.cfg] at hmax
  rw [State.txqLeft, detTxFifoFull, lat5, to5.ran.cfg, txq5] at hdrain h6
  rw [rxq4, rxCb4] at h5
  have hall := (to4.trans h5).trans h6
  refine ⟨e2, e3, e4, e6, hall.congr ?_, hrx, htx, hmax, hdrain⟩
  rfl

/-- Settles O48: the six steps run in order; what they write of the block is read off the update of the whole POLL. -/
theorem pollRunsItsSixSteps : Obligations.PollRunsItsSixSteps := by
  intro s h
  obtain ⟨e2, e3, e4, e6, hall, hrx, htx, hmax, hdrain⟩ := polled_progress (s.accept .poll)
  have field {α : Type} (see : Block → α) (hsee : ∀ b, see b.core = see b) := hall.field see hsee
  have htxq := field Block.txq fun _ => rfl
  have hcfg : (s.accept .poll).statusLatched.cfg = s.cfg := (statusLatched_progress _).ran.cfg
  have hwLat := field Block.wLat fun _ => rfl
  have hpLat := field Block.pLat fun _ => rfl
  simp only [hcfg] at hwLat hpLat
  refine ⟨_, _, _, _, e2, e3, e4, e6, exec_poll h, hall.ran.done, ⟨field Block.mode fun _ => rfl, field Block.ce fun _ => rfl⟩,
    field Block.rxCb fun _ => rfl, field Block.txCb fun _ => rfl, field Block.vTmp fun _ => rfl,
    field Block.pollStatus fun _ => rfl, hwLat, hpLat, field Block.rxq fun _ => rfl, hrx, htx, hmax, ?_, hall.any⟩
  rw [State.complete_blk_txq, htxq]
  exact hdrain

end Sys2Proof.Machine
end

section
/-! POLL with the reference peer and a quiet radio (43_event_loop.md R233 to R237; 60_exceptions.md R272, R275): what each step
does to the peer, and what becomes of a payload that waits. -/

set_option Elab.async false

namespace Sys2Proof.Machine

open Sys2Proof

/-! ### The status byte under the default codes -/

section
variable {c : Config} (hc : c.codes = Codes.standard) (p : Peer)
include hc

/-- The flags and the pipe of the status byte are the peer's (20_memory.md R82). -/
theorem statusByte_fields : flagSet c.codes.mRxDr (statusByte c p) = p.rxDr ∧ flagSet c.codes.mTxDs (statusByte c p) = p.txDs
    ∧ flagSet c.codes.mMaxRt (statusByte c p) = p.maxRt
    ∧ flagSet c.codes.mTxFull (statusByte c p) = decide (p.txf.length = c.fifoDepth)
    ∧ rxPNo c.codes (statusByte c p) = headPipe p.rxf := by
  rw [statusByte, hc]
  generalize p.rxDr = rxDr, p.txDs = txDs, p.maxRt = maxRt, headPipe p.rxf = pipe,
    decide (p.txf.length = c.fifoDepth) = full
  revert rxDr txDs maxRt pipe full
  decide

/-- A write-back of one flag clears it alone (20_memory.md R66). -/
theorem clearFlags_one : clearFlags c.codes c.codes.mRxDr p = { p with rxDr := false }
    ∧ clearFlags c.codes c.codes.mTxDs p = { p with txDs := false }
    ∧ clearFlags c.codes c.codes.mMaxRt p = { p with maxRt := false } := by
  rw [hc]
  simp [clearFlags, flagSet, Codes.standard]

end

/-- The RX FIFO after step 2 has served it: its head read, or all of it flushed. -/
def servedRxf : List RxEntry → List RxEntry
  | [] => []
  | e :: rest => if 32 < e.width.toNat then [] else rest

theorem calledBack_peer (cb : Option Callback) (e : Callback → Event) (s : State) : (s.calledBack cb e).peer = s.peer := by
  cases cb <;> rfl

/-! ### One exchange of the reference peer -/

/-- The default codes, the reference peer, a quiet radio. -/
structure State.QuietReference (s : State) : Prop where
  codes : s.cfg.codes = Codes.standard
  level : s.env.level = .reference
  quiet : s.RadioQuiet

namespace State.QuietReference

variable {s t : State}

theorem keepsContract (h : s.QuietReference) : s.PeerKeepsContract := by
  rw [State.PeerKeepsContract, h.level]
  exact PeerLevel.noConfusion

theorem next {evs : List Event} {f : Block → Block} (h : s.QuietReference) (k : Progress s t evs f) : t.QuietReference :=
  ⟨k.ran.cfg ▸ h.codes, k.ran.level.trans h.level, k.quiet h.quiet⟩

theorem command_peer (h : s.QuietReference) (cmd : WireCmd) (data : List Byte) : (s.xacted (s.cfg.codes.opcodeOf cmd) data).peer
    = (applyCmd .reference s.cfg (2 * s.env.ctr + 1) s.peer (statusByte s.cfg s.peer) cmd data).1 := by
  rw [xacted_command_peer h.keepsContract h.codes, h.level, h.quiet.peerNow]

theorem command_reply (h : s.QuietReference) (cmd : WireCmd) (data : List Byte) : s.reply (s.cfg.codes.opcodeOf cmd) data
    = statusByte s.cfg s.peer :: fitBytes .reference (2 * s.env.ctr + 1) data.length
        (applyCmd .reference s.cfg (2 * s.env.ctr + 1) s.peer (statusByte s.cfg s.peer) cmd data).2 := by
  rw [reply_command h.keepsContract h.codes, h.level, h.quiet.peerNow]

theorem writeBack_peer (h : s.QuietReference) (m : Byte) : (s.flagsCleared m).peer = clearFlags s.cfg.codes m s.peer := by
  rw [flagsCleared_peer m h.keepsContract h.codes, h.quiet.peerNow]

/-! ### Step 1 -/

theorem statusRead_eq (h : s.QuietReference) : s.statusRead = statusByte s.cfg s.peer :=
  congrArg (byteAt · 0) (h.command_reply .nop [])

theorem statusLatched_peer (h : s.QuietReference) : s.statusLatched.peer = s.peer := h.command_peer .nop []

/-! ### Step 2 -/

theorem pipeLatched (h : s.QuietReference) : s.pipeLatched.QuietReference := ⟨h.codes, h.level, h.quiet⟩

theorem widthRead_eq (h : s.QuietReference) : s.widthRead = (headWidth s.peer.rxf).getD 0 0 := by
  have hreply : s.pipeLatched.reply s.cfg.codes.opcRRxPlWid [fill] = _ := h.pipeLatched.command_reply .rRxPlWid [fill]
  rw [State.widthRead, hreply, byteAt, List.tail_cons, List.getD_eq_getElem?_getD, List.length_singleton,
    fitBytes_reference_getElem? _ _ Nat.one_pos]
  rfl

theorem widthLatched_peer (h : s.QuietReference) : s.widthLatched.peer = s.peer := h.pipeLatched.command_peer .rRxPlWid [fill]

theorem widthLatched (h : s.QuietReference) : s.widthLatched.QuietReference :=
  have ⟨_, hprogress⟩ := widthLatched_progress s
  h.next hprogress

/-- The payload read is the head's where its width is the number of its bytes. -/
theorem payloadRead_eq (h : s.QuietReference) (w : Byte) (hlen : (headBytes s.peer.rxf).length = w.toNat) :
    s.payloadRead w = headBytes s.peer.rxf := by
  have hreply : s.reply s.cfg.codes.opcRRxPayload (List.replicate w.toNat fill) = _ := h.command_reply .rRxPayload _
  rw [State.payloadRead, hreply, List.tail_cons, List.length_replicate]
  exact fitBytes_of_length hlen

theorem payloadServed_peer (h : s.QuietReference) (w : Byte) :
    (s.payloadServed w).peer = { s.peer with rxf := if 32 < w.toNat then [] else s.peer.rxf.tail } := by
  rw [State.payloadServed]
  by_cases hover : 32 < w.toNat
  · rw [if_pos ((detRxOversize_iff w).2 hover), if_pos hover]
    exact h.command_peer .flushRx []
  · rw [if_neg (mt (detRxOversize_iff w).1 hover), if_neg hover]
    exact h.command_peer .rRxPayload _

theorem payloadServed (h : s.QuietReference) (w : Byte) : (s.payloadServed w).QuietReference := by
  rw [State.payloadServed]
  split
  · obtain ⟨_, hprogress, -⟩ := Progress.commanded (·.opcFlushRx) s
    exact h.next hprogress
  · obtain ⟨_, hprogress⟩ := payloadTaken_progress w s
    exact h.next hprogress

theorem payloadServed_cfg (w : Byte) (s : State) : (s.payloadServed w).cfg = s.cfg := by
  rw [State.payloadServed]
  split
  · exact xacted_cfg _ _ _
  · exact payloadTaken_cfg w s

theorem rxServed_peer (h : s.QuietReference) (hflag : flagSet s.cfg.codes.mRxDr s.latched = s.peer.rxDr) : s.rxServed.peer
    = { s.peer with rxDr := false, rxf := if s.peer.rxDr then servedRxf s.peer.rxf else s.peer.rxf } := by
  have hserved : (if 32 < ((headWidth s.peer.rxf).getD 0 0).toNat then [] else s.peer.rxf.tail) = servedRxf s.peer.rxf := by
    cases s.peer.rxf <;> rfl
  rw [State.rxServed, hflag]
  by_cases hset : s.peer.rxDr = true
  · rw [if_pos hset, if_pos hset, ← hserved, ← h.widthRead_eq]
    have hpeer := (h.widthLatched.payloadServed s.widthRead).writeBack_peer s.cfg.codes.mRxDr
    rw [hpeer, payloadServed_cfg, widthLatched_cfg, (clearFlags_one h.codes _).1, h.widthLatched.payloadServed_peer,
      h.widthLatched_peer]
  · rw [if_neg hset, if_neg hset, ← Bool.eq_false_iff.2 hset]

/-! ### Steps 3 to 6 -/

theorem calledBack (h : s.QuietReference) (cb : Option Callback) (e : Callback → Event) : (s.calledBack cb e).QuietReference := by
  cases cb with
  | none => exact h
  | some f => exact ⟨h.codes, h.level, h.quiet⟩

theorem txServed_peer (h : s.QuietReference) (hflag : flagSet s.cfg.codes.mTxDs s.latched = s.peer.txDs) :
    s.txServed.peer = { s.peer with txDs := false } := by
  rw [State.txServed, hflag]
  by_cases hset : s.peer.txDs = true
  · rw [if_pos hset]
    have hpeer := (h.calledBack s.blk.txCb fun f => .cbTx f.fn f.ctx).writeBack_peer s.cfg.codes.mTxDs
    rw [hpeer, calledBack_cfg, (clearFlags_one h.codes _).2.1, calledBack_peer]
  · rw [if_neg hset, ← Bool.eq_false_iff.2 hset]

theorem maxRtServed_peer (h : s.QuietReference) (hflag : flagSet s.cfg.codes.mMaxRt s.latched = s.peer.maxRt) : s.maxRtServed.peer
    = { s.peer with maxRt := false, txf := if s.peer.maxRt then [] else s.peer.txf,
                    txReuse := s.peer.txReuse && !s.peer.maxRt } := by
  rw [State.maxRtServed, hflag]
  by_cases hset : s.peer.maxRt = true
  · obtain ⟨_, hprogress, -⟩ := Progress.commanded (·.opcFlushTx) s
    have hflushed : (s.commanded (·.opcFlushTx)).peer = { s.peer with txf := [], txReuse := false } := h.command_peer .flushTx []
    have hpeer := (h.next hprogress).writeBack_peer s.cfg.codes.mMaxRt
    rw [if_pos hset, hpeer, hprogress.ran.cfg, (clearFlags_one h.codes _).2.2, hflushed, hset, Bool.not_true, Bool.and_false,
      if_pos rfl]
  · rw [if_neg hset, Bool.eq_false_iff.2 hset, Bool.not_false, Bool.and_true, if_neg Bool.false_ne_true,
      ← Bool.eq_false_iff.2 hset]

/-- Step 6 finds room where TX_FULL was not latched. -/
theorem drained_peer (h : s.QuietReference) (hroom : detTxFifoFull s = false → s.peer.txf.length < s.cfg.fifoDepth) : s.drained.peer
    = { s.peer with
        txf := s.peer.txf ++ if detTxFifoFull s then [] else s.blk.txq.head?.toList.map fun d => ⟨.plain, d.bytes⟩
        txReuse := s.peer.txReuse && !(!detTxFifoFull s && !s.blk.txq.isEmpty) } := by
  rw [State.drained]
  cases s.blk.txq with
  | nil => simp
  | cons dg rest =>
    cases hfull : detTxFifoFull s with
    | true => simp
    | false =>
      have hpush : (s.xacted s.cfg.codes.opcWTxPayload dg.bytes).peer = _ := h.command_peer .wTxPayload dg.bytes
      rw [applyCmd, pushTxEndingReuse_reference, if_pos (hroom hfull)] at hpush
      simpa using hpush

end State.QuietReference

/-! ### The whole POLL -/

/-- `t` is a state of a POLL from `s` behind step 1: what `s` knows of its world holds, and the status latched is that of the
peer found. -/
structure ServingFrom (s t : State) : Prop where
  world : t.QuietReference
  cfg : t.cfg = s.cfg
  latched : t.latched = statusByte s.cfg s.peer

namespace ServingFrom

variable {s t u : State}

theorem begin (h : s.QuietReference) : ServingFrom s s.statusLatched :=
  ⟨h.next (statusLatched_progress s), (statusLatched_progress s).ran.cfg, h.statusRead_eq⟩

theorem next {evs : List Event} {f : Block → Block} (h : ServingFrom s t) (k : Progress t u evs f)
    (hf : (f t.blk.core).pollStatus = t.blk.pollStatus) : ServingFrom s u :=
  ⟨h.world.next k, k.ran.cfg.trans h.cfg, (k.latched hf).trans h.latched⟩

/-- The flags latched are those of the peer found. -/
theorem flags (h : ServingFrom s t) : flagSet t.cfg.codes.mRxDr t.latched = s.peer.rxDr
    ∧ flagSet t.cfg.codes.mTxDs t.latched = s.peer.txDs ∧ flagSet t.cfg.codes.mMaxRt t.latched = s.peer.maxRt
    ∧ detTxFifoFull t = decide (s.peer.txf.length = s.cfg.fifoDepth) ∧ rxPNo t.cfg.codes t.latched = headPipe s.peer.rxf := by
  rw [detTxFifoFull, h.cfg, h.latched]
  exact statusByte_fields (h.cfg ▸ h.world.codes) s.peer

end ServingFrom

section
variable {s : State}

theorem delivered_peer (s : State) : s.delivered.peer = s.peer := by
  rw [State.delivered]
  split
  · rfl
  · exact calledBack_peer _ _ _

/-- The peer after POLL. -/
theorem polled_peer (h : s.QuietReference) (hdepth : s.peer.txf.length ≤ s.cfg.fifoDepth) : s.polled.peer = {
      mem := s.peer.mem
      rxDr := false
      txDs := false
      maxRt := false
      rxf := if s.peer.rxDr then servedRxf s.peer.rxf else s.peer.rxf
      txf := (if s.peer.maxRt then [] else s.peer.txf)
        ++ if s.peer.txf.length = s.cfg.fifoDepth then [] else s.blk.txq.head?.toList.map fun d => ⟨.plain, d.bytes⟩
      txReuse := (s.peer.txReuse && !s.peer.maxRt)
        && !(decide (s.peer.txf.length ≠ s.cfg.fifoDepth) && !s.blk.txq.isEmpty) } := by
  have k1 : ServingFrom s s.statusLatched := .begin h
  obtain ⟨_, step2, -⟩ := rxServed_progress s.statusLatched
  have k2 := k1.next step2 rfl
  obtain ⟨_, step3, -⟩ := txServed_progress s.statusLatched.rxServed
  have k3 := k2.next step3 rfl
  obtain ⟨_, step4, -⟩ := maxRtServed_progress s.statusLatched.rxServed.txServed
  have k4 := k3.next step4 rfl
  have step5 := delivered_progress s.statusLatched.rxServed.txServed.maxRtServed
  have k5 := k4.next step5 rfl
  have p1 : s.statusLatched.peer = s.peer := h.statusLatched_peer
  have p2 := k1.world.rxServed_peer (by rw [k1.flags.1, p1])
  rw [p1] at p2
  have p3 := k2.world.txServed_peer (by rw [k2.flags.2.1, p2])
  rw [p2] at p3
  have p4 := k3.world.maxRtServed_peer (by rw [k3.flags.2.2.1, p3])
  rw [p3, ← delivered_peer] at p4
  obtain ⟨-, -, -, hfull, -⟩ := k5.flags
  have htxq : s.statusLatched.rxServed.txServed.maxRtServed.delivered.blk.txq = s.blk.txq :=
    ((((statusLatched_progress s).trans step2).trans step3).trans step4 |>.trans step5).field Block.txq fun _ => rfl
  have p6 := k5.world.drained_peer fun hnotFull => by
    rw [hfull, decide_eq_false_iff_not] at hnotFull
    rw [k5.cfg, p4]
    dsimp only
    split
    · exact Nat.pos_of_ne_zero fun h0 => hnotFull (Nat.le_antisymm hdepth (h0 ▸ Nat.zero_le _))
    · exact Nat.lt_of_le_of_ne hdepth hnotFull
  rw [p4, hfull, htxq, ← decide_not] at p6
  simp only [decide_eq_true_eq] at p6
  exact p6

/-- The TX queue after POLL: its head is pushed unless the TX FIFO was full. -/
theorem polled_txq (h : s.QuietReference) :
    s.polled.blk.txq = if s.peer.txf.length = s.cfg.fifoDepth then s.blk.txq else s.blk.txq.tail := by
  obtain ⟨_, _, _, _, hall, -⟩ := polled_progress s
  obtain ⟨-, -, -, hfull, -⟩ := statusByte_fields h.codes s.peer
  rw [hall.field Block.txq fun _ => rfl]
  simp only [h.statusRead_eq, hfull, decide_eq_true_eq, Block.core]

end

/-- Settles O49: the peer after each step gives the peer after all six. -/
theorem pollServesThePeer : Obligations.PollServesThePeer := by
  intro s hready hinv hfaithful hlevel hquiet
  obtain ⟨-, -, -, -, hdepth, -⟩ := hinv
  have h : (s.accept .poll).QuietReference := ⟨hfaithful.1, hlevel, hquiet⟩
  exact ⟨_, exec_poll hready, polled_peer h hdepth, polled_txq h⟩

/-! ### The payload that waits -/

section
variable {s : State} {c : Codes} {st w : Byte} {evs : List Event} {got : Option Datagram} {cb : Option Callback}
  {q q' : List Datagram}

theorem PollRx.noCbRx (h : PollRx c st w evs got) : evs.filter isCbRx = [] := by
  unfold PollRx at h
  split at h
  · obtain ⟨_, e2, e3, rfl, ⟨_, -, rfl⟩, h2⟩ := h
    split at h2
    · obtain ⟨⟨_, rfl⟩, -⟩ := h2
      rfl
    · obtain ⟨_, _, -, rfl, -⟩ := h2
      rfl
  · rw [h.1, List.filter_nil]

theorem PollTxSent.noCbRx (h : PollTxSent c st cb evs) : evs.filter isCbRx = [] := by
  unfold PollTxSent at h
  split at h
  · obtain ⟨_, ⟨_, -, rfl⟩, rfl⟩ := h
    cases cb <;> rfl
  · rw [h, List.filter_nil]

theorem PollMaxRt.noCbRx (h : PollMaxRt c st evs) : evs.filter isCbRx = [] := by
  unfold PollMaxRt at h
  split at h
  · obtain ⟨_, _, ⟨_, rfl⟩, ⟨_, -, rfl⟩, rfl⟩ := h
    rfl
  · rw [h, List.filter_nil]

theorem PollDrain.noCbRx (h : PollDrain c st q evs q') : evs.filter isCbRx = [] := by
  unfold PollDrain at h
  split at h
  · rw [h.1, List.filter_nil]
  · split at h
    · rw [h.1, List.filter_nil]
    · obtain ⟨-, _, -, rfl⟩ := h
      rfl

theorem deliverEvents_cbRx (q : List Datagram) (cb : Option Callback) :
    (deliverEvents q cb).filter isCbRx = deliverEvents q cb := by
  unfold deliverEvents
  split
  · rfl
  · rfl

/-- The RX callbacks of a POLL are those of step 5, for any peer. -/
theorem polled_cbRx (s : State) : ∃ evs, Progress s s.polled evs (pollUpdate s)
    ∧ evs.filter isCbRx = deliverEvents (queueAfterRx s.cfg.rxqCap s.blk.rxq s.statusLatched.received) s.blk.rxCb := by
  obtain ⟨e2, e3, e4, e6, hall, h2, h3, h4, h6⟩ := polled_progress s
  refine ⟨_, hall, ?_⟩
  rw [List.filter_append, List.filter_append, List.filter_append, List.filter_append, List.filter_append,
    PollRx.noCbRx h2, PollTxSent.noCbRx h3, PollMaxRt.noCbRx h4, PollDrain.noCbRx h6, deliverEvents_cbRx, List.append_nil]
  rfl

theorem queueAfterRx_nil {cap : Nat} (hcap : 1 ≤ cap) (got : Option Datagram) : queueAfterRx cap [] got = got.toList := by
  cases got with
  | none => rfl
  | some dg => exact if_pos hcap

/-- What a POLL takes in of a payload that waits with RX_DR set. -/
theorem received_waiting (h : s.QuietReference) {e : RxEntry} {rest : List RxEntry} (hrxDr : s.peer.rxDr = true)
    (hrxf : s.peer.rxf = e :: rest) (hwf : e.Wf) :
    s.statusLatched.received = if 32 < e.width.toNat then none else some ⟨e.pipe, e.bytes⟩ := by
  have k : ServingFrom s s.statusLatched := .begin h
  obtain ⟨hflag, -, -, -, hpipe⟩ := k.flags
  have hpeer : s.statusLatched.peer.rxf = e :: rest := by rw [h.statusLatched_peer, hrxf]
  have hwidth : s.statusLatched.widthRead = e.width := by rw [k.world.widthRead_eq, hpeer]; rfl
  rw [received_of_flag (hflag.trans hrxDr), hwidth, hpipe, hrxf]
  by_cases hover : 32 < e.width.toNat
  · rw [if_pos hover, if_pos hover]
  · have hbytes : s.statusLatched.widthLatched.payloadRead e.width = e.bytes := by
      have hread := k.world.widthLatched.payloadRead_eq e.width
      rw [k.world.widthLatched_peer, hpeer] at hread
      exact hread (hwf.2.trans (Nat.min_eq_left (Nat.not_lt.1 hover)))
    rw [if_neg hover, if_neg hover, hbytes, headPipe]

end

/-- Settles O50: the RX queue is empty when POLL begins, so the datagram step 2 takes in, if any, is the one step 5 delivers. -/
theorem arrivalIsDeliveredOrFlushed : Obligations.ArrivalIsDeliveredOrFlushed := by
  intro s e rest f hready hinv hok hfaithful hlevel hquiet hrxDr hrxf hcb
  obtain ⟨⟨-, -, -, -, -, -, -, hidle⟩, -, -, hrxWf, hdepth, -⟩ := hinv
  have hcap : 1 ≤ (s.accept .poll).cfg.rxqCap := by
    simp only [Config.ok, Bool.and_eq_true, decide_eq_true_eq] at hok
    obtain ⟨⟨-, hcap⟩, -⟩ := hok
    exact hcap
  have h : (s.accept .poll).QuietReference := ⟨hfaithful.1, hlevel, hquiet⟩
  obtain ⟨evs, hall, hevs⟩ := polled_cbRx (s.accept .poll)
  have hrxq := hall.field Block.rxq fun _ => rfl
  have hpeer := polled_peer h hdepth
  have hqueue : queueAfterRx (s.accept .poll).cfg.rxqCap (s.accept .poll).blk.rxq (s.accept .poll).statusLatched.received
      = (if 32 < e.width.toNat then none else some ⟨e.pipe, e.bytes⟩ : Option Datagram).toList := by
    rw [State.accept_blk_rxq, hidle hready.1, queueAfterRx_nil hcap,
      received_waiting h hrxDr hrxf (hrxWf e (hrxf ▸ List.mem_cons_self))]
  rw [hqueue, State.accept_blk_rxCb, hcb] at hevs
  have hrxfAfter := congrArg Peer.rxf hpeer
  refine ⟨_, evs, exec_poll hready, hall.ran.trace, ?_, congrArg Peer.rxDr hpeer, fun hfits => ?_, fun hover => ?_⟩
  · refine (hrxq.trans (congrArg List.tail hqueue)).trans ?_
    split
    · rfl
    · rfl
  · have hle : ¬ 32 < e.width.toNat := Nat.not_lt.2 hfits
    rw [if_neg hle] at hevs
    refine ⟨hevs, hrxfAfter.trans ?_⟩
    simp only [State.accept_peer, hrxDr, hrxf, servedRxf, if_true, if_neg hle]
  · rw [if_pos hover] at hevs
    refine ⟨hevs, hrxfAfter.trans ?_⟩
    simp only [State.accept_peer, hrxDr, hrxf, servedRxf, if_true, if_pos hover]

end Sys2Proof.Machine
end

section
/-! An operation whose calls stop returning (60_exceptions.md R288): the state in which a part halts lies between the one it
starts in and the one it returns in where all calls return, so what it has shown is where the whole begins. -/

set_option Elab.async false

namespace Sys2Proof.Machine

open Sys2Proof

/-! ### Parts that may be cut short -/

/-- `t` is `s` or comes after it in the same operation: the trace has grown, no result is returned, a busy block stays busy. -/
structure Later (s t : State) : Prop where
  trace : s.trace <+: t.trace
  results : t.results = s.results
  busy : s.blk.seq ≠ .idle → t.blk.seq ≠ .idle

namespace Later

theorem refl (s : State) : Later s s := ⟨List.prefix_rfl, rfl, id⟩

theorem trans {s t u : State} (h : Later s t) (g : Later t u) : Later s u :=
  ⟨h.trace.trans g.trace, g.results.trans h.results, g.busy ∘ h.busy⟩

theorem onBlk (s : State) {f : Block → Block} (hseq : (f s.blk).seq = s.blk.seq) : Later s (s.onBlk f) :=
  ⟨List.prefix_rfl, rfl, hseq.symm ▸ id⟩

theorem emit (s : State) (e : Event) : Later s (s.emit e) :=
  ⟨List.prefix_append _ _, rfl, advance_ne_idle⟩

theorem afterXfer (s : State) (tx : List Byte) : Later s (s.afterXfer tx) :=
  have hobs := Observed.afterXfer s tx
  ⟨hobs.trace ▸ List.prefix_append _ _, hobs.results, fun hbusy => by simpa [State.afterXfer] using advance_ne_idle hbusy⟩

theorem to_withAllow {s t : State} (h : Later s t) (n : Option Nat) : Later s (t.withAllow n) :=
  ⟨h.trace, h.results, h.busy⟩

theorem from_withAllow {s t : State} (h : Later s t) (n : Option Nat) : Later (s.withAllow n) t :=
  ⟨h.trace, h.results, h.busy⟩

end Later

/-- How a part ends that starts in `s`, seen from its return with `a` in `v` where all calls return: it returns alike, or it
halts on the way there. -/
inductive CutOf {α : Type} (s : State) (a : α) (v : State) : EStateM.Result Halt State α → Prop
  | whole (n : Option Nat) : CutOf s a v (.ok a (v.withAllow n))
  | halted (e : Halt) {t : State} (hst : Later s t) (htv : Later t v) : CutOf s a v (.error e t)

/-- Where all calls return the part returns too, and with fewer calls it ends as `CutOf` says. -/
def Cuts {α : Type} (m : Op α) : Prop :=
  ∀ s : State, s.env.allow = none →
    ∃ a v, m s = .ok a v ∧ v.env.allow = none ∧ Later s v ∧ ∀ n, CutOf s a v (m (s.withAllow n))

theorem reply_withAllow (op : Byte) (data : List Byte) (n : Option Nat) (s : State) :
    (s.withAllow n).reply op data = s.reply op data :=
  (congrArg Prod.fst (answer_withAllow (op :: data) n s) :)

/-- An exchange that does not return leaves its frame in the buffer. -/
theorem xact_error {op : Byte} {data : List Byte} {s t : State} {e : Halt} (h : xact op data s = .error e t) :
    t = s.fillXbuf (op :: data) := by
  unfold xact at h
  simp only at h
  split at h
  · cases h
    rfl
  · cases h

namespace Cuts

variable {α β : Type}

theorem pure (a : α) : Cuts (pure a : Op α) := fun s hs => ⟨a, s, rfl, hs, .refl s, fun n => .whole n⟩

/-- A part cut short in its second half has its first half behind it. -/
theorem bind {m : Op α} {f : α → Op β} (hm : Cuts m) (hf : ∀ a, Cuts (f a)) : Cuts (m >>= f) := by
  intro s hs
  obtain ⟨a, v, hmv, hv, hsv, hcut⟩ := hm s hs
  obtain ⟨b, w, hfw, hw, hvw, hcut'⟩ := hf a v hv
  refine ⟨b, w, (bind_returns hmv).trans hfw, hw, hsv.trans hvw, fun n => ?_⟩
  have hend := hcut n
  rw [op_bind]
  generalize m (s.withAllow n) = x at hend
  cases hend with
  | whole k =>
    have hend' := hcut' k
    show CutOf s b w (f a (v.withAllow k))
    generalize f a (v.withAllow k) = y at hend'
    cases hend' with
    | whole j => exact .whole j
    | halted e hvt htw => exact .halted e (hsv.trans hvt) htw
  | halted e hst htv => exact .halted e hst (htv.trans hvw)

/-- A part, and then a value made from what it gives. -/
theorem thenPure {m : Op α} {g : α → β} (hm : Cuts m) : Cuts (m >>= fun a => (Pure.pure (g a) : Op β)) :=
  hm.bind fun _ => .pure _

theorem ite {p : Prop} [Decidable p] {m n : Op α} (hm : Cuts m) (hn : Cuts n) : Cuts (if p then m else n) := by
  split
  · exact hm
  · exact hn

theorem getCodes : Cuts getCodes := fun s hs => ⟨_, s, rfl, hs, .refl s, fun n => .whole n⟩

/-- A look at the state, where what follows does not depend on the calls that still return. -/
theorem look {f : State → Op β} (hf : ∀ s, Cuts (f s))
    (hsame : ∀ s n, f (s.withAllow n) = f s := by exact fun _ _ => rfl) : Cuts (get >>= f) := by
  intro s hs
  obtain ⟨a, v, hfv, hv, hsv, hcut⟩ := hf s s hs
  refine ⟨a, v, (get_bind f s).trans hfv, hv, hsv, fun n => ?_⟩
  rw [get_bind, hsame]
  exact hcut n

theorem modifyBlk {f : Block → Block} (hseq : ∀ b, (f b).seq = b.seq := by exact fun _ => rfl) : Cuts (modifyBlk f) :=
  fun s hs => ⟨(), s.onBlk f, rfl, hs, .onBlk s (hseq _), fun n => .whole n⟩

theorem driveCe (level : Bool) : Cuts (driveCe level) :=
  fun s hs => ⟨(), _, rfl, hs, (Later.onBlk s rfl).trans (.emit _ (.ce level)), fun n => .whole n⟩

theorem xact (op : Byte) (data : List Byte) : Cuts (xact op data) := by
  intro s hs
  have hframe : Later s (s.fillXbuf (op :: data)) := .onBlk s rfl
  have hxfer : Later (s.fillXbuf (op :: data)) (s.xacted op data) := .afterXfer _ _
  refine ⟨_, _, xact_returns hs op data, (xacted_allow op data s).trans hs, hframe.trans hxfer, fun n => ?_⟩
  cases hx : Machine.xact op data (s.withAllow n) with
  | ok r t =>
    obtain ⟨rfl, k, rfl⟩ := xact_ok hx
    rw [reply_withAllow, xacted_withAllow]
    exact .whole k
  | error e t =>
    obtain rfl := xact_error hx
    exact .halted e (hframe.to_withAllow n) (hxfer.from_withAllow n)

/-- A call that is an event when made has shown it even where it does not return. -/
theorem callAndWait (e : Event) : Cuts (callAndWait e) := by
  intro s hs
  refine ⟨(), s.emit e, callAndWait_returns hs e, hs, .emit s e, fun n => ?_⟩
  unfold Machine.callAndWait
  simp only
  split
  · exact .halted _ ((Later.emit s e).to_withAllow n) ((Later.refl (s.emit e)).from_withAllow n)
  · next u hu =>
    obtain ⟨k, rfl⟩ := takeCall_eq_withAllow hu
    exact .whole k

theorem delay (us : Nat) : Cuts (delay us) := .callAndWait _

theorem invokeCallback (cb : Option Callback) (e : Callback → Event) : Cuts (invokeCallback cb e) := by
  cases cb with
  | none => exact .pure ()
  | some f => exact .callAndWait (e f)

theorem regRead (a : Reg) (n : Nat) : Cuts (regRead a n) := .bind .getCodes fun _ => .xact _ _

theorem regWrite (a : Reg) (bs : List Byte) : Cuts (regWrite a bs) := .bind .getCodes fun _ => .thenPure (.xact _ _)

theorem regReadByte (a : Reg) : Cuts (regReadByte a) := .thenPure (.regRead a 1)

theorem rmw (a : Reg) (clr ones : Byte) : Cuts (rmw a clr ones) :=
  .bind (.regReadByte a) fun _ => .bind .modifyBlk fun _ => .thenPure (.regWrite _ _)

theorem command (op : Codes → Byte) : Cuts (command op) := .bind .getCodes fun _ => .thenPure (.xact _ _)

theorem setMode (m : Mode) : Cuts (setMode m) := .modifyBlk

theorem getPipeBit (reg : Codes → Reg) (bits : Codes → Vector Byte 6) (p : Pipe) : Cuts (getPipeBit reg bits p) :=
  .ite (.pure _) (.bind .getCodes fun _ => .thenPure (.regReadByte _))

theorem setPipeBit (reg : Codes → Reg) (bits : Codes → Vector Byte 6) (p : Pipe) (e : Bool) :
    Cuts (setPipeBit reg bits p e) :=
  .ite (.pure _) (.bind .getCodes fun _ => .ite (.thenPure (.rmw _ _ _)) (.thenPure (.rmw _ _ _)))

/-! ### The steps of POLL -/

/-- Whether the queue is full does not depend on the calls that still return. -/
theorem appendRx (dg : Datagram) : Cuts (appendRx dg) := by
  intro s hs
  unfold Machine.appendRx
  simp only [show ∀ n, detRxqFull (s.withAllow n) = detRxqFull s from fun _ => rfl]
  split
  · exact ⟨(), s, rfl, hs, .refl s, fun n => .whole n⟩
  · exact ⟨(), _, rfl, hs, .onBlk s rfl, fun n => .whole n⟩

theorem pollStep1 : Cuts pollStep1 := .bind (.command _) fun _ => .modifyBlk

theorem pollStep2 : Cuts pollStep2 := by
  refine .look fun s => .ite (.bind .modifyBlk fun _ => .bind (.xact _ _) fun w => .bind .modifyBlk fun _ => .ite ?_ ?_)
    (.pure _)
  · exact .bind (.command _) fun _ => .thenPure (.regWrite _ _)
  · exact .bind (.xact _ _) fun _ => .look fun _ => .bind (.appendRx _) fun _ => .thenPure (.regWrite _ _)

theorem pollStep3 : Cuts pollStep3 :=
  .look fun _ => .ite (.bind (.invokeCallback _ _) fun _ => .thenPure (.regWrite _ _)) (.pure _)

theorem pollStep4 : Cuts pollStep4 :=
  .look fun _ => .ite (.bind (.command _) fun _ => .thenPure (.regWrite _ _)) (.pure _)

theorem pollStep5 : Cuts pollStep5 := by
  refine .look fun s => ?_
  split
  · exact .pure _
  · exact .bind .modifyBlk fun _ => .invokeCallback _ _

theorem pollStep6 : Cuts pollStep6 := by
  refine .look fun s => ?_
  split
  · exact .pure _
  · exact .ite (.bind (.xact _ _) fun _ => .modifyBlk) (.pure _)

end Cuts

/-! ### Running an operation -/

theorem accept_withAllow (i : Instr) (n : Option Nat) (s : State) : (s.withAllow n).accept i = (s.accept i).withAllow n := rfl

/-- `t`, reached from `s` with fewer calls, shows the whole of `v` with its result, or its beginning and no result. -/
abbrev ShowsPrefix (s t v : State) : Prop :=
  (t.blk.seq = .idle → t.trace = v.trace ∧ t.results = v.results ∧ t.blk = v.blk ∧ t.peer = v.peer)
    ∧ (t.blk.seq ≠ .idle → t.trace <+: v.trace ∧ t.results = s.results)

/-- An operation that completes alike, whatever calls are left. -/
theorem ShowsPrefix.of_withAllow {s v : State} {n : Option Nat} (hv : v.blk.seq = .idle) :
    ShowsPrefix s (v.withAllow n) v :=
  ⟨fun _ => ⟨rfl, rfl, rfl, rfl⟩, fun hbusy => absurd hv hbusy⟩

/-- An operation that halts on the way from its acceptance to `w`, where it would complete. -/
theorem ShowsPrefix.of_halted {s t v w : State} {i : Instr} (hst : Later (s.accept i) t) (htw : Later t w)
    (hv : v.trace = w.trace) : ShowsPrefix s t v :=
  ⟨fun hidle => absurd hidle (hst.busy nofun), fun _ => ⟨hv ▸ htw.trace, hst.results⟩⟩

section
variable {i : Instr} {s t v : State} {n : Option Nat}

/-- Operands are refused alike, and a body that halts does so on its way to its result (30_encoding.md R119). -/
theorem runHost_showsPrefix {body : Op Result} (hbody : Cuts body) (hs : s.env.allow = none)
    (ht : runHost i body (s.withAllow n) = .next t) (hv : runHost i body s = .next v) : ShowsPrefix s t v := by
  obtain ⟨r, w, hw, -, -, hcut⟩ := hbody (s.accept i) hs
  have hend := hcut n
  obtain ⟨hidle, ⟨hwf, rfl⟩ | ⟨hwf, q, u, hu, rfl⟩ | ⟨hwf, e, he⟩⟩ := runHost_cases ht
  · cases (runHost_refuses (s := s) hidle hwf).symm.trans hv
    exact .of_withAllow (v := (s.accept i).complete .fail) rfl
  · cases (runHost_returns (s := s) hidle hwf hw).symm.trans hv
    rw [← accept_withAllow, hu] at hend
    cases hend with
    | whole k => exact .of_withAllow (v := w.complete r) rfl
  · cases (runHost_returns (s := s) hidle hwf hw).symm.trans hv
    rw [← accept_withAllow, he] at hend
    cases hend with
    | halted _ hst htw => exact .of_halted hst htw rfl

/-- A wire command that halts has shown nothing of its one transaction. -/
theorem runWire_showsPrefix {op : Byte} {data : List Byte} (hs : s.env.allow = none)
    (ht : runWire i (xact op data) (s.withAllow n) = .next t) (hv : runWire i (xact op data) s = .next v) :
    ShowsPrefix s t v := by
  obtain ⟨r, w, hw, -, -, hcut⟩ := Cuts.xact op data (s.accept i) hs
  cases (xact_returns (s := s.accept i) hs op data).symm.trans hw
  have hend := hcut n
  obtain ⟨hidle, hwf, ⟨q, u, hu, rfl⟩ | ⟨e, he⟩⟩ := runWire_cases ht
  · cases (runWire_returns (s := s) hidle hs hwf).symm.trans hv
    rw [← accept_withAllow, hu] at hend
    cases hend with
    | whole k => exact .of_withAllow (v := ((s.accept i).xacted op data).finish) rfl
  · cases (runWire_returns (s := s) hidle hs hwf).symm.trans hv
    rw [← accept_withAllow, he] at hend
    cases hend with
    | halted _ hst htw => exact .of_halted hst htw rfl

end

/-! ### Every instruction -/

/-- THE FORM OF `exec`, whatever calls are left: a host operation runs one body that may be cut short; a wire command runs
one transaction. -/
theorem exec_cuts (i : Instr) (s : State) (n : Option Nat) :
    (∃ body, exec i s = runHost i body s ∧ exec i (s.withAllow n) = runHost i body (s.withAllow n) ∧ Cuts body)
      ∨ ∃ op data, exec i s = runWire i (xact op data) s
        ∧ exec i (s.withAllow n) = runWire i (xact op data) (s.withAllow n) := by
  cases i with
  | rRegister | wRegister | rRxPlWid | rRxPayload | wTxPayload | wAckPayload | wTxPayloadNoack | flushTx | flushRx
  | reuseTxPl | nop => exact .inr ⟨_, _, rfl, rfl⟩
  | rpReadRegister => exact .inl ⟨_, rfl, rfl, .thenPure (.regRead _ _)⟩
  | rpWriteRegister => exact .inl ⟨_, rfl, rfl, .thenPure (.regWrite _ _)⟩
  | rpReadPayload | rpWritePayload | rpReadPayloadWidth | rpWriteAckPayload | rpWriteNoackPayload =>
    exact .inl ⟨_, rfl, rfl, .bind .getCodes fun _ => .thenPure (.xact _ _)⟩
  | rpFlushRx | rpFlushTx | rpReuseTxPl | rpNop => exact .inl ⟨_, rfl, rfl, .thenPure (.command _)⟩
  | enterShutdown | enterStandby =>
    exact .inl ⟨_, rfl, rfl, .bind .getCodes fun _ => .bind (.driveCe _) fun _ => .bind (.rmw _ _ _) fun _ =>
      .thenPure (.setMode _)⟩
  | enterRx | enterTx =>
    exact .inl ⟨_, rfl, rfl, .bind .getCodes fun _ => .bind (.rmw _ _ _) fun _ => .bind (.driveCe _) fun _ =>
      .bind (.delay _) fun _ => .thenPure (.setMode _)⟩
  | startListening | stopListening =>
    exact .inl ⟨_, rfl, rfl, .ite (.pure _) (.bind .getCodes fun _ => .bind (.rmw _ _ _) fun _ =>
      .bind (.rmw _ _ _) fun _ => .thenPure (.rmw _ _ _))⟩
  | getCrc | getChannel | getOutputPower | getRetryCount | getRetryDelay =>
    exact .inl ⟨_, rfl, rfl, .bind .getCodes fun _ => .thenPure (.regReadByte _)⟩
  | setCrc | setDataRate | setOutputPower | setRetryCount | setRetryDelay =>
    exact .inl ⟨_, rfl, rfl, .bind .getCodes fun _ => .thenPure (.rmw _ _ _)⟩
  | setChannel => exact .inl ⟨_, rfl, rfl, .ite (.pure _) (.bind .getCodes fun _ => .thenPure (.regWrite _ _))⟩
  | getDataRate =>
    refine .inl ⟨_, rfl, rfl, .bind .getCodes fun c => .bind (.regReadByte _) fun v => ?_⟩
    split
    · exact .pure _
    · exact .pure _
  | getRxBaseAddress => exact .inl ⟨_, rfl, rfl, .ite (.pure _) (.bind .getCodes fun _ => .thenPure (.regRead _ _))⟩
  | setRxBaseAddress =>
    exact .inl ⟨_, rfl, rfl, .ite (.pure _) (.bind .getCodes fun _ => .bind (.regRead _ _) fun _ =>
      .bind .modifyBlk fun _ => .thenPure (.regWrite _ _))⟩
  | getRxAddress =>
    exact .inl ⟨_, rfl, rfl, .ite (.pure _) (.bind .getCodes fun _ => .ite (.thenPure (.regRead _ _))
      (.bind (.regRead _ _) fun _ => .thenPure (.regReadByte _)))⟩
  | setRxAddress =>
    exact .inl ⟨_, rfl, rfl, .ite (.pure _) (.bind .getCodes fun _ => .ite (.thenPure (.regWrite _ _))
      (.thenPure (.regWrite _ _)))⟩
  | getTxAddress => exact .inl ⟨_, rfl, rfl, .bind .getCodes fun _ => .thenPure (.regRead _ _)⟩
  | setTxAddress => exact .inl ⟨_, rfl, rfl, .bind .getCodes fun _ => .thenPure (.regWrite _ _)⟩
  | getDynPayload | getAutoAck | getPipeEnable => exact .inl ⟨_, rfl, rfl, .getPipeBit _ _ _⟩
  | setDynPayload | setAutoAck | setPipeEnable => exact .inl ⟨_, rfl, rfl, .setPipeBit _ _ _ _⟩
  | init =>
    exact .inl ⟨_, rfl, rfl, .bind .getCodes fun _ => .bind (.rmw _ _ _) fun _ => .bind (.regWrite _ _) fun _ =>
      .bind (.command _) fun _ => .thenPure (.command _)⟩
  | poll =>
    exact .inl ⟨_, rfl, rfl, .bind .pollStep1 fun _ => .bind .pollStep2 fun _ => .bind .pollStep3 fun _ =>
      .bind .pollStep4 fun _ => .bind .pollStep5 fun _ => .thenPure .pollStep6⟩
  | enqueueData => exact .inl ⟨_, rfl, rfl, .look fun _ => .ite (.pure _) (.thenPure .modifyBlk)⟩
  | setRxCallback cb => exact .inl ⟨_, (rfl : execSetRxCallback cb s = _), rfl, .thenPure .modifyBlk⟩
  | setTxCallback cb => exact .inl ⟨_, (rfl : execSetTxCallback cb s = _), rfl, .thenPure .modifyBlk⟩

/-- Settles O60: where an operation halts lies on its way to where it completes when all calls return. -/
theorem aCutRunShowsAPrefix : Obligations.ACutRunShowsAPrefix := by
  intro i s t v n hallow ht hv
  have hs : (s.withAllow none).withAllow (some n) = s := by rw [← hallow]; rfl
  rw [← hs] at ht
  obtain ⟨body, hfull, hcut, hbody⟩ | ⟨op, data, hfull, hcut⟩ := exec_cuts i (s.withAllow none) (some n)
  · exact runHost_showsPrefix (s := s.withAllow none) hbody rfl (hcut.symm.trans ht) (hfull.symm.trans hv)
  · exact runWire_showsPrefix (s := s.withAllow none) rfl (hcut.symm.trans ht) (hfull.symm.trans hv)

end Sys2Proof.Machine
end

section
/-! Reset (70_reset_and_hazards.md R300, R301; 10_state.md R56): the step that takes it, in any state with an admissible
configuration. -/

set_option Elab.async false

namespace Sys2Proof.Machine

open Sys2Proof

/-- A Reset presented next is taken whatever the block is doing: unlike a request, it does not ask whether the block is
idle (70_reset_and_hazards.md R300). -/
theorem step_of_reset {s : State} {rest : List Input} (hok : s.cfg.ok = true) (hin : s.inbox = .reset :: rest) :
    step s = .next { s.applyReset with inbox := rest } := by
  simp [step, hok, hin, takeReset]

/-- Settles O1: the step answers the state of `State.applyReset`; its fields are the reset values by the laws of
`State.applyReset`, and its results, none, are a prefix of the earlier ones. -/
theorem resetGivesTheResetValues : Obligations.ResetGivesTheResetValues := by
  intro s rest hok hin
  refine ⟨{ s.applyReset with inbox := rest }, step_of_reset hok hin, ?_⟩
  simp [Block.reset]

end Sys2Proof.Machine
end
